-- ==== Sys2Proof/Word.lean ====
section
/-! DEFINITION. The word types of the K64 (00_scope.md R4, 03_registers.md R66, 13_encoding.md R308). -/
namespace Sys2Proof

/-- An s register, a system register, a counter word: 64 bits. -/
abbrev Word := BitVec 64

/-- One lane of an instruction line: 32 bits (R308). -/
abbrev W32 := BitVec 32

/-- One byte of memory. -/
abbrev Byte := BitVec 8

/-- The 256 bytes of a register-space granule (R51), byte 0 in bits 7:0. -/
abbrev GranBits := BitVec 2048

/-- A lane mask register: one bit per lane (R66). -/
abbrev LaneMask := BitVec 4096

/-- A map register (R66, R114). -/
abbrev MapWord := BitVec 512

end Sys2Proof
end

