-- ==== Sys2Proof/Syntax.lean ====
section
/-! DEFINITION. The instructions and events of spec/opcode_table.json, one constructor per row, with the operand
fields of the eight formats (13_encoding.md R322 to R333). A row that is an event carries plain data naming what it
concerns: an operation's id, a context key (core * 4 + context), a unit, a die, a link. -/
namespace Sys2Proof

/-- The four engines of a context in the order C, V, M, Y (R41, R47, R310). -/
inductive Engine where
  | c | v | m | y
  deriving DecidableEq, Repr

/-- Format C3 (R322). -/
structure C3 where
  d : BitVec 6
  a : BitVec 6
  b : BitVec 6
  iss : BitVec 4
  deriving DecidableEq, Repr

/-- Format CI (R323). -/
structure CI where
  d : BitVec 6
  a : BitVec 6
  imm : BitVec 10
  iss : BitVec 4
  deriving DecidableEq, Repr

/-- Format CB (R324). -/
structure CB where
  cond : BitVec 3
  a : BitVec 6
  loff : BitVec 10
  lane : BitVec 3
  iss : BitVec 4
  deriving DecidableEq, Repr

/-- The literal of format CL: one word when L64 = 0, two when L64 = 1 (R325). -/
inductive Lit where
  | w32 (w : W32)
  | w64 (w : Word)
  deriving DecidableEq, Repr

/-- Format CL (R325). -/
structure CL where
  d : BitVec 6
  lit : Lit
  iss : BitVec 4
  deriving DecidableEq, Repr

/-- Format CM (R326). -/
structure CM where
  d : BitVec 6
  base : BitVec 6
  cls : BitVec 4
  order : BitVec 2
  off : BitVec 20
  size : BitVec 2
  sx : Bool
  scope : BitVec 3
  e : BitVec 6
  iss : BitVec 4
  deriving DecidableEq, Repr

/-- A vector operand code with its literal (R328, R330). A field that holds no operand code (the tag of VLD and VLDX,
the mask number of VCMP) is `row` with the code. -/
inductive VOp where
  | row (n : BitVec 8)
  | port (p : BitVec 4)
  | breg (b : BitVec 4)
  | zero
  | lit32 (w : W32)
  | lit64 (w : Word)
  deriving DecidableEq, Repr

/-- Format VX (R327). -/
structure VX where
  d : VOp
  a : VOp
  b : VOp
  c : VOp
  syd : BitVec 2
  sya : BitVec 2
  syb : BitVec 2
  syc : BitVec 2
  mask : BitVec 4
  rnd : BitVec 3
  sat : Bool
  iss : BitVec 4
  deriving DecidableEq, Repr

/-- Format M (R331). -/
structure MF where
  fa : BitVec 5
  fc : BitVec 4
  fb : BitVec 5
  lu : Bool
  pa : Bool
  sa : BitVec 2
  mf : BitVec 4
  iss : BitVec 4
  deriving DecidableEq, Repr

/-- The token word (R333). -/
structure Tok where
  make : BitVec 5
  aft0 : BitVec 5
  aft1 : BitVec 5
  aft2 : BitVec 5
  cls : BitVec 4
  scope : BitVec 3
  tf : BitVec 5
  deriving DecidableEq, Repr

/-- The operand word of format Y (R332). -/
structure YF where
  so1 : BitVec 6
  so2 : BitVec 6
  so3 : BitVec 6
  iss : BitVec 4
  deriving DecidableEq, Repr

/-- The third word of major COLL: source and destination map registers (R354). -/
structure Maps where
  sma : BitVec 3
  smb : BitVec 3
  deriving DecidableEq, Repr

/-- The third word of XATOM (R354). -/
structure At where
  aop : BitVec 4
  size : BitVec 2
  deriving DecidableEq, Repr

/-- BKPT of an engine with its continuation count (R355). -/
structure BK where
  eng : Engine
  cnt : BitVec 3
  iss : BitVec 4
  deriving DecidableEq, Repr

/-- The debug modes (R305). -/
inductive DebugMode where
  | locked | userDebug | vendorDebug
  deriving DecidableEq, Repr

/-- A part that the management firmware takes out of service (R304). -/
inductive ServicePart where
  | die (d : Nat)
  | stack (d stack : Nat)
  | channel (d ch : Nat)
  | link (l : Nat)
  deriving DecidableEq, Repr

/-- What a residue error strikes, as TRAPREC word 3 reports it (R250, R613). -/
structure ResidueHit where
  lane : Nat
  gran : Nat
  exp : Nat
  act : Nat
  deriving DecidableEq, Repr

/-- The rows of spec/opcode_table.json. -/
inductive Instr where
  /-- NOP, R492: Control-engine instruction that changes no state other than issue selection. -/
  | nop (f : C3)
  /-- RET, R507: Returns to the code pointer in s63 at nonzero call depth; at depth zero it joins the other engines, unbinds the ports and enters Completing. -/
  | ret (f : C3)
  /-- RDV, R500: Control-stream rendezvous: waits until V, M and Y are all joined, then retires. -/
  | rdv (f : C3)
  /-- FORK, R423: Captures the view set and starts the V, M and Y engines at the code pointers held in three s registers. -/
  | fork (f : C3)
  /-- ADD, R362: Register-form 64-bit wrapping addition, latency 1. -/
  | add (f : C3)
  /-- SUB, R362: Register-form 64-bit wrapping subtraction, latency 1. -/
  | sub (f : C3)
  /-- AND, R362: Register-form bitwise AND. -/
  | and (f : C3)
  /-- OR, R362: Register-form bitwise OR. -/
  | or (f : C3)
  /-- XOR, R362: Register-form bitwise XOR. -/
  | xor (f : C3)
  /-- SHL, R362: Register-form logical shift left by the low 8 bits of the amount. -/
  | shl (f : C3)
  /-- SHR, R362: Register-form logical shift right. -/
  | shr (f : C3)
  /-- SAR, R362: Register-form arithmetic shift right. -/
  | sar (f : C3)
  /-- ROL, R362: Register-form rotate left by k mod 64. -/
  | rol (f : C3)
  /-- MUL, R362: Register-form wrapping multiply, latency 4. -/
  | mul (f : C3)
  /-- MULH, R362: High 64 bits of the signed product, latency 4. -/
  | mulh (f : C3)
  /-- MULH_U, R362: High 64 bits of the unsigned product, latency 4. -/
  | mulhU (f : C3)
  /-- DIV, R362: Signed division truncating toward zero, latency 20; division by zero sets DZ or traps. -/
  | div (f : C3)
  /-- DIV_U, R362: Unsigned division, latency 20. -/
  | divU (f : C3)
  /-- REM, R362: Signed remainder, latency 20. -/
  | rem (f : C3)
  /-- REM_U, R362: Unsigned remainder, latency 20. -/
  | remU (f : C3)
  /-- MIN, R463: Writes the signed minimum of two s registers. -/
  | min (f : C3)
  /-- MIN_U, R463: Writes the unsigned minimum of two s registers. -/
  | minU (f : C3)
  /-- MAX, R463: Writes the signed maximum of two s registers. -/
  | max (f : C3)
  /-- MAX_U, R463: Writes the unsigned maximum of two s registers. -/
  | maxU (f : C3)
  /-- CLZ, R397: Counts leading zero bits of a 64-bit value. -/
  | clz (f : C3)
  /-- CTZ, R397: Counts trailing zero bits of a 64-bit value. -/
  | ctz (f : C3)
  /-- POPC, R397: Counts the one bits of a 64-bit value. -/
  | popc (f : C3)
  /-- SEL, R511: Writes s[A] when s[D] is nonzero, else s[B]. -/
  | sel (f : C3)
  /-- CMP_EQ, R399: Writes 1 when the two registers are equal. -/
  | cmpEq (f : C3)
  /-- CMP_NE, R399: Writes 1 when the two registers differ. -/
  | cmpNe (f : C3)
  /-- CMP_LT, R399: Writes 1 when s[A] is less than s[B], signed. -/
  | cmpLt (f : C3)
  /-- CMP_GE, R399: Writes 1 when s[A] is greater than or equal to s[B], signed. -/
  | cmpGe (f : C3)
  /-- CMP_LTU, R399: Writes 1 when s[A] is less than s[B], unsigned. -/
  | cmpLtu (f : C3)
  /-- CMP_GEU, R399: Writes 1 when s[A] is greater than or equal to s[B], unsigned. -/
  | cmpGeu (f : C3)
  /-- JMP, R434: Moves the control cursor to the code pointer in s[A]. -/
  | jmp (f : C3)
  /-- MOV, R482: Register-to-register move. -/
  | mov (f : C3)
  /-- BR, R386: Unconditional branch to a (line, lane) target. -/
  | br (f : CB)
  /-- BRC, R386: Branch taken when the condition on s[A] holds. -/
  | brc (f : CB)
  /-- CALL, R386: Writes the return code pointer to s63, increments the call depth in unit mode, and branches. -/
  | call (f : CB)
  /-- LOOP, R453: Decrements the counter register and branches while the new value is nonzero. -/
  | loop (f : CB)
  /-- TWAIT, R537: Waits until up to three tokens are complete and acquires their writes. -/
  | twait (f : C3)
  /-- TPROM, R533: Writes the promise cycle of a token. -/
  | tprom (f : C3)
  /-- SLEEP, R513: Waits until CYCLE reaches the value in s[A]. -/
  | sleep (f : C3)
  /-- ISYNC, R432: Makes every cursor of the context refetch the lines it enters. -/
  | isync (f : C3)
  /-- ERET, R416: Leaves handler mode and resumes the context's engines, running a displaced word where one is held. -/
  | eret (f : C3)
  /-- LAUNCH, R439: Reads a launch record and creates a launch in the open graph, returning its handle. -/
  | launch (f : C3)
  /-- EDGE_ONE, R412: Records one-to-one dependence edges between two launches. -/
  | edgeOne (f : C3)
  /-- EDGE_ALL, R412: Records all-to-all dependence edges between two launches. -/
  | edgeAll (f : C3)
  /-- EDGE_TREE, R412: Records tree edges, unit j depending on source units 2j and 2j + 1. -/
  | edgeTree (f : C3)
  /-- EDGE_STENCIL, R412: Records stencil edges of half-width h. -/
  | edgeStencil (f : C3)
  /-- GSEAL, R427: Seals the open graph and returns its handle. -/
  | gseal (f : C3)
  /-- GSEAL_PH, R427: Seals the open graph and also closes the open phase. -/
  | gsealPh (f : C3)
  /-- CANCEL, R390: Cancels the launch, graph, phase or job named by a handle. -/
  | cancel (f : C3)
  /-- CANCEL_OWN, R390: Cancels the issuing unit's own object at the level that the level code selects. -/
  | cancelOwn (f : C3)
  /-- SPAWN, R517: LAUNCH with an argument pointer taken from s[B] in place of the record's ARGS. -/
  | spawn (f : C3)
  /-- CTRWAIT, R402: Reads, or waits on, a completion counter and returns its word. -/
  | ctrwait (f : C3)
  /-- BARI, R375: Initialises a barrier object or enrols the unit in it, optionally making its first arrival. -/
  | bari (f : C3)
  /-- BARA, R375: Makes one owed barrier arrival. -/
  | bara (f : C3)
  /-- BARW, R376: Waits for the unit's barrier generation to end and returns its outcome. -/
  | barw (f : C3)
  /-- CCVT, R394: Converts cluster cache way groups to scratchpad or back, producing a CLUS token. -/
  | ccvt (f : C3)
  /-- ICBC, R430: Invalidates instruction-cache lines of a range on every core of the job. -/
  | icbc (f : C3)
  /-- LRULE, R455: Loads masked Lantern rule entries into its core's rule table. -/
  | lrule (f : C3)
  /-- NSET, R494: Loads a 256-byte nest-table record into one shadow. -/
  | nset (f : C3)
  /-- PBIND, R496: Binds a stream port from a 128-byte binding record. -/
  | pbind (f : C3)
  /-- PUNB, R498: Unbinds a port, discarding source rows or waiting for sink rows to be accepted. -/
  | punb (f : C3)
  /-- SMAP, R515: Loads a map register from a map word and a split-point pointer. -/
  | smap (f : C3)
  /-- TDLD, R530: Reads a descriptor or block-table field by selector. -/
  | tdld (f : C3)
  /-- TDSET, R530: Writes a descriptor or block-table field and invalidates every cached snapshot of the job. -/
  | tdset (f : C3)
  /-- VSET, R571: Writes a tile, accumulator or vector-type view from a descriptor. -/
  | vset (f : C3)
  /-- ADD_I, R362: Addition of a sign-extended 10-bit immediate. -/
  | addI (f : CI)
  /-- AND_I, R362: AND with a zero-extended immediate. -/
  | andI (f : CI)
  /-- OR_I, R362: OR with a zero-extended immediate. -/
  | orI (f : CI)
  /-- XOR_I, R362: XOR with a zero-extended immediate. -/
  | xorI (f : CI)
  /-- SHL_I, R362: Shift left by an immediate amount. -/
  | shlI (f : CI)
  /-- SHR_I, R362: Logical shift right by an immediate amount. -/
  | shrI (f : CI)
  /-- SAR_I, R362: Arithmetic shift right by an immediate amount. -/
  | sarI (f : CI)
  /-- ROL_I, R362: Rotate left by an immediate amount. -/
  | rolI (f : CI)
  /-- MUL_I, R362: Multiply by a sign-extended immediate, latency 4. -/
  | mulI (f : CI)
  /-- MOV_I, R482: Moves a sign-extended 10-bit immediate into a register. -/
  | movI (f : CI)
  /-- TRAP, R535: Raises the TRAP trap with SUB 0, reporting its immediate in DETAILA. -/
  | trap (f : CI)
  /-- SYSR, R526: Reads a system register by number into an s register. -/
  | sysr (f : CI)
  /-- SYSW, R526: Writes a system register that has no step of its own, storing only non-reserved fields. -/
  | sysw (f : CI)
  /-- MOV_L, R482: Moves a 32-bit sign-extended or 64-bit literal into a register. -/
  | movL (f : CL)
  /-- FENCE, R203: Acquire, release or both-way fence over a class mask at a scope; the control engine waits until it completes. -/
  | fence (f : CL)
  /-- KCHK, R436: Waits for MKAT and compares KSIG with the literal, raising MCHECK on a mismatch. -/
  | kchk (f : CL)
  /-- LD, R445: Loads 1 to 8 bytes from memory into an s register. -/
  | ld (f : CM)
  /-- ST, R520: Stores the low bytes of an s register to memory. -/
  | st (f : CM)
  /-- ATOM_ADD, R366: Atomic add at a memory location, returning the old value. -/
  | atomAdd (f : CM)
  /-- ATOM_AND, R366: Atomic AND, returning the old value. -/
  | atomAnd (f : CM)
  /-- ATOM_OR, R366: Atomic OR, returning the old value. -/
  | atomOr (f : CM)
  /-- ATOM_XOR, R366: Atomic XOR, returning the old value. -/
  | atomXor (f : CM)
  /-- ATOM_MIN, R366: Atomic signed minimum, returning the old value. -/
  | atomMin (f : CM)
  /-- ATOM_MAX, R366: Atomic signed maximum, returning the old value. -/
  | atomMax (f : CM)
  /-- ATOM_MINU, R366: Atomic unsigned minimum, returning the old value. -/
  | atomMinu (f : CM)
  /-- ATOM_MAXU, R366: Atomic unsigned maximum, returning the old value. -/
  | atomMaxu (f : CM)
  /-- ATOM_SWAP, R366: Atomic swap, returning the old value. -/
  | atomSwap (f : CM)
  /-- ATOM_CAS, R366: Atomic compare-and-swap against the expected value in sD. -/
  | atomCas (f : CM)
  /-- LDC, R450: Loads through the constant path in class 15, returning a value from the window of R217. -/
  | ldc (f : CM)
  /-- BKPT, R382: Raises BKPT with SUB 0 in its engine, skipping its CNT continuation lanes. -/
  | bkpt (f : BK)
  /-- V_RDV, R500: Vector-stream rendezvous: the vector engine becomes Joined. -/
  | vRdv (f : VX)
  /-- VADD, R548: Lane-wise addition under VT, mask and rounding. -/
  | vadd (f : VX)
  /-- VSUB, R548: Lane-wise subtraction. -/
  | vsub (f : VX)
  /-- VMUL, R548: Lane-wise multiplication. -/
  | vmul (f : VX)
  /-- VFMA, R548: Lane-wise fused multiply-add, rounded once. -/
  | vfma (f : VX)
  /-- VMIN, R548: Lane-wise minimum. -/
  | vmin (f : VX)
  /-- VMAX, R548: Lane-wise maximum. -/
  | vmax (f : VX)
  /-- VDIV, R548: Lane-wise division. -/
  | vdiv (f : VX)
  /-- VABS, R548: Lane-wise absolute value. -/
  | vabs (f : VX)
  /-- VNEG, R548: Lane-wise negation. -/
  | vneg (f : VX)
  /-- VSQRT, R548: Lane-wise square root. -/
  | vsqrt (f : VX)
  /-- VRCP, R548: Lane-wise reciprocal. -/
  | vrcp (f : VX)
  /-- VRSQ, R548: Lane-wise reciprocal square root. -/
  | vrsq (f : VX)
  /-- VEXP2, R548: Lane-wise power of two. -/
  | vexp2 (f : VX)
  /-- VLOG2, R548: Lane-wise base-2 logarithm. -/
  | vlog2 (f : VX)
  /-- VSCL, R548: Lane-wise multiplication by 2 to the power n. -/
  | vscl (f : VX)
  /-- VAND, R552: Lane-wise bitwise AND. -/
  | vand (f : VX)
  /-- VOR, R552: Lane-wise bitwise OR. -/
  | vor (f : VX)
  /-- VXOR, R552: Lane-wise bitwise XOR. -/
  | vxor (f : VX)
  /-- VNOT, R552: Lane-wise bitwise NOT. -/
  | vnot (f : VX)
  /-- VSHL, R552: Lane-wise shift left. -/
  | vshl (f : VX)
  /-- VSHR, R552: Lane-wise logical shift right. -/
  | vshr (f : VX)
  /-- VSAR, R552: Lane-wise arithmetic shift right. -/
  | vsar (f : VX)
  /-- VROL, R552: Lane-wise rotate left. -/
  | vrol (f : VX)
  /-- VMOV, R567: Raw row move of the enabled lanes, copying granule tags. -/
  | vmov (f : VX)
  /-- VSEL, R567: Raw lane select between two sources by mask. -/
  | vsel (f : VX)
  /-- VCMP_EQ, R556: Lane compare for equality into a mask register. -/
  | vcmpEq (f : VX)
  /-- VCMP_NE, R556: Lane compare for inequality into a mask register. -/
  | vcmpNe (f : VX)
  /-- VCMP_LT, R556: Lane compare less-than into a mask register. -/
  | vcmpLt (f : VX)
  /-- VCMP_LE, R556: Lane compare less-or-equal into a mask register. -/
  | vcmpLe (f : VX)
  /-- VCMP_GT, R556: Lane compare greater-than into a mask register. -/
  | vcmpGt (f : VX)
  /-- VCMP_GE, R556: Lane compare greater-or-equal into a mask register. -/
  | vcmpGe (f : VX)
  /-- VBC, R554: Broadcasts one source lane to every enabled lane. -/
  | vbc (f : VX)
  /-- VEXT, R554: Extracts one lane into a b register. -/
  | vext (f : VX)
  /-- VINS, R554: Inserts a b register into one lane. -/
  | vins (f : VX)
  /-- VSLIDE, R554: Slides lanes by a signed amount, filling lanes shifted in from outside the row. -/
  | vslide (f : VX)
  /-- VRED_ADD, R569: Sums the enabled lanes into a b register with one rounding. -/
  | vredAdd (f : VX)
  /-- VRED_MIN, R569: Minimum over the enabled lanes into a b register. -/
  | vredMin (f : VX)
  /-- VRED_MAX, R569: Maximum over the enabled lanes into a b register. -/
  | vredMax (f : VX)
  /-- VCVT, R558: Converts lanes from the source tag type to the VT type. -/
  | vcvt (f : VX)
  /-- VQNT, R560: Quantises 1,024 FP32 lanes to OB8 codes and side entries. -/
  | vqnt (f : VX)
  /-- VDQNT, R560: Dequantises 1,024 OB8 codes to FP32 using a side row. -/
  | vdqnt (f : VX)
  /-- VLD, R562: Loads one 4 KiB row from memory as a long-latency producer. -/
  | vld (f : VX)
  /-- VST, R562: Stores one 4 KiB row to memory. -/
  | vst (f : VX)
  /-- VLDX, R563: Gathers elements from memory by an index row. -/
  | vldx (f : VX)
  /-- VSTX, R563: Scatters elements to memory by an index row. -/
  | vstx (f : VX)
  /-- M_RDV, R500: Matrix-stream rendezvous: the matrix engine becomes Joined; a Lantern flush point. -/
  | mRdv (f : MF)
  /-- MMA, R475: Reduces one K-block of A times resident B into the accumulator with one rounding per element. -/
  | mma (f : MF)
  /-- MNEST, R480: Starts a loop nest of MMA steps from a nest-table shadow. -/
  | mnest (f : MF) (t : Tok)
  /-- MNEST_STEP, R480: One step of a running nest: an optional piece-counter wait, a B load, an MMA and a write-back at the end of a reduction. -/
  | mnestStep
  /-- MBLD, R465: Loads a B tile into the macros as a residency, optionally checked as a routing matrix. -/
  | mbld (f : MF) (t : Tok)
  /-- MWB, R488: Register-form write-back of accumulator rows into a tile, rounded into its type. -/
  | mwb (f : MF)
  /-- MWB_MEM, R488: Memory-form write-back of accumulator rows to an address, producing a token. -/
  | mwbMem (f : MF) (t : Tok)
  /-- MSCL, R484: Scales the accumulator by a power of two given as an exponent. -/
  | mscl (f : MF)
  /-- MSCL_REG, R484: Scales the accumulator by an FP64 factor held in an s register. -/
  | msclReg (f : MF)
  /-- MTRN, R486: Writes a tile with the transpose of another tile. -/
  | mtrn (f : MF)
  /-- MXMOV, R490: Moves tile columns through the context's routing matrix. -/
  | mxmov (f : MF)
  /-- MZERO, R491: Writes +0 into every accumulator row and marks it full. -/
  | mzero (f : MF)
  /-- MGANG, R469: Joins a gang of the cluster and waits until the gang is formed. -/
  | mgang (f : MF)
  /-- MGANG_LEAVE, R470: Leaves the gang, which breaks it for every member. -/
  | mgangLeave (f : MF)
  /-- MKAT, R473: Runs the known-answer tile through the macros in idle bit-plane cycles. -/
  | mkat (f : MF) (t : Tok)
  /-- Y_RDV, R500: Copy-stream rendezvous: the copy engine becomes Joined. -/
  | yRdv (f : YF) (t : Tok)
  /-- YCOPY, R586: Copies bytes between memory and register space, producing a token with a promise. -/
  | ycopy (f : YF) (t : Tok)
  /-- YFILL, R586: Fills a range with a repeated 64-bit pattern. -/
  | yfill (f : YF) (t : Tok)
  /-- YGATH, R587: Gathers elements named by an index list. -/
  | ygath (f : YF) (t : Tok)
  /-- YSCAT, R587: Scatters elements to places named by an index list. -/
  | yscat (f : YF) (t : Tok)
  /-- YPREF, R594: Prefetches a range into the MSC, and optionally the cluster cache. -/
  | ypref (f : YF) (t : Tok)
  /-- YFPR, R590: Writes the CRC-64 fingerprint of a 4 KiB block. -/
  | yfpr (f : YF) (t : Tok)
  /-- YCMP, R590: Compares two 4 KiB blocks byte for byte and writes 1 or 0. -/
  | ycmp (f : YF) (t : Tok)
  /-- DTLD, R407: Loads a decode table into an unreferenced generation of a slot, or stalls while none is free. -/
  | dtld (f : YF) (t : Tok)
  /-- YPIN, R592: Pins an HBM window in the MSC and fills it. -/
  | ypin (f : YF) (t : Tok)
  /-- YUNPIN, R592: Releases the pinned window that starts at its base. -/
  | yunpin (f : YF) (t : Tok)
  /-- RESHARD, R503: Collective redistribution of a tensor to a new sharding map along the Chanter's plan. -/
  | reshard (f : YF) (t : Tok) (x : Maps)
  /-- RSPLAN, R510: Writes the 96-byte plan record that RESHARD would run, locally. -/
  | rsplan (f : YF) (t : Tok) (x : Maps)
  /-- XAG, R576: Explicit all-gather step. -/
  | xag (f : YF) (t : Tok) (x : Maps)
  /-- XRS, R576: Explicit reduce-scatter step with a left-fold reduction. -/
  | xrs (f : YF) (t : Tok) (x : Maps)
  /-- XA2A, R576: Explicit all-to-all step. -/
  | xa2a (f : YF) (t : Tok) (x : Maps)
  /-- XPRM, R576: Explicit axis-exchange permutation step. -/
  | xprm (f : YF) (t : Tok) (x : Maps)
  /-- XHALO, R581: Refreshes every halo of a tensor from the owners. -/
  | xhalo (f : YF) (t : Tok)
  /-- XSTF, R583: Remote store that increments a flag on the target once the data is performed. -/
  | xstf (f : YF) (t : Tok)
  /-- XATOM, R578: Remote atomic operation, optionally a release, with the old value written to a result address. -/
  | xatom (f : YF) (t : Tok) (x : At)
  /-- WRITE_MESHSHAPE, R15: SYSW to MESHSHAPE, checked against the job's mesh limits and refused with MESH. -/
  | writeMeshshape (f : CI)
  /-- WRITE_MESHPOS, R15: SYSW to MESHPOS, refused with MESH when a coordinate reaches its size. -/
  | writeMeshpos (f : CI)
  /-- WRITE_BANKLOSS, R70: SYSW to BANKLOSS clears the selected bank's count and stores SEL. -/
  | writeBankloss (f : CI)
  /-- WRITE_DPHASE, R99: SYSW to DPHASE, taking effect at a vector-engine instruction boundary. -/
  | writeDphase (f : CI)
  /-- WRITE_ARSTAT, R101: SYSW to ARSTAT, applied before same-cycle flag updates are ORed in. -/
  | writeArstat (f : CI)
  /-- WRITE_ORDMASK, R200: SYSW to ORDMASK, taking effect at each engine's boundary. -/
  | writeOrdmask (f : CI)
  /-- WRITE_PROMMISS, R183: SYSW to PROMMISS stores the written value in all fields. -/
  | writePrommiss (f : CI)
  /-- WRITE_TRAPBASE, R247: SYSW to TRAPBASE, refused with TABLE when LINE is nonzero and LANE is 0. -/
  | writeTrapbase (f : CI)
  /-- WRITE_TRAPCTL, R251: SYSW to TRAPCTL sets the single-step bits and the PROMISE trap mask. -/
  | writeTrapctl (f : CI)
  /-- WRITE_RWCTL, R283: SYSW to RWCTL; a Lantern flush point that changes the rewrite limit or enable. -/
  | writeRwctl (f : CI)
  /-- WRITE_RWSUP, R285: SYSW to RWSUP; a Lantern flush point that suppresses grouping. -/
  | writeRwsup (f : CI)
  /-- WRITE_RWLOG, R286: SYSW to RWLOG clears the selected rule's count and stores SEL. -/
  | writeRwlog (f : CI)
  /-- WRITE_INJECT, R256: SYSW to INJECT arms residue-error injection, refused with TABLE on an invalid field. -/
  | writeInject (f : CI)
  /-- WRITE_MCSTAT, R255: SYSW to MCSTAT; writing FENCED = 0 returns the core to service. -/
  | writeMcstat (f : CI)
  /-- WRITE_TRAPREC_WORD1, R250: SYSW to TRAPREC word 1 sets the resume point of ERET. -/
  | writeTraprecWord1 (f : CI)
  /-- WRITE_DISPLACED, R267: SYSW to DISPLACED holds the word that ERET runs in place of a BKPT. -/
  | writeDisplaced (f : CI)
  /-- START, R298: JWCTL START starts the image at JWIMAGE, or resumes a stopped job. -/
  | start
  /-- STOP, R298: JWCTL STOP saves every context and holds the job. -/
  | stop
  /-- ABORT, R298: JWCTL ABORT ends the job, removing or stopping every unit without handlers. -/
  | abort
  /-- JWINVAL, R300: Host write requesting invalidation of a virtual range in every TLB of the job. -/
  | jwinval (v : Word)
  /-- HOST_REGISTER_WRITE, R297: Host write to a job-window register without a step of its own, such as JWIMAGE or JWAPER. -/
  | hostRegisterWrite (off : Nat) (v : Word)
  /-- INVALIDATION_COMPLETE, R300: The firmware finishes a TLB invalidation and JWSTAT.INVB clears. -/
  | invalidationComplete
  /-- IMAGE_CHECK, R299: The management firmware finishes checking and loading the job image, entering RUNNING with the entry launch, or IDLE with ERR. -/
  | imageCheck
  /-- HOST_BAR2_ACCESS, R297: Host access to module physical memory through BAR2 at SYS scope. -/
  | hostBar2Access (write : Bool) (off : Nat) (data : List Byte)
  /-- POWER_ON, R301: Boot from mask ROM that verifies the trusted firmware and each die's management firmware. -/
  | powerOn (trustedOk : Bool) (diesOk : BitVec 64)
  /-- FIRMWARE_REPLACE, R303: Replacement of one die's management firmware after verification. -/
  | firmwareReplace (die : Nat) (image : Nat) (ok : Bool)
  /-- DEBUG_MODE_CHANGE, R305: Signed request that changes the debug mode; vendor-debug erases the attestation key. -/
  | debugModeChange (mode : DebugMode) (signedOk : Bool)
  /-- QUOTE, R302: Host request for a signed attestation quote through the management mailbox. -/
  | quote (nonce : BitVec 256)
  /-- DRAIN, R304: The management firmware takes a die, stack, channel or link out of service. -/
  | drain (part : ServicePart)
  /-- CONTEXT_SAVE, R263: Save of a context to its save area on a drain, stop or core fence. -/
  | contextSave (ctx : Nat) (area : Nat)
  /-- RESUME, R265: Binds a saved unit, restores its save area and applies recorded completions before any engine issues. -/
  | resume (unit : Nat)
  /-- FLIT_RECEIVE, R293: Receipt of a flit on a link, delivered in order per channel, with duplicates discarded by SEQ. -/
  | flitReceive (link : Nat) (header : Word) (payload : BitVec 512)
  /-- BUFFER_BANK_RETIRE, R294: An uncorrectable buffer error retires a receive bank and may change the link's state. -/
  | bufferBankRetire (link : Nat)
  /-- LINK_FAILURE, R296: A link fails; traffic is rerouted, collective flits are lost and a reduced mesh may be reported. -/
  | linkFailure (link : Nat)
  /-- HEARTBEAT, R306: The base-die core's refresh heartbeat carrying OWED arrives at the memory controller. -/
  | heartbeat (die stack : Nat) (owed : Nat)
  /-- HEARTBEAT_MISSED, R307: tREFI passes without a heartbeat; the second miss makes the controller take refresh ownership. -/
  | heartbeatMissed (die stack : Nat)
  /-- ECC_CORRECTION_REPLAY, R182: A corrected ECC error replays an HBM read one rotation later. -/
  | eccCorrectionReplay (op req : Nat)
  /-- FAR_CHAIN_LINK_RETRY, R177: A far-chain link retry moves all four beats of a far request one rotation. -/
  | farChainLinkRetry (op req : Nat)
  /-- FADE_DECREMENT, R172: After 2^20 cc without a hit, a pinned window's fade counter drops by one, releasing the window at zero. -/
  | fadeDecrement (die base : Nat)
  /-- WALK_COMPLETE, R188: A page walk ends, filling the TLBs or parking the faulting requests. -/
  | walkComplete (core page : Nat)
  /-- LINE_FETCH, R311: An instruction line returns to a cursor; a parity failure refetches it once, and a second failure poisons it. -/
  | lineFetch (core : Nat) (ctx : Fin 4) (eng : Engine)
  /-- PROMISE_MISS, R184: A token is still incomplete at the cycle after its promise; PROMMISS counts the miss and PROMISE may be raised. -/
  | promiseMiss (ctx tok : Nat)
  /-- DEADLOCK, R48: The deadlock conditions have held for 2,048 to 4,096 cc, and DEADLOCK is raised in the oldest sync-blocked engine. -/
  | deadlock (ctx : Nat)
  /-- AGE_PROMOTION, R230: A Ready unit whose age reaches 2^20 cc is promoted to priority 7 for placement. -/
  | agePromotion (unit : Nat)
  /-- CANDIDATE_WAIT_EXPIRY, R239: A candidate context's wait reaches 1,024 cc, forcing an engine switch to it. -/
  | candidateWaitExpiry (core : Nat) (eng : Engine) (ctx : Fin 4)
  /-- TRAP_ENTRY, R248: When every engine of the context has stopped, TRAPREC is written and the handler is entered, or the unit ends without one. -/
  | trapEntry (ctx : Nat)
  /-- RESIDUE_ERROR_LOGIC, R253: A residue mismatch in logic is retried once; a second mismatch fences the core and rolls back or traps. -/
  | residueErrorLogic (ctx : Nat) (eng : Engine) (hit : ResidueHit) (persists : Bool)
  /-- RESIDUE_ERROR_STORAGE, R253: A stored residue mismatch rolls back a versioned unit or raises MCHECK SUB 1. -/
  | residueErrorStorage (ctx : Nat) (eng : Engine) (hit : ResidueHit)
  /-- UNCORRECTABLE_ERROR, R258: An uncorrectable memory error or poisoned CXL data raises MCHECK SUB 3 and poisons the line. -/
  | uncorrectableError (addr : Nat)
  /-- VERSION_LOG_DISCARD, R260: When every log-holding versioned unit of the die waits on a full log, the youngest is discarded and re-queued. -/
  | versionLogDiscard (die : Nat)
  /-- LAUNCH_RELEASE, R227: The head launch of a queue is released when its graph is sealed, BAR is met and the previous launch has started. -/
  | launchRelease (queue : Fin 8)
  /-- GRAPH_STATE_EFFECT, R427: A LAUNCH, EDGE, GSEAL or staged commit takes effect at the job's graph state. -/
  | graphStateEffect
  /-- COUNTER_FINAL, R25: A completion counter reaches FINAL, making its object terminal and decrementing its parent's PENDING. -/
  | counterFinal (level : Fin 4) (index : Nat)
  /-- JOB_SEAL, R25: Hardware seals the job counter when no unit is active, cancelling the open graph's launches. -/
  | jobSeal
  /-- UNIT_READY, R29: Every edge into a unit is satisfied and it becomes Ready, or a failed edge cancels it. -/
  | unitReady (unit : Nat)
  /-- PLACEMENT, R232: Placement binds a ready unit to a free context and footprint on a core. -/
  | placement (unit : Nat)
  /-- UNIT_DONE, R37: Completing ends when the unit's asynchronous operations and any versioned commit have finished. -/
  | unitDone (unit : Nat)
  /-- BARRIER_ARRIVAL, R380: An arrival is counted once its masked prior accesses are performed, completing the generation at TOTAL. -/
  | barrierArrival (arrival : Nat)
  /-- MESH_LAUNCH_MATCH, R234: Every die's mesh LAUNCH contribution has arrived and been compared, creating the copies or raising MESH. -/
  | meshLaunchMatch (contribution : Nat)
  /-- COLLECTIVE_MATCH, R133: The matched collective instructions of all participants are compared before any data moves. -/
  | collectiveMatch (op : Nat)
  /-- COLLECTIVE_PIECE, R146: A fabric engine completes a 64 KiB piece of a plan step, advancing the piece counter. -/
  | collectivePiece (op piece : Nat)
  /-- PLAN_COMPLETE, R149: After the last step, rank 0 writes the descriptor and every participant's token completes. -/
  | planComplete (op : Nat)
  /-- RESULT_WRITE, R47: A short-latency result lands in its granules at issue plus its published latency. -/
  | resultWrite (ctx : Nat)
  /-- LONG_LATENCY_COMPLETE, R45: A long-latency producer writes its destination granules and marks them full. -/
  | longLatencyComplete (op : Nat)
  /-- LOAD_RETURN, R446: Load data returns and writes sD, releasing held readers. -/
  | loadReturn (op pick : Nat)
  /-- ATOM_RETURN, R367: The old value of an ATOM returns and is written to sD. -/
  | atomReturn (op : Nat)
  /-- TOKEN_COMPLETE, R573: An asynchronous copy-engine operation completes its token, or completes it faulted. -/
  | tokenComplete (op : Nat)
  /-- DTLD_COMPLETE, R80: A decode table lands and its generation becomes current. -/
  | dtldComplete (op : Nat)
  /-- CCVT_COMPLETE, R167: Way-group conversion finishes and the CLUS token completes. -/
  | ccvtComplete (op : Nat)
  /-- RESIDENCY_LOADED, R461: An MBLD's B tile is written into the macros and its residency is recorded. -/
  | residencyLoaded (op : Nat)
  /-- MKAT_COMPLETE, R473: After 4,096 idle cycles, the signature is written to KSIG and the token completes. -/
  | mkatComplete (op : Nat)
  /-- PIN_FILL_COMPLETE, R171: Every line of a pinned window is resident and YPIN's token completes. -/
  | pinFillComplete (op : Nat)
  /-- FLAG_INCREMENT, R212: The target increments an XSTF flag once the data is performed at its scope. -/
  | flagIncrement (op : Nat)
  /-- ICBC_ACK_COMPLETE, R430: Every core has acknowledged an instruction-cache invalidation and the token completes. -/
  | icbcAckComplete (op : Nat)
  /-- PORT_ROW_READY, R75: A source port's walk and decode chain produce a row ready for a pop. -/
  | portRowReady (ctx : Nat) (port : Fin 16)
  /-- SINK_ROW_ACCEPTED, R76: A pushed sink row is stored along the walk and accepted by memory. -/
  | sinkRowAccepted (ctx : Nat) (port : Fin 16)
  /-- FENCE_COMPLETE, R203: A waiting FENCE's condition is met and it retires. -/
  | fenceComplete (ctx : Nat)
  /-- CTRWAIT_CONDITION, R402: The condition of a waiting CTRWAIT holds at the counter and it retires. -/
  | ctrwaitCondition (ctx : Nat)
  /-- SLEEP_WAKE, R513: CYCLE reaches the wake value and SLEEP retires. -/
  | sleepWake (ctx : Nat)
  /-- LANTERN_DECISION, R272: The Lantern decides the window head, forming a group by the first matching rule or issuing the head alone. -/
  | lanternDecision (ctx : Nat)
  /-- GROUP_ISSUE, R287: A rewritten group issues its replacements, lands its writes together and commits as one. -/
  | groupIssue (ctx : Nat)
  /-- DELIVERED_FAULT, R610: A fault of a joined engine's request is taken at the control engine's next boundary, abandoning a wait. -/
  | deliveredFault (ctx : Nat)
  /-- STORE_PERFORMED, R521: A store that was issued earlier becomes performed at its scope, at its target die where it left the die, and frees its request-table entry. -/
  | storePerformed (op : Nat)
  /-- VERSION_SPILL_COMPLETE, R260: A spill of a staged line to the version log finishes and frees its MSC set. -/
  | versionSpillComplete (die addr : Nat)
  /-- LINK_LANE_LOSS, R294: A link loses lanes but still trains at least half of them, so it keeps its buffer state and runs at reduced bandwidth. -/
  | linkLaneLoss (link lanes : Nat)
  /-- LINK_REINITIALISATION, R295: The management firmware reinitialises a restricted link, which returns to normal state when C is at least 76. -/
  | linkReinitialisation (link : Nat)
  /-- BASE_DIE_REINITIALISATION, R307: The management firmware reinitialises a base die, which hands refresh ownership back from the memory controller. -/
  | baseDieReinitialisation (die stack : Nat)
  /-- KEY_PROVISIONING, R301: Keys are provisioned again at the factory, which returns a degraded security posture to verified. -/
  | keyProvisioning
  deriving DecidableEq, Repr

end Sys2Proof
end

