-- ==== Sys2Proof/WellFormed.lean ====
section
/-! DEFINITION. Which instructions an encoding may hold: the field checks of the DECODE table (13_encoding.md R322 to
R335, 14_opcode_map.md R350 to R356, and the encoding rule of each entry). `reservedCode` gathers SUB 6,
`reservedScope` SUB 3, `badField` SUB 2; an instruction is well formed when it fails none. -/
namespace Sys2Proof

/-- What an operand field of a vector instruction accepts (R329, R352, R546 to R569). -/
inductive VKind where
  | unused    -- 0x00 with sync code 00
  | src       -- row, port, b register, zero or literal
  | rowPort
  | rowOnly
  | bregOnly
  | lane      -- b register or literal: a lane number, an amount, the n of VSCL
  | fill      -- b register, zero or literal
  | addr      -- b register or 64-bit literal
  | maskReg   -- m0 to m15 coded 0x00 to 0x0F
  | tag       -- a tag code (R53)
  deriving DecidableEq, Repr

namespace VOp

/-- A row code lies below 0xC0 (R328). -/
def validRow : VOp → Bool
  | .row n => n.toNat < 192
  | _ => true

def isRow : VOp → Bool
  | .row _ => true
  | _ => false

def isPort : VOp → Bool
  | .port _ => true
  | _ => false

def isBreg : VOp → Bool
  | .breg _ => true
  | _ => false

def isZero : VOp → Bool
  | .zero => true
  | _ => false

def isLit : VOp → Bool
  | .lit32 _ => true
  | .lit64 _ => true
  | _ => false

def isLit64 : VOp → Bool
  | .lit64 _ => true
  | _ => false

end VOp

/-- The field holds a code of an accepted kind, with a sync code only on a row (R329). -/
def VKind.accepts (k : VKind) (o : VOp) (sy : BitVec 2) : Bool :=
  match k with
  | .unused => o == .row 0 && sy == 0
  | .src => o.isRow || sy == 0
  | .rowPort => o.isRow || (o.isPort && sy == 0)
  | .rowOnly => o.isRow
  | .bregOnly => o.isBreg && sy == 0
  | .lane => (o.isBreg || o.isLit) && sy == 0
  | .fill => (o.isBreg || o.isZero || o.isLit) && sy == 0
  | .addr => (o.isBreg || o.isLit64) && sy == 0
  | .maskReg => (match o with | .row n => n.toNat < 16 | _ => false) && sy == 0
  | .tag => sy == 0

/-- The operand fields, RND, SAT and MASK that a vector instruction uses (R352). -/
structure VSpec where
  d : VKind
  a : VKind := .unused
  b : VKind := .unused
  c : VKind := .unused
  rnd : Bool := false
  sat : Bool := false
  mask : Bool := true
  /-- D is read and not written, so a zero or literal code there is one of a kind not accepted (R329, R352). -/
  dRead : Bool := false
  /-- VLDX: tags 0x00, 0x08 and 0x12 are out of place in C (R561). -/
  gather : Bool := false
  deriving DecidableEq, Repr

/-- SUB 6: a reserved tag, or D naming zero or a literal (R329, R352). -/
def VSpec.code6 (s : VSpec) (f : VX) : Bool :=
  !(f.d.validRow && f.a.validRow && f.b.validRow && f.c.validRow)
  || (s.d != .maskReg && !s.dRead && (f.d.isZero || f.d.isLit))
  || (s.c == .tag &&
      match f.c with
      | .row n => 0x12 < n.toNat || (s.gather && (n == 0 || n == 8 || n == 0x12))
      | _ => true)

/-- SUB 2 of a vector instruction (R96, R329, R352). -/
def VSpec.field2 (s : VSpec) (f : VX) : Bool :=
  !(s.d.accepts f.d f.syd && s.a.accepts f.a f.sya && s.b.accepts f.b f.syb && s.c.accepts f.c f.syc)
  || (if s.rnd then 4 < f.rnd.toNat else f.rnd != 0)
  || (!s.sat && f.sat) || (!s.mask && f.mask != 0)

def VSpec.ofArith2 : VSpec := { d := .rowPort, a := .src, b := .src, rnd := true, sat := true }

/-- The row of R352 for a vector instruction. -/
def Instr.vspec : Instr → Option (VSpec × VX)
  | .vRdv f => some ({ d := .unused, mask := false }, f)
  | .vadd f | .vsub f | .vmul f | .vdiv f => some (.ofArith2, f)
  | .vfma f => some ({ VSpec.ofArith2 with c := .src }, f)
  | .vmin f | .vmax f => some ({ d := .rowPort, a := .src, b := .src }, f)
  | .vabs f | .vneg f => some ({ d := .rowPort, a := .src }, f)
  | .vsqrt f | .vrcp f | .vrsq f => some ({ d := .rowPort, a := .src, rnd := true }, f)
  | .vexp2 f | .vlog2 f => some ({ d := .rowPort, a := .src, rnd := true, sat := true }, f)
  | .vscl f => some ({ d := .rowPort, a := .src, b := .lane, rnd := true, sat := true }, f)
  | .vand f | .vor f | .vxor f | .vshl f | .vshr f | .vsar f | .vrol f => some ({ d := .rowPort, a := .src, b := .src }, f)
  | .vnot f => some ({ d := .rowPort, a := .src }, f)
  | .vmov f => some ({ d := .rowPort, a := .src }, f)
  | .vsel f => some ({ d := .rowPort, a := .src, b := .src }, f)
  | .vcmpEq f | .vcmpNe f | .vcmpLt f | .vcmpLe f | .vcmpGt f | .vcmpGe f => some ({ d := .maskReg, a := .src, b := .src }, f)
  | .vbc f => some ({ d := .rowPort, a := .rowPort, b := .lane }, f)
  | .vext f => some ({ d := .bregOnly, a := .rowPort, b := .lane }, f)
  | .vins f => some ({ d := .rowOnly, a := .bregOnly, b := .lane }, f)
  | .vslide f => some ({ d := .rowPort, a := .rowPort, b := .lane, c := .fill }, f)
  | .vredAdd f => some ({ d := .bregOnly, a := .rowPort, rnd := true }, f)
  | .vredMin f | .vredMax f => some ({ d := .bregOnly, a := .rowPort }, f)
  | .vcvt f => some ({ d := .rowPort, a := .rowPort, rnd := true, sat := true }, f)
  | .vqnt f => some ({ d := .rowOnly, a := .rowPort, b := .rowOnly, rnd := true, mask := false }, f)
  | .vdqnt f => some ({ d := .rowPort, a := .rowPort, b := .rowOnly, mask := false }, f)
  | .vld f => some ({ d := .rowOnly, a := .addr, c := .tag, mask := false }, f)
  | .vst f => some ({ d := .rowOnly, a := .addr, mask := false, dRead := true }, f)
  | .vldx f => some ({ d := .rowOnly, a := .addr, b := .rowOnly, c := .tag, gather := true }, f)
  | .vstx f => some ({ d := .rowOnly, a := .addr, b := .rowOnly, dRead := true }, f)
  | _ => none

/-- The scope field of an instruction that has one (R326, R333, R418). -/
def Instr.scopeField : Instr → Option (BitVec 3)
  | .ld f | .st f | .ldc f | .atomAdd f | .atomAnd f | .atomOr f | .atomXor f | .atomMin f | .atomMax f
  | .atomMinu f | .atomMaxu f | .atomSwap f | .atomCas f => some f.scope
  | .fence f => match f.lit with
    | .w32 w => some (w.extractLsb' 18 3)
    | .w64 w => some (w.extractLsb' 18 3)
  | .mnest _ t | .mbld _ t | .mwbMem _ t | .mkat _ t => some t.scope
  | .yRdv _ t | .ycopy _ t | .yfill _ t | .ygath _ t | .yscat _ t | .ypref _ t | .yfpr _ t | .ycmp _ t | .dtld _ t
  | .ypin _ t | .yunpin _ t | .xhalo _ t | .xstf _ t => some t.scope
  | .reshard _ t _ | .rsplan _ t _ | .xag _ t _ | .xrs _ t _ | .xa2a _ t _ | .xprm _ t _ => some t.scope
  | .xatom _ t _ => some t.scope
  | _ => none

/-- SUB 3: scope 6 or 7 (R193). -/
def Instr.reservedScope (i : Instr) : Bool :=
  match i.scopeField with
  | some s => 5 < s.toNat
  | none => false

/-- SUB 6: a reserved operand code or tag (R329, R352, R585). -/
def Instr.reservedCode (i : Instr) : Bool :=
  match i with
  | .ycopy _ t | .yfill _ t | .ygath _ t => 0x12 < t.tf.toNat
  | _ => match i.vspec with
    | some (s, f) => s.code6 f
    | none => false

/-- The system register numbers of R356. -/
def sysregAssigned (n : Nat) : Bool :=
  n ≤ 4 || (8 ≤ n && n ≤ 0x11) || (0x18 ≤ n && n ≤ 0x24) || n == 0x30 || n == 0x31

/-- The register number of SYSR and SYSW: negative or unassigned is SUB 2 (R356). -/
def CI.sysBad (f : CI) : Bool := f.imm.msb || !sysregAssigned f.imm.toNat

/-- SYSW to the register numbered n, which has a row of its own. -/
def CI.writeBad (f : CI) (n : Nat) : Bool := f.d != 0 || f.imm.toNat != n

/-- The numbers whose SYSW is a row of its own in the opcode table. -/
def sysregOwnStep (n : Nat) : Bool :=
  n == 3 || n == 4 || (8 ≤ n && n ≤ 0x11) || n == 0x19 || n == 0x20 || n == 0x21 || n == 0x23

def CM.atomBad (f : CM) : Bool := f.cls == 15 || f.size == 0

def Tok.asyncBad (t : Tok) : Bool := t.cls == 15

/-- MBLD, MNEST and MKAT: CLASS, SCOPE and TF are 0 (R457). -/
def Tok.innerBad (t : Tok) : Bool := t.cls != 0 || t.scope != 0 || t.tf != 0

/-- RESHARD and the explicit collectives: SCOPE is DIE or wider, TF is 0 (R354, R501). -/
def Tok.collBad (t : Tok) : Bool := t.asyncBad || t.scope.toNat < 3 || t.tf != 0

/-- PA = 1 requires FA[4] and SA to be 0 (R331). -/
def MF.portBad (f : MF) : Bool := f.pa && (f.fa.getLsbD 4 || f.sa != 0)

/-- SUB 2: a nonzero reserved or unused field, or another invalid value (R335, R358). -/
def Instr.badField (i : Instr) : Bool :=
  match i with
  | .nop f | .ret f | .rdv f | .isync f | .eret f => f.d != 0 || f.a != 0 || f.b != 0
  | .fork _ => false
  | .add _ | .sub _ | .and _ | .or _ | .xor _ | .shl _ | .shr _ | .sar _ | .rol _ | .mul _ | .mulh _ | .mulhU _
  | .div _ | .divU _ | .rem _ | .remU _ | .min _ | .minU _ | .max _ | .maxU _ | .sel _
  | .cmpEq _ | .cmpNe _ | .cmpLt _ | .cmpGe _ | .cmpLtu _ | .cmpGeu _ => false
  | .clz f | .ctz f | .popc f | .mov f => f.b != 0
  | .jmp f | .sleep f => f.d != 0 || f.b != 0
  | .br f | .call f => f.cond != 0 || f.a != 0 || f.lane == 0
  | .brc f => f.lane == 0
  | .loop f => f.cond != 0 || f.a == 0 || f.lane == 0
  | .twait f => f.d.msb || f.a.msb || f.b.msb
  | .tprom f => f.a.msb || f.b != 0
  | .launch f | .barw f => f.b != 0
  | .edgeOne f | .edgeAll f | .edgeTree f => f.d != 0
  | .edgeStencil f => f.d == 0 || 15 < f.d.toNat
  | .gseal f | .gsealPh f => f.a != 0 || f.b != 0
  | .cancel f => 3 < f.d.toNat || f.b != 0
  | .cancelOwn f => f.d.toNat < 4 || 7 < f.d.toNat || f.a != 0 || f.b != 0
  | .spawn _ | .ctrwait _ | .tdld _ | .tdset _ => false
  | .bari f | .lrule f | .nset f => f.d != 0
  | .bara f => f.d != 0 || f.b != 0
  | .ccvt f => f.d.msb || f.b != 0
  | .icbc f => f.d.msb
  | .pbind f => 15 < f.d.toNat || f.b != 0
  | .punb f => 15 < f.d.toNat || f.a != 0 || f.b != 0
  | .smap f => 7 < f.d.toNat || f.b != 0
  | .vset f => 48 < f.d.toNat || f.b != 0
  | .addI _ | .andI _ | .orI _ | .xorI _ | .shlI _ | .shrI _ | .sarI _ | .rolI _ | .mulI _ => false
  | .movI f => f.a != 0
  | .trap f => f.d != 0 || f.a != 0
  | .sysr f => f.a != 0 || f.sysBad
  | .sysw f => f.d != 0 || f.sysBad || sysregOwnStep f.imm.toNat
  | .writeMeshpos f => f.writeBad 3
  | .writeMeshshape f => f.writeBad 4
  | .writeDphase f => f.writeBad 8
  | .writeArstat f => f.writeBad 9
  | .writeOrdmask f => f.writeBad 0xA
  | .writePrommiss f => f.writeBad 0xB
  | .writeTrapbase f => f.writeBad 0xC
  | .writeTrapctl f => f.writeBad 0xD
  | .writeRwctl f => f.writeBad 0xE
  | .writeRwsup f => f.writeBad 0xF
  | .writeInject f => f.writeBad 0x10
  | .writeDisplaced f => f.writeBad 0x11
  | .writeTraprecWord1 f => f.writeBad 0x19
  | .writeBankloss f => f.writeBad 0x20
  | .writeRwlog f => f.writeBad 0x21
  | .writeMcstat f => f.writeBad 0x23
  | .movL _ => false
  | .fence f => f.d != 0 || (match f.lit with | .w32 w => w.extractLsb' 16 2 == 3 || w.extractLsb' 21 11 != 0 | .w64 _ => true)
  | .kchk f => f.d != 0 || (match f.lit with | .w32 _ => true | .w64 _ => false)
  | .ld f => f.cls == 15 || 1 < f.order.toNat || (f.sx && f.size == 3) || f.e != 0
  | .st f => f.cls == 15 || f.order == 1 || f.order == 3 || f.sx || f.e != 0
  | .ldc f => f.cls != 15 || f.order != 0 || f.scope != 0 || f.e != 0
  | .atomAdd f | .atomAnd f | .atomOr f | .atomXor f | .atomMin f | .atomMax f | .atomMinu f | .atomMaxu f
  | .atomSwap f | .atomCas f => f.atomBad
  | .bkpt _ => false
  | .mRdv f => f.fa != 0 || f.fc != 0 || f.fb != 0 || f.lu || f.pa || f.sa != 0 || f.mf != 0
  | .mma f => f.portBad
  | .mnest f t => f.portBad || f.lu || f.mf.extractLsb' 1 3 != 0 || t.innerBad
  | .mbld f t => f.portBad || (!f.pa && f.fa != 0) || f.fc != 0 || f.lu || f.mf.extractLsb' 1 3 != 0 || t.innerBad
  | .mwb f => f.fa != 0 || f.pa || f.mf.getLsbD 0
  | .mwbMem f t => f.pa || f.sa != 0 || !f.mf.getLsbD 0 || t.asyncBad || t.tf != 0
  | .mscl f => f.pa || f.sa != 0 || f.mf.getLsbD 1 || f.mf.getLsbD 0
  | .msclReg f => f.fb != 0 || f.pa || f.sa != 0 || f.mf.getLsbD 1 || !f.mf.getLsbD 0
  | .mtrn f | .mxmov f => f.fc != 0 || f.pa || f.mf != 0
  | .mzero f => f.fa != 0 || f.fb != 0 || f.pa || f.sa != 0 || f.mf != 0
  | .mgang f => f.fa.getLsbD 4 || f.fc != 0 || f.lu || f.pa || f.sa != 0 || f.mf != 0
  | .mgangLeave f => f.fa != 0 || f.fc != 0 || f.lu || f.pa || f.sa != 0 || f.mf != 1
  | .mkat f t => f.fa != 0 || f.fc != 0 || f.fb != 0 || f.lu || f.pa || f.sa != 0 || f.mf != 0 || t.innerBad
  | .yRdv f t => f.so1 != 0 || f.so2 != 0 || f.so3 != 0 || t != ⟨0, 0, 0, 0, 0, 0, 0⟩
  | .ycopy _ t | .yfill _ t | .ygath _ t => t.asyncBad
  | .yscat _ t | .ycmp _ t | .dtld _ t | .ypin _ t => t.asyncBad || t.tf != 0
  | .ypref f t => t.asyncBad || f.so3 != 0 || t.tf.extractLsb' 1 4 != 0
  | .yfpr f t => t.asyncBad || f.so3 != 0 || t.tf != 0
  | .yunpin f t => t.asyncBad || f.so2 != 0 || f.so3 != 0 || t.tf != 0
  | .reshard _ t _ | .xag _ t _ | .xrs _ t _ | .xa2a _ t _ | .xprm _ t _ => t.collBad
  | .rsplan f t _ => t.asyncBad || f.so3 != 0 || t.tf != 0
  | .xhalo f t => t.collBad || f.so2 != 0 || f.so3 != 0
  | .xstf _ t => t.asyncBad || t.tf.extractLsb' 2 3 != 0
  | .xatom _ t x => t.asyncBad || t.tf.extractLsb' 1 4 != 0 || 9 < x.aop.toNat || x.size == 0
  | _ => match i.vspec with
    | some (s, f) => s.field2 f
    | none => false

/-- The engine whose stream holds the instruction; `none` for an event row. -/
def Instr.engine (i : Instr) : Option Engine :=
  match i with
  | .bkpt f => some f.eng
  | .mRdv _ | .mma _ | .mnest _ _ | .mbld _ _ | .mwb _ | .mwbMem _ _ | .mscl _ | .msclReg _ | .mtrn _ | .mxmov _
  | .mzero _ | .mgang _ | .mgangLeave _ | .mkat _ _ => some .m
  | .yRdv _ _ | .ycopy _ _ | .yfill _ _ | .ygath _ _ | .yscat _ _ | .ypref _ _ | .yfpr _ _ | .ycmp _ _ | .dtld _ _
  | .ypin _ _ | .yunpin _ _ | .xhalo _ _ | .xstf _ _ | .reshard _ _ _ | .rsplan _ _ _ | .xag _ _ _ | .xrs _ _ _
  | .xa2a _ _ _ | .xprm _ _ _ | .xatom _ _ _ => some .y
  | .nop _ | .ret _ | .rdv _ | .fork _ | .add _ | .sub _ | .and _ | .or _ | .xor _ | .shl _ | .shr _ | .sar _ | .rol _
  | .mul _ | .mulh _ | .mulhU _ | .div _ | .divU _ | .rem _ | .remU _ | .min _ | .minU _ | .max _ | .maxU _ | .clz _
  | .ctz _ | .popc _ | .sel _ | .cmpEq _ | .cmpNe _ | .cmpLt _ | .cmpGe _ | .cmpLtu _ | .cmpGeu _ | .jmp _ | .mov _
  | .br _ | .brc _ | .call _ | .loop _ | .twait _ | .tprom _ | .sleep _ | .isync _ | .eret _ | .launch _ | .edgeOne _
  | .edgeAll _ | .edgeTree _ | .edgeStencil _ | .gseal _ | .gsealPh _ | .cancel _ | .cancelOwn _ | .spawn _
  | .ctrwait _ | .bari _ | .bara _ | .barw _ | .ccvt _ | .icbc _ | .lrule _ | .nset _ | .pbind _ | .punb _ | .smap _
  | .tdld _ | .tdset _ | .vset _ | .addI _ | .andI _ | .orI _ | .xorI _ | .shlI _ | .shrI _ | .sarI _ | .rolI _
  | .mulI _ | .movI _ | .trap _ | .sysr _ | .sysw _ | .writeMeshshape _ | .writeMeshpos _ | .writeBankloss _
  | .writeDphase _ | .writeArstat _ | .writeOrdmask _ | .writePrommiss _ | .writeTrapbase _ | .writeTrapctl _
  | .writeRwctl _ | .writeRwsup _ | .writeRwlog _ | .writeInject _ | .writeMcstat _ | .writeTraprecWord1 _
  | .writeDisplaced _ | .movL _ | .fence _ | .kchk _ | .ld _ | .st _ | .ldc _ | .atomAdd _ | .atomAnd _ | .atomOr _
  | .atomXor _ | .atomMin _ | .atomMax _ | .atomMinu _ | .atomMaxu _ | .atomSwap _ | .atomCas _ => some .c
  | _ => match i.vspec with
    | some _ => some .v
    | none => none

/-- No DECODE check fails. -/
def Instr.wf (i : Instr) : Bool := !i.reservedCode && !i.reservedScope && !i.badField

end Sys2Proof
end

