-- ==== Sys2Proof/Decode.lean ====
section
/-! DEFINITION. Decoding of instruction words by engine (13_encoding.md R313 to R335, 14_opcode_map.md R349 to R356),
total on any words; and, after it, the encoder written from the same tables. An error is the SUB of the DECODE trap
in the check order of R335: 0 unassigned major, 1 unassigned fn, 6 reserved operand code, 3 reserved scope, 2 a
nonzero reserved field or another invalid value; 4 when the words run out. -/
namespace Sys2Proof

/-- Bits [31:26] of a first word. -/
def majorOf (w : W32) : Nat := (w.extractLsb' 26 6).toNat

namespace Raw

def c3 (w : W32) : C3 :=
  { d := w.extractLsb' 16 6, a := w.extractLsb' 10 6, b := w.extractLsb' 4 6, iss := w.extractLsb' 0 4 }

def ci (w : W32) : CI :=
  { d := w.extractLsb' 20 6, a := w.extractLsb' 14 6, imm := w.extractLsb' 4 10, iss := w.extractLsb' 0 4 }

def cb (w : W32) : CB :=
  { cond := w.extractLsb' 23 3, a := w.extractLsb' 17 6, loff := w.extractLsb' 7 10, lane := w.extractLsb' 4 3,
    iss := w.extractLsb' 0 4 }

def cm (w w1 : W32) : CM :=
  { d := w.extractLsb' 20 6, base := w.extractLsb' 14 6, cls := w.extractLsb' 10 4, order := w.extractLsb' 8 2,
    off := w1.extractLsb' 12 20, size := w1.extractLsb' 10 2, sx := w1.getLsbD 9, scope := w1.extractLsb' 6 3,
    e := w1.extractLsb' 0 6, iss := w.extractLsb' 0 4 }

def mf (w : W32) : MF :=
  { fa := w.extractLsb' 21 5, fc := w.extractLsb' 17 4, fb := w.extractLsb' 12 5, lu := w.getLsbD 11,
    pa := w.getLsbD 10, sa := w.extractLsb' 8 2, mf := w.extractLsb' 4 4, iss := w.extractLsb' 0 4 }

def tok (w : W32) : Tok :=
  { make := w.extractLsb' 27 5, aft0 := w.extractLsb' 22 5, aft1 := w.extractLsb' 17 5, aft2 := w.extractLsb' 12 5,
    cls := w.extractLsb' 8 4, scope := w.extractLsb' 5 3, tf := w.extractLsb' 0 5 }

def yf (w : W32) : YF :=
  { so1 := w.extractLsb' 20 6, so2 := w.extractLsb' 14 6, so3 := w.extractLsb' 8 6, iss := w.extractLsb' 0 4 }

def maps (w : W32) : Maps := { sma := w.extractLsb' 29 3, smb := w.extractLsb' 26 3 }

def at_ (w : W32) : At := { aop := w.extractLsb' 28 4, size := w.extractLsb' 26 2 }

/-- FN of the formats C3 and VX, bits [25:22]. -/
def fnHi (w : W32) : Nat := (w.extractLsb' 22 4).toNat

/-- FN of the formats CM and Y, bits [7:4]. -/
def fnLo (w : W32) : Nat := (w.extractLsb' 4 4).toNat

end Raw

/-- How many literal words an operand code calls for (R330). -/
def litWords (code : BitVec 8) : Nat :=
  if code = 0xF1 then 1 else if code = 0xF2 then 2 else 0

/-- The operand of a code, with its literal taken from the front of `lits` (R328, R330); a reserved code is SUB 6. -/
def VOp.ofCode (code : BitVec 8) (lits : List W32) : Except Nat (VOp × List W32) :=
  if code.toNat < 0xC0 then .ok (.row code, lits)
  else if code.toNat < 0xD0 then .ok (.port (code.extractLsb' 0 4), lits)
  else if code.toNat < 0xE0 then .ok (.breg (code.extractLsb' 0 4), lits)
  else if code = 0xF0 then .ok (.zero, lits)
  else if code = 0xF1 then
    match lits with
    | w :: r => .ok (.lit32 w, r)
    | [] => .error 4
  else if code = 0xF2 then
    match lits with
    | lo :: hi :: r => .ok (.lit64 (hi ++ lo), r)
    | _ => .error 4
  else .error 6

/-- The operand of a field whose literal is not collected: D, and the tag field of VLD and VLDX (R330, R352). -/
def VOp.ofCodeBare (code : BitVec 8) : Except Nat VOp :=
  (VOp.ofCode code [0, 0]).map Prod.fst

/-- Field C of VLD and VLDX is a tag code and not an operand code (R352). -/
def vxTagC (op fn : Nat) : Bool := op == 6 && (fn == 0 || fn == 2)

/-- The fields of a VX instruction from its two words and its literal words (R327, R330). -/
def Raw.vx (w w1 : W32) (lits : List W32) : Except Nat (VX × List W32) :=
  match VOp.ofCodeBare (w.extractLsb' 14 8), VOp.ofCode (w.extractLsb' 6 8) lits with
  | .ok d, .ok (a, l1) =>
    match VOp.ofCode (w1.extractLsb' 24 8) l1 with
    | .ok (b, l2) =>
      match (if vxTagC (majorOf w) (Raw.fnHi w) then (VOp.ofCodeBare (w1.extractLsb' 16 8)).map (·, l2)
             else VOp.ofCode (w1.extractLsb' 16 8) l2) with
      | .ok (c, l3) =>
        .ok ({ d := d, a := a, b := b, c := c, syd := w1.extractLsb' 14 2, sya := w1.extractLsb' 12 2,
               syb := w1.extractLsb' 10 2, syc := w1.extractLsb' 8 2, mask := w1.extractLsb' 4 4,
               rnd := w1.extractLsb' 1 3, sat := w1.getLsbD 0, iss := w.extractLsb' 0 4 }, l3)
      | .error e => .error e
    | .error e => .error e
  | .error e, _ => .error e
  | _, .error e => .error e

/-- An assigned FN of an assigned major, or SUB 1. -/
def fnOr1 (x : Option Instr) : Except Nat Instr :=
  match x with
  | some i => .ok i
  | none => .error 1

/-- ALU-A (R351). -/
def aluA (fn : Nat) (f : C3) : Option Instr :=
  match fn with
  | 0 => some (.add f) | 1 => some (.sub f) | 2 => some (.and f) | 3 => some (.or f) | 4 => some (.xor f)
  | 5 => some (.shl f) | 6 => some (.shr f) | 7 => some (.sar f) | 8 => some (.rol f) | 9 => some (.mul f)
  | 10 => some (.mulh f) | 11 => some (.mulhU f) | 12 => some (.div f) | 13 => some (.divU f) | 14 => some (.rem f)
  | 15 => some (.remU f) | _ => none

/-- ALU-B (R351). -/
def aluB (fn : Nat) (f : C3) : Option Instr :=
  match fn with
  | 0 => some (.min f) | 1 => some (.minU f) | 2 => some (.max f) | 3 => some (.maxU f) | 4 => some (.clz f)
  | 5 => some (.ctz f) | 6 => some (.popc f) | 7 => some (.sel f) | 8 => some (.cmpEq f) | 9 => some (.cmpNe f)
  | 10 => some (.cmpLt f) | 11 => some (.cmpGe f) | 12 => some (.cmpLtu f) | 13 => some (.cmpGeu f) | _ => none

/-- WAITS (R351). -/
def waits (fn : Nat) (f : C3) : Option Instr :=
  match fn with
  | 0 => some (.twait f) | 1 => some (.tprom f) | 2 => some (.sleep f) | 3 => some (.isync f) | 4 => some (.eret f)
  | _ => none

/-- WORK (R351); the level code of CANCEL tells its two rows apart (R389). -/
def work (fn : Nat) (f : C3) : Option Instr :=
  match fn with
  | 0 => some (.launch f) | 1 => some (.edgeOne f) | 2 => some (.edgeAll f) | 3 => some (.edgeTree f)
  | 4 => some (.edgeStencil f) | 5 => some (.gseal f) | 6 => some (.gsealPh f)
  | 7 => some (if f.d.toNat < 4 then .cancel f else .cancelOwn f)
  | 8 => some (.spawn f) | 9 => some (.ctrwait f) | _ => none

/-- BAR (R351). -/
def bar (fn : Nat) (f : C3) : Option Instr :=
  match fn with
  | 0 => some (.bari f) | 1 => some (.bara f) | 2 => some (.barw f) | _ => none

/-- RES (R351). -/
def res (fn : Nat) (f : C3) : Option Instr :=
  match fn with
  | 0 => some (.ccvt f) | 1 => some (.icbc f) | 2 => some (.lrule f) | 3 => some (.nset f) | 4 => some (.pbind f)
  | 5 => some (.punb f) | 6 => some (.smap f) | 7 => some (.tdld f) | 8 => some (.tdset f) | 9 => some (.vset f)
  | _ => none

/-- SYSW by register number: the registers whose write is a row of its own, and the rest (R356). -/
def syswRow (f : CI) : Instr :=
  match f.imm.toNat with
  | 3 => .writeMeshpos f | 4 => .writeMeshshape f | 8 => .writeDphase f | 9 => .writeArstat f | 0xA => .writeOrdmask f
  | 0xB => .writePrommiss f | 0xC => .writeTrapbase f | 0xD => .writeTrapctl f | 0xE => .writeRwctl f
  | 0xF => .writeRwsup f | 0x10 => .writeInject f | 0x11 => .writeDisplaced f | 0x19 => .writeTraprecWord1 f
  | 0x20 => .writeBankloss f | 0x21 => .writeRwlog f | 0x23 => .writeMcstat f
  | _ => .sysw f

/-- ATOM operations (R351). -/
def atomRow (fn : Nat) (f : CM) : Option Instr :=
  match fn with
  | 0 => some (.atomAdd f) | 1 => some (.atomAnd f) | 2 => some (.atomOr f) | 3 => some (.atomXor f)
  | 4 => some (.atomMin f) | 5 => some (.atomMax f) | 6 => some (.atomMinu f) | 7 => some (.atomMaxu f)
  | 8 => some (.atomSwap f) | 9 => some (.atomCas f) | _ => none

/-- A one-word control row whose major carries one instruction: FN is 0 (R349). -/
def only0 (fn : Nat) (i : Instr) : Option Instr := if fn = 0 then some i else none

/-- The literal words of CL (R325). -/
def Raw.cl (w : W32) (lits : List W32) : Except Nat (CL × List W32) :=
  match w.getLsbD 19, lits with
  | false, l :: r => .ok ({ d := w.extractLsb' 20 6, lit := .w32 l, iss := w.extractLsb' 0 4 }, r)
  | true, lo :: hi :: r => .ok ({ d := w.extractLsb' 20 6, lit := .w64 (hi ++ lo), iss := w.extractLsb' 0 4 }, r)
  | _, _ => .error 4

/-- BKPT in any engine: the C3 layout with FN, D, A and B[5:3] 0 (R355). The Bool says that one of D, A and B[5:3] is
not 0. Its CNT continuation lanes follow and are skipped. -/
def Raw.bkpt (e : Engine) (w : W32) (rest : List W32) : Except Nat (Instr × Bool × List W32) :=
  if Raw.fnHi w ≠ 0 then .error 1
  else if rest.length < (w.extractLsb' 4 3).toNat then .error 4
  else .ok (.bkpt { eng := e, cnt := w.extractLsb' 4 3, iss := w.extractLsb' 0 4 }, w.extractLsb' 7 15 != 0,
            rest.drop (w.extractLsb' 4 3).toNat)

/-- A word decoded with no reserved bits outside its record's fields. -/
def plain (rest : List W32) (x : Except Nat Instr) : Except Nat (Instr × Bool × List W32) :=
  x.map fun i => (i, false, rest)

/-- A row of format CM: an unassigned FN comes before the second word is looked at (R313, R335). -/
def Raw.cmRow (rest : List W32) (k : W32 → Option Instr) : Except Nat (Instr × Bool × List W32) :=
  match k 0, rest with
  | none, _ => .error 1
  | some _, [] => .error 4
  | some _, w1 :: r => plain r (fnOr1 (k w1))

/-- The control engine's map (R350). The Bool says that a reserved bit outside the record's fields is set. -/
def Raw.c (w : W32) (rest : List W32) : Except Nat (Instr × Bool × List W32) :=
  let f := Raw.c3 w
  let g := Raw.ci w
  let b := Raw.cb w
  let fn := Raw.fnHi w
  match majorOf w with
  | 0x00 => plain rest (fnOr1 (only0 fn (.nop f)))
  | 0x01 => plain rest (fnOr1 (only0 fn (.ret f)))
  | 0x02 => plain rest (fnOr1 (only0 fn (.rdv f)))
  | 0x03 => plain rest (fnOr1 (only0 fn (.fork f)))
  | 0x04 => plain rest (fnOr1 (aluA fn f))
  | 0x05 => plain rest (fnOr1 (aluB fn f))
  | 0x06 => plain rest (fnOr1 (only0 fn (.jmp f)))
  | 0x07 => plain rest (fnOr1 (only0 fn (.mov f)))
  | 0x08 => plain rest (.ok (.br b))
  | 0x09 => plain rest (.ok (.brc b))
  | 0x0A => plain rest (.ok (.call b))
  | 0x0B => plain rest (.ok (.loop b))
  | 0x0C => plain rest (fnOr1 (waits fn f))
  | 0x0D => plain rest (fnOr1 (work fn f))
  | 0x0E => plain rest (fnOr1 (bar fn f))
  | 0x0F => plain rest (fnOr1 (res fn f))
  | 0x10 => plain rest (.ok (.addI g))
  | 0x11 => plain rest (.ok (.andI g))
  | 0x12 => plain rest (.ok (.orI g))
  | 0x13 => plain rest (.ok (.xorI g))
  | 0x14 => plain rest (.ok (.shlI g))
  | 0x15 => plain rest (.ok (.shrI g))
  | 0x16 => plain rest (.ok (.sarI g))
  | 0x17 => plain rest (.ok (.rolI g))
  | 0x18 => plain rest (.ok (.mulI g))
  | 0x19 => plain rest (.ok (.movI g))
  | 0x1A => plain rest (.ok (.trap g))
  | 0x1B => plain rest (.ok (.sysr g))
  | 0x1C => plain rest (.ok (syswRow g))
  | 0x20 => (Raw.cl w rest).map fun (l, r) => (.movL l, w.extractLsb' 4 15 != 0, r)
  | 0x21 => (Raw.cl w rest).map fun (l, r) => (.fence l, w.extractLsb' 4 15 != 0, r)
  | 0x22 => (Raw.cl w rest).map fun (l, r) => (.kchk l, w.extractLsb' 4 15 != 0, r)
  | 0x28 => Raw.cmRow rest fun w1 => only0 (Raw.fnLo w) (.ld (Raw.cm w w1))
  | 0x29 => Raw.cmRow rest fun w1 => only0 (Raw.fnLo w) (.st (Raw.cm w w1))
  | 0x2A => Raw.cmRow rest fun w1 => atomRow (Raw.fnLo w) (Raw.cm w w1)
  | 0x2B => Raw.cmRow rest fun w1 => only0 (Raw.fnLo w) (.ldc (Raw.cm w w1))
  | 0x3F => Raw.bkpt .c w rest
  | _ => .error 0

/-- ARITH (R352). -/
def arith (fn : Nat) (f : VX) : Option Instr :=
  match fn with
  | 0 => some (.vadd f) | 1 => some (.vsub f) | 2 => some (.vmul f) | 3 => some (.vfma f) | 4 => some (.vmin f)
  | 5 => some (.vmax f) | 6 => some (.vdiv f) | 7 => some (.vabs f) | 8 => some (.vneg f) | 9 => some (.vsqrt f)
  | 10 => some (.vrcp f) | 11 => some (.vrsq f) | 12 => some (.vexp2 f) | 13 => some (.vlog2 f) | 14 => some (.vscl f)
  | _ => none

/-- BITS (R352). -/
def bits (fn : Nat) (f : VX) : Option Instr :=
  match fn with
  | 0 => some (.vand f) | 1 => some (.vor f) | 2 => some (.vxor f) | 3 => some (.vnot f) | 4 => some (.vshl f)
  | 5 => some (.vshr f) | 6 => some (.vsar f) | 7 => some (.vrol f) | _ => none

/-- MOVE (R352). -/
def move (fn : Nat) (f : VX) : Option Instr :=
  match fn with
  | 0 => some (.vmov f) | 1 => some (.vsel f) | 2 => some (.vcmpEq f) | 3 => some (.vcmpNe f) | 4 => some (.vcmpLt f)
  | 5 => some (.vcmpLe f) | 6 => some (.vcmpGt f) | 7 => some (.vcmpGe f) | 8 => some (.vbc f) | 9 => some (.vext f)
  | 10 => some (.vins f) | 11 => some (.vslide f) | _ => none

/-- RED, CONV and MEM (R352). -/
def redConvMem (op fn : Nat) (f : VX) : Option Instr :=
  match op, fn with
  | 4, 0 => some (.vredAdd f) | 4, 1 => some (.vredMin f) | 4, 2 => some (.vredMax f)
  | 5, 0 => some (.vcvt f) | 5, 1 => some (.vqnt f) | 5, 2 => some (.vdqnt f)
  | 6, 0 => some (.vld f) | 6, 1 => some (.vst f) | 6, 2 => some (.vldx f) | 6, 3 => some (.vstx f)
  | _, _ => none

/-- The vector engine's rows by major and FN: SUB 0 or 1 where there is none (R349). -/
def vRow (op fn : Nat) (f : VX) : Except Nat Instr :=
  match op with
  | 0 => fnOr1 (only0 fn (.vRdv f))
  | 1 => fnOr1 (arith fn f)
  | 2 => fnOr1 (bits fn f)
  | 3 => fnOr1 (move fn f)
  | 4 => fnOr1 (redConvMem 4 fn f)
  | 5 => fnOr1 (redConvMem 5 fn f)
  | 6 => fnOr1 (redConvMem 6 fn f)
  | _ => .error 0

def VX.blank : VX :=
  { d := .row 0, a := .row 0, b := .row 0, c := .row 0, syd := 0, sya := 0, syb := 0, syc := 0, mask := 0, rnd := 0,
    sat := false, iss := 0 }

/-- The vector engine's map: an unassigned major or FN comes before a reserved operand code (R335). -/
def Raw.v (w : W32) (rest : List W32) : Except Nat (Instr × Bool × List W32) :=
  if majorOf w = 0x3F then Raw.bkpt .v w rest
  else
    match vRow (majorOf w) (Raw.fnHi w) VX.blank, rest with
    | .error e, _ => .error e
    | .ok _, [] => .error 4
    | .ok _, w1 :: lits =>
      match Raw.vx w w1 lits with
      | .error e => .error e
      | .ok (f, r) => (vRow (majorOf w) (Raw.fnHi w) f).map fun i => (i, w.extractLsb' 4 2 != 0, r)

/-- A matrix row with a token word (R353). -/
def Raw.mTok (rest : List W32) (k : Tok → Instr) : Except Nat (Instr × Bool × List W32) :=
  match rest with
  | [] => .error 4
  | w1 :: r => .ok (k (Raw.tok w1), false, r)

/-- The matrix engine's map (R353, R457). -/
def Raw.m (w : W32) (rest : List W32) : Except Nat (Instr × Bool × List W32) :=
  let f := Raw.mf w
  match majorOf w with
  | 0x00 => .ok (.mRdv f, false, rest)
  | 0x01 => .ok (.mma f, false, rest)
  | 0x02 => Raw.mTok rest (.mnest f)
  | 0x03 => Raw.mTok rest (.mbld f)
  | 0x04 => if f.mf.getLsbD 0 then Raw.mTok rest (.mwbMem f) else .ok (.mwb f, false, rest)
  | 0x05 => .ok (if f.mf.getLsbD 0 then .msclReg f else .mscl f, false, rest)
  | 0x06 => .ok (.mtrn f, false, rest)
  | 0x07 => .ok (.mxmov f, false, rest)
  | 0x08 => .ok (.mzero f, false, rest)
  | 0x09 => .ok (if f.mf.getLsbD 0 then .mgangLeave f else .mgang f, false, rest)
  | 0x0A => Raw.mTok rest (.mkat f)
  | 0x3F => Raw.bkpt .m w rest
  | _ => .error 0

/-- The copy engine's rows with two words (R354). -/
def yRow2 (op fn : Nat) (f : YF) (t : Tok) : Option Instr :=
  match op, fn with
  | 0, 0 => some (.yRdv f t)
  | 1, 0 => some (.ycopy f t) | 1, 1 => some (.yfill f t) | 1, 2 => some (.ygath f t) | 1, 3 => some (.yscat f t)
  | 1, 4 => some (.ypref f t)
  | 2, 0 => some (.yfpr f t) | 2, 1 => some (.ycmp f t) | 2, 2 => some (.dtld f t)
  | 3, 0 => some (.ypin f t) | 3, 1 => some (.yunpin f t)
  | 4, 6 => some (.xhalo f t)
  | 5, 0 => some (.xstf f t)
  | _, _ => none

/-- The copy engine's rows with three words (R354). -/
def yRow3 (op fn : Nat) (f : YF) (t : Tok) (w2 : W32) : Option Instr :=
  match op, fn with
  | 4, 0 => some (.reshard f t (Raw.maps w2)) | 4, 1 => some (.rsplan f t (Raw.maps w2))
  | 4, 2 => some (.xag f t (Raw.maps w2)) | 4, 3 => some (.xrs f t (Raw.maps w2))
  | 4, 4 => some (.xa2a f t (Raw.maps w2)) | 4, 5 => some (.xprm f t (Raw.maps w2))
  | 5, 1 => some (.xatom f t (Raw.at_ w2))
  | _, _ => none

/-- The copy engine's map (R354). -/
def Raw.y (w : W32) (rest : List W32) : Except Nat (Instr × Bool × List W32) :=
  if majorOf w = 0x3F then Raw.bkpt .y w rest
  else if 5 < majorOf w then .error 0
  else
    match yRow2 (majorOf w) (Raw.fnLo w) (Raw.yf w) (Raw.tok 0), yRow3 (majorOf w) (Raw.fnLo w) (Raw.yf w) (Raw.tok 0) 0, rest with
    | some _, _, w1 :: r => plain r (fnOr1 (yRow2 (majorOf w) (Raw.fnLo w) (Raw.yf w) (Raw.tok w1)))
    | none, some _, w1 :: w2 :: r =>
      (fnOr1 (yRow3 (majorOf w) (Raw.fnLo w) (Raw.yf w) (Raw.tok w1) w2)).map fun i => (i, w2.extractLsb' 0 26 != 0, r)
    | none, none, _ => .error 1
    | _, _, _ => .error 4

/-- The map of an engine (R310: the header nibble decides which map applies). -/
def Raw.decode (e : Engine) (w : W32) (rest : List W32) : Except Nat (Instr × Bool × List W32) :=
  match e with
  | .c => Raw.c w rest
  | .v => Raw.v w rest
  | .m => Raw.m w rest
  | .y => Raw.y w rest

/-- The checks after major, FN and operand codes, in the order of R335. -/
def checkFields (i : Instr) (reservedBit : Bool) : Except Nat Instr :=
  if i.reservedCode then .error 6
  else if i.reservedScope then .error 3
  else if reservedBit || i.badField then .error 2
  else .ok i

/-- The instruction that starts a list of words of one engine, with the words that follow it; or the SUB of DECODE. -/
def decode (e : Engine) (ws : List W32) : Except Nat (Instr × List W32) :=
  match ws with
  | [] => .error 4
  | w :: rest =>
    match Raw.decode e w rest with
    | .error s => .error s
    | .ok (i, reservedBit, r) => (checkFields i reservedBit).map fun i => (i, r)

/-- The number of words of the instruction that `w0` starts; `w1` matters to the vector engine alone (R313, R330, R355).
An unassigned major or FN has the length of its engine's base form. -/
def wordCount (e : Engine) (w0 w1 : W32) : Nat :=
  if majorOf w0 = 0x3F then 1 + (w0.extractLsb' 4 3).toNat
  else match e with
    | .c =>
      if majorOf w0 = 0x20 ∨ majorOf w0 = 0x21 ∨ majorOf w0 = 0x22 then (if w0.getLsbD 19 then 3 else 2)
      else if majorOf w0 = 0x2A then (if Raw.fnLo w0 < 10 then 2 else 1)
      else if majorOf w0 = 0x28 ∨ majorOf w0 = 0x29 ∨ majorOf w0 = 0x2B then (if Raw.fnLo w0 = 0 then 2 else 1)
      else 1
    | .v =>
      2 + litWords (w0.extractLsb' 6 8) + litWords (w1.extractLsb' 24 8)
        + (if vxTagC (majorOf w0) (Raw.fnHi w0) then 0 else litWords (w1.extractLsb' 16 8))
    | .m =>
      if majorOf w0 = 2 ∨ majorOf w0 = 3 ∨ majorOf w0 = 0xA ∨ (majorOf w0 = 4 ∧ w0.getLsbD 4) then 2 else 1
    | .y => if majorOf w0 = 4 ∧ Raw.fnLo w0 < 6 ∨ (majorOf w0 = 5 ∧ Raw.fnLo w0 = 1) then 3 else 2

/-! ## Lines and bytes (R308, R309) -/

/-- A 32-bit little-endian word at the front of a byte list (R4). -/
def wordsOfBytes : List Byte → List W32
  | b0 :: b1 :: b2 :: b3 :: r => (b3 ++ b2 ++ b1 ++ b0) :: wordsOfBytes r
  | _ => []

/-- The bytes of a word, lowest address first (R4). -/
def bytesOfWord (w : W32) : List Byte :=
  [w.extractLsb' 0 8, w.extractLsb' 8 8, w.extractLsb' 16 8, w.extractLsb' 24 8]

/-- Decoding of any bytes, taken as consecutive lanes of one engine. -/
def decodeBytes (e : Engine) (bs : List Byte) : Except Nat (Instr × List W32) := decode e (wordsOfBytes bs)

/-! ## The encoder -/

namespace Pack

def c3 (op fn : Nat) (f : C3) : W32 := BitVec.ofNat 6 op ++ BitVec.ofNat 4 fn ++ f.d ++ f.a ++ f.b ++ f.iss

def ci (op : Nat) (f : CI) : W32 := BitVec.ofNat 6 op ++ f.d ++ f.a ++ f.imm ++ f.iss

def cb (op : Nat) (f : CB) : W32 := BitVec.ofNat 6 op ++ f.cond ++ f.a ++ f.loff ++ f.lane ++ f.iss

def lit : Lit → List W32
  | .w32 w => [w]
  | .w64 w => [w.extractLsb' 0 32, w.extractLsb' 32 32]

def isL64 : Lit → Bool
  | .w32 _ => false
  | .w64 _ => true

def cl (op : Nat) (f : CL) : List W32 :=
  (BitVec.ofNat 6 op ++ f.d ++ BitVec.ofBool (isL64 f.lit) ++ (0 : BitVec 15) ++ f.iss) :: lit f.lit

def cm (op fn : Nat) (f : CM) : List W32 :=
  [BitVec.ofNat 6 op ++ f.d ++ f.base ++ f.cls ++ f.order ++ BitVec.ofNat 4 fn ++ f.iss,
   f.off ++ f.size ++ BitVec.ofBool f.sx ++ f.scope ++ f.e]

/-- Operand codes (R328). -/
def code : VOp → BitVec 8
  | .row n => n
  | .port p => (0xC : BitVec 4) ++ p
  | .breg b => (0xD : BitVec 4) ++ b
  | .zero => 0xF0
  | .lit32 _ => 0xF1
  | .lit64 _ => 0xF2

/-- The literal words of an operand (R330). -/
def opLits : VOp → List W32
  | .lit32 w => [w]
  | .lit64 w => [w.extractLsb' 0 32, w.extractLsb' 32 32]
  | _ => []

def vx (op fn : Nat) (f : VX) : List W32 :=
  [BitVec.ofNat 6 op ++ BitVec.ofNat 4 fn ++ code f.d ++ code f.a ++ (0 : BitVec 2) ++ f.iss,
   code f.b ++ code f.c ++ f.syd ++ f.sya ++ f.syb ++ f.syc ++ f.mask ++ f.rnd ++ BitVec.ofBool f.sat]
  ++ opLits f.a ++ opLits f.b ++ opLits f.c

def m (op : Nat) (f : MF) : W32 :=
  BitVec.ofNat 6 op ++ f.fa ++ f.fc ++ f.fb ++ BitVec.ofBool f.lu ++ BitVec.ofBool f.pa ++ f.sa ++ f.mf ++ f.iss

def tok (t : Tok) : W32 := t.make ++ t.aft0 ++ t.aft1 ++ t.aft2 ++ t.cls ++ t.scope ++ t.tf

def y (op fn : Nat) (f : YF) : W32 := BitVec.ofNat 6 op ++ f.so1 ++ f.so2 ++ f.so3 ++ BitVec.ofNat 4 fn ++ f.iss

def maps (x : Maps) : W32 := x.sma ++ x.smb ++ (0 : BitVec 26)

def at_ (x : At) : W32 := x.aop ++ x.size ++ (0 : BitVec 26)

end Pack

/-- A row's place in its engine's map, with its operand record. `event` rows are in no stream. -/
inductive Shape where
  | c3 (op fn : Nat) (f : C3)
  | ci (op : Nat) (f : CI)
  | cb (op : Nat) (f : CB)
  | cl (op : Nat) (f : CL)
  | cm (op fn : Nat) (f : CM)
  | vx (op fn : Nat) (f : VX)
  | m (op : Nat) (f : MF)
  | mt (op : Nat) (f : MF) (t : Tok)
  | y2 (op fn : Nat) (f : YF) (t : Tok)
  | y3 (op fn : Nat) (f : YF) (t : Tok) (w : W32)
  | bk (f : BK)
  | event
  deriving DecidableEq, Repr

/-- The words of a row. BKPT's continuation lanes belong to the instruction it stands for, so it is one word here
followed by CNT words of any content; the encoder gives zeros. -/
def Shape.words : Shape → List W32
  | .c3 op fn f => [Pack.c3 op fn f]
  | .ci op f => [Pack.ci op f]
  | .cb op f => [Pack.cb op f]
  | .cl op f => Pack.cl op f
  | .cm op fn f => Pack.cm op fn f
  | .vx op fn f => Pack.vx op fn f
  | .m op f => [Pack.m op f]
  | .mt op f t => [Pack.m op f, Pack.tok t]
  | .y2 op fn f t => [Pack.y op fn f, Pack.tok t]
  | .y3 op fn f t w => [Pack.y op fn f, Pack.tok t, w]
  | .bk f => ((0x3F : BitVec 6) ++ (0 : BitVec 19) ++ f.cnt ++ f.iss) :: List.replicate f.cnt.toNat 0
  | .event => []

/-- The major opcode, 0 for an event. -/
def Shape.op : Shape → Nat
  | .c3 op _ _ | .ci op _ | .cb op _ | .cl op _ | .cm op _ _ | .vx op _ _ | .m op _ | .mt op _ _ | .y2 op _ _ _
  | .y3 op _ _ _ _ => op
  | .bk _ => 0x3F
  | .event => 0

/-- The fn field; 0 where the format has none (R250, R288). -/
def Shape.fn : Shape → Nat
  | .c3 _ fn _ | .cm _ fn _ | .vx _ fn _ | .y2 _ fn _ _ | .y3 _ fn _ _ _ => fn
  | _ => 0

/-- Where each row stands in the maps of 14_opcode_map.md. -/
def Instr.shape : Instr → Shape
  | .nop f => .c3 0x0 0 f
  | .ret f => .c3 0x1 0 f
  | .rdv f => .c3 0x2 0 f
  | .fork f => .c3 0x3 0 f
  | .add f => .c3 0x4 0 f
  | .sub f => .c3 0x4 1 f
  | .and f => .c3 0x4 2 f
  | .or f => .c3 0x4 3 f
  | .xor f => .c3 0x4 4 f
  | .shl f => .c3 0x4 5 f
  | .shr f => .c3 0x4 6 f
  | .sar f => .c3 0x4 7 f
  | .rol f => .c3 0x4 8 f
  | .mul f => .c3 0x4 9 f
  | .mulh f => .c3 0x4 10 f
  | .mulhU f => .c3 0x4 11 f
  | .div f => .c3 0x4 12 f
  | .divU f => .c3 0x4 13 f
  | .rem f => .c3 0x4 14 f
  | .remU f => .c3 0x4 15 f
  | .min f => .c3 0x5 0 f
  | .minU f => .c3 0x5 1 f
  | .max f => .c3 0x5 2 f
  | .maxU f => .c3 0x5 3 f
  | .clz f => .c3 0x5 4 f
  | .ctz f => .c3 0x5 5 f
  | .popc f => .c3 0x5 6 f
  | .sel f => .c3 0x5 7 f
  | .cmpEq f => .c3 0x5 8 f
  | .cmpNe f => .c3 0x5 9 f
  | .cmpLt f => .c3 0x5 10 f
  | .cmpGe f => .c3 0x5 11 f
  | .cmpLtu f => .c3 0x5 12 f
  | .cmpGeu f => .c3 0x5 13 f
  | .jmp f => .c3 0x6 0 f
  | .mov f => .c3 0x7 0 f
  | .br f => .cb 0x8 f
  | .brc f => .cb 0x9 f
  | .call f => .cb 0xa f
  | .loop f => .cb 0xb f
  | .twait f => .c3 0xc 0 f
  | .tprom f => .c3 0xc 1 f
  | .sleep f => .c3 0xc 2 f
  | .isync f => .c3 0xc 3 f
  | .eret f => .c3 0xc 4 f
  | .launch f => .c3 0xd 0 f
  | .edgeOne f => .c3 0xd 1 f
  | .edgeAll f => .c3 0xd 2 f
  | .edgeTree f => .c3 0xd 3 f
  | .edgeStencil f => .c3 0xd 4 f
  | .gseal f => .c3 0xd 5 f
  | .gsealPh f => .c3 0xd 6 f
  | .cancel f => .c3 0xd 7 f
  | .cancelOwn f => .c3 0xd 7 f
  | .spawn f => .c3 0xd 8 f
  | .ctrwait f => .c3 0xd 9 f
  | .bari f => .c3 0xe 0 f
  | .bara f => .c3 0xe 1 f
  | .barw f => .c3 0xe 2 f
  | .ccvt f => .c3 0xf 0 f
  | .icbc f => .c3 0xf 1 f
  | .lrule f => .c3 0xf 2 f
  | .nset f => .c3 0xf 3 f
  | .pbind f => .c3 0xf 4 f
  | .punb f => .c3 0xf 5 f
  | .smap f => .c3 0xf 6 f
  | .tdld f => .c3 0xf 7 f
  | .tdset f => .c3 0xf 8 f
  | .vset f => .c3 0xf 9 f
  | .addI f => .ci 0x10 f
  | .andI f => .ci 0x11 f
  | .orI f => .ci 0x12 f
  | .xorI f => .ci 0x13 f
  | .shlI f => .ci 0x14 f
  | .shrI f => .ci 0x15 f
  | .sarI f => .ci 0x16 f
  | .rolI f => .ci 0x17 f
  | .mulI f => .ci 0x18 f
  | .movI f => .ci 0x19 f
  | .trap f => .ci 0x1a f
  | .sysr f => .ci 0x1b f
  | .sysw f => .ci 0x1c f
  | .movL f => .cl 0x20 f
  | .fence f => .cl 0x21 f
  | .kchk f => .cl 0x22 f
  | .ld f => .cm 0x28 0 f
  | .st f => .cm 0x29 0 f
  | .atomAdd f => .cm 0x2a 0 f
  | .atomAnd f => .cm 0x2a 1 f
  | .atomOr f => .cm 0x2a 2 f
  | .atomXor f => .cm 0x2a 3 f
  | .atomMin f => .cm 0x2a 4 f
  | .atomMax f => .cm 0x2a 5 f
  | .atomMinu f => .cm 0x2a 6 f
  | .atomMaxu f => .cm 0x2a 7 f
  | .atomSwap f => .cm 0x2a 8 f
  | .atomCas f => .cm 0x2a 9 f
  | .ldc f => .cm 0x2b 0 f
  | .bkpt f => .bk f
  | .vRdv f => .vx 0x0 0 f
  | .vadd f => .vx 0x1 0 f
  | .vsub f => .vx 0x1 1 f
  | .vmul f => .vx 0x1 2 f
  | .vfma f => .vx 0x1 3 f
  | .vmin f => .vx 0x1 4 f
  | .vmax f => .vx 0x1 5 f
  | .vdiv f => .vx 0x1 6 f
  | .vabs f => .vx 0x1 7 f
  | .vneg f => .vx 0x1 8 f
  | .vsqrt f => .vx 0x1 9 f
  | .vrcp f => .vx 0x1 10 f
  | .vrsq f => .vx 0x1 11 f
  | .vexp2 f => .vx 0x1 12 f
  | .vlog2 f => .vx 0x1 13 f
  | .vscl f => .vx 0x1 14 f
  | .vand f => .vx 0x2 0 f
  | .vor f => .vx 0x2 1 f
  | .vxor f => .vx 0x2 2 f
  | .vnot f => .vx 0x2 3 f
  | .vshl f => .vx 0x2 4 f
  | .vshr f => .vx 0x2 5 f
  | .vsar f => .vx 0x2 6 f
  | .vrol f => .vx 0x2 7 f
  | .vmov f => .vx 0x3 0 f
  | .vsel f => .vx 0x3 1 f
  | .vcmpEq f => .vx 0x3 2 f
  | .vcmpNe f => .vx 0x3 3 f
  | .vcmpLt f => .vx 0x3 4 f
  | .vcmpLe f => .vx 0x3 5 f
  | .vcmpGt f => .vx 0x3 6 f
  | .vcmpGe f => .vx 0x3 7 f
  | .vbc f => .vx 0x3 8 f
  | .vext f => .vx 0x3 9 f
  | .vins f => .vx 0x3 10 f
  | .vslide f => .vx 0x3 11 f
  | .vredAdd f => .vx 0x4 0 f
  | .vredMin f => .vx 0x4 1 f
  | .vredMax f => .vx 0x4 2 f
  | .vcvt f => .vx 0x5 0 f
  | .vqnt f => .vx 0x5 1 f
  | .vdqnt f => .vx 0x5 2 f
  | .vld f => .vx 0x6 0 f
  | .vst f => .vx 0x6 1 f
  | .vldx f => .vx 0x6 2 f
  | .vstx f => .vx 0x6 3 f
  | .mRdv f => .m 0x0 f
  | .mma f => .m 0x1 f
  | .mnest f t => .mt 0x2 f t
  | .mbld f t => .mt 0x3 f t
  | .mwb f => .m 0x4 f
  | .mwbMem f t => .mt 0x4 f t
  | .mscl f => .m 0x5 f
  | .msclReg f => .m 0x5 f
  | .mtrn f => .m 0x6 f
  | .mxmov f => .m 0x7 f
  | .mzero f => .m 0x8 f
  | .mgang f => .m 0x9 f
  | .mgangLeave f => .m 0x9 f
  | .mkat f t => .mt 0xa f t
  | .yRdv f t => .y2 0x0 0 f t
  | .ycopy f t => .y2 0x1 0 f t
  | .yfill f t => .y2 0x1 1 f t
  | .ygath f t => .y2 0x1 2 f t
  | .yscat f t => .y2 0x1 3 f t
  | .ypref f t => .y2 0x1 4 f t
  | .yfpr f t => .y2 0x2 0 f t
  | .ycmp f t => .y2 0x2 1 f t
  | .dtld f t => .y2 0x2 2 f t
  | .ypin f t => .y2 0x3 0 f t
  | .yunpin f t => .y2 0x3 1 f t
  | .reshard f t x => .y3 0x4 0 f t (Pack.maps x)
  | .rsplan f t x => .y3 0x4 1 f t (Pack.maps x)
  | .xag f t x => .y3 0x4 2 f t (Pack.maps x)
  | .xrs f t x => .y3 0x4 3 f t (Pack.maps x)
  | .xa2a f t x => .y3 0x4 4 f t (Pack.maps x)
  | .xprm f t x => .y3 0x4 5 f t (Pack.maps x)
  | .xhalo f t => .y2 0x4 6 f t
  | .xstf f t => .y2 0x5 0 f t
  | .xatom f t x => .y3 0x5 1 f t (Pack.at_ x)
  | .writeMeshshape f => .ci 0x1c f
  | .writeMeshpos f => .ci 0x1c f
  | .writeBankloss f => .ci 0x1c f
  | .writeDphase f => .ci 0x1c f
  | .writeArstat f => .ci 0x1c f
  | .writeOrdmask f => .ci 0x1c f
  | .writePrommiss f => .ci 0x1c f
  | .writeTrapbase f => .ci 0x1c f
  | .writeTrapctl f => .ci 0x1c f
  | .writeRwctl f => .ci 0x1c f
  | .writeRwsup f => .ci 0x1c f
  | .writeRwlog f => .ci 0x1c f
  | .writeInject f => .ci 0x1c f
  | .writeMcstat f => .ci 0x1c f
  | .writeTraprecWord1 f => .ci 0x1c f
  | .writeDisplaced f => .ci 0x1c f
  | .mnestStep | .start | .stop | .abort | .jwinval _ | .hostRegisterWrite _ _ | .invalidationComplete 
  | .imageCheck | .hostBar2Access _ _ _ | .powerOn _ _ | .firmwareReplace _ _ _ | .debugModeChange _ _ 
  | .quote _ | .drain _ | .contextSave _ _ | .resume _ | .flitReceive _ _ _ | .bufferBankRetire _ 
  | .linkFailure _ | .heartbeat _ _ _ | .heartbeatMissed _ _ | .eccCorrectionReplay _ _ 
  | .farChainLinkRetry _ _ | .fadeDecrement _ _ | .walkComplete _ _ | .lineFetch _ _ _ | .promiseMiss _ _ 
  | .deadlock _ | .agePromotion _ | .candidateWaitExpiry _ _ _ | .trapEntry _ | .residueErrorLogic _ _ _ _ 
  | .residueErrorStorage _ _ _ | .uncorrectableError _ | .versionLogDiscard _ | .launchRelease _ 
  | .graphStateEffect | .counterFinal _ _ | .jobSeal | .unitReady _ | .placement _ | .unitDone _ 
  | .barrierArrival _ | .meshLaunchMatch _ | .collectiveMatch _ | .collectivePiece _ _ | .planComplete _ 
  | .resultWrite _ | .longLatencyComplete _ | .loadReturn _ _ | .atomReturn _ | .tokenComplete _ 
  | .dtldComplete _ | .ccvtComplete _ | .residencyLoaded _ | .mkatComplete _ | .pinFillComplete _ 
  | .flagIncrement _ | .icbcAckComplete _ | .portRowReady _ _ | .sinkRowAccepted _ _ | .fenceComplete _ 
  | .ctrwaitCondition _ | .sleepWake _ | .lanternDecision _ | .groupIssue _ | .deliveredFault _ 
  | .storePerformed _ | .versionSpillComplete _ _ | .linkLaneLoss _ _ | .linkReinitialisation _ 
  | .baseDieReinitialisation _ _ | .keyProvisioning => .event

/-- The words of a well-formed instruction. -/
def Instr.encode (i : Instr) : List W32 := i.shape.words

/-- The major opcode that TRAPREC reports (R250). -/
def Instr.major (i : Instr) : Nat := i.shape.op

/-- The fn field that TRAPREC reports (R250). -/
def Instr.fnField (i : Instr) : Nat := i.shape.fn

/-- Issue control (R321). -/
def Instr.iss (i : Instr) : BitVec 4 :=
  match i.shape with
  | .c3 _ _ f => f.iss
  | .ci _ f => f.iss
  | .cb _ f => f.iss
  | .cl _ f => f.iss
  | .cm _ _ f => f.iss
  | .vx _ _ f => f.iss
  | .m _ f | .mt _ f _ => f.iss
  | .y2 _ _ f _ | .y3 _ _ f _ _ => f.iss
  | .bk f => f.iss
  | .event => 0

/-! ## The opcode table's words -/

/-- The words of an instruction whose bits are `w`, `nbits` of them, followed by eight zero words. -/
def tableWords (nbits w : Nat) : List W32 :=
  (List.range ((nbits + 31) / 32)).map (fun k => BitVec.ofNat 32 (w >>> (32 * k))) ++ List.replicate 8 0

/-- What the decoder reads from such bits. The table does not name the engine of a word, and control and matrix words
overlap, so the maps are asked in the order C, M, V, Y and the first that accepts answers. -/
def decodeTableWord (nbits w : Nat) : Option Instr :=
  let ws := tableWords nbits w
  match decode .c ws, decode .m ws, decode .v ws, decode .y ws with
  | .ok (i, _), _, _, _ => some i
  | _, .ok (i, _), _, _ => some i
  | _, _, .ok (i, _), _ => some i
  | _, _, _, .ok (i, _) => some i
  | _, _, _, _ => none

end Sys2Proof
end

