-- ==== Sys2Proof/Config.lean ====
section
/-! DEFINITION. What is fixed for the module (01_module.md R9, R16) and the values the specification leaves open,
as constants without a body: nothing can be proved about one of their values. -/
namespace Sys2Proof.Config

/-- Compute dies of a module (R9). -/
def dies : Nat := 64
/-- Clusters of a die (R9). -/
def clusters : Nat := 8
/-- Cores of a cluster (R9). -/
def coresPerCluster : Nat := 16
/-- Cores of a die (R9). -/
def coresPerDie : Nat := 128
/-- Rows of a core's register space (R51). -/
def rows : Nat := 192
/-- Entries of a die's ready pool (R229). -/
def poolEntries : Nat := 8192
/-- Version ids of a die (R259). -/
def versionIds : Nat := 4096
/-- Bytes of a die's version log (R260). -/
def versionLogBytes : Nat := 1073741824
/-- Bytes of a die's memory-side cache (R9, R16). -/
def mscBytes : Nat := 268435456
/-- Bytes of each populated HBM range of a die (R159). -/
def hbmBytes : Nat := 256000000000
/-- Request-table entries of a core that serve requests without a promise (R179). -/
def freeEntries : Nat := 512
/-- Request-table entries of a core that serve promised requests (R179). -/
def promisedEntries : Nat := 1536
/-- Entries of a core TLB (R188). -/
def tlbEntries : Nat := 512
/-- Entries of a die TLB (R188). -/
def dieTlbEntries : Nat := 32768
/-- Page walkers of a die, and the distinct pages that a core may have under walk (R9, R188). -/
def walkers : Nat := 64
def coreWalks : Nat := 32

/-- The silicon revision in JWID (R297): the specification gives no value (log 14). -/
opaque siliconRevision : BitVec 16
/-- The contents of the vector blob of a save area (R263): only a resume can interpret them (log 21). -/
opaque blobByte : Nat → Byte
/-- The RSASSA-PKCS1-v1_5 signature that the attestation key makes of a digest (R302): the key never leaves the secure
core (log 17). -/
opaque quoteSignature : BitVec 256 → BitVec 3072
/-- The SHA-256 digest of a message (R302): a function of the message whose values no rule of the model uses (log 17). -/
opaque digest : List Byte → BitVec 256
/-- The digest of the running trusted firmware (R302), not given by the specification (log 17). -/
opaque trustedDigest : BitVec 256
/-- The bits of a conversion whose result the specification does not state (R74, R558: a port's CVT stage into a type
that VCVT does not convert to), by destination tag and source value (log 14). -/
opaque openConversion : Nat → Nat → Nat
/-- The tag of the elements that the encoded stream of a source port holds where its first stage is CVT and its space has
no element type (R72, R74): the specification names no field for it (log 28). -/
opaque portInput : BitVec 1024 → Fin 19
/-- A word whose value the specification does not state (log 14). -/
opaque freeWord : Nat → BitVec 64
/-- A byte that the specification allows to hold either of two values takes the second where this is true (R136, R586,
log 14). -/
opaque choice : Nat → Bool
/-- Bytes of host physical address space that the HDM decoders of the CXL ports claim, by address (R159, R189): how
system software programs them is not given (log 16). -/
opaque cxlClaimed : Nat → Bool
/-- Addresses that the host maps in its aperture (R159), not given by the specification (log 16). -/
opaque hostMapped : Nat → Bool

/-- The set of the memory-side cache that holds a line of 256 bytes (R165, R260): the specification gives no layout (log 40). -/
opaque mscSet : Nat → Nat

/-- A die keeps a route when some links have failed (R296): the layout of the links is not given (log 34). -/
opaque routed : List Nat → Nat → Bool

end Sys2Proof.Config
end

