-- ==== Sys2Proof/Machine/State.lean ====
section
/-! DEFINITION. The state of the K64 as plain data: everything the specification gives the machine (INVENTORY.md,
"State"), with its reset. A table is a list of keyed values; a key that is not listed reads the default. Keys: a core
is die * 128 + index on the die (R161), a context core * 4 + number, a cluster die * 8 + number, a link its number. -/
namespace Sys2Proof.Machine

/-- A sparse table: values by key, keys rising. -/
abbrev Tab (α : Type) := List (Nat × α)

/-- The format tags of R53; a reserved code is never held (R54). -/
inductive Fmt where
  | raw | fp64 | fp32 | bf16 | e4m3 | e5m2 | lg6 | ob8 | ob4 | e8m0
  | i8 | i16 | i32 | i64 | n8 | n16 | n32 | n64 | side
  deriving DecidableEq, Repr

/-- Execution modes, lowest first (R3). -/
inductive Mode where
  | unit | handler | management | secure
  deriving DecidableEq, Repr

/-- Engine states (R41). -/
inductive EngState where
  | joined | ready | syncBlocked | waiting | stopped
  deriving DecidableEq, Repr

/-- A position in the code: a line's virtual address and a lane (R308, R316). Lane 0 stands for no position. -/
structure Pos where
  line : Nat := 0
  lane : Nat := 0
  deriving DecidableEq, Repr

/-- An access of the context that is ordered before something: the operation's id, and whether its writes are meant as
well as its reads (R202: an asynchronous instruction's reads come before later accesses of its engine, all of it before
a consumer of its token). -/
structure Acc where
  op : Nat
  whole : Bool := true
  deriving DecidableEq, Repr

/-- A granule of the register space (R51, R53, R44). -/
structure Gran where
  bytes : GranBits := 0
  tag : Fmt := .raw
  full : Bool := false
  /-- The bit before its last change, and the cycle of that change: a wait is judged by the bit as it stood before the
  cycle (R44). -/
  wasFull : Bool := false
  flipped : Nat := 0
  /-- Accesses that the fill hands over to a reader (R202). -/
  handoff : List Acc := []
  deriving DecidableEq, Repr

/-- A token (R67), with the piece counter of R147 and the accesses its consumption orders (R202, R211). -/
structure Token where
  done : Bool := true
  promise : Nat := 0
  scope : Nat := 0
  pieces : Nat := 0
  /-- Its missed promise has been counted (R184). -/
  missed : Bool := false
  /-- The operation that last claimed the token (R537). -/
  op : Nat := 0
  hist : List Acc := []
  deriving DecidableEq, Repr

/-- TRAPREC words 0 to 5 (R250); words 6 and 7 read 0. -/
structure TrapRec where
  w0 : Word := 0
  w1 : Word := 0
  w2 : Word := 0
  w3 : Word := 0
  w4 : Word := 0
  w5 : Word := 0
  deriving DecidableEq, Repr

/-- A trap to be taken or handled: what TRAPREC will hold of it (R243, R250). -/
structure Trap where
  code : Nat
  sub : Nat := 0
  eng : Engine := .c
  pos : Pos := {}
  op : Nat := 0
  fn : Nat := 0
  async : Bool := false
  group : Option Nat := none
  inj : Bool := false
  token : Nat := 0
  phys : Bool := false
  addr : Nat := 0
  lane : Nat := 0
  gran : Nat := 0
  exp : Nat := 0
  act : Nat := 0
  detailB : Nat := 0
  detailA : Nat := 0
  rop : Nat := 0
  rfn : Nat := 0
  /-- The issue age of the instruction that raised it (R245). -/
  age : Nat := 0
  /-- The operation whose parked request it belongs to (R187). -/
  opId : Option Nat := none
  /-- The record that a save kept of it (R264, R265). -/
  saved : Option TrapRec := none
  deriving DecidableEq, Repr

/-- The effect of a result in flight (R47). -/
inductive Land where
  /-- An s register; `handler` tells whose copy of s56 to s63 it is for (R248). -/
  | sreg (r : Nat) (handler : Bool) (v : Word)
  | breg (r : Nat) (v : Word)
  | mask (r : Nat) (v : LaneMask)
  /-- The bits of `sel` of a granule take `data`; the tag becomes `tag`; the full bit is set where `fill` (R55, R64). -/
  | gran (g : Nat) (data sel : GranBits) (tag : Fmt) (fill : Bool)
  /-- A consume mark empties the granule (R44). -/
  | empty (g : Nat)
  /-- A row of a matrix operation reads its operands in this cycle and forms its result (R460). -/
  | matrixRow (run row : Nat)
  /-- A row is pushed to a sink port, by the operation that will store it (R542, R76). -/
  | push (port op : Nat) (data : BitVec 32768)
  /-- The flags of a matrix row or port stage are ORed into ARSTAT (R101). -/
  | flags (f : BitVec 6)
  deriving DecidableEq, Repr

/-- A result in flight: the cycle it lands in, the engine and the issue order that decide between writes of one cycle,
and what was ordered before it (R47, R202). -/
structure Landing where
  due : Nat
  eng : Engine
  seq : Nat
  act : Land
  hist : List Acc := []
  /-- The matrix instruction whose result it is (R459); 0 for none. -/
  run : Nat := 0
  deriving DecidableEq, Repr

/-- A write to a granule in the current cycle: what it wrote, and its place in the order of R47. -/
structure Laid where
  g : Nat
  eng : Nat
  seq : Nat
  data : GranBits
  sel : GranBits
  tag : Fmt
  deriving DecidableEq, Repr

/-- What an engine that is Waiting or Sync-blocked waits for (R41). -/
inductive Hold where
  | none
  | bits
  | rdv
  | tokens (ops : List (Nat × Nat))
  | sleep (until_ : Nat)
  | counter
  /-- BARW at an object of a cluster, in a generation, with its outcome once the generation has ended (R376). -/
  | barrier (cluster obj gen : Nat) (out : Option Word)
  | fence (issued : Nat) (accs : List Acc)
  | sreg
  | mem (op : Nat)
  | graph (effect : Nat)
  | mesh (contribution : Nat)
  | entries
  | residency
  | gang
  /-- Register-space reads of the copy engine that are replayed until a cycle (R69). -/
  | reads (until_ : Nat)
  /-- PBIND waits for its record: the current generation of each decode slot at its issue (R81), and the pages that it waits for
  (R188). -/
  | gens (current : List Nat) (walks : List Nat)
  /-- DTLD waits for a generation of a decode slot (R82). -/
  | slot (n : Nat)
  /-- Pages are under walk (R188): those that the instruction has had walked. -/
  | walk (pages : List Nat)
  | other
  deriving DecidableEq, Repr

/-- One engine of a context (R41, R315). -/
structure Eng where
  st : EngState := .joined
  /-- The state to return to when a stop ends (R249). -/
  before : EngState := .joined
  cur : Pos := {}
  /-- The position after the words of the instruction at the cursor. -/
  next : Pos := {}
  /-- The lines the cursor has entered and runs as fetched (R218). -/
  lines : List (Nat × BitVec 256) := []
  /-- The cycle in which the instruction at the cursor first stood at the issue point (R44). -/
  age : Option Nat := none
  hold : Hold := .none
  /-- The instruction that holds. -/
  held : Option Instr := none
  gapEnd : Nat := 0
  candSince : Option Nat := none
  hist : List Acc := []
  /-- The last occupied cycle of the engine's previous instruction. -/
  lastEnd : Nat := 0
  /-- Of the matrix engine: the register bits that its previous instruction writes, as starts and lengths, that
  instruction's numbers, whether its results count as full before they land (R459), and the next number. -/
  lastWrites : List (Nat × Nat) := []
  lastRuns : List Nat := []
  lastFull : Bool := false
  runNext : Nat := 1
  /-- ERET has armed the displaced word for the BKPT at the cursor (R267). -/
  displaced : Bool := false
  /-- One more than the cycle in which the context's SW mark, a hold or a trap last had the engine switch away from it (R238). -/
  left : Nat := 0
  /-- ERET has resumed the engine and it has not reached an instruction boundary since (R246). -/
  resumed : Bool := false
  deriving DecidableEq, Repr

/-- A position in a source port's stream (R73, R263): the next walk step, the encoded bytes read and not yet decoded, the
escape literals and side entries taken, and the decoded bytes that are not yet part of a row. -/
structure PortMark where
  step : Nat := 0
  raw : List Byte := []
  escapes : Nat := 0
  sideTaken : Nat := 0
  decoded : List Byte := []
  deriving DecidableEq, Repr

/-- A row that stands ready at a source port (R75): its bytes, its side entries, or the fault of its walk, and where in the
stream it began. -/
structure PortRow where
  data : BitVec 32768 := 0
  side : List (Nat × Nat) := []
  fault : Option Trap := none
  mark : PortMark := {}
  deriving DecidableEq, Repr

/-- A bound stream port (R71 to R79). -/
structure Port where
  /-- The 128-byte binding record. -/
  record : BitVec 1024
  /-- Source: how far the walk has been read, and the rows that stand ready. -/
  at_ : PortMark := {}
  rows : List PortRow := []
  delivered : Nat := 0
  /-- Sink: rows pushed and not yet accepted by memory, each with the operation that stores it. -/
  pushed : List (BitVec 32768 × Nat) := []
  accepted : Nat := 0
  pushes : Nat := 0
  /-- The captured decode-table generation (R81) and the decode FIFO bytes reserved (R79). -/
  gen : Nat := 0
  fifo : Nat := 0
  /-- A block of the walk that failed its ratio or run check: no further block is decoded (R77, R78). -/
  broken : Option Trap := none
  parked : Bool := false
  /-- Acquires before PBIND that its reads follow (R204, R76). -/
  waits : List Acc := []
  deriving DecidableEq, Repr

/-- The registers of a context (R66). Handler copies of s56 to s63 stand in `h` (R248). -/
structure Regs where
  s : Tab Word := []
  h : Tab Word := []
  b : Tab Word := []
  m : Tab LaneMask := []
  k : Tab Token := []
  sm : Tab MapWord := []
  deriving DecidableEq, Repr

/-- The special registers of a context. -/
structure Sprs where
  dphase : Word := 0
  arstat : Word := 0
  ordmask : Word := 0xFFFFFFFF
  prommiss : Word := 0
  trapbase : Word := 0
  trapctl : Word := 1
  inject : Word := 0
  displaced : Word := 0
  rwctl : Word := 7
  rwsup : Word := 0
  trapRec : TrapRec := {}
  deriving DecidableEq, Repr

/-- The views of a context (R58 to R62). -/
structure Views where
  t : Tab Word := []
  a : Tab Word := []
  vt : Word := 2
  deriving DecidableEq, Repr

/-- A part of a product's K range (R475, R480): where the rows of A come from (a tile view, transposed or not, an accumulator
view, or popped rows), the resident B in row-major order with its scales, and the column of A that enters each macro row. -/
structure KPart where
  a : Word := 0
  ta : Bool := false
  accA : Option Word := none
  popped : Bool := false
  rows : List PortRow := []
  fmt : Fmt
  bfmt : Fmt
  k : Nat
  elems : List Int
  scales : List Nat
  route : List Nat := []
  deriving DecidableEq, Repr

/-- What the rows of a matrix instruction compute (R475, R484, R488). -/
inductive MatKind where
  | mma | mscl | mwb
  deriving DecidableEq, Repr

/-- A matrix instruction whose rows are read one after another (R460). -/
structure MatRun where
  kind : MatKind
  acc : Word
  n : Nat
  za : Bool := false
  rnd : Nat := 0
  sat : Bool := false
  ea : Int := 0
  /-- MSCL's factor, or the factor F of R280, as FP64. -/
  factor : Option Word := none
  /-- Of a second replacement, the s register of the factor, read in the cycle of its own issue (R287). -/
  factorReg : Option Nat := none
  parts : List KPart := []
  /-- LG6 scales of A rows and B columns (R479). -/
  lgA : List Nat := []
  lgB : List Nat := []
  /-- MWB: the destination tile with its sync code, the operation that stores the rows, or a sink port with its type. -/
  dst : Word := 0
  sync : Nat := 0
  op : Nat := 0
  port : Option Nat := none
  /-- The matrix instruction before it, whose results it sees (R459), and the cycle in which all of its writes land where
  that is one (R287, R460). -/
  prev : List Nat := []
  landAt : Option Nat := none
  hist : List Acc := []
  deriving DecidableEq, Repr

/-- An instruction in the Lantern window (R269): its position, the position after it, and it. -/
structure WinEntry where
  pos : Pos
  next : Pos
  ins : Instr
  deriving DecidableEq, Repr

/-- A replacement instruction of a Lantern group with its derived state (R280): PR through a residency, EA, the factor
register F, a joined second K range, an accumulator as A operand. -/
structure Repl where
  ins : Instr
  prTile : Option Nat := none
  prRouting : Bool := false
  ea : Int := 0
  factor : Option Nat := none
  joined : List Instr := []
  accA : Option Nat := none
  /-- MBLD whose token completes the tokens of MBLDs that the group eliminates (R287). -/
  alsoToks : List Nat := []
  deriving DecidableEq, Repr

/-- A group of the Lantern (R287, R288). -/
structure Group where
  rule : Nat
  pos : Pos
  next : Pos
  covers : Nat
  firstOp : Nat
  repls : List Repl
  deriving DecidableEq, Repr

/-- The Lantern's state in a context (R269, R274). -/
structure Lantern where
  win : List WinEntry := []
  group : Option Group := none
  /-- Tile views that a consume-marked operand has named (R274). -/
  consumed : List Nat := []
  /-- A flush point of another engine acts at the next undecided head (R274). -/
  flush : Bool := false
  /-- The head has been decided to issue alone (R271). -/
  alone : Bool := false
  deriving DecidableEq, Repr

/-- A nest in progress (R477 to R481): the MNEST, its step indices, and whether its progress is valid. -/
structure Nest where
  ins : Instr
  shadow : Nat
  pos : Pos
  next : Pos
  idx : List Nat := [0, 0, 0, 0, 0, 0]
  /-- VAL of R479: the progress of a stopped MNEST. -/
  val : Bool := false
  steps : Nat := 0
  /-- The B view of the step before; a write-back of the current tuple is still to issue. -/
  lastB : Option Word := none
  wb : Bool := false
  op : Nat := 0
  deriving DecidableEq, Repr

/-- A context of a core (R38): at most one unit, its footprint, its registers and its four engines. -/
structure Ctx where
  unit : Option Nat := none
  mode : Mode := .unit
  depth : Word := 0
  foot : Nat := 0
  base : Nat := 0
  regs : Regs := {}
  sprs : Sprs := {}
  views : Views := {}
  /-- The view set captured by the last FORK (R42). -/
  captured : Views := {}
  gran : Tab Gran := []
  ports : Tab Port := []
  c : Eng := {}
  v : Eng := {}
  m : Eng := {}
  y : Eng := {}
  /-- The control engine as it stopped, while the handler runs in it (R248, R249). -/
  stopped : Eng := {}
  lands : List Landing := []
  /-- The writes to granules that were applied in the cycle `laidAt`, in the order of R47. -/
  laid : List Laid := []
  laidAt : Nat := 0
  /-- Traps raised or delivered and not yet taken (R246). -/
  pend : List Trap := []
  /-- The trap being handled (R248). -/
  handling : Option Trap := none
  /-- The cycle since which the DEADLOCK conditions hold (R48). -/
  deadSince : Option Nat := none
  /-- Flags ORed into ARSTAT in a cycle: a SYSW to ARSTAT of the same cycle goes before them (R101). -/
  flagCycle : Nat := 0
  flagBits : BitVec 6 := 0
  shadow0 : BitVec 2048 := 0
  shadow1 : BitVec 2048 := 0
  nest : Option Nest := none
  lantern : Lantern := {}
  /-- Matrix instructions whose rows are still to be read, by number. -/
  mats : Tab MatRun := []
  /-- A save has been requested to this area (R263). -/
  saving : Option Nat := none
  deriving DecidableEq, Repr

/-- One piece of an access: a contiguous physical range (R196). -/
structure Seg where
  va : Nat
  pa : Nat
  len : Nat
  deriving DecidableEq, Repr

/-- A calendar request: its channel, far flag, its last slot in mc cycles, and the cycle it completes in (R174 to R178). -/
structure Req where
  ch : Nat
  far : Bool
  mc : Nat
  done : Nat
  /-- Its virtual address, 0 for a physical word, its physical address, and whether it reads (R182). -/
  va : Nat := 0
  pa : Nat := 0
  rd : Bool := true
  /-- Every slot it is bound to: one for each beat (R177). -/
  slots : List Nat := []
  /-- The cause of R182 that moved it, 0 for none. -/
  cause : Nat := 0
  deriving DecidableEq, Repr

/-- A calendar slot that a core has bound, or a request without one, in mc cycles: its channel, when its data arrives, and
whether it holds a promised entry from its slot until then (R175, R179). -/
structure Booked where
  key : Nat
  mc : Nat
  done : Nat := 0
  promised : Bool := false
  deriving DecidableEq, Repr

/-- A split dimension: its axes, the bounds of its shards, and the stored extent (R116 to R118). -/
structure Split where
  dim : Nat
  axes : List Nat
  bounds : List (Nat × Nat)
  ext : Nat
  deriving DecidableEq, Repr

/-- A step of a collective plan (R144): its kind code (8 for the halo step of XHALO), dimension and axes, for PRM the axis
that pairs with them, the map words before and after it with their splits, and the pieces of each die's output. -/
structure PlanStep where
  kind : Nat
  dim : Nat := 0
  axes : List Nat := []
  axis2 : Option Nat := none
  src : Word
  srcSp : List Split := []
  dst : Word
  dstSp : List Split := []
  pieces : Nat := 0
  deriving DecidableEq, Repr

/-- A plan (R140 to R143): its steps, the bytes moved, and the staging size per die. -/
structure Plan where
  steps : List PlanStep := []
  bytes : Nat := 0
  stage : Nat := 0
  deriving DecidableEq, Repr

/-- A collective in flight at one participant (R132 to R156). -/
structure Coll where
  tensor : Nat
  desc : BitVec 1024
  /-- What R133 compares: the map words with their split points. -/
  srcMap : MapWord := 0
  dstMap : MapWord := 0
  points : List Split := []
  dstTab : Nat := 0
  stgTab : Nat := 0
  /-- Sizes of the axes, the axes that its group spans, and this die's coordinates. -/
  sizes : List Nat
  axes : List Nat
  coords : List Nat
  /-- LAUNCHID, the unit's index and n (R132). -/
  key : List Nat
  plan : Plan
  matched : Bool := false
  /-- The operations of the participants, once matched. -/
  group : List Nat := []
  step : Nat := 0
  /-- Pieces below it are all performed (R147); pieces above it that are. -/
  counter : Nat := 0
  landed : List Nat := []
  /-- Pieces parked by TRANSLATE, in the order of their faults (R504). -/
  parkedPieces : List Nat := []
  /-- Flags raised by its steps (R144, R145). -/
  flags : BitVec 6 := 0
  /-- Elements of a piece whose sources have been read ahead of it: piece, element, value and flags (R151). -/
  early : List (Nat × Nat × Nat × BitVec 6) := []
  /-- FABRIC has stopped the plan here and ERET has not resumed it (R155, R156). -/
  lost : Bool := false
  deriving DecidableEq, Repr

/-- What an operation in flight is. -/
inductive OpKind where
  | load | store | atom | vload | vstore | async | port
  deriving DecidableEq, Repr

/-- An operation in flight: a request-table entry or an asynchronous instruction (R17, R179, R192 to R213, R573). -/
structure Op where
  ctx : Nat
  unit : Nat
  core : Nat
  eng : Engine
  pos : Pos
  ins : Instr
  kind : OpKind
  issued : Nat
  /-- Its place among the results that its engine has put in flight (R47). -/
  seq : Nat := 0
  cls : Nat := 0
  scope : Nat := 0
  tok : Nat := 0
  /-- The s register that the value returned is written to. -/
  dst : Nat := 0
  promise : Nat := 0
  /-- The earliest cycle in which the model performs it unasked (log 5), and the cycle by which its data has arrived where all
  of its requests have a class, 0 otherwise (R17, R157). -/
  due : Nat := 0
  limit : Nat := 0
  /-- Request-table entries that it holds without a promise (R179). -/
  entries : Nat := 1
  reads : Bool := false
  writes : Bool := false
  /-- Accesses that must be performed first (R197, R198, R204). -/
  waits : List Acc := []
  /-- The accesses before it in CTX order (R202). -/
  hist : List Acc := []
  /-- For an acquire: the mask of classes it orders (R204). -/
  acquire : Option (BitVec 16) := none
  va : Nat := 0
  segs : List Seg := []
  src : List Seg := []
  v1 : Word := 0
  v2 : Word := 0
  v3 : Word := 0
  handler : Bool := false
  data : List Byte := []
  /-- Bytes forwarded from pending stores of the context at issue (R201). -/
  fwd : List (Option Byte) := []
  grans : List Nat := []
  /-- The lanes that VLDX and VSTX access, one for each piece (R563). -/
  lanes : List Nat := []
  tag : Fmt := .raw
  reqs : List Req := []
  promised : Bool := false
  /-- Source bytes have been read (R201). -/
  sampled : Bool := false
  parked : Option Trap := none
  /-- A fault found on its data, with which it completes (R465, R573). -/
  fault : Option Trap := none
  /-- Pages under walk that the operation waits for (R188). -/
  walks : List Nat := []
  coll : Option Coll := none
  /-- MBLD: further tokens that complete with its own (R287). -/
  also : List Nat := []
  /-- MBLD of a gang: the gang and the number of the load in it (R466). -/
  gang : Option (Nat × Nat) := none
  deriving DecidableEq, Repr

/-- A unit's states (R36), with its terminal states (R25). -/
inductive UnitState where
  | held | waiting | ready | resident | completing | done | faulted | cancelled
  deriving DecidableEq, Repr

/-- Work at the job's graph state (R427): what a unit's instruction or its commit puts there. -/
inductive Work where
  | launch (index : Nat) (record : BitVec 1024) (args : Word)
  | edge (kind h : Nat) (a b : Word)
  | seal (phase : Bool)
  | cancel (level index : Nat)
  deriving DecidableEq, Repr

/-- An instruction's or a commit's work on its way to the graph state, and its answer there (R427, R614). -/
structure Effect where
  ctx : Nat
  unit : Nat
  pos : Pos := {}
  handler : Bool := false
  work : Work
  /-- Staged work of a unit that commits, and its place in the unit's program order (R35). -/
  committed : Bool := false
  order : Nat := 0
  /-- The accesses that a LAUNCH releases (R442). -/
  waits : List Acc := []
  /-- It has taken effect, with the value or the trap that its instruction answers. -/
  done : Bool := false
  val : Word := 0
  trap : Option Trap := none
  deriving DecidableEq, Repr

/-- A residency of the macros (R461): elements in row-major order, each the value of B with the difference of an OB
element, and the scales of its blocks (R105, R465). -/
structure Resid where
  ctx : Nat
  tile : Nat
  fmt : Fmt
  rows : Nat
  cols : Nat
  pass : Bool
  slot : Nat
  order : Nat
  /-- The load in flight; none once loaded, in the cycle `ready`. -/
  loading : Option Nat := none
  ready : Nat := 0
  elems : List Int := []
  scales : List Nat := []
  /-- Loaded from a save area: the residue that its first slot in error holds there, and the residue of the slot's value (R252,
  R264). A load writes both alike. -/
  upset : Option (Nat × Nat) := none
  deriving DecidableEq, Repr

/-- A unit of the job (R21, R36). -/
structure UnitRec where
  launch : Nat
  /-- The die whose pool it belongs to (R229, R235). -/
  die : Nat
  j : Nat
  st : UnitState := .held
  age : Option Nat := none
  inPool : Bool := false
  /-- Re-queued while the pool was full: it enters the pool ahead of the backlog (R230). -/
  ahead : Bool := false
  /-- Its home core, or none, once it has been considered for placement (R231). -/
  home : Option (Option Nat) := none
  /-- The first cycle in which placement considers it again, another die having taken the context it chose (R233). -/
  again : Nat := 0
  promoted : Bool := false
  /-- Cores that its machine checks fenced: it is placed on none of them again (R36, R232). -/
  avoid : List Nat := []
  ctx : Option Nat := none
  version : Option Nat := none
  /-- The die that gave the version id. -/
  versionDie : Nat := 0
  rollbacks : Nat := 0
  /-- Staged bytes by physical address, and the 256-byte lines of them spilled to the version log (R32, R260). -/
  staged : Tab Byte := []
  spilled : List Nat := []
  /-- The instant in which each line was first staged (R260). -/
  stagedAt : Tab Nat := []
  logWait : Bool := false
  work : List Work := []
  /-- Handles that the unit created (R33). -/
  created : List Word := []
  collectives : Nat := 0
  meshLaunches : Nat := 0
  /-- The save area and the part of the context that continues past a save (R263). -/
  saved : Option Nat := none
  savedPend : List Trap := []
  /-- What the opaque part of the save area stands for: the context as it was saved (R263; log 21). -/
  savedRest : Option Ctx := none
  savedResid : List Resid := []
  savedPorts : Tab Port := []
  /-- Tokens whose operations completed while the unit was saved (R263). -/
  savedDone : List Nat := []
  /-- While it is saved: the piece counters that its tokens have reached, and the flags of collectives that have completed
  (R145, R147, R263). -/
  savedPieces : Tab Nat := []
  savedFlags : BitVec 6 := 0
  /-- The instant from which the constant path reads after a FENCE (R217). -/
  constFloor : Nat := 0
  /-- The unit's RET or end has been reached while the unit is Completing (R37). -/
  ending : UnitState := .done
  deriving DecidableEq, Repr

/-- A completion counter (R24); `final` is set when the counter reaches FINAL (R25). -/
structure Ctr where
  final : Bool := false
  sealed : Bool := false
  canc : Bool := false
  flt : Bool := false
  pending : Nat := 0
  failed : Nat := 0
  deriving DecidableEq, Repr

/-- A launch (R21, R224): its record, its graph, and the dies that hold copies. -/
structure LaunchRec where
  record : BitVec 1024
  args : Word
  graph : Nat
  die : Nat := 0
  mesh : Bool := false
  /-- Per die of a mesh launch, the record of that die's contribution (R234). -/
  copies : Tab (BitVec 1024 × Word) := []
  released : Bool := false
  started : Bool := false
  /-- The instant of its release (R217). -/
  releaseSeq : Nat := 0
  units : List Nat := []
  ctr : Ctr := {}
  deriving DecidableEq, Repr

/-- A recorded edge pattern (R412). -/
structure Pattern where
  kind : Nat
  h : Nat
  a : Nat
  b : Nat
  deriving DecidableEq, Repr

structure GraphRec where
  phase : Nat
  launches : List Nat := []
  patterns : List Pattern := []
  ctr : Ctr := {}
  deriving DecidableEq, Repr

structure PhaseRec where
  graphs : List Nat := []
  ctr : Ctr := {}
  deriving DecidableEq, Repr

/-- A contribution to a mesh launch (R234). -/
structure Contribution where
  die : Nat
  unit : Nat
  ctx : Nat
  pos : Pos := {}
  handler : Bool := false
  key : List Nat
  record : BitVec 1024
  args : Word
  /-- Staged work of a unit that commits, and its place in the unit's program order (R35). -/
  atCommit : Bool := false
  order : Nat := 0
  waits : List Acc := []
  /-- It has been matched, with the handle or the trap that its instruction answers. -/
  done : Bool := false
  val : Word := 0
  trap : Option Trap := none
  deriving DecidableEq, Repr

/-- The job's states (R297, R298). -/
inductive JobState where
  | idle | loading | running | stopped | done | faulted | aborted
  deriving DecidableEq, Repr

/-- A barrier arrival made and not yet counted (R375, R380). -/
structure Arrival where
  cluster : Nat
  obj : Nat
  unit : Nat
  ctx : Nat
  gen : Nat
  waits : List Acc := []
  deriving DecidableEq, Repr

/-- The job and its graph state (R21 to R29, R226 to R234, R427). -/
structure Job where
  st : JobState := .idle
  ctr : Ctr := {}
  launches : Tab LaunchRec := []
  launchNext : Nat := 0
  graphs : Tab GraphRec := []
  openGraph : Option Nat := none
  phases : Tab PhaseRec := []
  openPhase : Option Nat := none
  units : Tab UnitRec := []
  unitNext : Nat := 0
  queues : Tab (List Nat) := []
  effects : Tab Effect := []
  effectNext : Nat := 0
  contributions : Tab Contribution := []
  contributionNext : Nat := 0
  /-- The handle indices that versioned mesh contributions have been given, by key: one mesh launch has one handle (R234). -/
  meshHandles : List (List Nat × Nat) := []
  arrivals : Tab Arrival := []
  arrivalNext : Nat := 0
  /-- The digest of the image as it was loaded (R302). -/
  image : BitVec 256 := 0
  /-- A STOP is waiting for the saves (R298). -/
  stopping : Bool := false
  deriving DecidableEq, Repr

inductive BarState where
  | free | active | broken
  deriving DecidableEq, Repr

/-- An enrolment (R371). -/
structure Enrol where
  unit : Nat
  owe : Nat
  made : Nat
  deriving DecidableEq, Repr

/-- A barrier object (R371). `last` is 0 none, 1 complete, 2 broken. -/
structure Bar where
  st : BarState := .free
  scope : Nat := 2
  total : Nat := 0
  arr : Nat := 0
  owed : Nat := 0
  gen : BitVec 16 := 0
  last : Nat := 0
  enrol : List Enrol := []
  deriving DecidableEq, Repr

/-- A way group of a cluster cache (R166 to R168). -/
inductive WayState where
  | cache | scratch | toScratch (op : Nat) | toCache (op : Nat)
  deriving DecidableEq, Repr

/-- A gang of a cluster (R469): its size and its members' contexts, with the count of MBLDs each has matched. -/
structure Gang where
  size : Nat
  members : List Nat := []
  /-- Members whose MGANG has not retired. -/
  joining : List Nat := []
  formed : Bool := false
  loads : Tab Nat := []
  deriving DecidableEq, Repr

structure Cluster where
  bars : Tab Bar := []
  ways : Tab WayState := []
  gangs : Tab Gang := []
  deriving DecidableEq, Repr

/-- A generation of a decode table (R80). -/
structure DecodeTable where
  entries : BitVec 256 := 0
  ty : Fmt := .bf16
  deriving DecidableEq, Repr

/-- A decode-table slot: two generations, the current one, and the load in flight with the generation it fills (R80,
R408). -/
structure Slot where
  g0 : DecodeTable := {}
  g1 : DecodeTable := {}
  current : Nat := 0
  loading : List (Nat × Nat) := []
  deriving DecidableEq, Repr

/-- A TLB entry (R188): the page's virtual base, its size in bits, its leaf entry, and the module whose tables hold it. -/
structure TlbEnt where
  base : Nat
  bits : Nat
  pte : Word
  home : Nat := 0
  deriving DecidableEq, Repr

/-- A snapshot of a descriptor or block entry held by a core's address units (R124). -/
structure Snapshot where
  addr : Nat
  bytes : List Byte
  deriving DecidableEq, Repr

/-- A core (R9): shared registers, the issue selection of its engines, its macros and its caches. -/
structure Core where
  bankSel : Nat := 0
  bankLoss : Tab Nat := []
  rwlogSel : Nat := 0
  rwlog : Tab Nat := []
  rwperm : Word := 0
  fenced : Bool := false
  retries : Nat := 0
  ksig : Word := 0
  rules : Tab (BitVec 128) := []
  slots : Tab Slot := []
  resid : List Resid := []
  residNext : Nat := 0
  /-- Current context, the cycle in which it became current, and busy cycle per engine, in the order C, V, M, Y (R236). -/
  current : Tab Nat := []
  since : Tab Nat := []
  busy : Tab Nat := []
  /-- Banks whose read of a cycle has been granted, by cycle (R69). -/
  bank : Tab (List Nat) := []
  tlb : List TlbEnt := []
  icache : Tab (BitVec 256) := []
  snaps : List Snapshot := []
  /-- Calendar slots bound (R175). -/
  bound : List Booked := []
  /-- The MKAT that runs, and the idle cycles it has had; the matrix engine streams A in every cycle below `stream` (R473). -/
  kat : Option (Nat × Nat) := none
  stream : Nat := 0
  deriving DecidableEq, Repr

/-- A pinned window (R171, R172). -/
structure Pin where
  base : Nat
  size : Nat
  segs : List Seg
  fade : Nat
  count : Nat := 0
  since : Nat := 0
  filled : Bool := false
  /-- YUNPINs while the fill runs (R592): their operations. -/
  unpin : List Nat := []
  deriving DecidableEq, Repr

/-- Refresh of a near stack (R306, R307): the last heartbeat with its OWED, heartbeats missed since, and the cycle of the
takeover where the controller owns the refresh. -/
structure Refresh where
  takenOver : Bool := false
  lastBeat : Nat := 0
  owed : Nat := 0
  missed : Nat := 0
  takeover : Nat := 0
  deriving DecidableEq, Repr

/-- The power states (R305). -/
inductive Power where
  | active | idle | parked | sleep
  deriving DecidableEq, Repr

/-- A die (R9). -/
structure Die where
  meshshape : Word := 0x001001001001
  meshpos : Word := 0
  tdtab : Word := 0
  ptroot : Word := 0
  /-- Slot tables by channel; a channel that is not listed has the default table (R173). -/
  calendar : Tab (List Byte) := []
  pins : List Pin := []
  refresh : Tab Refresh := []
  tlb : List TlbEnt := []
  /-- Page walks, oldest first: the core and the page (R188). -/
  walks : List (Nat × Nat) := []
  /-- Entries that a TLB of the die has held since they were last invalidated: a translation may use any of them (R188). -/
  seen : List TlbEnt := []
  /-- The promoted unit that reserves a core (R233). -/
  reserved : Tab Nat := []
  /-- The management firmware has placed the die in the job mesh (R13). -/
  placed : Bool := true
  /-- A drain waits for the die's contexts to be saved, and then for the die to be out of service (R263, R304). -/
  draining : Bool := false
  out : Bool := false
  stacksOut : List Nat := []
  channelsOut : List Nat := []
  fwOk : Bool := false
  fwImage : Nat := 0
  /-- The image that replaces it, whether it was verified, and the cycle in which the services paused (R303). -/
  fwNext : Option (Nat × Bool × Nat) := none
  /-- The management core's log (R298) and fault log (R249). -/
  flog : List TrapRec := []
  /-- Records whose copy into the fault log waits for the new firmware image (R303). -/
  flogWait : List TrapRec := []
  deriving DecidableEq, Repr

/-- Link states (R294). -/
inductive LinkState where
  | normal | restricted | failed
  deriving DecidableEq, Repr

/-- A link's receiving side (R291 to R296). -/
structure Link where
  st : LinkState := .normal
  /-- Banks in use; one more is held spare (R294). -/
  good : Nat := 67
  spare : Bool := true
  /-- Lanes lost (R294). -/
  lanesLost : Nat := 0
  /-- Flit allotment per channel, and of the pool (R292, R295). -/
  reserve : List Nat := [2, 2, 2, 2, 2, 2]
  pool : Nat := 256
  seq : BitVec 12 := 0
  errors : Nat := 0
  /-- Flits in the receive buffer, oldest first; each holds the credit that it spent (R292). -/
  held : List (Word × BitVec 512) := []
  /-- Flits delivered, oldest first. -/
  received : List (Word × BitVec 512) := []
  deriving DecidableEq, Repr

/-- An entry of the management log (R298). -/
inductive LogEntry where
  | jobEnd (st : JobState)
  | err (code : Nat)
  | linkState (link : Nat) (st : LinkState)
  | reduced (part : ServicePart)
  | coreFenced (core : Nat)
  | posture (degraded : Bool)
  | commitFailed (unit : Nat) (trap : Nat)
  | faultRecord (die : Nat)
  | lateHeartbeat (die stack : Nat)
  deriving DecidableEq, Repr

/-- A quote as it is returned (R302): the digest that was signed, and the signature; none when it is unsigned with
status DEGRADED. -/
structure Quote where
  digest : BitVec 256
  signature : Option (BitVec 3072)
  deriving DecidableEq, Repr

/-- The job window and the security state (R297 to R305). -/
structure HostIf where
  jwimage : Word := 0
  jwaper : Word := 0
  err : Nat := 0
  /-- The ranges under invalidation: first byte and length (R300). -/
  inval : List (Nat × Nat) := []
  msix : List Nat := []
  log : List LogEntry := []
  readData : List Byte := []
  quotes : List Quote := []
  debug : DebugMode := .locked
  trustedOk : Bool := false
  /-- The security posture is degraded (R301). -/
  degraded : Bool := false
  keyPresent : Bool := true
  deriving DecidableEq, Repr

/-- What the schedule does next: data that says which agent moves (log 5). -/
inductive Turn where
  /-- An event of the opcode table. -/
  | event (i : Instr)
  /-- An engine of a core has its turn in this cycle. -/
  | engine (core : Nat) (e : Engine)
  /-- The clock advances. -/
  | tick
  /-- An asynchronous operation reads its source bytes now (R201). -/
  | sample (op : Nat)
  /-- The sources of one element of a piece of a collective are read now (R151). -/
  | sampleElem (op piece elem : Nat)
  /-- A core TLB, die TLB, instruction-cache line or snapshot is dropped. -/
  | evictTlb (core : Nat) (base : Nat)
  /-- A core translates by an entry that was valid before a change whose invalidation has not completed (R188). -/
  | staleTlb (core : Nat) (e : TlbEnt)
  | evictDieTlb (die : Nat) (base : Nat)
  | evictLine (core : Nat) (line : Nat)
  | evictSnapshot (core : Nat) (addr : Nat)
  /-- A granule of a row load fills before the others that have not (R562). -/
  | granule (op gran : Nat)
  /-- The receiver of a link delivers the oldest flit of a channel and returns its credit (R292, R293). -/
  | freeFlit (link vc : Nat)
  /-- While no job runs, external fabric ports join modules: so many stand together from now on (R9, R11; log 26). -/
  | join (modules : Nat)
  /-- The management core of a die, or the secure core of a module, executes an instruction on the special registers, with values
  that its firmware has put into its s registers (R3, R10; log 17). -/
  | firmware (core : Nat) (i : Instr) (regs : Tab Word)
  deriving DecidableEq, Repr

/-- A write kept for the constant path (R217): the cell's previous byte. -/
structure Undo where
  seq : Nat
  addr : Nat
  old : Byte
  deriving DecidableEq, Repr

/-- The whole machine. -/
structure State where
  /-- CYCLE (R5, R174). -/
  cycle : Nat := 0
  /-- The context whose instruction `exec` runs. -/
  focus : Nat := 0
  /-- Chosen moves, then the engine turns left in this cycle (log 5). -/
  agenda : List Turn := []
  turns : List (Nat × Engine) := []
  opNext : Nat := 1
  seqNext : Nat := 0
  freshN : Nat := 0
  /-- The modules that the external fabric ports join, 1 to 32; a job runs on all of them (R9, R12, R16; log 26). -/
  modules : Nat := 1
  /-- Memory by module and 52-bit physical address; an unlisted byte reads 0 (log 1). -/
  mem : List Host.Cell := []
  /-- Poisoned 256-byte blocks (R258). -/
  poison : List Nat := []
  undo : List Undo := []
  /-- The instant from which fetched lines may be old: that of the job's start, and the ranges that ICBC has renewed since, as
  first byte, length and instant (R218, R219). -/
  codeBase : Nat := 0
  codeSeen : List (Nat × Nat × Nat) := []
  ops : Tab Op := []
  ctxs : Tab Ctx := []
  cores : Tab Core := []
  clusters : Tab Cluster := []
  dies : Tab Die := []
  links : Tab Link := []
  job : Job := {}
  host : HostIf := {}
  deriving DecidableEq, Repr

/-- The model's reasons to stop. No path the specification describes ends in one: every fault of the specification is a
trap of a context and a next state. -/
inductive Fault where
  /-- Raised by no meaning: kept so that the type names the case of an address outside the 52-bit physical space (safe). -/
  | noSuchAddress (pa : Nat)
  deriving DecidableEq, Repr

/-- Why an instruction has no meaning. -/
inductive Refusal where
  /-- Raised by the dispatch alone, for a row that has no meaning yet (safe). -/
  | notModelled (mnemonic : String)
  deriving DecidableEq, Repr

/-- The machine right after reset: every register at its reset value, memory with nothing listed, no job (R14, R39, R70,
R80, R99, R100, R110, R173, R183, R185, R200, R247, R251, R255, R256, R267, R283 to R286, R297, R370; logs 1 to 5). -/
def State.reset : State := {}

end Sys2Proof.Machine
end

