-- ==== Sys2Proof/Machine/Tables.lean ====
section
/-! DEFINITION. Sparse tables, byte lists and memory: the named operations that every meaning uses. -/
namespace Sys2Proof.Machine

/-- The value listed at a key. -/
def tget {α : Type} : Tab α → Nat → Option α
  | [], _ => none
  | (j, v) :: t, k => if j = k then some v else tget t k

/-- The value at a key, or the default. -/
def tgetD {α : Type} (t : Tab α) (k : Nat) (d : α) : α := (tget t k).getD d

/-- Lists a value at a key, keys rising. -/
def tset {α : Type} : Tab α → Nat → α → Tab α
  | [], k, v => [(k, v)]
  | (j, w) :: t, k, v =>
    if k < j then (k, v) :: (j, w) :: t
    else if k = j then (k, v) :: t
    else (j, w) :: tset t k v

/-- Removes every value listed at a key. -/
def tdel {α : Type} : Tab α → Nat → Tab α
  | [], _ => []
  | (j, w) :: t, k => if j = k then tdel t k else (j, w) :: tdel t k

/-- Changes the value at a key. -/
def tmod {α : Type} (t : Tab α) (k : Nat) (d : α) (f : α → α) : Tab α := tset t k (f (tgetD t k d))

/-- The byte at an address: an unlisted address reads 0 (log 1). -/
def memRead : List Host.Cell → Nat → Byte
  | [], _ => 0
  | (j, v) :: t, a => if j = a then v else memRead t a

/-- Lists no byte at an address any more. -/
def memErase : List Host.Cell → Nat → List Host.Cell
  | [], _ => []
  | (j, v) :: t, a => if j = a then memErase t a else (j, v) :: memErase t a

/-- Stores a byte: an entry equal to what an unlisted address reads as is never listed. -/
def memWrite : List Host.Cell → Nat → Byte → List Host.Cell
  | [], a, b => if b = 0 then [] else [(a, b)]
  | (j, v) :: t, a, b =>
    if a < j then (if b = 0 then (j, v) :: memErase t a else (a, b) :: (j, v) :: t)
    else if a = j then (if b = 0 then memErase t a else (a, b) :: t)
    else (j, v) :: memWrite t a b

/-- Every listed address lies above a bound and lists no zero. -/
def memAbove : Nat → List Host.Cell → Bool
  | _, [] => true
  | n, (j, v) :: t => n ≤ j && v != 0 && memAbove (j + 1) t

/-- The canonical form: addresses strictly rising, no entry equal to what an unlisted address reads as. -/
def Memory.wf (m : List Host.Cell) : Bool := memAbove 0 m

/-- The n bytes from an address. -/
def memBytes (m : List Host.Cell) (a : Nat) : Nat → List Byte
  | 0 => []
  | n + 1 => memRead m a :: memBytes m (a + 1) n

/-- Stores bytes from an address. -/
def memStore (m : List Host.Cell) (a : Nat) : List Byte → List Host.Cell
  | [] => m
  | b :: bs => memStore (memWrite m a b) (a + 1) bs

/-- The number that a little-endian byte list holds (R4). -/
def natOfBytes : List Byte → Nat
  | [] => 0
  | b :: bs => b.toNat + 256 * natOfBytes bs

/-- The n low bytes of a number, least significant first (R4). -/
def bytesOfNat : Nat → Nat → List Byte
  | 0, _ => []
  | n + 1, v => BitVec.ofNat 8 v :: bytesOfNat n (v / 256)

/-- A 64-bit word in memory. -/
def memWord (m : List Host.Cell) (a : Nat) : Word := BitVec.ofNat 64 (natOfBytes (memBytes m a 8))

/-- Bits hi to lo of a number. -/
def bitsOf (v : Nat) (lo len : Nat) : Nat := v / 2 ^ lo % 2 ^ len

/-- Field of a word as a number. -/
def fld (w : Word) (lo len : Nat) : Nat := (w.toNat >>> lo) % 2 ^ len

/-- A number as a signed value of n bits. -/
def sgnOf (n v : Nat) : Int := if v % 2 ^ n < 2 ^ (n - 1) then (v % 2 ^ n : Nat) else (v % 2 ^ n : Nat) - (2 ^ n : Nat)

/-- A number reduced to n bits, two's complement. -/
def wrapOf (n : Nat) (v : Int) : Nat := (v % (2 ^ n : Nat)).toNat

/-- ⌈a / b⌉. -/
def ceilDiv (a b : Nat) : Nat := (a + b - 1) / b

/-- The numbers from a, n of them. -/
def rangeFrom (a : Nat) : Nat → List Nat
  | 0 => []
  | n + 1 => a :: rangeFrom (a + 1) n

/-- Lists without repeats. -/
def insertNew (l : List Nat) (a : Nat) : List Nat := if l.contains a then l else l ++ [a]

/-- The first element that gives a value. -/
def firstSome {α β : Type} (f : α → Option β) : List α → Option β
  | [] => none
  | a :: l => match f a with
    | some b => some b
    | none => firstSome f l

/-- Element n, counted from 0. -/
def nth {α : Type} (l : List α) (n : Nat) (d : α) : α := (l.drop n).headD d

end Sys2Proof.Machine
end

