-- ==== Sys2Proof/Machine/Access.lean ====
section
/-! DEFINITION. Reading and writing the parts of the state: contexts, cores, dies, units, the registers of a context
(03_registers.md R66, 10_faults.md R248), the granules of the register space (R51, R44) and results in flight (R47). -/
namespace Sys2Proof.Machine

/-- Context key to core, core to die, core to cluster. Dies are numbered through the modules, 64 to each (R9). Behind the compute
cores stand the management core of each die and the secure core of each module (R10). -/
def coreOf (c : Nat) : Nat := c / 4
def ctxNo (c : Nat) : Nat := c % 4
def mgmtCore (d : Nat) : Nat := 2 ^ 18 + d
def secureCore (m : Nat) : Nat := 2 ^ 19 + m
def dieOf (k : Nat) : Nat := if k < 2 ^ 18 then k / 128 else if k < 2 ^ 19 then k - 2 ^ 18 else (k - 2 ^ 19) * 64
/-- The module of a die, and the modules' share of an address: memory of module m begins at m · 2^52. -/
def moduleOf (d : Nat) : Nat := d / 64
def coreIdx (k : Nat) : Nat := k % 128
def clusterOf (k : Nat) : Nat := (k / 128) * 8 + (k % 128) / 16
def dieOfCtx (c : Nat) : Nat := dieOf (coreOf c)
/-- The four context keys of a core. -/
def ctxsOf (k : Nat) : List Nat := [4 * k, 4 * k + 1, 4 * k + 2, 4 * k + 3]

def State.ctx (s : State) (c : Nat) : Ctx := tgetD s.ctxs c {}
def State.setCtx (s : State) (c : Nat) (x : Ctx) : State := { s with ctxs := tset s.ctxs c x }
def State.modCtx (s : State) (c : Nat) (f : Ctx → Ctx) : State := s.setCtx c (f (s.ctx c))
def State.core (s : State) (k : Nat) : Core := tgetD s.cores k {}
def State.modCore (s : State) (k : Nat) (f : Core → Core) : State := { s with cores := tset s.cores k (f (s.core k)) }
/-- Compute dies of the modules that are joined. -/
def State.dieCount (s : State) : Nat := 64 * s.modules
def State.die (s : State) (d : Nat) : Die := tgetD s.dies d {}
def State.modDie (s : State) (d : Nat) (f : Die → Die) : State := { s with dies := tset s.dies d (f (s.die d)) }
def State.cluster (s : State) (g : Nat) : Cluster := tgetD s.clusters g {}
def State.modCluster (s : State) (g : Nat) (f : Cluster → Cluster) : State :=
  { s with clusters := tset s.clusters g (f (s.cluster g)) }
def State.modJob (s : State) (f : Job → Job) : State := { s with job := f s.job }
def State.modHost (s : State) (f : HostIf → HostIf) : State := { s with host := f s.host }
def State.unit? (s : State) (u : Nat) : Option UnitRec := tget s.job.units u
def State.modUnit (s : State) (u : Nat) (f : UnitRec → UnitRec) : State :=
  match tget s.job.units u with
  | some r => s.modJob fun j => { j with units := tset j.units u (f r) }
  | none => s
def State.op? (s : State) (n : Nat) : Option Op := tget s.ops n
def State.setOp (s : State) (n : Nat) (o : Op) : State := { s with ops := tset s.ops n o }
def State.delOp (s : State) (n : Nat) : State := { s with ops := tdel s.ops n }
def State.modOp (s : State) (n : Nat) (f : Op → Op) : State :=
  match tget s.ops n with
  | some o => s.setOp n (f o)
  | none => s

def Ctx.eng (x : Ctx) : Engine → Eng
  | .c => x.c
  | .v => x.v
  | .m => x.m
  | .y => x.y

def Ctx.setEng (x : Ctx) (e : Engine) (n : Eng) : Ctx :=
  match e with
  | .c => { x with c := n }
  | .v => { x with v := n }
  | .m => { x with m := n }
  | .y => { x with y := n }

def Ctx.modEng (x : Ctx) (e : Engine) (f : Eng → Eng) : Ctx := x.setEng e (f (x.eng e))
def State.eng (s : State) (c : Nat) (e : Engine) : Eng := (s.ctx c).eng e
def State.modEng (s : State) (c : Nat) (e : Engine) (f : Eng → Eng) : State := s.modCtx c fun x => x.modEng e f

/-- The order C, V, M, Y (R47). -/
def engNo : Engine → Nat
  | .c => 0
  | .v => 1
  | .m => 2
  | .y => 3

def allEngines : List Engine := [.c, .v, .m, .y]

def modeRank : Mode → Nat
  | .unit => 0
  | .handler => 1
  | .management => 2
  | .secure => 3

/-- The mode of a context is at least the given one (R3). -/
def Ctx.atLeast (x : Ctx) (m : Mode) : Bool := modeRank m ≤ modeRank x.mode

/-- The handler's copies of s56 to s63 are the ones in use (R248). -/
def Ctx.inHandler (x : Ctx) : Bool := x.mode != .unit

/-- An s register: s0 reads 0; s56 to s63 read the copy of the mode (R66, R248). -/
def Ctx.sr (x : Ctx) (r : Nat) : Word :=
  if r = 0 then 0
  else if x.inHandler && 56 ≤ r then tgetD x.regs.h r 0
  else tgetD x.regs.s r 0

/-- Writes an s register of the given copy: writes to s0 are discarded (R66, R248). -/
def Regs.setS (g : Regs) (r : Nat) (handler : Bool) (v : Word) : Regs :=
  if r = 0 then g
  else if handler && 56 ≤ r then { g with h := tset g.h r v }
  else { g with s := tset g.s r v }

def Ctx.br (x : Ctx) (r : Nat) : Word := tgetD x.regs.b r 0
def Regs.setB (g : Regs) (r : Nat) (v : Word) : Regs := { g with b := tset g.b r v }

/-- A mask register: m0 reads all ones (R66). -/
def Ctx.mr (x : Ctx) (r : Nat) : LaneMask := if r = 0 then BitVec.allOnes 4096 else tgetD x.regs.m r 0
def Regs.setM (g : Regs) (r : Nat) (v : LaneMask) : Regs := if r = 0 then g else { g with m := tset g.m r v }

/-- A token: k0 always reads complete with promise 0 (R67). -/
def Ctx.tok (x : Ctx) (k : Nat) : Token := if k = 0 then {} else tgetD x.regs.k k {}
def Ctx.setTok (x : Ctx) (k : Nat) (t : Token) : Ctx :=
  if k = 0 then x else { x with regs := { x.regs with k := tset x.regs.k k t } }
def Ctx.modTok (x : Ctx) (k : Nat) (f : Token → Token) : Ctx := x.setTok k (f (x.tok k))

def Ctx.setSprs (x : Ctx) (g : Sprs) : Ctx := { x with sprs := g }

def Ctx.sm (x : Ctx) (r : Nat) : MapWord := tgetD x.regs.sm r 0

/-- Granules are numbered from the footprint base, 16 to a row (R51). -/
def Ctx.granAt (x : Ctx) (g : Nat) : Gran := tgetD x.gran g {}
def Ctx.setGran (x : Ctx) (g : Nat) (v : Gran) : Ctx := { x with gran := tset x.gran g v }

/-- The full bit as it stood before the cycle: a wait is over in the cycle after the bit flips (R44). -/
def Gran.judged (g : Gran) (now : Nat) : Bool := if g.flipped = now then g.wasFull else g.full

/-- Sets the full bit in a cycle. -/
def Gran.mark (g : Gran) (now : Nat) (v : Bool) : Gran :=
  { g with full := v, wasFull := g.judged now, flipped := now }

/-- A tile view descriptor at reset: undefined, with SIDE 0xFF (R59). -/
def tUnset : Word := 0xFF

/-- A code pointer (R316). -/
def Pos.word (p : Pos) : Word := BitVec.ofNat 64 (p.line % 2 ^ 56 / 32 * 32 + p.lane % 8)
def posOfWord (w : Word) : Pos := { line := fld w 5 51 * 32, lane := fld w 0 3 }
/-- A nonzero code pointer with lane 0 or a nonzero reserved field breaks R316. -/
def badPointer (w : Word) : Bool := w != 0 && (fld w 0 3 == 0 || fld w 3 2 != 0 || fld w 56 8 != 0)

/-- The unit bound to a context. -/
def State.unitOf (s : State) (c : Nat) : Option UnitRec :=
  match (s.ctx c).unit with
  | some u => s.unit? u
  | none => none

def State.unitNo (s : State) (c : Nat) : Nat := (s.ctx c).unit.getD 0

def State.launch? (s : State) (l : Nat) : Option LaunchRec := tget s.job.launches l

/-- Bits of a 128-byte record: the field at a byte offset of its little-endian words. -/
def recWord (r : BitVec 1024) (off : Nat) : Word := r.extractLsb' (8 * off) 64
def recCtl (r : BitVec 1024) : Word := recWord r 72

/-- The unit is versioned (R31). -/
def LaunchRec.versioned (l : LaunchRec) : Bool := (recCtl l.record).getLsbD 3
def LaunchRec.prio (l : LaunchRec) : Nat := fld (recCtl l.record) 9 3
def LaunchRec.foot (l : LaunchRec) : Nat := fld (recCtl l.record) 12 8
def LaunchRec.queue (l : LaunchRec) : Nat := fld (recCtl l.record) 6 3
def LaunchRec.nx (l : LaunchRec) : Nat := fld (recWord l.record 64) 0 16 + 1
def LaunchRec.ny (l : LaunchRec) : Nat := fld (recWord l.record 64) 16 16 + 1
def LaunchRec.nz (l : LaunchRec) : Nat := fld (recWord l.record 64) 32 16 + 1
def LaunchRec.count (l : LaunchRec) : Nat := l.nx * l.ny * l.nz

def State.launchOf (s : State) (u : Nat) : Option LaunchRec :=
  match s.unit? u with
  | some r => s.launch? r.launch
  | none => none

def State.versioned (s : State) (c : Nat) : Bool :=
  match (s.ctx c).unit with
  | some u => match s.launchOf u with
    | some l => l.versioned
    | none => false
  | none => false

/-- The issue priority of a context (R237). -/
def State.prioOf (s : State) (c : Nat) : Nat :=
  match (s.ctx c).unit with
  | some u => match s.launchOf u with
    | some l => l.prio
    | none => 0
  | none => 0

/-- A fresh free value's index: the counter of the step (log 14). -/
def State.fresh (s : State) : Nat × State := (s.freshN, { s with freshN := s.freshN + 1 })

/-- Schedules a result of an engine (R47). -/
def State.land (s : State) (c : Nat) (e : Engine) (delay : Nat) (a : Land) (h : List Acc := []) : State :=
  let t : State := { s with seqNext := s.seqNext + 1 }
  t.modCtx c fun x =>
    { x with lands := x.lands ++ [{ due := s.cycle + delay, eng := e, seq := s.seqNext, act := a, hist := h }] }

/-- Schedules an s-register result of the control engine; s0 discards it (R66, R359). -/
def State.putS (s : State) (c : Nat) (r : Nat) (delay : Nat) (v : Word) : State :=
  if r = 0 then s else s.land c .c delay (.sreg r (s.ctx c).inHandler v)

end Sys2Proof.Machine
end

