-- ==== Sys2Proof/Machine/Mem.lean ====
section
/-! DEFINITION. Memory as the engines reach it: levels (07_memory.md R157 to R161), translation (R185 to R188),
calendars (R173 to R180), and the order in which accesses may be performed (08_ordering.md R192 to R206). -/
namespace Sys2Proof.Machine

/-- The level that backs a physical address (R157, R159). -/
inductive Level where
  | near (die ch : Nat)
  | far (die ch : Nat)
  | vault (die v : Nat)
  | scratch (die g : Nat) (converted : Option Nat)
  | cxl
  | host
  | none
  deriving DecidableEq, Repr

/-- The die of an address, through the modules, and the offset in its window (R159). -/
def paDie (pa : Nat) : Nat := pa / 2 ^ 46
def paOff (pa : Nat) : Nat := pa % 2 ^ 46

/-- The way group is scratchpad (R168). -/
def State.wayIsScratch (s : State) (g j : Nat) : Bool :=
  match tgetD (s.cluster g).ways j .cache with
  | .scratch => true
  | _ => false

/-- The channel of a die has been taken out of service, alone or with its stack of 32 (R9, R304; log 34). -/
def State.channelOut (s : State) (d ch : Nat) : Bool :=
  (s.die d).channelsOut.contains ch || (s.die d).stacksOut.contains (ch / 32)

/-- R159, with the unpopulated ranges as `none` (R160, R304). -/
def State.levelOf (s : State) (pa : Nat) : Level :=
  let d := paDie pa
  let o := paOff pa
  if s.dieCount ≤ d || (s.die d).out then .none
  else if o < Config.hbmBytes then if s.channelOut d (o / 4096 % 128) then .none else .near d (o / 4096 % 128)
  else if 2 ^ 38 ≤ o && o < 2 ^ 38 + Config.hbmBytes then
    if s.channelOut d ((o - 2 ^ 38) / 4096 % 128) then .none else .far d ((o - 2 ^ 38) / 4096 % 128)
  else if 2 ^ 40 ≤ o && o < 2 ^ 40 + 2 ^ 30 then
    if (o - 2 ^ 40) % 2 ^ 27 < 96 * 2 ^ 20 then .vault d ((o - 2 ^ 40) / 2 ^ 27) else .none
  else if 2 ^ 40 + 2 ^ 32 ≤ o && o < 2 ^ 40 + 2 ^ 32 + 2 ^ 27 then
    let g := (o - (2 ^ 40 + 2 ^ 32)) / 2 ^ 24
    let x := o % 2 ^ 24
    if x < 2 ^ 23 then .scratch d g Option.none
    else
      let j := (x - 2 ^ 23) / 2 ^ 21
      if j < 4 && s.wayIsScratch (d * 8 + g) j then .scratch d g (some j) else .none
  else if 2 ^ 44 ≤ o && o < 2 ^ 45 then
    if d % 64 < 4 && Config.cxlClaimed (moduleOf d * 2 ^ 46 + d % 64 * 2 ^ 44 + o % 2 ^ 44) then .cxl else .none
  else if 2 ^ 45 ≤ o && o < 2 ^ 45 + 2 ^ 44 then
    if d % 64 == 0 && Config.hostMapped (moduleOf d * 2 ^ 44 + o % 2 ^ 44) then .host else .none
  else .none

/-- Every byte of a contiguous physical range is populated (R160): the layout of a die changes at 4 KiB blocks, the claims on CXL
and host memory may at any byte. -/
def State.rangeLive (s : State) (pa len : Nat) : Bool :=
  match s.levelOf pa with
  | .none => false
  | .cxl | .host => (List.range len).all fun k => s.levelOf (pa + k) != .none
  | _ => (List.range ((pa % 4096 + len + 4095) / 4096)).all fun k => s.levelOf (max pa ((pa / 4096 + k) * 4096)) != .none

/-- The address lies in the CXL or host aperture (R159, R186). -/
def inSysAperture (pa : Nat) : Bool :=
  (2 ^ 44 ≤ paOff pa && paOff pa < 2 ^ 45 && paDie pa % 64 < 4)
  || (2 ^ 45 ≤ paOff pa && paOff pa < 2 ^ 45 + 2 ^ 44 && paDie pa % 64 == 0)

/-- A filled pinned window of the die holds the address (R171, R172). -/
def State.pinnedAt (s : State) (pa : Nat) : Bool :=
  (s.die (paDie pa)).pins.any fun p => p.filled && p.segs.any fun g => g.pa ≤ pa && pa < g.pa + g.len

/-- The latency class of an address for a core, in cc; none where no class applies (R17, R157). -/
def State.classTime (s : State) (core pa : Nat) : Option Nat :=
  match s.levelOf pa with
  | .near d _ => if d = dieOf core then some (if s.pinnedAt pa then 160 else 432) else none
  | .far d _ => if d = dieOf core then some (if s.pinnedAt pa then 160 else 720) else none
  | .vault d v =>
    if d = dieOf core then some (if d * 8 + v = clusterOf core then 64 else 128) else none
  | .scratch d _ w => if d = dieOf core then some (if w.isSome then 40 else 24) else none
  | .cxl | .host | .none => none

/-- TRANSLATE causes (R187). -/
def causeInvalid : Nat := 0
def causePerm : Nat := 1
def causeNoTarget : Nat := 2
def causeBlock : Nat := 3

/-- Bits below a level's page: level 2 maps 1 GiB, level 1 16 MiB, level 0 256 KiB (R186). -/
def levelShift : Nat → Nat
  | 0 => 18
  | 1 => 24
  | 2 => 30
  | _ => 42

def levelBits : Nat → Nat
  | 0 => 6
  | 1 => 6
  | 2 => 12
  | _ => 14

/-- The walk below a table of a level, in a module (R186). -/
def walkFrom (mem : List Host.Cell) (va home : Nat) : Nat → Nat → Option TlbEnt
  | level, table =>
    let e := memWord mem (home * 2 ^ 52 + table + 8 * bitsOf va (levelShift level) (levelBits level))
    let addr := fld e 12 40 * 4096
    if !e.getLsbD 0 || fld e 52 12 != 0 || fld e 5 7 != 0 then none
    else if e.getLsbD 1 then
      if level = 3 then none
      else if addr % 2 ^ levelShift level != 0 then none
      else some { base := va / 2 ^ levelShift level * 2 ^ levelShift level, bits := levelShift level, pte := e, home := home }
    else match level with
      | 0 => none
      | l + 1 => walkFrom mem va home l addr

/-- The walk of a virtual address from PTROOT (R185, R186): none is cause INVALID. -/
def State.walk (s : State) (die va : Nat) : Option TlbEnt :=
  let root := (s.die die).ptroot
  if !root.getLsbD 0 || 2 ^ 56 ≤ va then none
  else walkFrom s.mem va (moduleOf die) 3 (fld root 17 35 * 2 ^ 17)

def TlbEnt.hits (t : TlbEnt) (va : Nat) : Bool := va / 2 ^ t.bits * 2 ^ t.bits == t.base

def findTlb (l : List TlbEnt) (va : Nat) : Option TlbEnt := l.find? fun t => t.hits va

/-- The translation of a die: its TLB, or a walk (R188). -/
def State.dieLookup (s : State) (die va : Nat) : Option TlbEnt :=
  match findTlb (s.die die).tlb va with
  | some t => some t
  | none => s.walk die va

/-- The translation that an access of a core uses: core TLB, die TLB, walk (R188). -/
def State.lookup (s : State) (core va : Nat) : Option TlbEnt :=
  if 2 ^ 56 ≤ va || !(s.die (dieOf core)).ptroot.getLsbD 0 then none
  else match findTlb (s.core core).tlb va with
    | some t => some t
    | none => s.dieLookup (dieOf core) va

def pushCap {α : Type} (cap : Nat) (l : List α) (a : α) : List α := (a :: l).take cap

/-- A die's TLB takes an entry (R188). -/
def Die.holdEntry (d : Die) (t : TlbEnt) : Die :=
  if (findTlb d.tlb t.base).isSome then d
  else { d with tlb := pushCap Config.dieTlbEntries d.tlb t, seen := if d.seen.contains t then d.seen else d.seen ++ [t] }

/-- Fills the TLBs with a translation (R188). -/
def State.fillTlb (s : State) (core : Nat) (t : TlbEnt) : State :=
  let s1 := if (findTlb (s.core core).tlb t.base).isSome then s
    else s.modCore core fun k => { k with tlb := pushCap Config.tlbEntries k.tlb t }
  s1.modDie (dieOf core) fun d => d.holdEntry t

/-- Pages that a core has under walk (R188). -/
def State.walksOf (s : State) (core : Nat) : List Nat :=
  (s.die (dieOf core)).walks.filterMap fun w => if w.1 = core then some w.2 else none

/-- Walks begin: pages of a core join the die's walkers, oldest first (R188). -/
def State.startWalks (s : State) (core : Nat) (pages : List Nat) : State :=
  s.modDie (dieOf core) fun d => { d with walks := d.walks ++ pages.map fun p => (core, p) }

/-- A walker of the die serves the walk: those of the oldest walks are at work (R9, R188). -/
def State.walkServed (s : State) (core page : Nat) : Bool :=
  ((s.die (dieOf core)).walks.take Config.walkers).contains (core, page)

/-- What an access needs of its page. -/
inductive Need where
  | read | write | fetch
  deriving DecidableEq, Repr

def TlbEnt.pa (t : TlbEnt) (va : Nat) : Nat := t.home * 2 ^ 52 + fld t.pte 12 40 * 4096 + va % 2 ^ t.bits
def TlbEnt.sys (t : TlbEnt) : Bool := t.pte.getLsbD 4

/-- R186, R187, R160: the physical address under a translation, or the cause of TRANSLATE. -/
def State.through (s : State) (e : Option TlbEnt) (va : Nat) (n : Need) : Except Nat (Nat × TlbEnt) :=
  match e with
  | none => .error causeInvalid
  | some t =>
    let pa := t.pa va
    if (n == .write && !t.pte.getLsbD 2) || (n == .fetch && !t.pte.getLsbD 3) || (inSysAperture pa && !t.sys) then
      .error causePerm
    else if s.levelOf pa == .none then .error causeNoTarget
    else .ok (pa, t)

/-- The translation of an access that a core makes. -/
def State.xlate (s : State) (core va : Nat) (n : Need) : Except Nat (Nat × TlbEnt) := s.through (s.lookup core va) va n

/-- The translation of an access whose target lies on a die: that of another module translates it (R123). -/
def State.xlateAt (s : State) (core die va : Nat) (n : Need) : Except Nat (Nat × TlbEnt) :=
  if moduleOf die = moduleOf (dieOf core) then s.xlate core va n
  else s.through (if va < 2 ^ 56 && (s.die die).ptroot.getLsbD 0 then s.dieLookup die va else none) va n

/-- The smallest page, which bounds a contiguous piece (R186). -/
def pageBytes : Nat := 2 ^ 18

/-- A virtual range as contiguous physical pieces, under a translation of addresses; the error names the cause and the first
address that faults. -/
def State.xlateRange (s : State) (x : Nat → Except Nat (Nat × TlbEnt)) : Nat → Nat → Nat → Except (Nat × Nat) (List Seg)
  | 0, _, _ => .ok []
  | f + 1, va, len =>
    if len = 0 then .ok []
    else
      let k := min len (pageBytes - va % pageBytes)
      match x va with
      | .error c => .error (c, va)
      | .ok (pa, _) =>
        -- an unpopulated byte later in the piece faults as well (R160)
        if !s.rangeLive pa k then .error (causeNoTarget, va)
        else match s.xlateRange x f (va + k) (len - k) with
          | .error e => .error e
          | .ok l => .ok ({ va := va, pa := pa, len := k } :: l)

/-- Enough pieces for a range. -/
def pieces (va len : Nat) : Nat := (va % pageBytes + len) / pageBytes + 2

def State.range (s : State) (core : Nat) (n : Need) (va len : Nat) : Except (Nat × Nat) (List Seg) :=
  s.xlateRange (fun a => s.xlate core a n) (pieces va len) va len

/-- A virtual range of a die (R123). -/
def State.rangeAt (s : State) (core die : Nat) (n : Need) (va len : Nat) : Except (Nat × Nat) (List Seg) :=
  s.xlateRange (fun a => s.xlateAt core die a n) (pieces va len) va len

/-- The pages of a range that the core TLB does not hold (R188). -/
def State.missingPages (s : State) (core : Nat) : Nat → Nat → Nat → List Nat
  | 0, _, _ => []
  | f + 1, va, len =>
    if len = 0 then []
    else
      let k := min len (pageBytes - va % pageBytes)
      let rest := s.missingPages core f (va + k) (len - k)
      if (findTlb (s.core core).tlb va).isSome then rest else va / pageBytes * pageBytes :: rest

/-- Fills the TLBs for every page of a range (R188). -/
def State.fillRange (s : State) (core : Nat) : List Seg → State
  | [] => s
  | g :: l =>
    match s.lookup core g.va with
    | some t => (s.fillTlb core t).fillRange core l
    | none => s.fillRange core l

/-- The page of an address is at SYS scope (R186, R223). -/
def State.isSys (s : State) (core va : Nat) : Bool :=
  match s.lookup core va with
  | some t => t.sys
  | none => false

def bytesOfSegs (mem : List Host.Cell) : List Seg → List Byte
  | [] => []
  | g :: l => memBytes mem g.pa g.len ++ bytesOfSegs mem l

def segsLen : List Seg → Nat
  | [] => 0
  | g :: l => g.len + segsLen l

def segOverlap (a b : Seg) : Bool := a.pa < b.pa + b.len && b.pa < a.pa + a.len
def segsOverlap (a b : List Seg) : Bool := a.any fun x => b.any fun y => segOverlap x y

/-- The first poisoned block that a range touches (R258). -/
def State.poisonIn (s : State) (segs : List Seg) : Option Nat :=
  s.poison.find? fun b => segs.any fun g => g.pa < 256 * b + 256 && 256 * b < g.pa + g.len

/-- The first poisoned block that a write touches without covering it (R258). -/
def State.poisonHurt (s : State) (segs : List Seg) : Option Nat :=
  s.poison.find? fun b =>
    (segs.any fun g => g.pa < 256 * b + 256 && 256 * b < g.pa + g.len)
    && !(segs.any fun g => g.pa ≤ 256 * b && 256 * b + 256 ≤ g.pa + g.len)

/-- Writes bytes to physical memory, keeping the bytes they replace for the constant path (R217) and clearing poison of
the blocks that one access covers (R258). -/
def State.writePhys (s : State) (pa : Nat) (bs : List Byte) : State :=
  { s with
    mem := memStore s.mem pa bs
    undo := s.undo ++ (List.zip (rangeFrom pa bs.length) (memBytes s.mem pa bs.length)).map
      fun (a, b) => { seq := s.seqNext, addr := a, old := b }
    seqNext := s.seqNext + 1
    poison := s.poison.filter fun b => !(pa ≤ 256 * b && 256 * b + 256 ≤ pa + bs.length) }

/-- Writes consecutive bytes over the pieces of a range. -/
def State.writeSegs (s : State) : List Seg → List Byte → State
  | [], _ => s
  | g :: l, bs => (s.writePhys g.pa (bs.take g.len)).writeSegs l (bs.drop g.len)

/-- The address lies in a cluster scratchpad (R32, R34). -/
def inScratch (pa : Nat) : Bool :=
  2 ^ 40 + 2 ^ 32 ≤ paOff pa && paOff pa < 2 ^ 40 + 2 ^ 32 + 2 ^ 27

/-- Stages bytes in a unit's version (R32). -/
def stageBytes (t : Tab Byte) : Nat → List Byte → Tab Byte
  | _, [] => t
  | a, b :: bs => stageBytes (tset t a b) (a + 1) bs

def stageSegs (t : Tab Byte) : List Seg → List Byte → Tab Byte
  | [], _ => t
  | g :: l, bs => stageSegs (stageBytes t g.pa (bs.take g.len)) l (bs.drop g.len)

/-- The 256-byte lines of a range. -/
def linesOf (pa len : Nat) : List Nat := if len = 0 then [] else rangeFrom (pa / 256) ((pa + len - 1) / 256 - pa / 256 + 1)

def State.versionedUnit (s : State) (u : Nat) : Bool :=
  match s.launchOf u with
  | some l => l.versioned
  | none => false

/-- A write of a unit: staged where it is versioned and the target is not scratchpad, performed otherwise (R32, R34). -/
def State.unitWrite (s : State) (u : Nat) : List Seg → List Byte → State
  | [], _ => s
  | g :: l, bs =>
    let s1 := if s.versionedUnit u && !inScratch g.pa
      then { s with seqNext := s.seqNext + 1 }.modUnit u fun r =>
        { r with
          staged := stageBytes r.staged g.pa (bs.take g.len)
          stagedAt := (linesOf g.pa (min g.len bs.length)).foldl (fun t k => if (tget t k).isSome then t else tset t k s.seqNext) r.stagedAt }
      else s.writePhys g.pa (bs.take g.len)
    s1.unitWrite u l (bs.drop g.len)

/-- The bytes a unit reads: its own staged bytes over memory (R32). -/
def overlay (t : Tab Byte) : Nat → List Byte → List Byte
  | _, [] => []
  | a, b :: bs => (tget t a).getD b :: overlay t (a + 1) bs

def State.unitRead (s : State) (u : Nat) : List Seg → List Byte
  | [] => []
  | g :: l =>
    let bs := memBytes s.mem g.pa g.len
    (match s.unit? u with
      | some r => overlay r.staged g.pa bs
      | none => bs) ++ s.unitRead u l

/-- Way groups as an access issued in a cycle finds them: one whose conversion to cache was issued later is still scratchpad
to it (R167, R168). -/
def State.wayFor (s : State) (t : Nat) (w : WayState) : WayState :=
  match w with
  | .toCache n => if (s.op? n).any fun q => t < q.issued then .scratch else w
  | _ => w

def State.asIssued (s : State) (t : Nat) : State :=
  { s with clusters := s.clusters.map fun (k, g) => (k, { g with ways := g.ways.map fun (j, w) => (j, s.wayFor t w) }) }

/-- A hit in a filled pinned window reloads its counter (R172). -/
def touchPin (now : Nat) (segs : List Seg) (p : Pin) : Pin :=
  if p.filled && segsOverlap p.segs segs then { p with count := p.fade, since := now } else p

def State.touchPins (s : State) (segs : List Seg) : State :=
  { s with dies := s.dies.map fun (d, x) => (d, { x with pins := x.pins.map (touchPin s.cycle segs) }) }

/-- A byte as it stood before the writes from an instant on. -/
def byteAt (undo : List Undo) (from_ : Nat) (a : Nat) (b : Byte) : Byte :=
  match undo.find? fun w => w.addr == a && from_ ≤ w.seq with
  | some w => w.old
  | none => b

/-! ## Order -/

/-- The access is not yet performed, and a request may wait on it: none waits on a parked one (R187). -/
def State.pending (s : State) (a : Acc) : Bool :=
  match s.op? a.op with
  | some o => o.parked.isNone && (a.whole || (o.reads && !o.sampled))
  | none => false

/-- The accesses of a list that are still to be performed. -/
def State.prune (s : State) (l : List Acc) : List Acc := l.filter fun a => s.pending a

def addAcc (l : List Acc) (a : Acc) : List Acc := if l.contains a then l else l ++ [a]
def joinAcc (l k : List Acc) : List Acc := k.foldl addAcc l

/-- At CTX scope a synchronous access is performed as it issues, so that nothing waits for it there (R193, R201). -/
def Op.performedAt (p : Op) (scope : Nat) : Bool := scope == 0 && p.kind != .async

/-- An access that another one of its unit must not pass, because they overlap and were performed at CTX scope in this order:
a write after any access, and a read after one whose bytes cannot be forwarded yet (R197, R201). -/
def Op.blocks (p o : Op) : Bool :=
  p.unit == o.unit && p.kind != .async
  && ((o.writes && segsOverlap p.segs o.segs)
      || (p.writes && (p.kind == .atom || p.data.isEmpty) && segsOverlap p.segs (o.segs ++ o.src)))

/-- What must be performed before an access (R197, R198, R201, R204, R209): earlier accesses of its engine of its class or
overlapping it, accesses of its unit before it that it overlaps, acquires before it that cover its class, and for a release
everything before it in its mask. -/
def State.waitsFor (s : State) (o : Op) (release : Option (BitVec 16)) : List Acc :=
  let before := o.hist.filterMap fun a =>
    match s.op? a.op with
    | none => none
    | some p =>
      let mine := p.ctx == o.ctx && p.eng == o.eng && p.unit == o.unit
      if (mine && p.cls == o.cls) || (o.coll.isSome && p.unit == o.unit && p.writes)
        || (p.unit == o.unit && (mine || p.writes || o.writes) && segsOverlap (p.segs ++ p.src) (o.segs ++ o.src))
        || (match p.acquire with
            | some k => !p.performedAt p.scope && (k.getLsbD o.cls || p.cls == o.cls)
            | none => false)
        || (match release with
            | some k => !p.performedAt o.scope && (k.getLsbD p.cls || p.cls == o.cls)
            | none => false)
      then some { a with whole := a.whole || mine }
      else none
  joinAcc before ((s.ops.filter fun (_, p) => p.blocks o).map fun (n, _) => { op := n })

/-- Every access before it that it waits for has been performed. -/
def State.mayPerform (s : State) (o : Op) : Bool :=
  !(o.waits.any fun a => s.pending a) && o.parked.isNone && o.walks.isEmpty

def State.ordAcq (s : State) (c : Nat) : BitVec 16 := (s.ctx c).sprs.ordmask.extractLsb' 16 16
def State.ordRel (s : State) (c : Nat) : BitVec 16 := (s.ctx c).sprs.ordmask.extractLsb' 0 16

/-- The accesses before the next access of an engine (R202). -/
def State.histOf (s : State) (c : Nat) (e : Engine) : List Acc := s.prune (s.eng c e).hist

def State.addHist (s : State) (c : Nat) (e : Engine) (l : List Acc) : State :=
  s.modEng c e fun n => { n with hist := joinAcc n.hist l }

/-! ## Calendars -/

/-- The slot table of a channel: the default of R173 where none was loaded. -/
def defaultSlot (ch i : Nat) : Nat :=
  if i % 2 = 0 then ch
  else if i < 30 then
    let n := i / 2
    let g := ch / 16 * 16
    if g + n < ch then g + n else g + n + 1
  else if i = 63 then 0x81
  else 0x80

def State.slotOwner (s : State) (die ch i : Nat) : Nat :=
  match tget (s.die die).calendar ch with
  | some t => (nth t i 0xFF).toNat
  | none => defaultSlot ch i

/-- Refresh slots of a channel's table, at least 1 (R173, R307). -/
def State.refreshSlots (s : State) (die ch : Nat) : Nat :=
  max 1 ((List.range 64).filter fun i => s.slotOwner die ch i == 0x81).length

/-- The slot that a catch-up takes: the highest-numbered one that is not a refresh slot (R307). -/
def State.takenSlot (s : State) (die ch : Nat) : Nat :=
  (((List.range 64).filter fun i => s.slotOwner die ch i != 0x81).getLast?).getD 62

/-- Rotations of a channel in which the catch-up takes a slot: 8 N - 48 r, with N = OWED + 2 (R307). -/
def State.takenRotations (s : State) (die ch : Nat) (r : Refresh) : Nat := 8 * (r.owed + 2) - 48 * s.refreshSlots die ch

/-- The mc cycle in which rotation 1 after a takeover begins: the first whole rotation (R307; log 34). -/
def Refresh.firstMc (r : Refresh) : Nat := ceilDiv r.takeover 96 * 64

/-- The slot is taken by a catch-up (R307). -/
def State.slotTaken (s : State) (die ch m : Nat) : Bool :=
  match tget (s.die die).refresh (ch / 32) with
  | some r => r.takenOver && m % 64 == s.takenSlot die ch && r.firstMc ≤ m
      && m < r.firstMc + 64 * s.takenRotations die ch r
  | none => false

def State.ownsSlot (s : State) (core ch : Nat) : Bool :=
  (List.range 64).any fun i => s.slotOwner (dieOf core) ch i == coreIdx core

/-- mc cycle m begins at core cycle 3m/2; a request sent in it counts as issued at ⌈3m/2⌉ (R174). -/
def mcIssue (m : Nat) : Nat := (3 * m + 1) / 2
def firstMc (ready : Nat) : Nat := (2 * ready + 2) / 3

def reqBusy (r : Req) (m : Nat) : Bool := r.mc ≤ m && mcIssue m < r.done

/-- Promised entries of a core in use at a slot (R179). -/
def State.promisedAt (s : State) (core m : Nat) : Nat :=
  ((s.core core).bound.filter fun b => b.promised && b.mc ≤ m && mcIssue m < b.done).length

/-- The first slot that a core may bind on a channel from mc cycle m; one without a free promised entry is passed over by a
promised request (R175, R179). -/
def State.findSlot (s : State) (core ch : Nat) (promised : Bool) : Nat → Nat → Option Nat
  | 0, _ => none
  | f + 1, m =>
    if s.slotOwner (dieOf core) ch (m % 64) == coreIdx core
      && !((s.core core).bound.any fun b => b.key == dieOf core * 128 + ch && b.mc == m) && !s.slotTaken (dieOf core) ch m
      && (!promised || s.promisedAt core m < Config.promisedEntries)
    then some m
    else s.findSlot core ch promised f (m + 1)

/-- The next n slots in turn (R175, R177). -/
def State.findSlots (s : State) (core ch : Nat) (promised : Bool) : Nat → Nat → Option (List Nat)
  | 0, _ => some []
  | n + 1, m =>
    match s.findSlot core ch promised (64 * ((s.core core).bound.length + 34)) m with
    | none => none
    | some k => (s.findSlots core ch promised n (k + 1)).map fun l => k :: l

/-- A line of the unit's version that is held in the version log: its own loads have no class there (R260). -/
def State.inLog (s : State) (u pa : Nat) : Bool :=
  match s.unit? u with
  | some r => r.spilled.contains (pa / 256)
  | none => false

/-- Who makes a request: the core, the unit, whether it is to hold a promised entry, and whether it reads. -/
structure Asker where
  core : Nat
  unit : Nat
  promised : Bool := true
  rd : Bool := true

/-- A request in a latency class: its slots, where its level is HBM, are bound (R174 to R179). -/
def State.bindClass (s : State) (a : Asker) (va pa ready t : Nat) (hbm : Option (Nat × Bool)) : State × Option Req :=
  let book (l : List Booked) : State := s.modCore a.core fun k => { k with bound := k.bound ++ l }
  match hbm with
  | none =>
    (book [{ key := 2 ^ 20, mc := firstMc ready, done := ready + t, promised := a.promised }],
     some { ch := 128, far := false, mc := 0, done := ready + t, va := va, pa := pa, rd := a.rd })
  | some (ch, far) =>
    if s.ownsSlot a.core ch then
      match s.findSlots a.core ch a.promised (if far then 4 else 1) (firstMc ready) with
      | some l =>
        let m := l.getLastD 0
        (book (l.map fun k =>
          { key := dieOf a.core * 128 + ch, mc := k, done := mcIssue m + t, promised := a.promised && k == m }),
         some { ch := ch, far := far, mc := m, done := mcIssue m + t, va := va, pa := pa, rd := a.rd, slots := l })
      | none => (s, none)
    else (s, none)

/-- One request of at most 64 bytes (R174 to R180): its binding, or none where it has no class (R157, R176, R260). -/
def State.bindReq (s : State) (a : Asker) (va pa ready : Nat) : State × Option Req :=
  match (if a.rd && s.inLog a.unit pa then none else s.classTime a.core pa) with
  | none => (s, none)
  | some t => s.bindClass a va pa ready t (match s.levelOf pa with
    | .near _ ch => some (ch, false)
    | .far _ ch => some (ch, true)
    | _ => none)

/-- The requests of a contiguous piece, 64 bytes each, in address order (R174, R175). -/
def State.bindSeg (s : State) (a : Asker) (ready : Nat) : Nat → Nat → Nat → Nat → State × List Req × Bool
  | 0, _, _, _ => (s, [], true)
  | f + 1, va, pa, len =>
    if len = 0 then (s, [], true)
    else
      let k := min len (64 - pa % 64)
      let (s1, r) := s.bindReq a va pa ready
      let (s2, l, ok) := s1.bindSeg a ready f (va + k) (pa + k) (len - k)
      match r with
      | some q => (s2, q :: l, ok)
      | none => (s2, l, false)

/-- The requests of an access: the state, the requests in a class, and whether all of them are. -/
def State.bindSegs (s : State) (a : Asker) (ready : Nat) : List Seg → State × List Req × Bool
  | [] => (s, [], true)
  | g :: l =>
    let (s1, x, ok1) := s.bindSeg a ready (g.len / 64 + 2) g.va g.pa g.len
    let (s2, y, ok2) := s1.bindSegs a ready l
    (s2, x ++ y, ok1 && ok2)

/-- The cycle by which requests complete: the largest completion, one cycle on where there is none (log 5). -/
def reqsDue (now : Nat) (l : List Req) : Nat := l.foldl (fun n r => max n r.done) (now + 1)

/-- The cycle by which data has arrived, `lag` cycles after its last request, where all requests have a class; 0 otherwise. -/
def limitOf (ok : Bool) (l : List Req) (lag : Nat) : Nat := if ok && !l.isEmpty then l.foldl (fun n r => max n r.done) 0 + lag else 0

/-- Request-table entries in use without a promise, in a core (R179). -/
def State.freeUsed (s : State) (core : Nat) : Nat :=
  s.ops.foldl (fun n (_, o) => if o.core == core && !o.promised then n + o.entries else n) 0

/-- Entries that an access of n requests without a promise takes: further requests wait for entries to free (R179). -/
def State.takeEntries (s : State) (core n : Nat) : Nat := min n (Config.freeEntries - s.freeUsed core)

/-- The entries are in use: a request without a promise waits (R179). -/
def State.entriesFull (s : State) (core : Nat) : Bool := Config.freeEntries ≤ s.freeUsed core

/-- Forgets slots that have passed and entries that are free again. -/
def State.trimBound (s : State) (core : Nat) : State :=
  s.modCore core fun k => { k with bound := k.bound.filter fun b => firstMc s.cycle ≤ b.mc + 1 || (b.promised && s.cycle < b.done) }

end Sys2Proof.Machine
end

