-- ==== Sys2Proof/Machine/Lines.lean ====
section
/-! DEFINITION. Trap codes, instruction lines with their parity and lane structure, and the position that a cursor names
(10_faults.md R243; 13_encoding.md R308 to R315). -/
namespace Sys2Proof.Machine

/-! ## Trap codes (R243) -/

def tDecode : Nat := 0x01
def tPriv : Nat := 0x02
def tView : Nat := 0x03
def tFormat : Nat := 0x04
def tEmpty : Nat := 0x05
def tOrder : Nat := 0x06
def tAlign : Nat := 0x07
def tTable : Nat := 0x08
def tMesh : Nat := 0x09
def tBounds : Nat := 0x0A
def tPsum : Nat := 0x0B
def tTranslate : Nat := 0x0C
def tShared : Nat := 0x0D
def tRate : Nat := 0x0E
def tPass : Nat := 0x0F
def tTrap : Nat := 0x10
def tBkpt : Nat := 0x11
def tDeadlock : Nat := 0x12
def tPromise : Nat := 0x13
def tFabric : Nat := 0x14
def tCancel : Nat := 0x15
def tMcheck : Nat := 0x16

/-- A trap with a code and nothing else. -/
def trapOf (code : Nat) : Trap := { code := code }
/-- A trap that names a virtual address (R250, word 2). -/
def trapAt (code va : Nat) : Trap := { code := code, addr := va }
/-- TRANSLATE with its cause (R187). -/
def trapXlate (cause va : Nat) : Trap := { code := tTranslate, sub := cause, addr := va }
/-- MCHECK on a poisoned 256-byte block (R258). -/
def trapPoison (block : Nat) : Trap := { code := tMcheck, sub := 3, phys := true, addr := 256 * block }
/-- FORMAT and EMPTY name the first granule in address order (R56, R250). -/
def trapGran (code g : Nat) : Trap := { code := code, gran := g }

/-! ## Lines -/

/-- Lane n of a line (R308). -/
def laneWord (l : BitVec 256) (n : Nat) : W32 := l.extractLsb' (32 * n) 32
/-- The header nibble of lane n (R309). -/
def laneNibble (l : BitVec 256) (n : Nat) : Nat := (l.extractLsb' (4 * (n - 1)) 4).toNat

/-- The XOR of all 64 nibbles (R311). -/
def nibbleXor (l : BitVec 256) : BitVec 4 :=
  (List.range 64).foldl (fun a k => a ^^^ l.extractLsb' (4 * k) 4) 0

/-- An invalid nibble, or an empty lane that holds a word (R312). -/
def badLanes (l : BitVec 256) : Bool :=
  [1, 2, 3, 4, 5, 6, 7].any fun n =>
    let k := laneNibble l n
    (5 ≤ k && k ≤ 8) || 13 ≤ k || (k == 0 && laneWord l n != 0)

def lineOfBytes (bs : List Byte) : BitVec 256 := BitVec.ofNat 256 (natOfBytes bs)

/-- A line as an engine obtains it: the line, whether it is poisoned, or the trap that its fetch raises. -/
inductive LineRes where
  | ok (l : BitVec 256) (poisoned : Bool)
  | fault (t : Trap)

/-- A line overlaps a range. -/
def lineMeets (va n line : Nat) : Bool := line < va + n && va < line + 32

/-- The instant as of which a line is fetched: the job's start, or the latest ICBC over it (R218). -/
def State.lineBase (s : State) (line : Nat) : Nat :=
  s.codeSeen.foldl (fun n (va, k, q) => if lineMeets va k line then max n q else n) s.codeBase

/-- The bytes of a line as it is fetched. Writes since it was last made visible do not show in it, so that it is never half
written (R219; log 23). -/
def State.lineBytes (s : State) (line pa : Nat) : List Byte :=
  let bs := memBytes s.mem pa 32
  let u := s.undo.filter fun w => pa ≤ w.addr && w.addr < pa + 32
  if u.isEmpty then bs else (List.zip (rangeFrom pa 32) bs).map fun (a, b) => byteAt u (s.lineBase line) a b

/-- The line in memory, through translation (R320, R258). -/
def State.memLine (s : State) (core line : Nat) : Except Trap (BitVec 256) :=
  match s.xlate core line .fetch with
  | .error c => .error (trapXlate c line)
  | .ok (pa, _) =>
    match s.poisonIn [{ va := line, pa := pa, len := 32 }] with
    | some b => .error (trapPoison b)
    | none => .ok (lineOfBytes (s.lineBytes line pa))

/-- A level whose lines a cache of the core's die may hold: its own die (R158, R190, R191). -/
def cacheable (core : Nat) : Level → Bool
  | .near d _ | .far d _ | .vault d _ | .scratch d _ _ => d == dieOf core
  | .cxl | .host | .none => false

/-- The line that an engine enters: as already fetched, from the instruction cache, or from memory; a copy that fails
its parity is fetched again from memory once (R218, R219, R311, R312). -/
def State.getLine (s : State) (c : Nat) (e : Engine) (line : Nat) : LineRes :=
  let k := coreOf c
  let held := tget (s.eng c e).lines line
  let first := match held with
    | some l => Except.ok l
    | none => match tget (s.core k).icache line with
      | some l => Except.ok l
      | none => s.memLine k line
  match first with
  | .error t => .fault t
  | .ok l =>
    if nibbleXor l = 0 then .ok l (badLanes l)
    else match s.memLine k line with
      | .error t => .fault t
      | .ok l2 => .ok l2 (nibbleXor l2 != 0 || badLanes l2)

/-- A line comes from memory: the TLBs hold its page, the instruction cache the line where a cache may, and pinned windows are
hit (R158, R172). -/
def State.cacheLine (s : State) (k line : Nat) (l : BitVec 256) : State :=
  match s.lookup k line with
  | some t =>
    let pa := t.pa line
    let s1 := (s.fillTlb k t).touchPins [{ va := line, pa := pa, len := 32 }]
    if cacheable k (s.levelOf pa) then s1.modCore k fun x => { x with icache := tset x.icache line l } else s1
  | none => s

/-- The line has been fetched: the engine holds it, and the caches where it comes from memory. -/
def State.keepLine (s : State) (c : Nat) (e : Engine) (line : Nat) (l : BitVec 256) : State :=
  let k := coreOf c
  let s1 := if (tget (s.core k).icache line).isSome || (tget (s.eng c e).lines line).isSome then s else s.cacheLine k line l
  s1.modEng c e fun n => { n with lines := tset n.lines line l }

def nextLine (line : Nat) : Nat := (line + 32) % 2 ^ 56
/-- The position after a lane (R308). -/
def after (p : Pos) : Pos := if p.lane < 7 then { p with lane := p.lane + 1 } else { line := nextLine p.line, lane := 1 }

/-- What a lane is to an engine that searches. -/
inductive LaneKind where
  | first | cont | skip
  deriving DecidableEq, Repr

def laneKind (e : Engine) (nib : Nat) : LaneKind :=
  if nib = 1 + engNo e then .first else if nib = 9 + engNo e then .cont else .skip

/-- The next lane of the engine at or after a lane of one line. -/
def findLane (e : Engine) (l : BitVec 256) : List Nat → Option (Nat × LaneKind)
  | [] => none
  | n :: rest =>
    match laneKind e (laneNibble l n) with
    | .skip => findLane e l rest
    | k => some (n, k)

def lanesFrom (n : Nat) : List Nat := rangeFrom n (8 - n)

/-- The next first word of an engine from a position, if its lines can be read (R315). -/
def State.nextFirst (s : State) (c : Nat) (e : Engine) : Nat → Pos → Option Pos
  | 0, _ => none
  | f + 1, p =>
    match s.getLine c e p.line with
    | .ok l false =>
      match findLane e l (lanesFrom p.lane) with
      | none => s.nextFirst c e f { line := nextLine p.line, lane := 1 }
      | some (n, _) => some { line := p.line, lane := n }
    | _ => none

/-- The position that a cursor names: its engine's next first word (R315). An engine that has joined at RDV names the lane
after it (R610), and a cursor whose lines cannot be read stays where it stands. -/
def State.cursorAt (s : State) (c : Nat) (e : Engine) (n : Eng) : Pos :=
  if n.st = .joined || (n.st = .stopped && n.before = .joined) then n.cur
  else (s.nextFirst c e 64 n.cur).getD n.cur

/-- The boundary at which an engine stands (R244, R610). -/
def State.boundary (s : State) (c : Nat) (e : Engine) : Pos :=
  let x := s.ctx c
  if e = .c && x.inHandler then s.cursorAt c .c x.stopped else s.cursorAt c e (x.eng e)

end Sys2Proof.Machine
end

