-- ==== Sys2Proof/Machine/Units.lean ====
section
/-! DEFINITION. Units, launches and their counters: how a unit ends, is rolled back or loses its context
(02_execution.md R24, R25, R30, R36, R37; 09_scheduling.md R241; 10_faults.md R254, R259, R261; R470). -/
namespace Sys2Proof.Machine

/-! ## Mesh (R12 to R15) -/

def Die.axis (d : Die) (k : Nat) : Nat := if k = 3 then fld d.meshshape 36 12 else fld d.meshshape (12 * k) 12
def Die.coord (d : Die) (k : Nat) : Nat := if k = 3 then fld d.meshpos 36 12 else fld d.meshpos (12 * k) 12
def Die.meshSize (d : Die) : Nat := d.axis 0 * d.axis 1 * d.axis 2 * d.axis 3
/-- The linear rank of a die (R13). -/
def Die.rank (d : Die) : Nat := d.coord 0 + d.axis 0 * (d.coord 1 + d.axis 1 * (d.coord 2 + d.axis 2 * d.coord 3))

/-- The links that have failed (R296). -/
def failedLinks (s : State) : List Nat :=
  s.links.filterMap fun (l, k) => if k.st == .failed then some l else none

/-- A route to the die remains: none is lost while no link has failed (R296; log 34). -/
def State.routed (s : State) (d : Nat) : Bool := (failedLinks s).isEmpty || Config.routed (failedLinks s) d

/-- The die at a rank of the mesh. -/
def State.dieAt (s : State) (r : Nat) : Option Nat :=
  (List.range s.dieCount).find? fun d => (s.die d).placed && (s.die d).rank == r && !(s.die d).out

/-- The dies of the job mesh, by rank. -/
def State.meshDies (s : State) : List Nat := (List.range (s.die 0).meshSize).filterMap s.dieAt

/-! ## Operations and tokens -/

/-- The operation's unit is still bound to the operation's context. -/
def State.opLive (s : State) (o : Op) : Bool := (s.ctx o.ctx).unit == some o.unit

/-- An asynchronous operation's token completes (R67, R211): its accesses are handed to the consumer. -/
def State.tokenDone (s : State) (n : Nat) (o : Op) : State :=
  if o.tok = 0 then s
  else if s.opLive o then
    s.modCtx o.ctx fun x =>
      if (x.tok o.tok).op == n then x.modTok o.tok fun t => { t with done := true, hist := s.prune (addAcc o.hist { op := n }) }
      else x
  else s.modUnit o.unit fun r => if r.saved.isSome && r.savedRest.elim true (fun x => (x.tok o.tok).op == n) then { r with savedDone := insertNew r.savedDone o.tok } else r

/-- The engine named has its state set to Waiting or Sync-blocked on something. -/
def State.waitOn (s : State) (c : Nat) (e : Engine) (st : EngState) (h : Hold) (i : Instr) : State :=
  s.modEng c e fun n => 
    { n with st := st, hold := h, held := some i, age := some (n.age.getD s.cycle), left := s.cycle + 1, resumed := false }

/-- Records a trap that is raised or delivered and not yet taken. PROMISE, CANCEL and DEADLOCK merge with one that is
pending (R246). -/
def State.post (s : State) (c : Nat) (t : Trap) : State :=
  s.modCtx c fun x =>
    if (t.code == 0x13 || t.code == 0x15 || t.code == 0x12) && x.pend.any (fun p => p.code == t.code) then x
    else { x with pend := x.pend ++ [t] }

/-! ## Barriers -/

/-- The result word of BARW (R376). -/
def barResult (out : Nat) (gen : BitVec 16) (total : Nat) : Word :=
  BitVec.ofNat 64 (out % 4 * 2 ^ 62 + gen.toNat * 2 ^ 32 + total % 2 ^ 24)

/-- The generation of an object ends: its waiters learn the outcome (R375, R241). -/
def wakeBar (cl obj : Nat) (gen : BitVec 16) (out : Word) (x : Ctx) : Ctx :=
  match x.c.hold with
  | .barrier a b g none =>
    if a = cl ∧ b = obj ∧ g = gen.toNat then { x with c := { x.c with hold := .barrier a b g (some out) } } else x
  | _ => x

def State.endGeneration (s : State) (cl obj : Nat) (gen : BitVec 16) (out : Word) : State :=
  { s with ctxs := s.ctxs.map fun (k, x) => (k, wakeBar cl obj gen out x) }

/-- The owed arrivals of a unit that ends faulted or cancelled are delivered and the generation is BROKEN (R241). -/
def breakBar (u : Nat) (b : Bar) : Option Bar :=
  match b.enrol.find? fun e => e.unit == u with
  | some e =>
    if b.st == .active && e.made < e.owe then
      some { b with st := .broken, last := 2, arr := b.arr + (e.owe - e.made) }
    else none
  | none => none

def State.breakBarIn (s : State) (u cl obj : Nat) (b : Bar) : State :=
  match breakBar u b with
  | some b1 =>
    (s.modCluster cl fun g => { g with bars := tset g.bars obj b1 }).endGeneration cl obj b.gen (barResult 2 b.gen b.total)
  | none => s

def State.breakBars (s : State) (u : Nat) : State :=
  s.clusters.foldl (fun s1 (cl, g) => g.bars.foldl (fun s2 (o, b) => s2.breakBarIn u cl o b) s1) s

/-! ## Gangs -/

/-- A member leaves: every other member leaves as well; the matched MBLDs of the members that are still pending complete
faulted and deliver ORDER (R470). -/
def State.failGangLoad (s : State) (members : List Nat) (n : Nat) (o : Op) : State :=
  match o.ins with
  | .mbld _ _ =>
    if members.contains o.ctx && s.opLive o && o.gang.isSome then
      (((s.delOp n).tokenDone n o).modCore (coreOf o.ctx) fun k =>
        { k with resid := k.resid.filter fun r => r.loading != some n }).post o.ctx
        { code := tOrder, eng := .m, async := true, token := o.tok, pos := s.boundary o.ctx .m, op := 3 }
    else s
  | _ => s

def State.breakGangAt (s : State) (cl id : Nat) (members : List Nat) : State :=
  s.ops.foldl (fun s1 (n, o) => s1.failGangLoad members n o)
    (s.modCluster cl fun g => { g with gangs := tdel g.gangs id })

/-- Breaks every gang that the context has joined. -/
def State.leaveGangs (s : State) (c : Nat) : State :=
  (s.cluster (clusterOf (coreOf c))).gangs.foldl
    (fun s1 (id, g) => if g.members.contains c then s1.breakGangAt (clusterOf (coreOf c)) id g.members else s1) s

/-! ## Counters -/

/-- The counter word (R24). -/
def Ctr.word (k : Ctr) : Word :=
  BitVec.ofNat 64 ((if k.final then 2 ^ 63 else 0) + (if k.sealed then 2 ^ 62 else 0) + (if k.canc then 2 ^ 61 else 0)
    + (if k.flt then 2 ^ 60 else 0) + k.pending % 2 ^ 36 * 2 ^ 24 + k.failed % 2 ^ 24)

/-- A member reaches a terminal state (R25). -/
def Ctr.member (k : Ctr) (failed : Bool) : Ctr :=
  if failed then { k with pending := k.pending - 1, failed := min (k.failed + 1) 0xFFFFFF, flt := true }
  else { k with pending := k.pending - 1 }

def Ctr.ready (k : Ctr) : Bool := k.sealed && k.pending == 0

/-- A handle (R23). -/
def handle (level index : Nat) : Word := BitVec.ofNat 64 (level % 4 * 2 ^ 30 + index % 2 ^ 24)
def handleLevel (h : Word) : Nat := fld h 30 2
def handleIndex (h : Word) : Nat := fld h 0 24

def UnitState.terminal : UnitState → Bool
  | .done | .faulted | .cancelled => true
  | _ => false

def State.modLaunch (s : State) (l : Nat) (f : LaunchRec → LaunchRec) : State :=
  match tget s.job.launches l with
  | some r => s.modJob fun j => { j with launches := tset j.launches l (f r) }
  | none => s

/-- A launch starts when its first unit becomes Resident, or when all its units are terminal (R227). -/
def State.launchSettled (s : State) (l : Nat) : State :=
  match s.launch? l with
  | some r =>
    if r.units.all fun u => match s.unit? u with
        | some x => x.st.terminal
        | none => true
    then s.modLaunch l fun r => { r with started := true }
    else s
  | none => s

/-- Releases a version id with its staged bytes (R259). -/
def UnitRec.dropVersion (r : UnitRec) : UnitRec :=
  { r with version := none, staged := [], spilled := [], stagedAt := [], logWait := false }

/-- A unit's terminal state is counted (R25). -/
def State.countUnit (s : State) (u : Nat) (st : UnitState) : State :=
  match s.unit? u with
  | some r =>
    ((s.modUnit u fun r => { r.dropVersion with st := st, work := [] }).modLaunch r.launch fun l =>
      { l with ctr := l.ctr.member (st != .done) }).launchSettled r.launch
  | none => s

/-! ## The ready pools and homes (R225, R229 to R231, R235) -/

/-- The indices of a unit (R225). -/
def unitIx (l : LaunchRec) (j : Nat) : Nat × Nat × Nat := (j % l.nx, j / l.nx % l.ny, j / (l.nx * l.ny))

/-- The record and the argument pointer of a unit's copy (R225, R234, R235). -/
def LaunchRec.copyOf (l : LaunchRec) (die : Nat) : BitVec 1024 × Word := tgetD l.copies die (l.record, l.args)

/-- The affinity address of a unit (R225). -/
def affinity (r : BitVec 1024) (l : LaunchRec) (j : Nat) : Nat :=
  let (ix, iy, iz) := unitIx l j
  if recWord r 32 = 0 then 0
  else (recWord r 32 + BitVec.ofNat 64 ix * recWord r 40 + BitVec.ofNat 64 iy * recWord r 48
    + BitVec.ofNat 64 iz * recWord r 56).toNat % 2 ^ 56

/-- Free contexts of a core. -/
def State.freeCtxs (s : State) (k : Nat) : List Nat := (ctxsOf k).filter fun c => (s.ctx c).unit.isNone

/-- Keeps the first element with the largest measure. -/
def firstMax (f : Nat → Nat) : List Nat → Option Nat
  | [] => none
  | a :: l => match firstMax f l with
    | some b => if f a < f b then some b else some a
    | none => some a

/-- The home core of a unit (R231, R235); none where it has no home. -/
def State.homeOf (s : State) (r : UnitRec) (l : LaunchRec) : Option Nat :=
  let va := affinity (l.copyOf r.die).1 l r.j
  if va = 0 then none
  else
    let t := match findTlb (s.die r.die).tlb va with
      | some t => some t
      | none => s.walk r.die va
    let inCluster (d g : Nat) : Option Nat :=
      firstMax (fun k => (s.freeCtxs k).length) ((List.range 16).map fun n => d * 128 + g * 16 + n)
    let home := match t with
      | some e => match s.levelOf (e.pa va) with
        | .near d ch => some (d * 128 + ch)
        | .far d ch => some (d * 128 + ch)
        | .vault d v => inCluster d v
        | .scratch d g _ => inCluster d g
        | _ => none
      | none => none
    match home with
    | some k => if l.mesh && dieOf k != r.die then none else some k
    | none => none

/-- Units in a die's pool (R229). -/
def State.poolOf (s : State) (d : Nat) : Tab UnitRec := s.job.units.filter fun (_, r) => r.die == d && r.inPool

/-- A unit enters the pool ahead of another: one that was re-queued goes first, then the one that became Ready first (R229, R230). -/
def UnitRec.entersFirst (a b : UnitRec) : Bool :=
  (a.ahead && !b.ahead) || (a.ahead == b.ahead && a.age.getD 0 < b.age.getD 0)

/-- The unit of a die's backlog that enters the pool first. -/
def State.nextIn (s : State) (d : Nat) : Option (Nat × UnitRec) :=
  (s.job.units.filter fun (_, r) => r.die == d && r.st == .ready && !r.inPool).foldl (fun b p => match b with
    | some q => if p.2.entersFirst q.2 then some p else some q
    | none => some p) none

/-- A unit enters its pool, where placement considers it: its home is found (R229, R231). -/
def State.enterPool (s : State) (u : Nat) (r : UnitRec) : State :=
  let home := r.home.getD ((s.launch? r.launch).bind fun l => s.homeOf r l)
  s.modUnit u fun q => { q with inPool := true, ahead := false, home := some home }

/-- The units of the backlog enter the pool while it has room: at most n of them. -/
def State.fillFree (s : State) (d : Nat) : Nat → State
  | 0 => s
  | n + 1 => match s.nextIn d with
    | some (u, r) => (s.enterPool u r).fillFree d n
    | none => s

/-- The backlog enters a die's pool as entries are free (R229). -/
def State.fillPool (s : State) (d : Nat) : State := s.fillFree d (Config.poolEntries - (s.poolOf d).length)

/-! ## Contexts -/

/-- A remote posted store: every piece of it lies on another die. The fabric has accepted it once it is under way (R220). -/
def remotePosted (o : Op) : Bool := o.parked.isNone && !o.segs.isEmpty && o.segs.all fun g => paDie g.pa != dieOf o.core

/-- The unit's operations that are still running and hold up its end: asynchronous ones, and rows pushed to sinks that are no
remote posted stores (R37, R220, R507). -/
def asyncOf (u : Nat) (o : Op) : Bool :=
  o.unit == u && (o.kind == .async || (o.kind == .port && !remotePosted o))

def State.asyncLeft (s : State) (u : Nat) : Bool := s.ops.any fun (_, o) => asyncOf u o

/-- Stores of a unit that are not yet performed (R221, R29). -/
def State.storesLeft (s : State) (u : Nat) : Bool :=
  s.ops.any fun (_, o) => o.unit == u && (o.kind == .store || o.kind == .vstore || o.kind == .atom || o.kind == .port)

/-- Operations that write registers or the register space of a context cannot outlive it; parked requests end with their
token faulted (R187, R261). -/
def opDies (u : Nat) (o : Op) : Bool :=
  o.unit == u && (o.kind == .load || o.kind == .vload || o.parked.isSome || o.coll.any Coll.lost)

/-- Sink ports whose pushed rows are still to be accepted (R507). -/
def Ctx.sinksLeft (x : Ctx) : Tab Port := x.ports.filter fun (_, p) => !p.pushed.isEmpty

def State.logEntry (s : State) (e : LogEntry) : State := s.modHost fun h => { h with log := h.log ++ [e] }
def State.msi (s : State) (v : Nat) : State := s.modHost fun h => { h with msix := h.msix ++ [v] }

/-- A part is out of service: JWSTAT.REDUCED reads 1, vector 2 is sent and the event is logged (R298, R304). -/
def State.reducedBy (s : State) (p : ServicePart) : State := (s.logEntry (.reduced p)).msi 2

def State.boundOn (s : State) (d : Nat) : Bool := s.ctxs.any fun (c, x) => x.unit.isSome && dieOfCtx c == d

/-- The die of a module that stands k places behind another, in turn. -/
def dieAfter (d k : Nat) : Nat := moduleOf d * 64 + (d % 64 + k) % 64

/-- The die that takes over the units of a drained one: the next of its module in service (R304; log 34). -/
def State.otherDie (s : State) (d : Nat) : Nat :=
  (((List.range Config.dies).map fun k => dieAfter d (k + 1)).find? fun k => !(s.die k).out && !(s.die k).draining).getD d

/-- A unit that is not of a mesh launch is re-queued on another die (R304, R235). -/
def State.requeue (s : State) (d e u : Nat) : State :=
  match s.unit? u with
  | some r =>
    if r.die != d || r.st.terminal || (s.launchOf u).any LaunchRec.mesh then s
    else (s.modUnit u fun q => { q with die := e, inPool := false }).fillPool e
  | none => s

/-- The drain of a die ends (R304). -/
def State.dieDrained (s : State) (d : Nat) : State :=
  let s1 := s.modDie d fun x => { x with draining := false, out := true, tlb := [], walks := [], seen := [], pins := [], reserved := [] }
  ((s.job.units.map Prod.fst).foldl (fun t u => t.requeue d (s1.otherDie d) u) s1).reducedBy (.die d)

/-- Dies that wait for their contexts to be saved are taken out of service once they hold none (R263, R304). -/
def State.drainCheck (s : State) : State :=
  (s.dies.map Prod.fst).foldl (fun t d => if (t.die d).draining && !t.boundOn d then t.dieDrained d else t) s

/-- A STOP holds the job once no context is bound (R298). -/
def State.stopCheck (s : State) : State :=
  if s.job.stopping && s.ctxs.all (fun (_, x) => x.unit.isNone) then
    (s.modJob fun j => { j with st := .stopped, stopping := false }).drainCheck
  else s.drainCheck

/-- Releases a context: nothing of the unit stays in the core but its running operations. -/
def State.releaseCtx (s : State) (c : Nat) : State :=
  match (s.ctx c).unit with
  | some u =>
    let x := s.ctx c
    let s1 := s.leaveGangs c
    let s2 := s1.modCore (coreOf c) fun k => { k with resid := k.resid.filter fun r => r.ctx != c }
    let s3 := { s2 with ops := s2.ops.filter fun (_, o) => !opDies u o }
    let s4 := s3.modJob fun j =>
      { j with
        effects := j.effects.filter fun (_, f) => f.unit != u || f.committed
        contributions := j.contributions.filter fun (_, f) => f.unit != u || f.atCommit }
    ((s4.modUnit u fun r => { r with ctx := none, savedPorts := x.sinksLeft }).setCtx c {}).stopCheck
  | none => s

/-- A unit's stream has ended: it enters Completing, with the state it will end in, and its context is released (R36,
R37, R30). -/
def State.endStream (s : State) (c : Nat) (st : UnitState) : State :=
  match (s.ctx c).unit with
  | some u =>
    let s1 := if st == .done then s else (s.breakBars u).modUnit u fun r => { r.dropVersion with work := [] }
    (s1.releaseCtx c).modUnit u fun r => { r with st := .completing, ending := st }
  | none => s

/-- A unit that is not resident is removed (R30, R29). -/
def State.removeUnit (s : State) (u : Nat) : State :=
  match s.unit? u with
  | some r =>
    match r.st with
    | .held | .waiting | .ready =>
      (((s.breakBars u).modUnit u (fun r => { r with inPool := false, saved := none })).countUnit u .cancelled).fillPool r.die
    | _ => s
  | none => s

/-- Version ids in use on a die (R259). -/
def State.versionsUsed (s : State) (d : Nat) : List Nat :=
  s.job.units.filterMap fun (_, r) => if r.versionDie == d then r.version else none

/-- What a rollback leaves of an operation in flight (R261, R34): one whose writes are staged is abandoned, and one that
would write the released register space; an operation that writes the scratchpad alone runs on, an ATOM returns to no register. -/
def Op.rolledBack (u : Nat) (o : Op) : Option Op :=
  if o.unit != u then some o
  else match o.kind with
    | .atom => some { o with dst := 0 }
    | .async => if o.writes && !o.segs.isEmpty && o.segs.all fun g => inScratch g.pa then some o else none
    | _ => none

/-- A unit as a rollback returns it to Ready: nothing of its run is left, and the constant path's window is that of its launch
again (R261, R217). -/
def UnitRec.restarted (r : UnitRec) (d : Nat) (counts : Bool) : UnitRec :=
  { r.dropVersion with
    st := .ready, ending := .done, constFloor := 0, work := [], created := [], collectives := 0, meshLaunches := 0, die := d
    saved := none, savedPend := [], savedRest := none, savedResid := [], savedPorts := [], savedDone := [], savedPieces := []
    savedFlags := 0, inPool := false, ahead := true
    rollbacks := if counts then r.rollbacks + 1 else r.rollbacks }

/-- A unit bound to no context is re-queued, in the pool of the die on which it ran: what its run has in flight is abandoned, as
is its version (R261, R230). -/
def State.backToReady (s : State) (u d : Nat) (counts : Bool) : State :=
  let s1 : State := { s with ops := s.ops.filterMap fun (n, o) => (o.rolledBack u).map fun q => (n, q) }
  (s1.modUnit u fun r => r.restarted d counts).fillPool d

/-- A ROLLBACK: the version is discarded, the context is released and the unit returns to Ready (R261). A CANCEL that was
pending removes it (R30). -/
def State.rollback (s : State) (c : Nat) (counts : Bool) : State :=
  match (s.ctx c).unit with
  | some u =>
    let s1 := (s.releaseCtx c).backToReady u (dieOfCtx c) counts
    if (s.ctx c).pend.any fun t => t.code == tCancel then s1.removeUnit u else s1
  | none => s

/-- A machine check of a unit that is bound to no context (R258, R261): a versioned unit is rolled back, at most three times;
otherwise its version is discarded, and a saved unit takes the trap at its resume while one that is Completing ends faulted. -/
def State.unitCheck (s : State) (u : Nat) (t : Trap) : State :=
  match s.unit? u with
  | some r =>
    if s.versionedUnit u && r.rollbacks < 3 then s.backToReady u r.die true
    else s.modUnit u fun q =>
      if q.saved.isSome then { q.dropVersion with savedPend := q.savedPend ++ [t] }
      else { q.dropVersion with work := [], ending := if q.ending = .done then .faulted else q.ending }
  | none => s

/-- A fenced core: vector 2 signals it (R298), and every other resident context is to be saved (R254). -/
def State.fenceCore (s : State) (k keep : Nat) : State :=
  let s1 := s.modCore k fun x => { x with fenced := true }
  let s2 := (s1.logEntry (.coreFenced k)).msi 2
  (ctxsOf k).foldl (fun t c => if c != keep && (t.ctx c).unit.isSome
    then t.modCtx c fun x => { x with saving := some 0 } else t) s2

end Sys2Proof.Machine
end

