-- ==== Sys2Proof/Machine/Issue.lean ====
section
/-! DEFINITION. Issue selection on a core (09_scheduling.md R236 to R240). -/
namespace Sys2Proof.Machine

/-- The engine is still issuing a multi-cycle instruction (R236). -/
def State.engineBusy (s : State) (k : Nat) (e : Engine) : Bool := s.cycle < tgetD (s.core k).busy (engNo e) 0

/-- A context is bound and may issue: no save is requested of it (R254, R263) and its unit is not being stopped. -/
def Ctx.runs (x : Ctx) : Bool := x.unit.isSome && x.saving.isNone

/-- The engine of a context may issue: while a save is requested, the matrix engine alone, up to its next retirement
point (R263). -/
def Ctx.mayIssue (x : Ctx) (e : Engine) : Bool := x.runs || (x.unit.isSome && e == .m && x.nest.any fun n => !n.val)

/-- A context is a candidate of an engine in this cycle (R236, R237). Its next line is taken as fetched: how long a fetch takes
is timing (log 12). -/
def State.candidate (s : State) (c : Nat) (e : Engine) : Bool :=
  let x := s.ctx c
  x.mayIssue e && (x.eng e).st == .ready && (x.eng e).gapEnd ≤ s.cycle

/-- How long a candidate has waited (R239). -/
def State.waited (s : State) (c : Nat) (e : Engine) : Nat :=
  match (s.eng c e).candSince with
  | some t => s.cycle - t
  | none => 0

/-- The contexts after a context number, cyclically (R239). -/
def cyclicAfter (k n : Nat) : List Nat := [4 * k + (n + 1) % 4, 4 * k + (n + 2) % 4, 4 * k + (n + 3) % 4]

/-- Keeps the first element for which a measure is largest. -/
def argMax {α : Type} (f : α → Nat) : List α → Option α
  | [] => none
  | a :: l => match argMax f l with
    | some b => if f a < f b then some b else some a
    | none => some a

/-- The choice among the candidates other than the context left (R239). -/
def State.chooseOther (s : State) (k : Nat) (e : Engine) (left : Nat) : Option Nat :=
  let cs := (cyclicAfter k (left % 4)).filter fun c => s.candidate c e
  let old := (ctxsOf k).filter fun c => cs.contains c && 1024 ≤ s.waited c e
  match argMax (fun c => s.waited c e) old with
  | some c => some c
  | none => argMax (fun c => s.prioOf c) cs

def State.currentOf (s : State) (k : Nat) (e : Engine) : Nat :=
  4 * k + tgetD (s.core k).current (engNo e) 0 % 4

def State.setCurrent (s : State) (c : Nat) (e : Engine) : State :=
  s.modCore (coreOf c) fun k =>
    { k with current := tset k.current (engNo e) (ctxNo c), since := tset k.since (engNo e) s.cycle }

/-- A candidate whose wait has reached 1,024 cc (R238, R239). -/
def State.expired (s : State) (k : Nat) (e : Engine) : Option Nat :=
  argMax (fun c => s.waited c e) ((ctxsOf k).filter fun c => s.candidate c e && 1024 ≤ s.waited c e && s.currentOf k e != c)

/-- The engine switches away from its current context (R238): something since it became current has it leave, or the context does not run in it. -/
def State.leaves (s : State) (c : Nat) (e : Engine) : Bool :=
  tgetD (s.core (coreOf c)).since (engNo e) 0 < (s.eng c e).left || !((s.ctx c).mayIssue e && (s.eng c e).st == .ready)

/-- The context that issues in this cycle, and the context that is current (R236 to R239). With no other candidate the current
context stays. -/
def State.selectCtx (s : State) (k : Nat) (e : Engine) : State × Option Nat :=
  let cur := s.currentOf k e
  match s.expired k e with
  | some c => (s.setCurrent c e, some c)
  | none =>
    if s.leaves cur e then
      match s.chooseOther k e cur with
      | some c => (s.setCurrent c e, some c)
      | none => if s.candidate cur e then (s.setCurrent cur e, some cur) else (s, none)
    else if s.candidate cur e then (s, some cur)
    else (s, s.chooseOther k e cur)

/-- The instruction occupies its engine for n cycles from this one (R236). -/
def State.occupy (s : State) (c : Nat) (e : Engine) (n : Nat) : State :=
  (s.modEng c e fun g => { g with lastEnd := s.cycle + n - 1 }).modCore (coreOf c) fun k =>
    { k with busy := tset k.busy (engNo e) (s.cycle + n) }

end Sys2Proof.Machine
end

