-- ==== Sys2Proof/Machine/Ops.lean ====
section
/-! DEFINITION. Taking an exception, returning from one, and how an instruction ends (10_faults.md R243 to R268). -/
namespace Sys2Proof.Machine

/-! ## The order of traps -/

/-- The order in which pending traps are taken (R246). -/
def trapRank (t : Trap) : Nat :=
  if t.code = tMcheck then 1
  else if t.code = tCancel then 2
  else if t.code = tFabric then 3
  else if t.code = tDeadlock then 6
  else if t.code = tPromise then 7
  else if t.async then 5
  else 4

/-- A trap goes before another: rank, then for synchronous traps the issue age and the engine order (R245, R246). -/
def trapBefore (a b : Trap) : Bool :=
  if trapRank a != trapRank b then trapRank a < trapRank b
  else if trapRank a = 4 then a.age < b.age || (a.age == b.age && engNo a.eng < engNo b.eng)
  else false

def firstTrap : List Trap → Option Trap
  | [] => none
  | a :: l => match firstTrap l with
    | some b => if trapBefore b a then some b else some a
    | none => some a

/-- The record of a trap as its context would write it (R250). -/
def freshRecord (c : Nat) (t : Trap) : TrapRec where
  w0 := BitVec.ofNat 64 (t.code % 32 * 2 ^ 59 + t.sub % 128 * 2 ^ 52 + engNo t.eng * 2 ^ 50 + ctxNo c * 2 ^ 48
    + (if t.async then 2 ^ 47 else 0) + (if t.group.isSome then 2 ^ 46 else 0) + (if t.inj then 2 ^ 45 else 0)
    + t.token % 32 * 2 ^ 40 + (t.group.getD 0) % 32 * 2 ^ 32 + t.op % 64 * 2 ^ 10 + t.fn % 16 * 2 ^ 6)
  w1 := t.pos.word
  w2 := BitVec.ofNat 64 ((if t.phys then 2 ^ 63 + t.addr % 2 ^ 52 else t.addr % 2 ^ 56))
  w3 := BitVec.ofNat 64 (dieOfCtx c % 64 * 2 ^ 58 + coreIdx (coreOf c) * 2 ^ 49 + t.lane % 4096 * 2 ^ 32
    + t.gran % 4096 * 2 ^ 16 + t.exp % 8 * 2 ^ 4 + t.act % 8)
  w4 := BitVec.ofNat 64 (t.detailB % 2 ^ 32 * 2 ^ 32 + t.detailA % 2 ^ 32)
  w5 := BitVec.ofNat 64 (t.rop % 64 * 2 ^ 10 + t.rfn % 16 * 2 ^ 6)

/-- The record that a trap writes: one that a save kept is written as it was kept (R265). -/
def trapRecord (c : Nat) (t : Trap) : TrapRec := t.saved.getD (freshRecord c t)

/-! ## Stopping (R244) -/

def Eng.stop (n : Eng) : Eng := if n.st = .stopped then n else { n with st := .stopped, before := n.st }

/-- The matrix engine stands at a retirement point (R244). -/
def Ctx.matrixMayStop (x : Ctx) : Bool :=
  match x.nest with
  | some n => n.val
  | none => true

/-- Every engine stops at its next instruction boundary; a stop discards the Lantern window (R244, R274). -/
def Ctx.stopAll (x : Ctx) : Ctx :=
  { x with
    c := x.c.stop, v := x.v.stop, y := x.y.stop
    m := if x.matrixMayStop then x.m.stop else x.m
    lantern := if x.matrixMayStop then { x.lantern with win := [], group := none, alone := false } else x.lantern }

/-- Every engine of the context is stopped, and none is still issuing. -/
def Ctx.allStopped (x : Ctx) (now : Nat) : Bool :=
  allEngines.all fun e => (x.eng e).st == .stopped && (x.eng e).lastEnd ≤ now

/-! ## Entry (R246 to R248) -/

/-- What the handler's control engine starts with; the GAP of the last control instruction still runs (R237). -/
def handlerEng (x : Ctx) (now : Nat) : Eng :=
  { st := .ready, cur := posOfWord x.sprs.trapbase,
    hist := joinAcc (joinAcc (joinAcc x.c.hist x.v.hist) x.m.hist) x.y.hist,
    lastEnd := x.c.lastEnd, gapEnd := x.c.gapEnd, left := now + 1 }

/-- Handler entry: TRAPREC is written, the handler runs in the control engine with fresh copies of s56 to s63 (R248). -/
def Ctx.enterHandler (x : Ctx) (c : Nat) (t : Trap) (rest : List Trap) (now : Nat) : Ctx :=
  { x with
    sprs := { x.sprs with trapRec := trapRecord c t }
    mode := .handler, handling := some t, pend := rest
    stopped := x.c, c := handlerEng x now
    regs := { x.regs with h := [] } }

/-- Pending traps that stay pending when one is taken: a synchronous trap that is not taken is forgotten (R246). -/
def keptTraps (t : Trap) (l : List Trap) : List Trap := (l.erase t).filter fun p => trapRank p != 4

/-- The promise of a parked operation becomes 0 when its fault is taken (R184). -/
def State.dropPromise (s : State) (c : Nat) (t : Trap) : State :=
  match t.opId with
  | some n => match s.op? n with
    | some o =>
      (s.modOp n fun o => { o with promise := 0 }).modCtx c fun x =>
        if (x.tok o.tok).op == n then x.modTok o.tok fun k => { k with promise := 0 } else x
    | none => s
  | none => s

/-- Adds a record to the die's fault log (R249, R595); while the die's management services pause, the copy waits (R303). -/
def State.logFault (s : State) (d : Nat) (r : TrapRec) : State :=
  if (s.die d).fwNext.isSome then s.modDie d fun x => { x with flogWait := x.flogWait ++ [r] }
  else (s.modDie d fun x => { x with flog := x.flog ++ [r] }).modHost fun h => { h with log := h.log ++ [.faultRecord d] }

/-- A delivered trap records the boundary at which its engine has stopped (R249, R250). -/
def State.atBoundary (s : State) (c : Nat) (t : Trap) : Trap :=
  if t.async && t.saved.isNone then { t with pos := s.boundary c t.eng } else t

/-- Engines of the context's core still have their turn in a cycle in which one of its engines has trapped: which trap is
taken is decided once all have had it (R245). -/
def State.raising (s : State) (c : Nat) : Bool :=
  s.turns.any (fun p => p.1 == coreOf c) && (s.ctx c).pend.any fun t => !t.async

/-- The engine at whose instruction boundary a trap of an engine is taken: the control engine's for a joined one (R610). -/
def Ctx.taker (x : Ctx) (e : Engine) : Engine :=
  if (x.eng e).st = .joined || ((x.eng e).st = .stopped && (x.eng e).before = .joined) then .c else e

/-- The pending traps that may be taken: after ERET, one whose engine has reached an instruction boundary since (R246); not a
PROMISE without a handler (R248). -/
def Ctx.takable (x : Ctx) : List Trap :=
  x.pend.filter fun t => !(x.eng (x.taker t.eng)).resumed && !(t.code == tPromise && x.sprs.trapbase == 0)

/-- With no handler installed a pending PROMISE is not raised (R248). -/
def Ctx.dropUnraised (x : Ctx) : Ctx :=
  { x with pend := x.pend.filter fun t => !(t.code == tPromise && x.sprs.trapbase == 0) }

/-- TAKING A TRAP, once every engine of the context is stopped (R246 to R248): TRAPREC is written; with a handler
installed it is entered, and without one the unit ends as R248 lists. A versioned unit that is cancelled runs no handler
(R30). -/
def State.takeTrap (s : State) (c : Nat) (u : Trap) : State :=
  let x := s.ctx c
  let t := s.atBoundary c u
  let rest := keptTraps u x.pend
  if x.sprs.trapbase != 0 && !(t.code = tCancel && s.versioned c) then
    (s.setCtx c (x.enterHandler c t rest s.cycle)).dropPromise c t
  else
    let s1 := s.setCtx c { x with sprs := { x.sprs with trapRec := trapRecord c t }, pend := rest }
    if t.code = tCancel then s1.endStream c .cancelled else s1.endStream c .faulted

/-- Takes the first pending trap when every engine has stopped (R244, R246). -/
def State.settle (s : State) (c : Nat) : State :=
  let x := s.ctx c
  if x.inHandler || x.unit.isNone || s.raising c then s
  else match firstTrap x.takable with
    | none => s
    | some t =>
      let s1 := s.setCtx c x.stopAll
      if (s1.ctx c).allStopped s.cycle then s1.takeTrap c t else s1

/-- A trap raised while a handler runs ends the unit faulted; its record goes to the fault log (R249). -/
def State.faultInHandler (s : State) (c : Nat) (t : Trap) : State :=
  ((s.logFault (dieOfCtx c) (trapRecord c t)).modCtx c fun x =>
    { x with sprs := { x.sprs with trapRec := trapRecord c t } }).endStream c .faulted

/-- A synchronous trap: the instruction does not commit, the engines stop, the trap is taken (R244). -/
def State.raise (s : State) (c : Nat) (t : Trap) : State :=
  if (s.ctx c).inHandler then s.faultInHandler c t
  else
    let s1 := s.post c t
    let s2 := s1.modEng c t.eng fun n => { n with hold := .none, held := none, displaced := false, resumed := false, st := .ready }
    s2.settle c

/-- A delivered trap: it waits behind a handler that runs, and is taken at the boundary at which its engine stands
otherwise (R244, R246, R249). -/
def State.deliver (s : State) (c : Nat) (t : Trap) : State :=
  let x := s.ctx c
  if x.unit.isNone then s
  else if t.code = tPromise && x.sprs.trapbase == 0 then s
  else if t.code = tCancel && x.inHandler && s.versioned c then s.endStream c .cancelled
  else (s.post c { t with async := true, pos := s.boundary c t.eng }).settle c

/-! ## Machine checks (R253, R254, R257, R261, R595) -/

def State.rollbacksOf (s : State) (c : Nat) : Nat :=
  match s.unitOf c with
  | some r => r.rollbacks
  | none => 0

/-- The record of a machine check of a versioned unit carries the rollbacks taken before it (R250). -/
def State.mcheckTrap (s : State) (c : Nat) (t : Trap) : Trap :=
  if s.versioned c then { t with detailA := s.rollbacksOf c } else t

/-- A machine check: a versioned unit is rolled back, at most three times; otherwise its version is discarded and MCHECK is
taken (R253, R261). -/
def State.machineCheck (s : State) (c : Nat) (t : Trap) (fence : Bool) : State :=
  let t1 := s.mcheckTrap c t
  let s1 := if fence then (s.fenceCore (coreOf c) c).modUnit (s.unitNo c) fun r => { r with avoid := insertNew r.avoid (coreOf c) } else s
  if s.versioned c && s.rollbacksOf c < 3 then
    ((s1.modCtx c fun x => { x with sprs := { x.sprs with trapRec := trapRecord c t1 } }).logFault (dieOfCtx c)
      (trapRecord c t1)).rollback c true
  else
    let s2 := match (s1.ctx c).unit with
      | some u => if s1.versioned c then s1.modUnit u fun r => { r.dropVersion with work := [] } else s1
      | none => s1
    if t.async then s2.deliver c t1 else s2.raise c t1

/-! ## Return (R249, R267, R416) -/

/-- An engine as it resumes: what held it is judged again (R319); a joined engine stays joined. -/
def Eng.resume (n : Eng) (hist : List Acc) (now : Nat) : Eng :=
  { n with
    st := if n.before = .joined then .joined else .ready
    hold := .none, held := none, age := none, gapEnd := max n.gapEnd (now + 1), hist := joinAcc n.hist hist
    candSince := none, resumed := n.before != .joined }

/-- ERET sets the cursor of the trapping engine to TRAPREC word 1, and arms the displaced word (R249, R267). -/
def Eng.resumeAt (n : Eng) (mine : Bool) (w1 : Word) (armed : Bool) : Eng :=
  if mine && n.before != .joined then
    { n with cur := if w1 = 0 then n.cur else posOfWord w1, displaced := armed }
  else n

def Ctx.leaveHandler (x : Ctx) (t : Trap) (now : Nat) : Ctx :=
  let w1 := x.sprs.trapRec.w1
  let hh := x.c.hist
  let armed := x.sprs.displaced.getLsbD 63
  let go (e : Engine) (n : Eng) : Eng := (n.resumeAt (t.eng == e) w1 armed).resume hh now
  { x with
    mode := .unit, handling := none, deadSince := none
    c := go .c x.stopped, v := go .v x.v, m := go .m x.m, y := go .y x.y
    stopped := {}, regs := { x.regs with h := [] }
    lantern := { consumed := [] } }

/-- A collective resumes after FABRIC, or replays the piece that parked first (R156, R504). -/
def Coll.resume (t : Trap) (c : Coll) : Coll :=
  if t.code = tFabric then { c with lost := false } else { c with parkedPieces := c.parkedPieces.drop 1 }

/-- The parked request of the handled trap is replayed (R187). -/
def State.replay (s : State) (t : Trap) : State :=
  match t.opId with
  | some n => s.modOp n fun o =>
    let k := o.coll.map (Coll.resume t)
    { o with
      parked := if (k.elim [] Coll.parkedPieces).isEmpty then none else o.parked
      due := s.cycle + 1, coll := k }
  | none => s

/-- RETURN FROM A TRAP (R249): after CANCEL the unit ends cancelled; after MCHECK on a fenced core the context is to be
saved; otherwise every engine resumes. -/
def State.returnFromTrap (s : State) (c : Nat) : State :=
  let x := s.ctx c
  let t := x.handling.getD (trapOf 0)
  if t.code = tCancel then s.endStream c .cancelled
  else
    let s1 := (s.setCtx c (x.leaveHandler t s.cycle)).replay t
    if t.code = tMcheck && (s.core (coreOf c)).fenced then s1.modCtx c fun y => { y with saving := some 0 }
    else s1

/-! ## How an instruction ends -/

/-- What a meaning answers: the instruction commits and the cursor moves on, or to a target; it holds at issue; it
traps; or it has itself settled what its context does next. -/
inductive Res where
  | done (s : State)
  | jump (s : State) (p : Pos)
  | wait (s : State) (st : EngState) (h : Hold)
  | trap (s : State) (t : Trap)
  | gone (s : State)

/-- The engine in whose stream an instruction stands. -/
def Instr.eng (i : Instr) : Engine := i.engine.getD .c

/-- Fills in what every trap of an instruction records (R250). -/
def Trap.of (t : Trap) (s : State) (i : Instr) : Trap :=
  let e := Instr.eng i
  let n := s.eng s.focus e
  { t with eng := e, pos := n.cur, op := i.major, fn := i.fnField, age := n.age.getD s.cycle }

/-- The single-step trap of an engine (R251, R268): in unit mode, after the instruction has committed. -/
def State.steps (s : State) (c : Nat) (e : Engine) : Bool :=
  let x := s.ctx c
  !x.inHandler && x.unit.isSome && x.sprs.trapctl.getLsbD (8 + engNo e)

def State.stepTrap (s : State) (c : Nat) (i : Instr) : State :=
  let e := Instr.eng i
  if s.steps c e then
    let t : Trap := { code := tBkpt, sub := 1, eng := e, pos := s.boundary c e, op := i.major, fn := i.fnField, age := s.cycle }
    let joined := (s.eng c e).st == .joined
    let s1 := s.post c t
    (if joined then s1 else s1.modEng c e fun n => { n with st := .ready }).settle c
  else s

/-- The SW mark has the engine switch away once its instruction has issued, in the current context only (R237, R238). -/
def State.marksAway (s : State) (c : Nat) (e : Engine) (sw : Bool) : Bool := sw && s.currentOf (coreOf c) e == c
def State.switchAway (s : State) (c : Nat) (e : Engine) (sw : Bool) : State :=
  if s.marksAway c e sw then s.modEng c e fun n => { n with left := s.cycle + 1 } else s

/-- The engine issues for a core in this cycle (R236). -/
def State.issuedNow (s : State) (c : Nat) (e : Engine) : State :=
  s.modCore (coreOf c) fun k => { k with busy := tset k.busy (engNo e) (s.cycle + 1) }

/-- RWSUP.CNT counts matrix instructions that issue alone (R285). -/
def countAlone (e : Engine) (x : Ctx) : Ctx :=
  if e = .m && fld x.sprs.rwsup 0 8 != 0 then { x with sprs := { x.sprs with rwsup := x.sprs.rwsup - 1 } } else x

/-- The engine after its instruction has committed: the cursor, GAP (R237), SW (R238) and the displaced word (R267). -/
def Eng.commit (n : Eng) (now : Nat) (p : Pos) (gap : Nat) (away : Bool) : Eng :=
  let last := max n.lastEnd now
  { n with
    st := if n.st = .joined || n.st = .stopped then n.st else .ready
    cur := p, age := none, hold := .none, held := none, candSince := none, displaced := false, resumed := false
    lastEnd := last, gapEnd := last + 1 + gap, left := if away then last + 1 else n.left }

def Ctx.clearDisplaced (x : Ctx) (ran : Bool) : Ctx :=
  if ran then { x with sprs := { x.sprs with displaced := x.sprs.displaced &&& ~~~(1#64 <<< 63) } } else x

/-! ### The Lantern window (R269, R270, R274) -/

/-- Opcodes of the eligible instructions (R457). -/
def opMma : Nat := 0x01
def opMbld : Nat := 0x03
def opMwb : Nat := 0x04
def opMscl : Nat := 0x05
def opMtrn : Nat := 0x06
def opMxmov : Nat := 0x07
def opMzero : Nat := 0x08
def eligibleOps : List Nat := [opMma, opMbld, opMwb, opMscl, opMtrn, opMxmov, opMzero]

/-- The opcode, fields and token word of an eligible instruction. -/
def lanternForm : Instr → Option (Nat × MF × Option Tok)
  | .mma f => some (opMma, f, none)
  | .mbld f t => some (opMbld, f, some t)
  | .mwb f => some (opMwb, f, none)
  | .mwbMem f t => some (opMwb, f, some t)
  | .mscl f => some (opMscl, f, none)
  | .msclReg f => some (opMscl, f, none)
  | .mtrn f => some (opMtrn, f, none)
  | .mxmov f => some (opMxmov, f, none)
  | .mzero f => some (opMzero, f, none)
  | _ => none

/-- The tile view that a consume mark stands on (R274). -/
def consumeTile (op : Nat) (f : MF) : Option Nat :=
  if f.sa.toNat != 1 || f.pa then none
  else some (if op = opMbld || op = opMwb then f.fb.toNat else f.fa.toNat)

/-- Tokens other than k0 that a token word consumes. -/
def afts (t : Tok) : List Nat := [t.aft0.toNat, t.aft1.toNat, t.aft2.toNat].filter (· != 0)

/-- The form of an instruction that the Lantern may match: an MBLD that consumes a token is not eligible (R270). -/
def eligibleForm (i : Instr) : Option (Nat × MF × Option Tok) :=
  match i with
  | .mbld _ t => if (afts t).isEmpty then lanternForm i else none
  | j => lanternForm j

/-- The consumed views after an instruction: an ineligible one clears them (R274). -/
def consumedAfter (consumed : List Nat) (i : Instr) : List Nat :=
  match eligibleForm i with
  | none => []
  | some (op, f, _) => match consumeTile op f with
    | some n => insertNew consumed n
    | none => consumed

/-- A matrix instruction that issues leaves the Lantern window (R269). -/
def Ctx.popWindow (x : Ctx) (e : Engine) (i : Instr) : Ctx :=
  if e = .m then { x with
    lantern := { x.lantern with win := x.lantern.win.drop 1, alone := false, consumed := consumedAfter x.lantern.consumed i } }
  else x

/-- The instruction retires with its cursor at p. -/
def State.retire (s : State) (i : Instr) (p : Pos) : State :=
  let c := s.focus
  let e := Instr.eng i
  let gap := (i.iss.extractLsb' 0 3).toNat
  let ran := (s.eng c e).displaced
  let away := s.marksAway c e (i.iss.getLsbD 3)
  let s1 := s.modCtx c fun x => (countAlone e ((x.modEng e fun n => n.commit s.cycle p gap away).clearDisplaced ran)).popWindow e i
  let s2 := s1.modCore (coreOf c) fun k => { k with busy := tset k.busy (engNo e) (((s1.eng c e).lastEnd) + 1) }
  (s2.stepTrap c i).settle c

/-! ## Planted residue errors (R256, R613) -/

/-- residue7: a number mod 7 (R109). -/
def residue7 (n : Nat) : Nat := n % 7
/-- 2^k mod 7 by k mod 3, and its inverse (R109). -/
def pow7 (k : Nat) : Nat := if k % 3 = 0 then 1 else if k % 3 = 1 then 2 else 4
def inv7 (k : Nat) : Nat := if k % 3 = 0 then 1 else if k % 3 = 1 then 4 else 2
/-- The residue predicted for a left shift by k of a value of residue r (R109). -/
def residueShl (r k : Nat) : Nat := r * pow7 k % 7
/-- The residue predicted for a right shift by k that drops bits of residue d (R109). -/
def residueShr (r d k : Nat) : Nat := (r + 7 - d) * inv7 k % 7
/-- The residue predicted for a bit plane's partial sum: over the rows whose A bit is set, the residues of B's column (R109). -/
def residuePlane : List (Bool × Nat) → Nat
  | [] => 0
  | (a, b) :: l => ((if a then b else 0) + residuePlane l) % 7
/-- The residue predicted for a K-block sum: 2^b times that of plane b, over the planes from b up (R109). -/
def residueBlock : Nat → List Nat → Nat
  | _, [] => 0
  | b, p :: l => (residueShl p b + residueBlock (b + 1) l) % 7
/-- The residue predicted for a rounding step: a right shift, then a conditional increment (R109). -/
def residueRound (r d k : Nat) (up : Bool) : Nat := (residueShr r d k + (if up then 1 else 0)) % 7

/-- INJECT matches the instruction (R256). -/
def injectMatches (w : Word) (i : Instr) : Bool :=
  w.getLsbD 63 && fld w 61 2 == engNo (Instr.eng i) && fld w 50 6 == i.major && (w.getLsbD 45 || fld w 46 4 == i.fnField)

/-- A checked value: its granule and its computed residue (R613). -/
abbrev Checked := Nat → Option (Nat × Nat)

/-- What INJECT does to an instruction that commits: nothing; a pass; a retry that succeeds; a retry that fails. -/
inductive Planted where
  | none
  | skip
  | retried
  | failed (lane gran exp act : Nat)
  deriving DecidableEq, Repr

def plant (w : Word) (i : Instr) (chk : Checked) : Planted :=
  if !injectMatches w i then .none
  else if fld w 16 16 != 0 then (if (List.range 4096).any fun l => (chk l).isSome then .skip else .none)
  else match chk (fld w 32 13) with
    | Option.none => .none
    | some (g, act) =>
      if fld w 59 2 = 2 then .failed (fld w 32 13) g ((act + fld w 0 3) % 7) act
      else .retried

def State.setInject (s : State) (c : Nat) (w : Word) : State :=
  s.modCtx c fun x => { x with sprs := { x.sprs with inject := w } }

def disarm (w : Word) : Word := w &&& ~~~(1#64 <<< 63)

def State.countRetry (s : State) (k : Nat) : State :=
  s.modCore k fun x => { x with retries := min (x.retries + 1) 0xFFFFFFFF }

/-- The end of an instruction whose checked values are given: `s` is the state before it. -/
def finishWith (i : Instr) (s : State) (chk : Checked) (r : Res) : Host.Outcome State Fault Refusal :=
  let c := s.focus
  let w := (s.ctx c).sprs.inject
  let commit (t : State) (p : Pos) : State :=
    match plant w i chk with
    | .none => t.retire i p
    | .skip => (t.setInject c (w - (1#64 <<< 16))).retire i p
    | .retried => ((t.setInject c (disarm w)).countRetry (coreOf c)).retire i p
    | .failed l g x a =>
      (s.setInject c (disarm w)).machineCheck c
        (({ code := tMcheck, inj := true, lane := l, gran := g, exp := x, act := a } : Trap).of s i) false
  match r with
  | .done t => .next (commit t (s.eng c (Instr.eng i)).next)
  | .jump t p => .next (commit t p)
  | .wait t st h => .next (t.waitOn c (Instr.eng i) st h i)
  | .trap t tr =>
    let tr1 := tr.of s i
    .next (if tr.code = tMcheck then t.machineCheck c tr1 (tr.sub == 2) else t.raise c tr1)
  | .gone t => .next t

/-- The checked value of a control instruction: its 64-bit result (R613). -/
def scalarChecked (s : State) (r : Res) : Checked := fun l =>
  if l != 0 then none
  else match r with
    | .done t =>
      match ((t.ctx s.focus).lands.drop (s.ctx s.focus).lands.length).head? with
      | some { act := .sreg _ _ v, .. } => some (0, residue7 v.toNat)
      | _ => none
    | .jump t _ =>
      match ((t.ctx s.focus).lands.drop (s.ctx s.focus).lands.length).head? with
      | some { act := .sreg _ _ v, .. } => some (0, residue7 v.toNat)
      | _ => none
    | _ => none

/-- The end of a control instruction. -/
def finish (i : Instr) (s : State) (r : Res) : Host.Outcome State Fault Refusal := finishWith i s (scalarChecked s r) r

/-! ## Tokens (R67, R211, R334) -/

/-- The consumed token is complete, or is the null token. -/
def State.tokReady (s : State) (c k : Nat) : Bool := ((s.ctx c).tok k).done

/-- The accesses that consuming a token orders before the consumer (R202, R211). -/
def State.tokHist (s : State) (c k : Nat) : List Acc := s.prune ((s.ctx c).tok k).hist

/-- An operation claims its product (R67). -/
def State.claim (s : State) (c k op promise scope : Nat) : State :=
  s.modCtx c fun x => x.setTok k { done := false, promise := promise, scope := scope, op := op }

/-- Records a new operation in flight. -/
def State.addOp (s : State) (o : Op) : State × Nat :=
  ({ s with ops := tset s.ops s.opNext o, opNext := s.opNext + 1 }, s.opNext)

/-- An operation of the focus context and an engine, with the fields that every operation has. -/
def State.newOp (s : State) (e : Engine) (i : Instr) (k : OpKind) : Op :=
  let c := s.focus
  { ctx := c, unit := s.unitNo c, core := coreOf c, eng := e, pos := (s.eng c e).cur, ins := i, kind := k
    issued := s.cycle, seq := s.seqNext, due := s.cycle + 1, hist := s.histOf c e, handler := (s.ctx c).inHandler }

/-! ## Holds on s registers whose write is still to come (R367) -/

/-- An LD, LDC or ATOM in flight will write the register. -/
def State.sPending (s : State) (c r : Nat) : Bool :=
  r != 0 && s.ops.any fun (_, o) => o.ctx == c && s.opLive o && (o.kind == .load || o.kind == .atom) && o.dst == r
    && (o.handler == (s.ctx c).inHandler || r < 56)

/-- The instruction holds while a register that it names is still to be written (R367). -/
def State.sHold (s : State) (rs : List Nat) (k : Res) : Res :=
  if rs.any fun r => s.sPending s.focus r then .wait s .waiting .sreg else k

end Sys2Proof.Machine
end

