-- ==== Sys2Proof/Machine/Barrier.lean ====
section
/-! DEFINITION. Hardware barriers (15_ref_a_c.md R370 to R380; 08_ordering.md R214; 09_scheduling.md R241). -/
namespace Sys2Proof.Machine

/-- The cluster and the object of a barrier handle; none where the handle is bad (R370). -/
def State.barAt (s : State) (h : Word) : Option (Nat × Nat) :=
  let d := moduleOf (dieOfCtx s.focus) * 64 + fld h 10 6
  if fld h 16 48 != 0 || !s.meshDies.contains d then none else some (d * 8 + fld h 7 3, fld h 0 7)

def State.bar (s : State) (cl obj : Nat) : Bar := tgetD (s.cluster cl).bars obj {}
def State.setBar (s : State) (cl obj : Nat) (b : Bar) : State :=
  s.modCluster cl fun g => { g with bars := tset g.bars obj b }

/-- A core lies outside a scope counted from a cluster (R372). -/
def outsideScope (core cl scope : Nat) : Bool :=
  if scope = 2 then clusterOf core != cl else if scope = 3 then dieOf core != cl / 8
  else moduleOf (dieOf core) != cl / 512

/-- The initialisation word is out of its ranges (R374). -/
def barWordBad (w : Word) : Bool :=
  fld w 36 28 != 0 || fld w 32 3 < 2 || 4 < fld w 32 3 || fld w 24 8 == 0 || fld w 0 24 == 0

def Bar.enrolled (b : Bar) (u : Nat) : Option Enrol := b.enrol.find? fun e => e.unit == u

/-- Enrolments held by a cluster's store (R371). -/
def State.enrolments (s : State) (cl : Nat) : Nat := (s.cluster cl).bars.foldl (fun n (_, b) => n + b.enrol.length) 0

/-- The object as a BARI finds it: a FREE or BROKEN one is initialised (R375). -/
def Bar.initialised (b : Bar) (w : Word) : Bar :=
  if b.st == .active then b
  else { b with st := .active, scope := fld w 32 3, total := fld w 0 24, arr := 0, owed := 0, enrol := []
                gen := if b.st == .broken then b.gen + 1 else b.gen }

/-- An arrival is made at issue, and counted once the accesses it releases are performed (R375, R380). -/
def State.arrive (s : State) (c cl obj : Nat) : State :=
  let u := s.unitNo c
  let b := s.bar cl obj
  let waits := (s.histOf c .c).filter fun a => match s.op? a.op with
    | some o => (s.ordRel c).getLsbD o.cls
    | none => false
  let s1 := s.setBar cl obj { b with enrol := b.enrol.map fun e => if e.unit == u then { e with made := e.made + 1 } else e }
  s1.modJob fun j =>
    { j with
      arrivals := tset j.arrivals j.arrivalNext { cluster := cl, obj := obj, unit := u, ctx := c, gen := b.gen.toNat, waits := waits }
      arrivalNext := j.arrivalNext + 1 }

def bariRes (f : C3) (s : State) : Res :=
  let c := s.focus
  let u := s.unitNo c
  let w := (s.ctx c).sr f.b.toNat
  if s.versioned c then .trap s (trapOf tOrder)
  else match s.barAt ((s.ctx c).sr f.a.toNat) with
    | none => .trap s (trapOf tTable)
    | some (cl, obj) =>
      let b := s.bar cl obj
      let active := b.st == .active
      let scope := if active then b.scope else fld w 32 3
      if outsideScope (coreOf c) cl scope || (active && (b.enrolled u).isSome) then .trap s (trapOf tOrder)
      else
        let owed := if active then b.owed else 0
        let others := s.enrolments cl - (if active then 0 else b.enrol.length)
        if barWordBad w || (active && (fld w 0 24 != b.total || fld w 32 3 != b.scope))
          || fld w 0 24 < owed + fld w 24 8 || 2048 ≤ others then .trap s (trapOf tTable)
        else
          let b1 := b.initialised w
          let b2 := { b1 with enrol := b1.enrol ++ [{ unit := u, owe := fld w 24 8, made := 0 }], owed := b1.owed + fld w 24 8 }
          let s1 := s.setBar cl obj b2
          .done (if w.getLsbD 35 then s1.arrive c cl obj else s1)

def execBari (f : C3) (s : State) : Host.Outcome State Fault Refusal :=
  finish (.bari f) s (s.sHold [f.a.toNat, f.b.toNat] (bariRes f s))

/-- BARA (R375): ORDER stands before TABLE (R246). -/
def baraRes (f : C3) (s : State) : Res :=
  let c := s.focus
  if s.versioned c then .trap s (trapOf tOrder)
  else match s.barAt ((s.ctx c).sr f.a.toNat) with
    | none => .trap s (trapOf tTable)
    | some (cl, obj) =>
      let b := s.bar cl obj
      if b.st == .free then .trap s (trapOf tTable)
      else if outsideScope (coreOf c) cl b.scope then .trap s (trapOf tOrder)
      else if b.st == .broken then .done s
      else match b.enrolled (s.unitNo c) with
        | some e => if e.made = e.owe then .trap s (trapOf tOrder) else .done (s.arrive c cl obj)
        | none => .trap s (trapOf tOrder)

def execBara (f : C3) (s : State) : Host.Outcome State Fault Refusal :=
  finish (.bara f) s (s.sHold [f.a.toNat] (baraRes f s))

/-- Arrivals that units made in a generation are not yet counted, since what they release is still to be performed (R380). -/
def State.arrivalsLeft (s : State) (cl obj gen : Nat) : Bool :=
  s.job.arrivals.any fun (_, a) => a.cluster == cl && a.obj == obj && a.gen == gen && a.waits.any fun w => s.pending w

/-- BARW returns an outcome once it has acquired the arrivals that units made in the generation (R214). -/
def barwOut (f : C3) (s : State) (cl obj gen : Nat) (out : Word) : Res :=
  if s.arrivalsLeft cl obj gen then .wait s .waiting (.barrier cl obj gen (some out)) else .done (s.putS s.focus f.d.toNat 1 out)

/-- BARW (R376). -/
def barwRes (f : C3) (s : State) : Res :=
  let c := s.focus
  match (s.eng c .c).hold with
  | .barrier cl obj g (some out) => barwOut f s cl obj g out
  | .barrier cl obj g none => .wait s .waiting (.barrier cl obj g none)
  | _ =>
    if s.versioned c then .trap s (trapOf tOrder)
    else match s.barAt ((s.ctx c).sr f.a.toNat) with
      | none => .trap s (trapOf tTable)
      | some (cl, obj) =>
        let b := s.bar cl obj
        if b.st == .free then .trap s (trapOf tTable)
        else if outsideScope (coreOf c) cl b.scope then .trap s (trapOf tOrder)
        else if b.st == .broken then barwOut f s cl obj b.gen.toNat (barResult 2 b.gen b.total)
        else match b.enrolled (s.unitNo c) with
          | some e =>
            if e.made < e.owe then .trap s (trapOf tOrder) else .wait s .waiting (.barrier cl obj b.gen.toNat none)
          | none =>
            let out := barResult b.last (b.gen - 1) b.total
            if b.last = 2 then barwOut f s cl obj (b.gen - 1).toNat out else .done (s.putS c f.d.toNat 1 out)

def execBarw (f : C3) (s : State) : Host.Outcome State Fault Refusal :=
  finish (.barw f) s (s.sHold [f.d.toNat, f.a.toNat] (barwRes f s))

/-- An arrival is counted; the last one completes the generation (R375). -/
def State.countArrival (s : State) (a : Arrival) : State :=
  let b := s.bar a.cluster a.obj
  if b.st != .active || b.gen.toNat != a.gen then s
  else if b.arr + 1 = b.total then
    (s.setBar a.cluster a.obj { b with last := 1, enrol := [], arr := 0, owed := 0, gen := b.gen + 1 }).endGeneration
      a.cluster a.obj b.gen (barResult 1 b.gen b.total)
  else s.setBar a.cluster a.obj { b with arr := b.arr + 1 }

/-- Earlier arrivals of the same unit at the object are counted first (R375). -/
def State.arrivalReady (s : State) (n : Nat) : Bool :=
  match tget s.job.arrivals n with
  | some a =>
    !(a.waits.any fun w => s.pending w)
      && !(s.job.arrivals.any fun (m, q) => m < n && q.unit == a.unit && q.cluster == a.cluster && q.obj == a.obj)
  | none => false

/-- BARRIER_ARRIVAL (R380). -/
def execBarrierArrival (arrival : Nat) (s : State) : Host.Outcome State Fault Refusal :=
  match tget s.job.arrivals arrival with
  | some a =>
    if s.arrivalReady arrival then
      .next ((s.countArrival a).modJob fun j => { j with arrivals := tdel j.arrivals arrival })
    else .next s
  | none => .next s

end Sys2Proof.Machine
end

