-- ==== Sys2Proof/Machine/Flags.lean ====
section
/-! DEFINITION. Number formats, rounding and the arithmetic flags (04_arithmetic.md R83 to R101). A finite value is an
exact dyadic, sign * man * 2 ^ exp; a result that is not dyadic carries enough leading bits and a sticky mark. -/
namespace Sys2Proof.Machine

/-! ## Flags of ARSTAT (R100) -/

abbrev Flg := BitVec 6
def fNV : Flg := 1
def fDZ : Flg := 2
def fOF : Flg := 4
def fUF : Flg := 8
def fNX : Flg := 16
def fSAT : Flg := 32

/-- ARSTAT with flags ORed in (R101). -/
def orFlags (w : Word) (f : Flg) : Word := w ||| f.zeroExtend 64
/-- Flags raised in a cycle: ORed into ARSTAT, and remembered for a SYSW of the same cycle (R101). -/
def Ctx.raiseFlags (x : Ctx) (now : Nat) (f : Flg) : Ctx :=
  if f = 0 then x
  else { x with sprs := { x.sprs with arstat := orFlags x.sprs.arstat f }, flagCycle := now
                flagBits := if x.flagCycle = now then x.flagBits ||| f else f }
/-- The lowest-numbered raised flag whose enable is set (R101). -/
def enabledFlag (w : Word) (f : Flg) : Option Nat :=
  [0, 1, 2, 3, 4, 5].find? fun n => f.getLsbD n && w.getLsbD (8 + n)

/-! ## Formats (R53, R83) -/

def Fmt.code : Fmt → Nat
  | .raw => 0 | .fp64 => 1 | .fp32 => 2 | .bf16 => 3 | .e4m3 => 4 | .e5m2 => 5 | .lg6 => 6 | .ob8 => 7 | .ob4 => 8
  | .e8m0 => 9 | .i8 => 0xA | .i16 => 0xB | .i32 => 0xC | .i64 => 0xD | .n8 => 0xE | .n16 => 0xF | .n32 => 0x10
  | .n64 => 0x11 | .side => 0x12

def fmtOf : Nat → Option Fmt
  | 0 => some .raw | 1 => some .fp64 | 2 => some .fp32 | 3 => some .bf16 | 4 => some .e4m3 | 5 => some .e5m2
  | 6 => some .lg6 | 7 => some .ob8 | 8 => some .ob4 | 9 => some .e8m0 | 0xA => some .i8 | 0xB => some .i16
  | 0xC => some .i32 | 0xD => some .i64 | 0xE => some .n8 | 0xF => some .n16 | 0x10 => some .n32 | 0x11 => some .n64
  | 0x12 => some .side | _ => none

/-- Bits of an element; RAW and SIDE have none of their own and read as bytes. -/
def Fmt.bits : Fmt → Nat
  | .fp64 | .i64 | .n64 => 64
  | .fp32 | .i32 | .n32 => 32
  | .bf16 | .i16 | .n16 | .side => 16
  | .ob4 => 4
  | _ => 8

def Fmt.isFloat : Fmt → Bool
  | .fp64 | .fp32 | .bf16 | .e4m3 | .e5m2 => true
  | _ => false

def Fmt.isSigned : Fmt → Bool
  | .i8 | .i16 | .i32 | .i64 => true
  | _ => false

def Fmt.isUnsigned : Fmt → Bool
  | .n8 | .n16 | .n32 | .n64 => true
  | _ => false

def Fmt.isInt (f : Fmt) : Bool := f.isSigned || f.isUnsigned

/-- Significand bits, bias, exponent bits and whether the format has infinities (R83). -/
structure FF where
  m : Nat
  bias : Nat
  ebits : Nat
  inf : Bool
  deriving DecidableEq, Repr

def Fmt.ff : Fmt → FF
  | .fp64 => ⟨52, 1023, 11, true⟩
  | .fp32 => ⟨23, 127, 8, true⟩
  | .bf16 => ⟨7, 127, 8, true⟩
  | .e5m2 => ⟨2, 15, 5, true⟩
  | _ => ⟨3, 7, 4, false⟩

/-- The largest finite magnitude code. -/
def FF.maxCode (f : FF) : Nat := if f.inf then (2 ^ f.ebits - 1) * 2 ^ f.m - 1 else 2 ^ (f.ebits + f.m) - 2
def FF.infCode (f : FF) : Nat := (2 ^ f.ebits - 1) * 2 ^ f.m
def FF.signBit (f : FF) : Nat := 2 ^ (f.ebits + f.m)
/-- The default NaN (R84). -/
def FF.nanCode (f : FF) : Nat := if f.inf then f.infCode + 2 ^ (f.m - 1) else 2 ^ (f.ebits + f.m) - 1

/-- A value: a NaN with its sign, its fraction at 52 bits and whether it signals; an infinity; a finite dyadic. -/
inductive FVal where
  | nan (sign : Bool) (frac : Nat) (sig : Bool)
  | inf (sign : Bool)
  | fin (sign : Bool) (man : Nat) (exp : Int)
  deriving DecidableEq, Repr

def FVal.isNan : FVal → Bool
  | .nan _ _ _ => true
  | _ => false

def FVal.isSig : FVal → Bool
  | .nan _ _ s => s
  | _ => false

def FVal.isInf : FVal → Bool
  | .inf _ => true
  | _ => false

def FVal.isZero : FVal → Bool
  | .fin _ 0 _ => true
  | _ => false

def FVal.sign : FVal → Bool
  | .nan s _ _ => s
  | .inf s => s
  | .fin s _ _ => s

/-- The value of a code of a binary floating format (R83). -/
def FF.value (f : FF) (code : Nat) : FVal :=
  let s := code / f.signBit % 2 == 1
  let e := code / 2 ^ f.m % 2 ^ f.ebits
  let q := code % 2 ^ f.m
  if e = 0 then .fin s q (1 - f.bias - f.m : Int)
  else if e = 2 ^ f.ebits - 1 && f.inf then
    if q = 0 then .inf s else .nan s (q * 2 ^ (52 - f.m)) (q < 2 ^ (f.m - 1))
  else if e = 2 ^ f.ebits - 1 && q = 2 ^ f.m - 1 then .nan s (q * 2 ^ (52 - f.m)) false
  else .fin s (2 ^ f.m + q) ((e : Int) - f.bias - f.m)

/-- The table of R89. -/
def lgTable (f : Nat) : Nat :=
  match f with
  | 0 => 4096
  | 1 => 4871
  | 2 => 5793
  | _ => 6889

/-- L(q) in units of 2⁻¹⁶ (R89): q from 1 to 31. -/
def lgMag (q : Nat) : Nat := if q = 0 then 0 else lgTable (q % 4) * 2 ^ (q / 4)

/-- The numerical value of an element (R83, R86, R89, R91). -/
def Fmt.value (t : Fmt) (code : Nat) : FVal :=
  match t with
  | .lg6 => .fin (code / 32 % 2 == 1 && code % 32 != 0) (lgMag (code % 32)) (-16)
  | .e8m0 => if code = 255 then .nan false (2 ^ 51) false else .fin false 1 ((code : Int) - 127)
  | .fp64 | .fp32 | .bf16 | .e4m3 | .e5m2 => t.ff.value code
  | _ =>
    let v : Int := if t.isSigned then sgnOf t.bits code else ((code % 2 ^ t.bits : Nat) : Int)
    .fin (v < 0) v.natAbs 0

/-! ## Rounding (R95 to R98) -/

inductive Rnd where
  | rne | rz | rd | ru | sd
  deriving DecidableEq, Repr

/-- The codes of R96; 5 to 7 never pass decode. -/
def rndOf : Nat → Rnd
  | 0 => .rne
  | 1 => .rz
  | 2 => .rd
  | 3 => .ru
  | _ => .sd

/-- D of R98 for the position j = (p + PH) mod 32. -/
def dither (p ph : Nat) : Nat :=
  let j := (p + ph) % 32
  (j % 2 * 16 + j / 2 % 2 * 8 + j / 4 % 2 * 4 + j / 8 % 2 * 2 + j / 16 % 2) * 2048 + 0x400

/-- A rounding: the mode and, for SD, the dither value. -/
structure RM where
  mode : Rnd := .rne
  d : Nat := 0
  deriving DecidableEq, Repr

def bitLen (n : Nat) : Nat := if n = 0 then 0 else Nat.log2 n + 1

/-- Whether the larger neighbour is taken: `low` is the odd bit of lo, `rem` the k discarded bits (R97, R98). -/
def roundsUp (r : RM) (neg odd : Bool) (rem k : Nat) (sticky : Bool) : Bool :=
  let some_ := rem != 0 || sticky
  match r.mode with
  | .rz => false
  | .ru => some_ && !neg
  | .rd => some_ && neg
  | .rne =>
    let half := 2 ^ (k - 1)
    k != 0 && (half < rem || (rem == half && (sticky || odd)))
  | .sd => 0x10000 ≤ (if 16 ≤ k then rem / 2 ^ (k - 16) else rem * 2 ^ (16 - k)) + r.d

/-- The exponent of the last place of a magnitude in a format. -/
def FF.quantum (f : FF) (man : Nat) (exp : Int) : Int :=
  max ((bitLen man : Int) - 1 + exp) (1 - f.bias) - f.m

/-- An overflow (R85). -/
def FF.overflow (f : FF) (r : RM) (neg sat : Bool) : Nat × Flg :=
  if sat then (f.maxCode, fSAT ||| fNX)
  else if !f.inf then (f.nanCode, fOF ||| fNX)
  else
    let away := match r.mode with
      | .rne | .sd => true
      | .ru => !neg
      | .rd => neg
      | .rz => false
    (if away then f.infCode else f.maxCode, fOF ||| fNX)

/-- round(x, mode) of a nonzero finite magnitude: the code without its sign, and the flags (R85, R95, R97). -/
def FF.roundMag (f : FF) (r : RM) (neg sat : Bool) (man : Nat) (exp : Int) (sticky : Bool) : Nat × Flg :=
  let q := f.quantum man exp
  let k := (q - exp).toNat
  let lo := if exp ≥ q then man * 2 ^ (exp - q).toNat else man / 2 ^ k
  let rem := if exp ≥ q then 0 else man % 2 ^ k
  let inexact := rem != 0 || sticky
  let v := if roundsUp r neg (lo % 2 == 1) rem k sticky then lo + 1 else lo
  let lead := (bitLen man : Int) - 1 + exp
  let tiny := lead < 1 - (f.bias : Int)
  let code := if tiny then v else ((lead + f.bias).toNat - 1) * 2 ^ f.m + v
  if f.maxCode < code then f.overflow r neg sat
  else (code, (if inexact then fNX else 0) ||| (if tiny && inexact then fUF else 0))

/-- A finite result in a format. -/
def FF.round (f : FF) (r : RM) (sat neg : Bool) (man : Nat) (exp : Int) (sticky : Bool := false) : Nat × Flg :=
  let s := if neg then f.signBit else 0
  if man = 0 && !sticky then (s, 0)
  else
    let (c, g) := f.roundMag r neg sat man exp sticky
    (s + c, g)

/-- A NaN as a code of a format, quieted (R84). -/
def FF.nan (f : FF) (sign : Bool) (frac : Nat) : Nat :=
  (if sign then f.signBit else 0)
    + (if f.inf then f.infCode + (frac / 2 ^ (52 - f.m)) % 2 ^ (f.m - 1) + 2 ^ (f.m - 1) else f.nanCode)

/-- An infinite result, which E4M3 does not have (R85). -/
def FF.infinity (f : FF) (sat neg : Bool) : Nat × Flg :=
  let s := if neg then f.signBit else 0
  if f.inf then (s + f.infCode, 0)
  else if sat then (s + f.maxCode, fSAT)
  else (s + f.nanCode, fNV)

/-- The LG6 candidates around a magnitude given in units of 2^-16 * 2^k (R90): the largest q with L(q) at most it. -/
def lgBelow (man : Nat) (exp : Int) : Nat → Nat
  | 0 => 0
  | q + 1 =>
    -- L(q+1) * 2^-16 ≤ man * 2^exp
    let e := exp + 16
    if (if e ≥ 0 then lgMag (q + 1) ≤ man * 2 ^ e.toNat else lgMag (q + 1) * 2 ^ (-e).toNat ≤ man) then q + 1
    else lgBelow man exp q

/-- Conversion of a finite magnitude to LG6 (R90). -/
def lgRound (r : RM) (neg : Bool) (man : Nat) (exp : Int) (sticky : Bool) : Nat × Flg :=
  let q := lgBelow man exp 31
  -- the magnitude and the neighbours over one denominator 2^s
  let e := exp + 16
  let num := if e ≥ 0 then man * 2 ^ e.toNat else man
  let den := if e ≥ 0 then 1 else 2 ^ (-e).toNat
  let lo := lgMag q * den
  let exact := num == lo && !sticky
  let sgn (c : Nat) : Nat := if c = 0 then 0 else if neg then 32 + c else c
  if exact then (sgn q, 0)
  else if q = 31 then (sgn 31, fSAT ||| fNX)
  else
    let hi := lgMag (q + 1) * den
    let up := match r.mode with
      | .rz => false
      | .ru => !neg
      | .rd => neg
      | .rne => lo + hi < 2 * num || (lo + hi == 2 * num && (sticky || q % 2 == 1))
      | .sd => 0x10000 ≤ (num - lo) * 0x10000 / (hi - lo) + r.d
    (sgn (if up then q + 1 else q), fNX)

/-- Clamps a value to the range of an integer type. -/
def Fmt.clamp (t : Fmt) (v : Int) : Int :=
  let lo : Int := if t.isSigned then -(2 ^ (t.bits - 1) : Nat) else 0
  let hi : Int := if t.isSigned then (2 ^ (t.bits - 1) : Nat) - 1 else (2 ^ t.bits : Nat) - 1
  max lo (min hi v)

/-- An exact integer result: the low bits, or clamped under .sat (R91). -/
def Fmt.intResult (t : Fmt) (sat : Bool) (v : Int) : Nat × Flg :=
  if sat then
    let c := t.clamp v
    (wrapOf t.bits c, if c = v then 0 else fSAT)
  else (wrapOf t.bits v, 0)

/-- A finite magnitude rounded to an integer (R94, R97). -/
def roundToInt (r : RM) (neg : Bool) (man : Nat) (exp : Int) : Int × Bool :=
  if exp ≥ 0 then ((if neg then -1 else 1) * (man * 2 ^ exp.toNat : Nat), false)
  else
    let k := (-exp).toNat
    let lo := man / 2 ^ k
    let rem := man % 2 ^ k
    let v := if roundsUp r neg (lo % 2 == 1) rem k false then lo + 1 else lo
    ((if neg then -1 else 1) * (v : Int), rem != 0)

/-- A value into a type: conversion and every floating result end here (R84, R85, R90, R94). -/
def Fmt.ofValue (t : Fmt) (r : RM) (sat : Bool) (v : FVal) : Nat × Flg :=
  let nv : Flg := if v.isSig then fNV else 0
  if t.isFloat then
    match v with
    | .nan s p _ => (t.ff.nan s p, nv)
    | .inf s => t.ff.infinity sat s
    | .fin s m e => t.ff.round r sat s m e
  else if t == .lg6 then
    match v with
    | .nan _ _ _ => (0, fNV)
    | .inf s => (if s then 63 else 31, fSAT)
    | .fin s m e => if m = 0 then (0, 0) else lgRound r s m e false
  else
    match v with
    | .nan _ _ _ => (0, fNV)
    | .inf s => (wrapOf t.bits (t.clamp (if s then -(2 ^ 80 : Nat) else (2 ^ 80 : Nat))), fNV)
    | .fin s m e =>
      let (x, inexact) := roundToInt r s m e
      let c := t.clamp x
      if c = x then (wrapOf t.bits x, if inexact then fNX else 0) else (wrapOf t.bits c, fNV)

/-- A value of one type rounded into a type, which may be the same one: a signalling NaN is quieted and sets NV
(R84, R488). -/
def castValue (src dst : Fmt) (r : RM) (sat : Bool) (code : Nat) : Nat × Flg :=
  if dst.isFloat || dst.isInt || dst == .lg6 then
    if src.isInt && dst.isInt then
      let v : Int := if src.isSigned then sgnOf src.bits code else ((code % 2 ^ src.bits : Nat) : Int)
      dst.intResult sat v
    else dst.ofValue r sat (src.value code)
  else (Config.openConversion dst.code code % 2 ^ dst.bits, 0)

/-- The bits of a code: bits [7:6] of an LG6 byte are ignored on reading and written as 0 (R53). -/
def Fmt.codeBits (t : Fmt) : Nat := if t == .lg6 then 6 else t.bits

/-- convert of R558: a copy of equal types moves the bits. -/
def convert (src dst : Fmt) (r : RM) (sat : Bool) (code : Nat) : Nat × Flg :=
  if src = dst then (code % 2 ^ src.codeBits, 0) else castValue src dst r sat code

/-! ## Exact arithmetic on values -/

/-- A finite value as an integer at an exponent. -/
def dyAt (s : Bool) (man : Nat) (exp low : Int) : Int := (if s then -1 else 1) * (man * 2 ^ (exp - low).toNat : Nat)

/-- The exact sum of finite values, at the smallest exponent. -/
def dySum : List (Bool × Nat × Int) → Int × Int
  | [] => (0, 0)
  | l =>
    let low := l.foldl (fun a x => min a x.2.2) (l.headD (false, 0, 0)).2.2
    (l.foldl (fun a x => a + dyAt x.1 x.2.1 x.2.2 low) 0, low)

/-- The first NaN operand, quieted, or the default NaN (R84). -/
def firstNan (f : FF) : List FVal → Nat
  | [] => f.nanCode
  | .nan s p _ :: _ => f.nan s p
  | _ :: l => firstNan f l

def anySig (l : List FVal) : Flg := if l.any FVal.isSig then fNV else 0

/-- A result of a sum: a zero sum of operands of opposite sign is +0, in RD -0 (R95). -/
def FF.sumResult (f : FF) (r : RM) (sat zeroNeg : Bool) (v : Int) (low : Int) : Nat × Flg :=
  if v = 0 then ((if zeroNeg then f.signBit else 0), 0)
  else f.round r sat (v < 0) v.natAbs low

/-- The sign of an exact zero sum. -/
def zeroSign (r : RM) (signs : List Bool) : Bool :=
  if signs.all id then true
  else if signs.any id then r.mode == .rd
  else false

/-- a * b + c, rounded once; VADD, VSUB and VMUL are its cases (R546, R548). -/
def FF.add (f : FF) (r : RM) (sat : Bool) (a b : FVal) : Nat × Flg :=
  if a.isNan || b.isNan then (firstNan f [a, b], anySig [a, b])
  else match a, b with
    | .inf s, .inf u => if s = u then f.infinity sat s else (f.nanCode, fNV)
    | .inf s, _ => f.infinity sat s
    | _, .inf u => f.infinity sat u
    | .fin s m e, .fin u n g =>
      let (v, low) := dySum [(s, m, e), (u, n, g)]
      f.sumResult r sat (zeroSign r [s, u]) v low
    | _, _ => (f.nanCode, fNV)

def FVal.neg : FVal → FVal
  | .nan s p g => .nan s p g
  | .inf s => .inf (!s)
  | .fin s m e => .fin (!s) m e

/-- The exact product; none for 0 · ∞. -/
def FVal.mul (a b : FVal) : Option FVal :=
  match a, b with
  | .inf s, .inf u => some (.inf (s != u))
  | .inf s, .fin u n _ => if n = 0 then none else some (.inf (s != u))
  | .fin s m _, .inf u => if m = 0 then none else some (.inf (s != u))
  | .fin s m e, .fin u n g => some (.fin (s != u) (m * n) (e + g))
  | _, _ => none

def FF.mul (f : FF) (r : RM) (sat : Bool) (a b : FVal) : Nat × Flg :=
  if a.isNan || b.isNan then (firstNan f [a, b], anySig [a, b])
  else match a.mul b with
    | none => (f.nanCode, fNV)
    | some (.inf s) => f.infinity sat s
    | some (.fin s m e) => f.round r sat s m e
    | some (.nan _ _ _) => (f.nanCode, fNV)

/-- a * b + c, rounded once (R95). A NaN among the operands gives the first of them; 0 times an infinity beside a quiet NaN
addend sets no NV, which IEEE 754 leaves open (DESIGN CHOICE, log 40). -/
def FF.fma (f : FF) (r : RM) (sat : Bool) (a b c : FVal) : Nat × Flg :=
  if a.isNan || b.isNan || c.isNan then (firstNan f [a, b, c], anySig [a, b, c])
  else match a.mul b with
    | none => (f.nanCode, fNV)
    | some p => f.add r sat p c

/-- Leading bits kept of a result that is not dyadic. -/
def keepBits : Nat := 160

/-- a / b of finite nonzero magnitudes: leading bits, exponent and sticky mark. -/
def divMag (m n : Nat) (e : Int) : Nat × Int × Bool :=
  let s := keepBits + bitLen n
  (m * 2 ^ s / n, e - s, m * 2 ^ s % n != 0)

def FF.div (f : FF) (r : RM) (sat : Bool) (a b : FVal) : Nat × Flg :=
  if a.isNan || b.isNan then (firstNan f [a, b], anySig [a, b])
  else match a, b with
    | .inf _, .inf _ => (f.nanCode, fNV)
    | .inf s, _ => f.infinity sat (s != b.sign)
    | .fin s _ _, .inf u => ((if s != u then f.signBit else 0), 0)
    | .fin s m e, .fin u n g =>
      if n = 0 then
        if m = 0 then (f.nanCode, fNV)
        else
          let (c, x) := f.infinity sat (s != u)
          (c, x ||| fDZ)
      else if m = 0 then ((if s != u then f.signBit else 0), 0)
      else
        let (q, x, st) := divMag m n (e - g)
        f.round r sat (s != u) q x st
    | _, _ => (f.nanCode, fNV)

/-- ⌊√n⌋, bit by bit below 2^k. -/
def isqrtGo (n : Nat) : Nat → Nat → Nat
  | 0, a => a
  | k + 1, a => if (a + 2 ^ k) * (a + 2 ^ k) ≤ n then isqrtGo n k (a + 2 ^ k) else isqrtGo n k a

def isqrt (n : Nat) : Nat := isqrtGo n (bitLen n / 2 + 1) 0

/-- √(m · 2^e). -/
def sqrtMag (m : Nat) (e : Int) : Nat × Int × Bool :=
  let s : Nat := 2 * keepBits + (e % 2).toNat
  let n := m * 2 ^ s
  let a := isqrt n
  (a, (e - s) / 2, a * a != n)

/-- 1 / √(m · 2^e). -/
def rsqMag (m : Nat) (e : Int) : Nat × Int × Bool :=
  let m1 := if e % 2 = 0 then m else 2 * m
  let e1 := if e % 2 = 0 then e else e - 1
  let s := keepBits + bitLen m
  let n := 2 ^ (2 * s) / m1
  let a := isqrt n
  (a, -(s : Int) - e1 / 2, a * a * m1 != 2 ^ (2 * s))

def FF.sqrt (f : FF) (r : RM) (a : FVal) : Nat × Flg :=
  match a with
  | .nan s p g => (f.nan s p, if g then fNV else 0)
  | .inf s => if s then (f.nanCode, fNV) else (f.infCode, 0)
  | .fin s m e =>
    if m = 0 then ((if s then f.signBit else 0), 0)
    else if s then (f.nanCode, fNV)
    else
      let (q, x, st) := sqrtMag m e
      f.round r false false q x st

def FF.rcp (f : FF) (r : RM) (a : FVal) : Nat × Flg := f.div r false (.fin false 1 0) a

def FF.rsq (f : FF) (r : RM) (a : FVal) : Nat × Flg :=
  match a with
  | .nan s p g => (f.nan s p, if g then fNV else 0)
  | .inf s => if s then (f.nanCode, fNV) else (0, 0)
  | .fin s m e =>
    if m = 0 then ((if s then f.signBit else 0) + f.infCode, fDZ)
    else if s then (f.nanCode, fNV)
    else
      let (q, x, st) := rsqMag m e
      f.round r false false q x st

/-- ln 2 in units of 2⁻²⁵⁶. -/
def ln2Fixed : Nat := 80260960185991308862233904206310070533990667611589946606122867505419956976171

/-- Adds the terms of the exponential series (log 15). -/
def expSeries (t : Nat) : Nat → Nat → Nat → Nat → Nat
  | 0, _, _, acc => acc
  | k + 1, n, term, acc =>
    let u := term * t / 2 ^ 256 / n
    expSeries t k (n + 1) u (acc + u)

/-- 2^x of a fraction in units of 2⁻²⁵⁶, in the same units (log 15). -/
def exp2Frac (f : Nat) : Nat := expSeries (f * ln2Fixed / 2 ^ 256) 70 1 (2 ^ 256) (2 ^ 256)

/-- 2^a for a finite a that is not an integer: leading bits and exponent (log 15). -/
def exp2Mag (s : Bool) (m : Nat) (e : Int) : Nat × Int :=
  -- x = ip + f / 2^256 with 0 ≤ f < 2^256; a large |x| is cut at 2^16, far beyond every format
  let num : Int := if s then -(m : Int) else m
  let ip : Int := if e ≥ 0 then num * (2 ^ (min e 20).toNat : Nat) else num / (2 ^ (-e).toNat : Nat)
  let ic : Int := max (-70000) (min 70000 ip)
  let frac : Nat := if e ≥ 0 then 0 else ((num - ip * (2 ^ (-e).toNat : Nat)) * (2 ^ 256 : Nat) / (2 ^ (-e).toNat : Nat)).toNat
  (exp2Frac frac / 2 ^ 96, ic - 160)

def isIntegral (m : Nat) (e : Int) : Bool := e ≥ 0 || m % 2 ^ (-e).toNat == 0

def FF.exp2 (f : FF) (r : RM) (sat : Bool) (a : FVal) : Nat × Flg :=
  match a with
  | .nan s p g => (f.nan s p, if g then fNV else 0)
  | .inf s => if s then (0, 0) else f.infinity sat false
  | .fin s m e =>
    if isIntegral m e then
      let n : Int := (roundToInt {} s m (min e 40)).1
      f.round r sat false 1 (max (-70000) (min 70000 n))
    else
      let (q, x) := exp2Mag s m e
      f.round r sat false q x true

/-- The fraction bits of log₂ of a number in [1, 2), given in units of 2⁻⁴⁸⁰ (log 15). -/
def log2Bits : Nat → Nat → Nat → Nat
  | 0, _, acc => acc
  | k + 1, x, acc =>
    let y := x * x / 2 ^ 480
    if 2 ^ 481 ≤ y then log2Bits k (y / 2) (2 * acc + 1) else log2Bits k y (2 * acc)

def FF.log2 (f : FF) (r : RM) (sat : Bool) (a : FVal) : Nat × Flg :=
  match a with
  | .nan s p g => (f.nan s p, if g then fNV else 0)
  | .inf s => if s then (f.nanCode, fNV) else f.infinity sat false
  | .fin s m e =>
    if m = 0 then (f.signBit + f.infCode, fDZ)
    else if s then (f.nanCode, fNV)
    else
      let b := bitLen m - 1
      let k : Int := b + e
      if m = 2 ^ b then f.round r sat (k < 0) k.natAbs 0
      else
        let g := log2Bits keepBits (m * 2 ^ (480 - b)) 0
        let v : Int := k * (2 ^ keepBits : Nat) + g
        -- the value lies strictly between v and v + 1 in the last unit
        if v < 0 then f.round r sat true (v.natAbs - 1) (-(keepBits : Int)) true
        else f.round r sat false v.natAbs (-(keepBits : Int)) true

/-- a · 2ⁿ (R548). -/
def FF.scl (f : FF) (r : RM) (sat : Bool) (a : FVal) (n : Int) : Nat × Flg :=
  match a with
  | .nan s p g => (f.nan s p, if g then fNV else 0)
  | .inf s => f.infinity sat s
  | .fin s m e => f.round r sat s m (e + max (-65536) (min 65536 n))

/-- a < b of values that are not NaN, -0 counting as less than +0 where `total` (R548, R556). -/
def valLess (total : Bool) (a b : FVal) : Bool :=
  match a, b with
  | .inf s, .inf u => s && !u
  | .inf s, _ => s
  | _, .inf u => !u
  | .fin s m e, .fin u n g =>
    let low := min e g
    let x := dyAt s m e low
    let y := dyAt u n g low
    x < y || (total && x == y && m == 0 && s && !u)
  | _, _ => false

/-- minmax of R548. -/
def FF.minmax (f : FF) (isMax : Bool) (ca cb : Nat) : Nat × Flg :=
  let a := f.value ca
  let b := f.value cb
  let g := anySig [a, b]
  if a.isNan && b.isNan then (firstNan f [a], g)
  else if a.isNan then (cb, g)
  else if b.isNan then (ca, g)
  else if (if isMax then valLess true a b else valLess true b a) then (cb, g)
  else (ca, g)

/-! ## Quantisation (R87, R88) -/

/-- The value of an OB element: its difference at its block's scale; none for a scale of 0xFF. -/
def obValue (d : Int) (scale : Nat) : Option FVal :=
  if scale = 255 then none else some (.fin (d < 0) d.natAbs ((scale : Int) - 127))

/-- Dequantisation to FP32 in RNE (R87). -/
def dequant (d : Int) (scale : Nat) : Nat × Flg :=
  match obValue d scale with
  | none => (0x7FC00000, 0)
  | some v => Fmt.ofValue .fp32 {} false v

/-- x ≤ B · 2^(σ - 127). -/
def fitsScale (b : Nat) (v : FVal) (sigma : Nat) : Bool :=
  match v with
  | .fin _ m e =>
    let t : Int := (sigma : Int) - 127
    let low := min e t
    m * 2 ^ (e - low).toNat ≤ b * 2 ^ (t - low).toNat
  | _ => false

/-- The smallest σ for which every element fits, or 254. -/
def findScale (b : Nat) (l : List FVal) : Nat → Nat → Nat
  | 0, s => s
  | f + 1, s => if l.all fun v => fitsScale b v s then s else findScale b l f (s + 1)

/-- One block of FP32 elements: codes, zero point, scale and flags (R88). `codeBits` is 8 or 4; the dither of element p
is `rm p`. -/
def quantBlock (codeBits : Nat) (rm : Nat → RM) (xs : List Nat) : List Nat × Nat × Nat × Flg :=
  let z := 2 ^ (codeBits - 1)
  let b := z - 1
  let vs := xs.map fun x => Fmt.value .fp32 x
  if vs.any fun v => v.isNan || v.isInf then (xs.map fun _ => z, z, 255, fNV)
  else
    let s := findScale b vs 254 0
    let cs := (List.zip (List.range xs.length) vs).map fun (p, v) =>
      match v with
      | .fin sg m e =>
        let (q, inexact) := roundToInt (rm p) sg m (e - ((s : Int) - 127))
        let c : Int := z + q
        let k := max 0 (min (2 ^ codeBits - 1 : Int) c)
        (k.toNat, (if inexact then fNX else 0) ||| (if k = c then (0 : Flg) else fSAT))
      | _ => (z, 0)
    (cs.map Prod.fst, z, s, cs.foldl (fun g c => g ||| c.2) 0)

/-! ## Integer edge rules (R91 to R93) -/

/-- Shifts and rotates of a w-bit element by k (R92). -/
def shlN (w k a : Nat) : Nat := if w ≤ k then 0 else a * 2 ^ k % 2 ^ w
def shrN (w k a : Nat) : Nat := if w ≤ k then 0 else a % 2 ^ w / 2 ^ k
def sarN (w k a : Nat) : Nat := wrapOf w (sgnOf w a / (2 ^ min k w : Nat))
def rolN (w k a : Nat) : Nat := a % 2 ^ w * 2 ^ (k % w) % 2 ^ w + a % 2 ^ w / 2 ^ (w - k % w)

/-- Truncating division; by zero gives quotient 0 and the dividend as remainder (R93). -/
def divInt (signed : Bool) (w a b : Nat) : Nat × Nat :=
  if b % 2 ^ w = 0 then (0, a % 2 ^ w)
  else if signed then
    let x := sgnOf w a
    let y := sgnOf w b
    (wrapOf w (x.tdiv y), wrapOf w (x.tmod y))
  else (a % 2 ^ w / (b % 2 ^ w), a % 2 ^ w % (b % 2 ^ w))

end Sys2Proof.Machine
end

