-- ==== Sys2Proof/Machine/Operands.lean ====
section
/-! DEFINITION. Operand forms: rows, tiles, accumulators and broadcast values, their sync codes and tags
(03_registers.md R51 to R65, 17_ref_m_p.md R458, 19_ref_v.md R541, R542), and results as they land (R47). -/
namespace Sys2Proof.Machine

/-! ## Landing (R45 to R47) -/

/-- A write to a granule: the selected bits, the tag, and full where the write fills (R46, R55, R64). -/
def Gran.write (g : Gran) (now : Nat) (data sel : GranBits) (tag : Fmt) (fill : Bool) (h : List Acc) : Gran :=
  let g1 := { g with bytes := (g.bytes &&& ~~~sel) ||| (data &&& sel), tag := tag }
  if fill then { g1.mark now true with handoff := h } else g1

/-- A write of part of a granule: its number, data and selected bits. -/
structure GranPart where
  g : Nat
  data : GranBits
  sel : GranBits
  deriving DecidableEq, Repr

/-- Of two writes to a granule in one cycle, the first is applied before the second (R47). -/
def laidBefore (a b : Laid) : Bool := a.eng < b.eng || (a.eng == b.eng && a.seq < b.seq)

def insertLaid (a : Laid) : List Laid → List Laid
  | [] => [a]
  | b :: l => if laidBefore a b then a :: b :: l else b :: insertLaid a l

/-- A write to a granule takes effect: the writes of this cycle that follow it in the order of R47 prevail over it. -/
def Ctx.writeGran (x : Ctx) (now : Nat) (e : Engine) (seq : Nat) (p : GranPart) (tag : Fmt) (fill : Bool) (h : List Acc) : Ctx :=
  let l : Laid := { g := p.g, eng := engNo e, seq := seq, data := p.data, sel := p.sel, tag := tag }
  let old := if x.laidAt = now then x.laid else []
  let v := (old.filter fun b => b.g == p.g && laidBefore l b).foldl
    (fun (g : Gran) b => { g with bytes := (g.bytes &&& ~~~b.sel) ||| (b.data &&& b.sel), tag := b.tag })
    ((x.granAt p.g).write now p.data p.sel tag fill h)
  { x.setGran p.g v with laid := insertLaid l old, laidAt := now }

/-- A result in flight takes effect in the context. -/
def Ctx.applyLand (x : Ctx) (now : Nat) (l : Landing) : Ctx :=
  match l.act with
  | .sreg r h v => { x with regs := x.regs.setS r h v }
  | .breg r v => { x with regs := x.regs.setB r v }
  | .mask r v => { x with regs := x.regs.setM r v }
  | .gran g d m t f => x.writeGran now l.eng l.seq { g := g, data := d, sel := m } t f l.hist
  | .empty g => x.setGran g ((x.granAt g).mark now false)
  | .flags f => x.raiseFlags now f
  | .matrixRow _ _ => x
  | .push p n d =>
    match tget x.ports p with
    | some q => { x with ports := tset x.ports p { q with pushed := q.pushed ++ [(d, n)] } }
    | none => x

/-- The order of results: cycle, then engine, then issue (R47). -/
def landBefore (a b : Landing) : Bool :=
  a.due < b.due || (a.due == b.due && (engNo a.eng < engNo b.eng || (engNo a.eng == engNo b.eng && a.seq < b.seq)))

def insertLand (a : Landing) : List Landing → List Landing
  | [] => [a]
  | b :: l => if landBefore a b then a :: b :: l else b :: insertLand a l

def sortLands (l : List Landing) : List Landing := l.foldr insertLand []

/-- The results of a context that land by a cycle, in order. -/
def Ctx.due (x : Ctx) (now : Nat) : List Landing := sortLands (x.lands.filter fun l => l.due ≤ now)

/-- A granule as a read in a later cycle of the issuing instruction finds it: scheduled writes that land by then are
applied (R47, R52, log 10). -/
def Ctx.granLook (x : Ctx) (g upto : Nat) : Gran :=
  (x.due upto).foldl (fun a l =>
    match l.act with
    | .gran k d m t f => if k = g then a.write upto d m t f l.hist else a
    | _ => a) (x.granAt g)

/-! ## Elements in granules -/

/-- n elements of b bits from a number, lowest first. -/
def sliceElems (b : Nat) : Nat → Nat → List Nat
  | 0, _ => []
  | n + 1, v => v % 2 ^ b :: sliceElems b n (v / 2 ^ b)

/-- Elements of b bits packed, first lowest. -/
def packElems (b : Nat) : List Nat → Nat
  | [] => 0
  | v :: l => v % 2 ^ b + 2 ^ b * packElems b l

/-- n elements of b bits from a byte address, through a function that reads granules; `odd` starts at the high nibble of
the byte (R59). -/
def readElems (look : Nat → GranBits) (b : Nat) : Nat → Nat → Nat → List Nat
  | 0, _, _ => []
  | f + 1, bit, n =>
    if n = 0 then []
    else
      let o := bit % 2048
      let k := min n ((2048 - o) / b)
      sliceElems b k ((look (bit / 2048)).toNat / 2 ^ o) ++ readElems look b f (bit + max 1 k * b) (n - max 1 k)

/-- Elements of b bits to consecutive places from a bit address, cut at granules. -/
def writeElems (b : Nat) : Nat → Nat → List Nat → List GranPart
  | 0, _, _ => []
  | f + 1, bit, l =>
    if l.isEmpty then []
    else
      let o := bit % 2048
      let k := max 1 (min l.length ((2048 - o) / b))
      { g := bit / 2048, data := BitVec.ofNat 2048 (packElems b (l.take k) * 2 ^ o)
        sel := BitVec.ofNat 2048 ((2 ^ (k * b) - 1) * 2 ^ o) } :: writeElems b f (bit + k * b) (l.drop k)

/-- Merges parts that fall in one granule, keeping granules in the order of their first part. -/
def addPart (p : GranPart) : List GranPart → List GranPart
  | [] => [p]
  | q :: l => if q.g = p.g then
      { q with data := (q.data &&& ~~~p.sel) ||| (p.data &&& p.sel), sel := q.sel ||| p.sel } :: l
    else q :: addPart p l

def mergeParts (l : List GranPart) : List GranPart := l.foldl (fun a p => addPart p a) []

/-! ## Sync codes (R44, R45, R64) -/

def syncBlock : Nat := 0
def syncConsume : Nat := 1
def syncPlain : Nat := 2
def syncTrap : Nat := 3

def State.fullAt (s : State) (c g : Nat) : Bool := ((s.ctx c).granAt g).judged s.cycle

/-- A consume read has taken the granule: it is empty, or is to be emptied (R44, R65). -/
def State.taken (s : State) (c g : Nat) : Bool :=
  !((s.ctx c).granAt g).full || (s.ctx c).lands.any fun l => match l.act with
    | .empty k => k == g
    | _ => false

/-- A read of the granules must wait; a consume read also where another has taken one of them (R64, R65). -/
def State.readWaits (s : State) (c sync : Nat) (gs : List Nat) : Bool :=
  (sync == syncBlock && gs.any fun g => !s.fullAt c g) || (sync == syncConsume && gs.any fun g => !s.fullAt c g || s.taken c g)

/-- A short-latency write, or the issue of a long-latency one, must wait: consume waits for empty. -/
def State.writeWaits (s : State) (c sync : Nat) (gs : List Nat) : Bool :=
  sync == syncConsume && gs.any fun g => s.fullAt c g

/-- The granule for which a trap-marked read raises EMPTY. -/
def State.readEmpty (s : State) (c sync : Nat) (gs : List Nat) : Option Nat :=
  if sync == syncTrap then gs.find? fun g => !s.fullAt c g else none

def State.writeEmpty (s : State) (c sync : Nat) (gs : List Nat) : Option Nat :=
  if sync == syncTrap then gs.find? fun g => s.fullAt c g else none

/-- The first granule whose tag is not accepted (R56). -/
def State.tagBad (s : State) (c : Nat) (ok : Fmt → Bool) (gs : List Nat) : Option Nat :=
  gs.find? fun g => !ok ((s.ctx c).granAt g).tag

/-- The accesses that a reader of filled granules takes over (R202). -/
def State.handoffs (s : State) (c sync : Nat) (gs : List Nat) : List Acc :=
  if sync == syncBlock || sync == syncConsume then
    gs.foldl (fun a g => joinAcc a (s.prune ((s.ctx c).granAt g).handoff)) []
  else []

/-- Empties consume-marked granules; `delay` gives the cycle after each one's last read, counted from issue (R44). -/
def State.consume (s : State) (c : Nat) (e : Engine) (sync : Nat) (gs : List Nat) (delay : Nat → Nat) : State :=
  if sync == syncConsume then gs.foldl (fun t g => t.land c e (delay g) (.empty g)) s else s

/-- Writes parts of granules as one short-latency result (R46, R47, R64). -/
def State.landParts (s : State) (c : Nat) (e : Engine) (delay sync : Nat) (tag : Fmt) (ps : List GranPart) : State :=
  let h := s.histOf c e
  ps.foldl (fun t p => t.land c e delay (.gran p.g p.data p.sel tag (sync != syncPlain)) h) s

/-- A long-latency producer at issue: block and consume mark every destination granule empty (R45). -/
def State.markEmpty (s : State) (c sync : Nat) (gs : List Nat) : State :=
  if sync == syncPlain then s
  else s.modCtx c fun x => gs.foldl (fun y g => y.setGran g ((y.granAt g).mark s.cycle false)) x

/-- A long-latency producer at completion (R45). -/
def State.fillParts (s : State) (o : Op) (sync : Nat) (tag : Fmt) (h : List Acc) (ps : List GranPart) : State :=
  s.modCtx o.ctx fun x => ps.foldl (fun y p => y.writeGran s.cycle o.eng o.seq p tag (sync != syncPlain) h) x

/-- The granules of a row (R51). -/
def rowGrans (n : Nat) : List Nat := rangeFrom (16 * n) 16

/-! ## Views (R58 to R62) -/

structure TileView where
  ty : Fmt
  cols : Nat
  rows : Nat
  stride : Nat
  base : Nat
  side : Nat
  deriving DecidableEq, Repr

/-- The fields of R59; a reserved type reads as RAW, which no check admits. -/
def tileOf (w : Word) : TileView where
  ty := (fmtOf (fld w 59 5)).getD .raw
  cols := fld w 46 13
  rows := fld w 35 11
  stride := fld w 23 12
  base := fld w 8 15
  side := fld w 0 8

/-- Bytes of a tile row. -/
def TileView.rowBytes (v : TileView) : Nat := ceilDiv (v.cols * v.ty.bits) 8
/-- Blocks of a tile row, and of the tile (R60). -/
def TileView.rowBlocks (v : TileView) : Nat := ceilDiv v.cols 32
def TileView.blocks (v : TileView) : Nat := v.rows * v.rowBlocks
def TileView.isOb (v : TileView) : Bool := v.ty == .ob8 || v.ty == .ob4
def TileView.sideRows (v : TileView) : Nat := ceilDiv v.blocks 2048

/-- The check of VSET (R59). -/
def tileBad (w : Word) (foot : Nat) : Bool :=
  let v := tileOf w
  if v.rows = 0 then false
  else
    v.ty == .raw || v.ty == .side || v.cols == 0 || 4096 < v.cols || 1024 < v.rows
    || v.stride == 0 || 24575 < v.base
    || 4096 * foot < v.base * 32 + (v.rows - 1) * v.stride * 32 + v.rowBytes
    || (v.isOb && (v.side == 0xFF || foot < v.side + v.sideRows))
    || (!v.isOb && v.side != 0xFF)

/-- The tile lies in the footprint (R480: a displaced view). -/
def TileView.inside (v : TileView) (foot : Nat) : Bool :=
  v.base * 32 + (v.rows - 1) * v.stride * 32 + v.rowBytes ≤ 4096 * foot

structure AccView where
  ty : Fmt
  count : Nat
  base : Nat
  deriving DecidableEq, Repr

def accOf (w : Word) : AccView where
  ty := (fmtOf (fld w 19 5)).getD .raw
  count := fld w 8 11
  base := fld w 0 8

/-- Vector rows of an accumulator row, and its columns (R61). -/
def AccView.per (v : AccView) : Nat := if v.ty == .fp64 then 2 else 1
def AccView.cols (v : AccView) : Nat := if v.ty == .bf16 then 2048 else 1024

def accBad (w : Word) (foot : Nat) : Bool :=
  let v := accOf w
  if fld w 24 40 != 0 then true
  else if v.count = 0 then false
  else
    !(v.ty == .fp32 || v.ty == .fp64 || v.ty == .bf16 || v.ty == .i32)
    || (if v.ty == .fp64 then 96 else 192) < v.count
    || foot < v.base + v.per * v.count

/-- The check of VT (R62). -/
def vtBad (w : Word) : Bool :=
  fld w 5 59 != 0 || match fmtOf (fld w 0 5) with
    | some t => t == .raw || t == .ob4 || t == .side
    | none => true

def vtOf (w : Word) : Fmt := (fmtOf (fld w 0 5)).getD .fp32

/-- The views that the started engines use (R42). -/
def Ctx.tileView (x : Ctx) (t : Nat) : TileView := tileOf (tgetD x.captured.t t tUnset)
def Ctx.accView (x : Ctx) (a : Nat) : AccView := accOf (tgetD x.captured.a a 0)
def Ctx.vt (x : Ctx) : Fmt := vtOf x.captured.vt

/-- Lanes of a type in a row (R62). -/
def Fmt.lanes (t : Fmt) : Nat := 32768 / t.bits

/-- The bit address of element (i, j) of a tile (R59). -/
def TileView.bitOf (v : TileView) (i j : Nat) : Nat := 8 * (v.base * 32 + i * v.stride * 32) + j * v.ty.bits

/-- The granules of n elements from a bit address. -/
def gransOf (bit len : Nat) : List Nat :=
  if len = 0 then [] else rangeFrom (bit / 2048) ((bit + len - 1) / 2048 - bit / 2048 + 1)

def TileView.rowGrans (v : TileView) (i : Nat) : List Nat := gransOf (v.bitOf i 0) (v.cols * v.ty.bits)

def unionNat (a b : List Nat) : List Nat := b.foldl insertNew a

/-- The granules of a tile, in address order of its rows. -/
def TileView.grans (v : TileView) : List Nat :=
  (List.range v.rows).foldl (fun a i => unionNat a (v.rowGrans i)) []

/-- The granules of the tile's side entries (R60). -/
def TileView.sideGrans (v : TileView) : List Nat :=
  if v.isOb then gransOf (8 * 4096 * v.side) (16 * v.blocks) else []

/-- Side entry n (R60): zero point and scale. -/
def TileView.sideBit (v : TileView) (n : Nat) : Nat := 8 * (4096 * (v.side + n / 2048) + 2 * (n % 2048))

/-- The bit address of element (i, j) of an accumulator (R61). -/
def AccView.bitOf (v : AccView) (i j : Nat) : Nat :=
  let per := 32768 / v.ty.bits
  8 * 4096 * (v.base + v.per * i + j / per) + j % per * v.ty.bits

/-- Granules of columns 0 to n - 1 of an accumulator row (R458). -/
def AccView.rowGrans (v : AccView) (i n : Nat) : List Nat :=
  let per := 32768 / v.ty.bits
  if n ≤ per then gransOf (v.bitOf i 0) (n * v.ty.bits)
  else gransOf (v.bitOf i 0) 32768 ++ gransOf (v.bitOf i per) ((n - per) * v.ty.bits)

def AccView.grans (v : AccView) (n : Nat) : List Nat :=
  (List.range v.count).foldl (fun a i => unionNat a (v.rowGrans i n)) []

/-- The elements of columns 0 to n - 1 of an accumulator row. -/
def AccView.readRow (v : AccView) (look : Nat → GranBits) (i n : Nat) : List Nat :=
  let per := 32768 / v.ty.bits
  if n ≤ per then readElems look v.ty.bits 40 (v.bitOf i 0) n
  else readElems look v.ty.bits 40 (v.bitOf i 0) per ++ readElems look v.ty.bits 40 (v.bitOf i per) (n - per)

def AccView.writeRow (v : AccView) (i : Nat) (l : List Nat) : List GranPart :=
  let per := 32768 / v.ty.bits
  writeElems v.ty.bits 40 (v.bitOf i 0) (l.take per) ++ writeElems v.ty.bits 40 (v.bitOf i per) (l.drop per)

def TileView.readRow (v : TileView) (look : Nat → GranBits) (i : Nat) : List Nat :=
  readElems look v.ty.bits 40 (v.bitOf i 0) v.cols

def TileView.writeRow (v : TileView) (i : Nat) (l : List Nat) : List GranPart :=
  writeElems v.ty.bits 40 (v.bitOf i 0) l

/-! ## Vector operands (R328, R541) -/

/-- The number in a row, port or b-register code. -/
def VOp.num : VOp → Nat
  | .row n => n.toNat
  | .port p => p.toNat
  | .breg b => b.toNat
  | _ => 0

/-- What a source supplies: sixteen granules with their tags, or one value for every lane. -/
inductive VVal where
  | row (gs : List (GranBits × Fmt))
  | all (w : Word)
  deriving DecidableEq, Repr

/-- A broadcast value: a b register, zero or a literal, of which each lane takes the low bits (R66, R330). -/
def VOp.word (o : VOp) (x : Ctx) : Word :=
  match o with
  | .breg b => x.br b.toNat
  | .lit32 w => w.signExtend 64
  | .lit64 w => w
  | _ => 0

/-- A 4 KiB row cut into granules. -/
def granOfRow (r : BitVec 32768) (j : Nat) : GranBits := r.extractLsb' (2048 * j) 2048
def rowOfGrans : List GranBits → Nat → Nat
  | [], _ => 0
  | g :: l, n => g.toNat * 2 ^ (2048 * n) + rowOfGrans l (n + 1)

/-- The lanes of a source at an element width, n of them. -/
def VVal.lanes (v : VVal) (b n : Nat) : List Nat :=
  match v with
  | .row gs => ((gs.map fun g => sliceElems b (2048 / b) g.1.toNat).foldr (· ++ ·) []).take n
  | .all w => List.replicate n (w.toNat % 2 ^ b)

/-- The tag of the granule of a source that holds a lane; a broadcast value counts as tag T. -/
def VVal.tagAt (v : VVal) (t : Fmt) (j : Nat) : Fmt :=
  match v with
  | .row gs => (nth gs j (0, t)).2
  | .all _ => t

/-- The mask's bits for n lanes. -/
def maskBits (m : LaneMask) (n : Nat) : List Bool := (List.range n).map fun l => m.getLsbD l

/-- Lane results into the granules of a row: lanes whose mask bit is 0 are not selected (R542). -/
def lanePart (b row j : Nat) (vals : List Nat) (mask : List Bool) : Option GranPart :=
  if mask.any id then
    some { g := 16 * row + j
           data := BitVec.ofNat 2048 (packElems b vals)
           sel := BitVec.ofNat 2048 (packElems b (mask.map fun m => if m then 2 ^ b - 1 else 0)) }
  else none

/-- The parts of a row that a masked result writes. -/
def rowParts (b row : Nat) (vals : List Nat) (mask : List Bool) : Nat → Nat → List GranPart
  | 0, _ => []
  | n + 1, j =>
    let k := 2048 / b
    match lanePart b row j (vals.take k) (mask.take k) with
    | some p => p :: rowParts b row (vals.drop k) (mask.drop k) n (j + 1)
    | none => rowParts b row (vals.drop k) (mask.drop k) n (j + 1)

end Sys2Proof.Machine
end

