-- ==== Sys2Proof/Machine/Memory.lean ====
section
/-! DEFINITION. Synchronous accesses of the control engine (15_ref_a_c.md R364 to R369; 16_ref_d_l.md R443 to R451;
18_ref_r_t.md R518 to R523), the reads of records (R614), and the events that perform accesses (R201, R367, R446, R521). -/
namespace Sys2Proof.Machine

/-! ## Shared operations -/

/-- A request that a window was to serve: released before its slot, it is served by HBM, counted from the slot (R182, code
6). -/
def unpinReq (now : Nat) (r : Req) : Req :=
  if r.ch < 128 && r.done == mcIssue r.mc + 160 && now < mcIssue r.mc then
    { r with done := mcIssue r.mc + (if r.far then 720 else 432), cause := 6 }
  else r

/-- A window is released (R172, R182). -/
def State.pinReleased (s : State) (d : Nat) (p : Pin) : State :=
  { s with ops := s.ops.map fun (n, o) =>
    if dieOf o.core == d && segsOverlap (o.src ++ o.segs) p.segs then
      let l := o.reqs.map (unpinReq s.cycle)
      (n, { o with reqs := l, due := l.foldl (fun m r => max m r.done) o.due })
    else (n, o) }

/-- The byte that an operation's data puts at a physical address. -/
def byteIn (pa : Nat) : List Seg → List Byte → Option Byte
  | [], _ => none
  | g :: l, bs => if g.pa ≤ pa && pa < g.pa + g.len then (bs.drop (pa - g.pa)).head? else byteIn pa l (bs.drop g.len)

/-- A pending store of a unit whose bytes a read in or after a cycle finds: ST, VST, VSTX, or a row pushed to a sink (R201). -/
def Op.forwards (o : Op) (u before : Nat) : Bool :=
  o.unit == u && (o.kind == .store || o.kind == .vstore || o.kind == .port) && o.parked.isNone && o.issued < before

/-- The byte that the pending stores of a unit forward: that of the latest issued one (R201). -/
def State.forward (s : State) (u before pa : Nat) : Option Byte :=
  s.ops.foldl (fun r (_, o) =>
    if o.forwards u before then
      match byteIn pa o.segs o.data with
      | some b => some b
      | none => r
    else r) none

def addrsOf : List Seg → List Nat
  | [] => []
  | g :: l => rangeFrom g.pa g.len ++ addrsOf l

def State.forwards (s : State) (u before : Nat) (segs : List Seg) : List (Option Byte) :=
  if s.ops.any fun (_, o) => o.forwards u before then (addrsOf segs).map fun a => s.forward u before a else []

/-- Forwarded bytes over what memory gives. -/
def mergeFwd : List (Option Byte) → List Byte → List Byte
  | f :: fs, b :: bs => f.getD b :: mergeFwd fs bs
  | _, bs => bs

/-- The bytes that a unit reads: memory, its staged bytes, and the bytes of its stores issued before a cycle that are still
pending (R32, R201). -/
def State.unitSees (s : State) (u before : Nat) (segs : List Seg) : List Byte :=
  mergeFwd (s.forwards u before segs) (s.unitRead u segs)

/-- What the address of an access comes to: its pieces, a trap, or pages that a walk must find first (R188). -/
inductive Reach (α : Type) where
  | ok (a : α)
  | error (t : Trap)
  | miss (pages : List Nat)

/-- Pages for which an engine of the focus context has waited and whose walks have ended (R188). -/
def State.walked (s : State) (core : Nat) : List Nat :=
  let all := allEngines.flatMap fun e => match (s.eng s.focus e).hold with
    | .walk l => l
    | .gens _ l => l
    | _ => []
  if all.isEmpty then [] else all.filter fun p => !(s.walksOf core).contains p

/-- The pages of some ranges that must be walked before an access (R188). -/
def State.toWalk (s : State) (core : Nat) (l : List (Nat × Nat)) : List Nat :=
  (l.foldl (fun a r => unionNat a (s.missingPages core (pieces r.1 r.2) r.1 r.2)) []).filter fun p => !(s.walked core).contains p

/-- The pieces of a range, once its pages are found (R187, R188). -/
def State.reach (s : State) (core va len : Nat) (need : Need) : Reach (List Seg) :=
  let l := s.toWalk core [(va, len)]
  if !l.isEmpty then .miss l
  else match s.range core need va len with
    | .error (cause, a) => .error (trapXlate cause a)
    | .ok segs => .ok segs

/-- An engine waits for the walks of some pages; those that do not fit beside the core's walks begin once others have ended
(R188). -/
def State.walkFor (s : State) (core : Nat) (pages : List Nat) : Res :=
  let now := s.walksOf core
  let new := (pages.filter fun p => !now.contains p).take (Config.coreWalks - now.length)
  let mine := unionNat (s.walked core) ((pages.filter fun p => now.contains p) ++ new)
  .wait (s.startWalks core new) .waiting (.walk mine)

/-- The checks of one access in the order ORDER, ALIGN, TRANSLATE (R246): `order` says when the page makes it ORDER. -/
def State.access (s : State) (core va len align : Nat) (need : Need) (order : Bool → Bool) : Reach (List Seg) :=
  if order (s.isSys core va) then .error (trapOf tOrder)
  else if va % align != 0 then .error (trapAt tAlign va)
  else s.reach core va len need

/-- What a read of a record by the control engine gives (R614): the bytes, a trap, or that it must wait. -/
inductive Got where
  | bytes (s : State) (l : List Byte)
  | trap (t : Trap)
  | wait
  | miss (pages : List Nat)

/-- The pieces of some ranges that are read, in order. -/
def State.readRanges (s : State) (core : Nat) : List (Nat × Nat) → Except (Nat × Nat) (List Seg)
  | [] => .ok []
  | (va, len) :: l =>
    match s.range core .read va len, s.readRanges core l with
    | .error e, _ => .error e
    | .ok _, .error e => .error e
    | .ok a, .ok b => .ok (a ++ b)

/-- A class-0 read of some ranges, once the accesses it follows are performed; its requests bind slots (R614, R198, R201, R175). -/
def State.recordsRead (s : State) (i : Instr) (rs : List (Nat × Nat)) : Got :=
  let c := s.focus
  let core := coreOf c
  let away := s.toWalk core rs
  if !away.isEmpty then .miss away
  else match s.readRanges core rs with
  | .error (cause, a) => .trap (trapXlate cause a)
  | .ok segs =>
    match s.poisonIn segs with
    | some b => .trap (trapPoison b)
    | none =>
      let o : Op := { s.newOp .c i .load with reads := true, segs := segs, va := (rs.headD (0, 0)).1 }
      if (s.waitsFor o none).any fun a => s.pending a then .wait
      else
        let s1 := (((s.trimBound core).bindSegs { core := core, unit := s.unitNo c, promised := false } s.cycle segs).1.fillRange core segs)
        .bytes (s1.touchPins segs) (s.unitSees (s.unitNo c) (s.cycle + 1) segs)

/-- A read of one record: ALIGN stands before TRANSLATE (R246). -/
def State.recordRead (s : State) (i : Instr) (va len align : Nat) : Got :=
  if va % align != 0 then .trap (trapAt tAlign va) else s.recordsRead i [(va, len)]

/-- A meaning that goes on with a record's bytes; the engine is Waiting until they are read. -/
def State.onRead (s : State) (g : Got) (k : State → List Byte → Res) : Res :=
  match g with
  | .trap t => .trap s t
  | .wait => .wait s .waiting .other
  | .miss l => s.walkFor (coreOf s.focus) l
  | .bytes s1 l => k s1 l
def State.withRecord (s : State) (i : Instr) (va len align : Nat) (k : State → List Byte → Res) : Res :=
  s.onRead (s.recordRead i va len align) k

/-- Puts an operation in flight: its waits, its place in CTX order; of an asynchronous one, only the reads come before
later accesses of its engine (R202). -/
def State.launchOp (s : State) (o : Op) (release : Option (BitVec 16)) : State × Nat :=
  let (s1, n) := s.addOp { o with waits := s.waitsFor o release }
  (s1.addHist o.ctx o.eng [{ op := n, whole := o.kind != .async }], n)

/-! ## LD, LDC, ST -/

def cmVa (f : CM) (x : Ctx) : Nat := (x.sr f.base.toNat + f.off.signExtend 64).toNat
def cmLen (f : CM) : Nat := 2 ^ f.size.toNat
def isAcq (f : CM) : Bool := f.order.getLsbD 0
def isRel (f : CM) : Bool := f.order.getLsbD 1

/-- LD and LDC issue a load (R445, R450). -/
def loadIssue (i : Instr) (f : CM) (s : State) (acq : Bool) : Host.Outcome State Fault Refusal :=
  let c := s.focus
  let core := coreOf c
  let va := cmVa f (s.ctx c)
  finish i s (s.sHold [f.d.toNat, f.base.toNat]
    (match s.access core va (cmLen f) (cmLen f) .read (fun _ => false) with
     | .error t => .trap s t
     | .miss l => s.walkFor core l
     | .ok segs =>
       match s.poisonIn segs with
       | some b => .trap s (trapPoison b)
       | none =>
         let (s1, reqs, ok) := ((s.trimBound core).fillRange core segs).bindSegs { core := core, unit := s.unitNo c } s.cycle segs
         if !ok && s.entriesFull core then .wait s .waiting .entries
         else
           let o : Op := { s1.newOp .c i .load with
             cls := f.cls.toNat, scope := f.scope.toNat, dst := f.d.toNat, reads := true, va := va, segs := segs
             v2 := BitVec.ofNat 64 (8 * cmLen f), fwd := s1.forwards (s.unitNo c) (s.cycle + 1) segs, reqs := reqs, promised := ok
             due := reqsDue s.cycle reqs, limit := limitOf ok reqs 0, acquire := if acq then some (s.ordAcq c) else none }
           .done (s1.launchOp o none).1))

def execLd (f : CM) (s : State) : Host.Outcome State Fault Refusal := loadIssue (.ld f) f s (isAcq f)
def execLdc (f : CM) (s : State) : Host.Outcome State Fault Refusal := loadIssue (.ldc f) f s false

/-- ST (R520 to R522): a store on a poisoned block has no effect and delivers MCHECK. -/
def execSt (f : CM) (s : State) : Host.Outcome State Fault Refusal :=
  let c := s.focus
  let core := coreOf c
  let x := s.ctx c
  let va := cmVa f x
  let i : Instr := .st f
  finish i s (s.sHold [f.d.toNat, f.base.toNat]
    (match s.access core va (cmLen f) (cmLen f) .write (fun sys => sys && s.versioned c) with
     | .error t => .trap s t
     | .miss l => s.walkFor core l
     | .ok segs =>
       if s.entriesFull core then .wait s .waiting .entries
       else
         let (s1, reqs, ok) := ((s.trimBound core).fillRange core segs).bindSegs
           { core := core, unit := s.unitNo c, promised := false, rd := false } s.cycle segs
         match s.poisonHurt segs with
         | some b =>
           .gone ((s1.retire i (s.eng c .c).next).machineCheck c
             { (trapPoison b).of s i with async := true, pos := (s.eng c .c).next } false)
         | none =>
           let o : Op := { s1.newOp .c i .store with
             cls := f.cls.toNat, scope := f.scope.toNat, writes := true, va := va, segs := segs
             data := bytesOfNat (cmLen f) (x.sr f.d.toNat).toNat, reqs := reqs, limit := limitOf ok reqs 0 }
           .done (s1.launchOp o (if isRel f then some (s.ordRel c) else none)).1))

/-! ## ATOM -/

/-- The new value of an atomic operation, none where nothing is written (R366). -/
def atomNew (fn w old x expect : Nat) : Option Nat :=
  match fn with
  | 0 => some ((old + x) % 2 ^ w)
  | 1 => some (old &&& x)
  | 2 => some (old ||| x)
  | 3 => some (old ^^^ x)
  | 4 => some (if sgnOf w x < sgnOf w old then x else old)
  | 5 => some (if sgnOf w old < sgnOf w x then x else old)
  | 6 => some (if x < old then x else old)
  | 7 => some (if old < x then x else old)
  | 8 => some x
  | _ => if old = expect then some x else none

/-- ATOM issues (R366, R368): everything but the read-modify-write, which ATOM_RETURN performs. -/
def atomIssue (i : Instr) (f : CM) (s : State) : Host.Outcome State Fault Refusal :=
  let c := s.focus
  let core := coreOf c
  let x := s.ctx c
  let va := cmVa f x
  let w := 8 * cmLen f
  finish i s (s.sHold [f.d.toNat, f.base.toNat, f.e.toNat]
    (match s.access core va (cmLen f) (cmLen f) .write (fun _ => s.versioned c) with
     | .error t => .trap s t
     | .miss l => s.walkFor core l
     | .ok segs =>
       match s.poisonIn segs with
       | some b => .trap s (trapPoison b)
       | none =>
         if s.entriesFull core then .wait s .waiting .entries
         else
           let (s1, reqs, ok) := ((s.trimBound core).fillRange core segs).bindSegs
             { core := core, unit := s.unitNo c, promised := false } s.cycle segs
           let o : Op := { s1.newOp .c i .atom with
             cls := f.cls.toNat, scope := f.scope.toNat, dst := f.d.toNat, reads := true, writes := true, va := va
             segs := segs, v1 := BitVec.ofNat 64 ((x.sr f.e.toNat).toNat % 2 ^ w)
             v2 := BitVec.ofNat 64 w, v3 := BitVec.ofNat 64 ((x.sr f.d.toNat).toNat % 2 ^ w), reqs := reqs, limit := limitOf ok reqs 0
             acquire := if isAcq f then some (s.ordAcq c) else none }
           .done (s1.launchOp o (if isRel f then some (s.ordRel c) else none)).1))

def execAtomAdd (f : CM) (s : State) : Host.Outcome State Fault Refusal := atomIssue (.atomAdd f) f s
def execAtomAnd (f : CM) (s : State) : Host.Outcome State Fault Refusal := atomIssue (.atomAnd f) f s
def execAtomOr (f : CM) (s : State) : Host.Outcome State Fault Refusal := atomIssue (.atomOr f) f s
def execAtomXor (f : CM) (s : State) : Host.Outcome State Fault Refusal := atomIssue (.atomXor f) f s
def execAtomMin (f : CM) (s : State) : Host.Outcome State Fault Refusal := atomIssue (.atomMin f) f s
def execAtomMax (f : CM) (s : State) : Host.Outcome State Fault Refusal := atomIssue (.atomMax f) f s
def execAtomMinu (f : CM) (s : State) : Host.Outcome State Fault Refusal := atomIssue (.atomMinu f) f s
def execAtomMaxu (f : CM) (s : State) : Host.Outcome State Fault Refusal := atomIssue (.atomMaxu f) f s
def execAtomSwap (f : CM) (s : State) : Host.Outcome State Fault Refusal := atomIssue (.atomSwap f) f s
def execAtomCas (f : CM) (s : State) : Host.Outcome State Fault Refusal := atomIssue (.atomCas f) f s

/-! ## Performing (events) -/

/-- A poisoned block that an access in flight finds: MCHECK is delivered as R187 gives (R258). -/
def State.poisonFound (s : State) (o : Op) (b : Nat) : State :=
  let t : Trap := { trapPoison b with eng := o.eng, async := true, op := o.ins.major, fn := o.ins.fnField, pos := s.boundary o.ctx o.eng }
  if s.opLive o then s.machineCheck o.ctx t false else s.unitCheck o.unit t

/-- A store on poisoned blocks that it does not cover: those pieces have no effect and MCHECK is delivered (R258). -/
def State.dropPoisoned (s : State) (segs : List Seg) (data : List Byte) : List (Seg × List Byte) × Option Nat :=
  match segs with
  | [] => ([], none)
  | g :: l =>
    let (rest, b) := s.dropPoisoned l (data.drop g.len)
    match s.poisonHurt [g] with
    | some k => (rest, some k)
    | none => ((g, data.take g.len) :: rest, b)

/-- A store is performed: a part of a poisoned block that it does not cover stays as it is (R258). -/
def State.storeNow (s : State) (n : Nat) (o : Op) : State :=
  let (keep, hurt) := s.dropPoisoned o.segs o.data
  let s1 := ((s.unitWrite o.unit (keep.map Prod.fst) (keep.flatMap Prod.snd)).touchPins o.segs).delOp n
  match hurt with
  | none => s1
  | some b => s1.poisonFound o b


/-- An operation in flight may be performed now: what it waits for is performed; a versioned unit whose staging waits on
the version log performs no staged store (R260). -/
def State.opReady (s : State) (o : Op) : Bool :=
  s.mayPerform o && !(o.writes && (match s.unit? o.unit with
    | some r => r.logWait && s.versionedUnit o.unit
    | none => false))

/-- A value written to an s register by an access that returns: it reaches the copy of the mode in which it issued, and a
context that its unit has left takes nothing (R248, R367). -/
def State.returnS (s : State) (o : Op) (v : Word) : State :=
  if s.opLive o then s.modCtx o.ctx fun x => { x with regs := x.regs.setS o.dst o.handler v } else s

/-- A value returns to its s register. It is the checked value of its instruction (R613), on which INJECT may plant an error
as it forms (R253, R256). -/
def State.returnChecked (s : State) (o : Op) (v : Word) : State :=
  let w := (s.ctx o.ctx).sprs.inject
  if !s.opLive o || o.dst = 0 then s.returnS o v
  else match plant w o.ins (fun l => if l = 0 then some (0, residue7 v.toNat) else none) with
    | .none => s.returnS o v
    | .skip => (s.setInject o.ctx (w - (1#64 <<< 16))).returnS o v
    | .retried => ((s.setInject o.ctx (disarm w)).countRetry o.core).returnS o v
    | .failed l g x a =>
      (s.setInject o.ctx (disarm w)).machineCheck o.ctx
        { code := tMcheck, inj := true, lane := l, gran := g, exp := x, act := a, eng := .c, pos := o.pos
          op := o.ins.major, fn := o.ins.fnField } false

/-- The bits of a loaded value: shifted down by v1, v2 of them, and back up by v3 (R445, R529). -/
def loadBits (o : Op) (bs : List Byte) : Nat := natOfBytes bs / 2 ^ o.v1.toNat % 2 ^ o.v2.toNat * 2 ^ o.v3.toNat

/-- Sign extension of a value of w bits where SX is set. -/
def extendTo64 (sx : Bool) (w v : Nat) : Word := if sx then BitVec.ofInt 64 (sgnOf w v) else BitVec.ofNat 64 v

def Instr.sx : Instr → Bool
  | .ld f | .ldc f => f.sx
  | .atomAdd f | .atomAnd f | .atomOr f | .atomXor f | .atomMin f | .atomMax f | .atomMinu f | .atomMaxu f
  | .atomSwap f | .atomCas f => f.sx
  | _ => false

def Instr.isLdc : Instr → Bool
  | .ldc _ => true
  | _ => false

/-- The instant from which a unit's constant path reads: its launch's release, narrowed by a FENCE (R217). -/
def State.constFrom (s : State) (u : Nat) : Nat :=
  match s.unit? u, s.launchOf u with
  | some r, some l => max l.releaseSeq r.constFloor
  | _, _ => 0

/-- What LDC returns: the bytes at an instant of its window, `pick` instants back (R217). -/
def State.constBytes (s : State) (u pick : Nat) (segs : List Seg) : List Byte :=
  let t := max (s.constFrom u) (s.seqNext - pick)
  (List.zip (addrsOf segs) (bytesOfSegs s.mem segs)).map fun (a, b) => byteAt s.undo t a b

/-- The value of a load that returns. -/
def State.loadValue (s : State) (o : Op) (pick : Nat) : Word :=
  let bs := if Instr.isLdc o.ins then s.constBytes o.unit pick o.segs else mergeFwd o.fwd (s.unitRead o.unit o.segs)
  extendTo64 (Instr.sx o.ins) o.v2.toNat (loadBits o bs)

/-- LOAD_RETURN: a load is performed and writes sD (R446). `pick` chooses in the window of LDC. -/
def execLoadReturn (op pick : Nat) (s : State) : Host.Outcome State Fault Refusal :=
  match s.op? op with
  | some o =>
    if o.kind == .load && s.opReady o then
      match s.poisonIn o.segs with
      | some b => .next ((s.delOp op).poisonFound o b)
      | none => .next (((s.returnChecked o (s.loadValue o pick)).touchPins o.segs).delOp op)
    else .next s
  | none => .next s

def atomFn : Instr → Nat
  | .atomAnd _ => 1
  | .atomOr _ => 2
  | .atomXor _ => 3
  | .atomMin _ => 4
  | .atomMax _ => 5
  | .atomMinu _ => 6
  | .atomMaxu _ => 7
  | .atomSwap _ => 8
  | .atomCas _ => 9
  | _ => 0

/-- The read-modify-write of an operation at its location (R366, R197). -/
def State.rmw (s : State) (o : Op) (fn : Nat) : State × Nat :=
  let w := o.v2.toNat
  let old := natOfBytes (bytesOfSegs s.mem o.segs)
  match atomNew fn w old o.v1.toNat o.v3.toNat with
  | some v => (s.writeSegs o.segs (bytesOfNat (w / 8) v), old)
  | none => (s, old)

/-- ATOM_RETURN: the operation is performed and its old value written to sD (R366, R367). -/
def execAtomReturn (op : Nat) (s : State) : Host.Outcome State Fault Refusal :=
  match s.op? op with
  | some o =>
    if o.kind == .atom && s.opReady o then
      match s.poisonIn o.segs with
      | some b => .next ((s.delOp op).poisonFound o b)
      | none =>
        let (s1, old) := s.rmw o (atomFn o.ins)
        .next (((s1.returnChecked o (extendTo64 (Instr.sx o.ins) o.v2.toNat old)).touchPins o.segs).delOp op)
    else .next s
  | none => .next s

end Sys2Proof.Machine
end

