-- ==== Sys2Proof/Machine/Graph.lean ====
section
/-! DEFINITION. Work: launches, graphs, phases, their edges and counters, and cancelling (02_execution.md R21 to R30, R35;
09_scheduling.md R224 to R229, R234; 15_ref_a_c.md R389 to R392, R400 to R404; 16_ref_d_l.md R411 to R414, R426 to R428,
R438 to R442; 18_ref_r_t.md R516, R517). -/
namespace Sys2Proof.Machine

/-! ## Objects and handles (R23, R24) -/

/-- The counter of the object at a level and index. -/
def Job.counter (j : Job) (level index : Nat) : Option Ctr :=
  match level with
  | 0 => (tget j.launches index).map LaunchRec.ctr
  | 1 => (tget j.graphs index).map GraphRec.ctr
  | 2 => (tget j.phases index).map PhaseRec.ctr
  | _ => if index = 0 then some j.ctr else none

def Job.modCounter (j : Job) (level index : Nat) (f : Ctr → Ctr) : Job :=
  match level with
  | 0 => match tget j.launches index with
    | some l => { j with launches := tset j.launches index { l with ctr := f l.ctr } }
    | none => j
  | 1 => match tget j.graphs index with
    | some g => { j with graphs := tset j.graphs index { g with ctr := f g.ctr } }
    | none => j
  | 2 => match tget j.phases index with
    | some p => { j with phases := tset j.phases index { p with ctr := f p.ctr } }
    | none => j
  | _ => { j with ctr := f j.ctr }

/-- A word is a handle without reserved bits; a handle has 32 bits. -/
def handleBits (h : Word) : Bool := fld h 24 6 == 0 && fld h 32 32 == 0

/-- The handle names an object that exists in the job. -/
def State.named (s : State) (h : Word) : Option Ctr :=
  if handleBits h then s.job.counter (handleLevel h) (handleIndex h) else none

def State.createdBy (s : State) (u : Nat) (h : Word) : Bool :=
  match s.unit? u with
  | some r => r.created.contains h
  | none => false

/-- The index of an object of a level that contains a unit: its launch, graph, phase or job. -/
def State.ownIndex (s : State) (u level : Nat) : Nat :=
  match s.unit? u with
  | some r =>
    match level, s.launch? r.launch with
    | 0, _ => r.launch
    | 1, some l => l.graph
    | 2, some l => match tget s.job.graphs l.graph with
      | some g => g.phase
      | none => 0
    | _, _ => 0
  | none => 0

/-! ## Launch records (R224, R225) -/

/-- The record breaks a rule of R224. -/
def recBad (r : BitVec 1024) : Bool :=
  let e := recWord r 0
  let sh := recWord r 64
  let ctl := recCtl r
  let nx := fld sh 0 16 + 1
  let ny := fld sh 16 16 + 1
  let nz := fld sh 32 16 + 1
  fld e 56 8 != 0 || fld e 3 2 != 0 || fld e 0 3 == 0 || fld sh 48 16 != 0 || fld ctl 20 44 != 0 || ctl.getLsbD 2
  || fld ctl 12 8 == 0 || 192 < fld ctl 12 8 || fld ctl 0 2 == 0
  || (ny != 1 && fld ctl 0 2 < 2) || (nz != 1 && fld ctl 0 2 < 3) || 2 ^ 24 < nx * ny * nz
  || r.extractLsb' 640 384 != 0

def recMesh (r : BitVec 1024) : Bool := (recCtl r).getLsbD 4
def recordOf (bs : List Byte) : BitVec 1024 := BitVec.ofNat 1024 (natOfBytes bs)
def LaunchRec.dims (l : LaunchRec) : Nat := fld (recCtl l.record) 0 2
def LaunchRec.bar (l : LaunchRec) : Bool := (recCtl l.record).getLsbD 5

/-! ## The graph state (R427) -/

def addPending (n : Nat) (k : Ctr) : Ctr := { k with pending := k.pending + n }
def setSealed (k : Ctr) : Ctr := { k with sealed := true }

/-- The open phase, created where none is open (R21). -/
def Job.needPhase (j : Job) : Job × Nat :=
  match j.openPhase with
  | some p => (j, p)
  | none =>
    let p := j.phases.length
    ({ j with phases := tset j.phases p { graphs := [] }, openPhase := some p, ctr := addPending 1 j.ctr }, p)

/-- The open graph, created where none is open (R21, R439). -/
def Job.needGraph (j : Job) : Job × Nat :=
  match j.openGraph with
  | some g => (j, g)
  | none =>
    let (j1, p) := j.needPhase
    let g := j1.graphs.length
    let ph := tgetD j1.phases p { graphs := [] }
    ({ j1 with
        graphs := tset j1.graphs g { phase := p }, openGraph := some g
        phases := tset j1.phases p { ph with graphs := ph.graphs ++ [g], ctr := addPending 1 ph.ctr } }, g)

/-- n units of a launch on a die, held (R36). -/
def newUnits (launch die : Nat) : Nat → Nat → Nat → Tab UnitRec
  | 0, _, _ => []
  | n + 1, id, j => (id, { launch := launch, die := die, j := j }) :: newUnits launch die n (id + 1) (j + 1)

def Job.addUnits (j : Job) (launch die count : Nat) : Job :=
  { j with units := j.units ++ newUnits launch die count j.unitNext 0, unitNext := j.unitNext + count }

/-- Adds a launch to the open graph and to its queue (R439, R226): one copy of its units on each die listed. -/
def Job.addLaunch (j : Job) (index : Nat) (l : LaunchRec) (dies : List Nat) : Job :=
  let (j1, g) := j.needGraph
  let first := j1.unitNext
  let j2 := dies.foldl (fun k d => k.addUnits index d l.count) j1
  let gr := tgetD j2.graphs g { phase := 0 }
  let total := l.count * dies.length
  { j2 with
    launches := tset j2.launches index { l with graph := g, units := rangeFrom first total,
                                                 ctr := { sealed := true, pending := total } }
    graphs := tset j2.graphs g { gr with launches := gr.launches ++ [index], ctr := addPending 1 gr.ctr }
    queues := tmod j2.queues l.queue [] (· ++ [index]) }

/-- Launches of a queue that have not started (R439). -/
def Job.notStarted (j : Job) (q : Nat) : Nat :=
  ((tgetD j.queues q []).filter fun l => match tget j.launches l with
    | some r => !r.started
    | none => false).length

def recQueue (r : BitVec 1024) : Nat := fld (recCtl r) 6 3

/-- TABLE of R439 that only the graph state can tell. -/
def Job.launchFull (j : Job) (r : BitVec 1024) : Bool := 2 ^ 24 ≤ j.launches.length || 4096 ≤ j.notStarted (recQueue r)

/-- The handle index that a LAUNCH takes (R23). -/
def State.takeIndex (s : State) : State × Nat := (s.modJob fun j => { j with launchNext := j.launchNext + 1 }, s.job.launchNext)

/-- The dies on which a launch has copies (R229, R234). -/
def State.copyDies (s : State) (r : BitVec 1024) (die : Nat) : List Nat := if recMesh r then s.meshDies else [die]

/-- Seals the open graph, and closes the phase under .ph (R427). -/
def Job.seal (j : Job) (ph : Bool) : Job × Word :=
  let (j1, h) := match j.openGraph with
    | some g => ({ j.modCounter 1 g setSealed with openGraph := none }, handle 1 g)
    | none => (j, 0)
  let j2 := match ph, j1.openPhase with
    | true, some p => { j1.modCounter 2 p setSealed with openPhase := none }
    | _, _ => j1
  (j2, h)

/-! ## Edges (R27, R28, R412) -/

def near (a b h : Nat) : Bool := a ≤ b + h && b ≤ a + h

/-- Unit j of B depends on unit i of A under a pattern: 1 one, 2 all, 3 tree, 4 stencil (R27). -/
def Pattern.joins (p : Pattern) (a b : LaunchRec) (i j : Nat) : Bool :=
  match p.kind with
  | 1 => i == j
  | 2 => true
  | 3 => i == 2 * j || i == 2 * j + 1
  | _ =>
    let (ax, ay, az) := unitIx a i
    let (bx, b_y, bz) := unitIx b j
    near ax bx p.h && near ay b_y p.h && near az bz p.h

/-- The requirement of R27 fails. -/
def edgeBad (kind : Nat) (a b : LaunchRec) : Bool :=
  match kind with
  | 1 => a.nx != b.nx || a.ny != b.ny || a.nz != b.nz
  | 2 => false
  | 3 => b.count != ceilDiv a.count 2
  | _ => a.dims != b.dims

/-- An EDGE at the graph state (R412): the trap it raises, or the job with the pattern recorded. The handles name
launches. -/
def Job.edge (j : Job) (p : Pattern) : Except Nat Job :=
  match tget j.launches p.a, tget j.launches p.b with
  | some a, some b =>
    match j.openGraph with
    | some g =>
      if a.graph != g || b.graph != g || p.b ≤ p.a then .error tOrder
      else
        let gr := tgetD j.graphs g { phase := 0 }
        if 4096 ≤ gr.patterns.length then .error tTable
        else if edgeBad p.kind a b then .error tBounds
        else .ok { j with graphs := tset j.graphs g { gr with patterns := gr.patterns ++ [p] } }
    | none => .error tOrder
  | _, _ => .error tTable

/-! ## Cancelling (R30) -/

/-- CANC and SEALED of an object that is not FINAL. -/
def setCanc (k : Ctr) : Ctr := if k.final then k else { k with canc := true, sealed := true }

def Job.launchesOf (j : Job) (level index : Nat) : List Nat :=
  match level with
  | 0 => [index]
  | 1 => (tgetD j.graphs index { phase := 0 }).launches
  | 2 => j.launches.filterMap fun (n, l) => match tget j.graphs l.graph with
    | some g => if g.phase = index then some n else none
    | none => none
  | _ => j.launches.map Prod.fst

def Job.graphsOf (j : Job) (level index : Nat) : List Nat :=
  match level with
  | 0 => []
  | 1 => [index]
  | 2 => j.graphs.filterMap fun (n, g) => if g.phase = index then some n else none
  | _ => j.graphs.map Prod.fst

def Job.phasesOf (j : Job) (level index : Nat) : List Nat :=
  match level with
  | 0 | 1 => []
  | 2 => [index]
  | _ => j.phases.map Prod.fst

/-- Marks an object and everything below it. A graph or phase that is sealed is no longer open. -/
def Job.markCancelled (j : Job) (level index : Nat) : Job :=
  let ls := j.launchesOf level index
  let gs := j.graphsOf level index
  let ps := j.phasesOf level index
  let j1 := ls.foldl (fun k n => k.modCounter 0 n setCanc) j
  let j2 := gs.foldl (fun k n => k.modCounter 1 n setCanc) j1
  let j3 := ps.foldl (fun k n => k.modCounter 2 n setCanc) j2
  let j4 := if level = 3 then j3.modCounter 3 0 setCanc else j3
  { j4 with
    openGraph := match j4.openGraph with
      | some g => if gs.contains g then none else some g
      | none => none
    openPhase := match j4.openPhase with
      | some p => if ps.contains p then none else some p
      | none => none }

/-- One unit under CANCEL: a resident one is stopped and takes CANCEL at its boundary (R30). -/
def State.cancelUnit (s : State) (u : Nat) : State :=
  match s.unit? u with
  | some r =>
    match r.st, r.ctx with
    | .resident, some c => s.deliver c { code := tCancel, eng := .c }
    | .resident, none => s
    | _, _ => s.removeUnit u
  | none => s

/-- Units of launches, those not resident first, so that none of them becomes Resident afterwards; a second CANCEL
changes nothing (R390). -/
def State.cancelObject (s : State) (level index : Nat) : State :=
  match s.job.counter level index with
  | some k =>
    if k.final || k.canc then s
    else
      let ls := s.job.launchesOf level index
      let s1 := s.modJob fun j => j.markCancelled level index
      let us := ls.foldl (fun a n => match s1.launch? n with
        | some l => if l.ctr.canc then a ++ l.units else a
        | none => a) []
      us.foldl (fun t u => t.cancelUnit u) s1
  | none => s

/-! ## Effects -/

/-- The instruction at the control cursor has put work at the graph state. -/
def State.myEffect (s : State) : Option (Nat × Effect) :=
  let c := s.focus
  let x := s.ctx c
  s.job.effects.find? fun (_, f) =>
    f.ctx == c && x.unit == some f.unit && f.pos == x.c.cur && f.handler == x.inHandler && !f.committed

def State.dropEffect (s : State) (n : Nat) : State := s.modJob fun j => { j with effects := tdel j.effects n }

def State.postEffect (s : State) (e : Effect) : State × Nat :=
  (s.modJob fun j => { j with effects := tset j.effects j.effectNext e, effectNext := j.effectNext + 1 }, s.job.effectNext)

/-- What a LAUNCH releases: every earlier access in ORDMASK.REL (R442). -/
def State.releaseSet (s : State) (c : Nat) : List Acc :=
  (s.histOf c .c).filter fun a => match s.op? a.op with
    | some o => (s.ordRel c).getLsbD o.cls
    | none => false

/-- Puts work at the graph state and waits for its answer; answers with it once it has taken effect (R614). -/
def State.atGraph (s : State) (w : Work) (waits : List Acc) (dst : Nat) : Res :=
  let c := s.focus
  let x := s.ctx c
  match s.myEffect with
  | some (n, f) =>
    if f.done then
      match f.trap with
      | some t => .trap (s.dropEffect n) t
      | none => .done ((s.dropEffect n).putS c dst 1 f.val)
    else .wait s .waiting (.graph n)
  | none =>
    let (s1, n) := s.postEffect { ctx := c, unit := s.unitNo c, pos := x.c.cur, handler := x.inHandler, work := w, waits := waits }
    .wait s1 .waiting (.graph n)

/-- Stages work in the version of a versioned unit (R35). -/
def State.stageWork (s : State) (w : Work) : State :=
  s.modUnit (s.unitNo s.focus) fun r => { r with work := r.work ++ [w] }

/-! ## LAUNCH and SPAWN -/

/-- The unit's launch is a mesh launch (R234). -/
def State.inMesh (s : State) (u : Nat) : Bool :=
  match s.launchOf u with
  | some l => l.mesh
  | none => false

/-- The key of a unit's next mesh contribution: mesh launches that it has staged count as issued (R234). -/
def State.meshKey (s : State) (u : Nat) : List Nat :=
  match s.unit? u with
  | some r => [r.launch, r.j, r.meshLaunches + (r.work.filter fun w => match w with
      | .launch _ q _ => recMesh q
      | _ => false).length]
  | none => []

/-- The handle index of a mesh launch of a key, given once (R234). -/
def State.meshIndex (s : State) (key : List Nat) : State × Nat :=
  match s.job.meshHandles.find? fun p => p.1 == key with
  | some p => (s, p.2)
  | none =>
    let (s1, n) := s.takeIndex
    (s1.modJob fun j => { j with meshHandles := j.meshHandles ++ [(key, n)] }, n)

def State.myContribution (s : State) : Option (Nat × Contribution) :=
  let c := s.focus
  let x := s.ctx c
  s.job.contributions.find? fun (_, f) =>
    f.ctx == c && x.unit == some f.unit && f.pos == x.c.cur && f.handler == x.inHandler && !f.atCommit

def State.postContribution (s : State) (k : Contribution) : State × Nat :=
  (s.modJob fun j => { j with contributions := tset j.contributions j.contributionNext k
                              contributionNext := j.contributionNext + 1 }, s.job.contributionNext)

/-- A LAUNCH whose record has been read (R439). -/
def State.launchWith (s : State) (r : BitVec 1024) (args : Word) (dst : Nat) : Res :=
  let c := s.focus
  let u := s.unitNo c
  let x := s.ctx c
  if recBad r || s.job.launchFull r then .trap s (trapOf tTable)
  else if s.versioned c then
    let (s1, n) := if recMesh r && s.inMesh u then s.meshIndex (s.meshKey u) else s.takeIndex
    let s2 := s1.stageWork (.launch n r args)
    .done ((s2.modUnit u fun q => { q with created := q.created ++ [handle 0 n] }).putS c dst 1 (handle 0 n))
  else if recMesh r && s.inMesh u then
    let (s1, n) := s.postContribution
      { die := dieOfCtx c, unit := u, ctx := c, pos := x.c.cur, handler := x.inHandler, key := s.meshKey u, record := r
        args := args, waits := s.releaseSet c }
    .wait s1 .waiting (.mesh n)
  else s.atGraph (.launch 0 r args) (s.releaseSet c) dst

/-- LAUNCH and SPAWN: the record is read once, as one snapshot; a job that holds 2^24 launches is TABLE before TRANSLATE (R224,
R439, R517, R246). -/
def launchInstr (i : Instr) (s : State) (dst : Nat) (rs : List Nat) (va : Nat) (args : Option Word) :
    Host.Outcome State Fault Refusal :=
  let c := s.focus
  finish i s (s.sHold rs
    (match s.myEffect, s.myContribution with
     | some _, _ => s.atGraph (.seal false) [] dst
     | none, some (n, k) =>
       if k.done then
         let s1 := s.modJob fun j => { j with contributions := tdel j.contributions n }
         match k.trap with
         | some t => .trap s1 t
         | none => .done ((s1.modUnit k.unit fun q => { q with meshLaunches := q.meshLaunches + 1 }).putS c dst 1 k.val)
       else .wait s .waiting (.mesh n)
     | none, none =>
       if va % 64 = 0 && 2 ^ 24 ≤ s.job.launches.length then .trap s (trapOf tTable)
       else s.withRecord i va 128 64 fun s1 bs =>
         s1.launchWith (recordOf bs) (args.getD (recWord (recordOf bs) 8)) dst))

def execLaunch (f : C3) (s : State) : Host.Outcome State Fault Refusal :=
  launchInstr (.launch f) s f.d.toNat [f.d.toNat, f.a.toNat] ((s.ctx s.focus).sr f.a.toNat).toNat none
def execSpawn (f : C3) (s : State) : Host.Outcome State Fault Refusal :=
  launchInstr (.spawn f) s f.d.toNat [f.d.toNat, f.a.toNat, f.b.toNat] ((s.ctx s.focus).sr f.a.toNat).toNat
    (some ((s.ctx s.focus).sr f.b.toNat))

/-! ## EDGE, GSEAL, CANCEL, CTRWAIT -/

/-- The handle names a launch of the job, or one that this versioned unit has staged (R412, R35). -/
def State.namesLaunch (s : State) (h : Word) : Bool :=
  handleLevel h == 0 && ((s.named h).isSome || s.createdBy (s.unitNo s.focus) h)

def edgeInstr (i : Instr) (f : C3) (s : State) (kind : Nat) : Host.Outcome State Fault Refusal :=
  let c := s.focus
  let a := (s.ctx c).sr f.a.toNat
  let b := (s.ctx c).sr f.b.toNat
  let w : Work := .edge kind f.d.toNat a b
  finish i s (s.sHold [f.a.toNat, f.b.toNat]
    (match s.myEffect with
     | some _ => s.atGraph w [] 0
     | none =>
       if !s.namesLaunch a || !s.namesLaunch b then .trap s (trapOf tTable)
       else if s.versioned c then .done (s.stageWork w)
       else s.atGraph w [] 0))

def execEdgeOne (f : C3) (s : State) : Host.Outcome State Fault Refusal := edgeInstr (.edgeOne f) f s 1
def execEdgeAll (f : C3) (s : State) : Host.Outcome State Fault Refusal := edgeInstr (.edgeAll f) f s 2
def execEdgeTree (f : C3) (s : State) : Host.Outcome State Fault Refusal := edgeInstr (.edgeTree f) f s 3
def execEdgeStencil (f : C3) (s : State) : Host.Outcome State Fault Refusal := edgeInstr (.edgeStencil f) f s 4

def gsealInstr (i : Instr) (f : C3) (s : State) (ph : Bool) : Host.Outcome State Fault Refusal :=
  let c := s.focus
  finish i s (s.sHold [f.d.toNat]
    (if s.versioned c then .done ((s.stageWork (.seal ph)).putS c f.d.toNat 1 0) else s.atGraph (.seal ph) [] f.d.toNat))

def execGseal (f : C3) (s : State) : Host.Outcome State Fault Refusal := gsealInstr (.gseal f) f s false
def execGsealPh (f : C3) (s : State) : Host.Outcome State Fault Refusal := gsealInstr (.gsealPh f) f s true

/-- CANCEL of an object that exists; a unit that cancels itself has its boundary after the CANCEL (R390, R391). -/
def cancelAt (i : Instr) (s : State) (level index : Nat) : Res :=
  if s.versioned s.focus then .done (s.stageWork (.cancel level index))
  else .gone ((s.retire i (s.eng s.focus .c).next).cancelObject level index)

def execCancel (f : C3) (s : State) : Host.Outcome State Fault Refusal :=
  let h := (s.ctx s.focus).sr f.a.toNat
  finish (.cancel f) s (s.sHold [f.a.toNat]
    (if handleLevel h != f.d.toNat || !((s.named h).isSome || s.createdBy (s.unitNo s.focus) h) then .trap s (trapOf tTable)
     else cancelAt (.cancel f) s f.d.toNat (handleIndex h)))

def execCancelOwn (f : C3) (s : State) : Host.Outcome State Fault Refusal :=
  let level := f.d.toNat - 4
  finish (.cancelOwn f) s (cancelAt (.cancelOwn f) s level (s.ownIndex (s.unitNo s.focus) level))

/-- The condition of a CTRWAIT holds at a counter (R401). -/
def ctrHolds (w : Word) (k : Ctr) : Bool :=
  match fld w 0 2 with
  | 0 => true
  | 1 => k.final
  | _ => k.pending ≤ fld w 32 24 || k.final

/-- CTRWAIT (R402): ORDER stands before TABLE where both apply (R246). -/
def ctrwaitRes (f : C3) (s : State) : Res :=
  let c := s.focus
  let u := s.unitNo c
  let h := (s.ctx c).sr f.a.toNat
  let w := (s.ctx c).sr f.b.toNat
  let mode := fld w 0 2
  let inside := handleBits h && (s.named h).isSome && s.ownIndex u (handleLevel h) == handleIndex h && (s.unit? u).isSome
  if (s.versioned c && s.createdBy u h) || (inside && (mode == 1 || (mode == 2 && fld w 32 24 == 0))) then
    .trap s (trapOf tOrder)
  else match s.named h with
    | none => .trap s (trapOf tTable)
    | some k =>
      if mode = 3 || fld w 56 8 != 0 || fld w 2 30 != 0 then .trap s (trapOf tTable)
      else if ctrHolds w k then .done (s.putS c f.d.toNat 1 k.word)
      else .wait s .waiting .counter

def execCtrwait (f : C3) (s : State) : Host.Outcome State Fault Refusal :=
  finish (.ctrwait f) s (s.sHold [f.d.toNat, f.a.toNat, f.b.toNat] (ctrwaitRes f s))

/-- CTRWAIT_CONDITION: the condition of a waiting CTRWAIT holds and it retires (R402). -/
def execCtrwaitCondition (ctx : Nat) (s : State) : Host.Outcome State Fault Refusal :=
  let t : State := { s with focus := ctx }
  match (s.eng ctx .c).st, (s.eng ctx .c).held with
  | .waiting, some (.ctrwait f) => finish (.ctrwait f) t (ctrwaitRes f t)
  | _, _ => .next s

end Sys2Proof.Machine
end

