-- ==== Sys2Proof/Machine/Tensor.lean ====
section
/-! DEFINITION. Tensors: descriptors, sharding maps, resolution and paged tensors (05_tensors.md R110 to R129), and the
instructions TDLD and TDSET (18_ref_r_t.md R528 to R532). -/
namespace Sys2Proof.Machine

/-! ## Descriptors (R112) -/

/-- A descriptor as it lies in memory. -/
abbrev Desc := BitVec 1024

def Desc.word (d : Desc) (off : Nat) : Word := recWord d off
def Desc.hdr (d : Desc) : Word := recWord d 0
def Desc.half (d : Desc) (off : Nat) : Nat := (d.extractLsb' (8 * off) 32).toNat
def Desc.valid (d : Desc) : Bool := (recWord d 0).getLsbD 47
def Desc.paged (d : Desc) : Bool := (recWord d 0).getLsbD 46
def Desc.seqDim (d : Desc) : Nat := fld (recWord d 0) 43 3
def Desc.layout (d : Desc) : Nat := fld (recWord d 0) 41 2
def Desc.tileU (d : Desc) : Nat := fld (recWord d 0) 37 4
def Desc.tileV (d : Desc) : Nat := fld (recWord d 0) 33 4
def Desc.rank (d : Desc) : Nat := fld (recWord d 0) 30 3
def Desc.fmtCode (d : Desc) : Nat := fld (recWord d 0) 25 5
def Desc.fmt (d : Desc) : Fmt := (fmtOf (fld (recWord d 0) 25 5)).getD .raw
def Desc.id (d : Desc) : Nat := fld (recWord d 0) 0 20
def Desc.shape (d : Desc) (k : Nat) : Nat := Desc.half d (8 + 4 * k)
def Desc.slot (d : Desc) (j : Nat) : Nat := fld (recWord d 32) (3 * j) 3
/-- The dimensions, outermost first. -/
def Desc.order (d : Desc) : List Nat := (List.range (Desc.rank d)).map (Desc.slot d)
def Desc.sbase (d : Desc) : Nat := (recWord d 40).toNat
def Desc.split (d : Desc) : Nat := (recWord d 48).toNat
def Desc.btab (d : Desc) : Nat := (recWord d 56).toNat
def Desc.map (d : Desc) : Word := recWord d 64
def Desc.padLo (d : Desc) (k : Nat) : Nat := Desc.half d (80 + 4 * k) % 65536
def Desc.padHi (d : Desc) (k : Nat) : Nat := Desc.half d (80 + 4 * k) / 65536
def Desc.padVal (d : Desc) : Nat := (recWord d 104).toNat % 2 ^ (Desc.fmt d).bits
def Desc.halo (d : Desc) (k : Nat) : Nat := fld (recWord d 112) (8 * k) 8
/-- The padded extent Pd. -/
def Desc.padded (d : Desc) (k : Nat) : Nat := Desc.padLo d k + Desc.shape d k + Desc.padHi d k

/-! ## Map words (R114) -/

def mapMode (w : Word) (a : Nat) : Nat := fld w (16 * a + 14) 2
def mapDim (w : Word) (a : Nat) : Nat := fld w (16 * a + 11) 3
def mapRule (w : Word) (a : Nat) : Nat := fld w (16 * a + 10) 1
def mapAcc (w : Word) (a : Nat) : Nat := fld w (16 * a + 5) 5
def axes4 : List Nat := [0, 1, 2, 3]
def mN : Nat := 0
def mR : Nat := 1
def mS : Nat := 2
def mP : Nat := 3

/-- The S axes of a dimension, ascending (R116). -/
def axesOf (w : Word) (dim : Nat) : List Nat := axes4.filter fun a => mapMode w a == mS && mapDim w a == dim
def hasP (w : Word) : Bool := axes4.any fun a => mapMode w a == mP
/-- The accumulation format of the P axes. -/
def accFmt (w : Word) : Fmt :=
  match axes4.find? fun a => mapMode w a == mP with
  | some a => (fmtOf (mapAcc w a)).getD .fp32
  | none => .raw
/-- The format in which elements are stored under a map (R115, R121). -/
def storeFmt (d : Desc) (w : Word) : Fmt := if hasP w then accFmt w else Desc.fmt d

/-- Fields of a map word that must hold particular values (R113, R114). -/
def mapBad (rank : Nat) (w : Word) : Bool :=
  axes4.any (fun a =>
    fld w (16 * a) 5 != 0
    || (if mapMode w a = mS then rank ≤ mapDim w a else mapDim w a != 0 || mapRule w a != 0)
    || (if mapMode w a = mP then !(mapAcc w a == 1 || mapAcc w a == 2 || mapAcc w a == 3 || mapAcc w a == 0xC)
        else mapAcc w a != 0))
  || axes4.any (fun a => axes4.any fun b =>
    (mapMode w a == mS && mapMode w b == mS && mapDim w a == mapDim w b && mapRule w a != mapRule w b)
    || (mapMode w a == mP && mapMode w b == mP && mapAcc w a != mapAcc w b))

/-- A dimension is split under TABLE. -/
def isTable (w : Word) (dim : Nat) : Bool := axes4.any fun a => mapMode w a == mS && mapDim w a == dim && mapRule w a == 1

/-! ## Splits (R116 to R118) -/

def sizeOver (sizes : List Nat) (axes : List Nat) : Nat := axes.foldl (fun n a => n * nth sizes a 1) 1

/-- The combined shard number (R116). -/
def shardNo (sizes coords axes : List Nat) : Nat := axes.foldl (fun n a => n * nth sizes a 1 + nth coords a 0) 0

/-- Coordinates with those of some axes set from a shard number (R116). -/
def setShard (sizes : List Nat) : List Nat → Nat → List Nat → List Nat
  | [], _, c => c
  | a :: l, s, c =>
    -- axes are given minor first
    setShard sizes l (s / nth sizes a 1) (c.set a (s % nth sizes a 1))

def evenBounds (pd k : Nat) : List (Nat × Nat) :=
  let c := ceilDiv pd k
  (List.range k).map fun s => (min (s * c) pd, min (min (s * c) pd + c) pd)

/-- Entry n of a table of 32-bit points. -/
def pointAt (bs : List Byte) (n : Nat) : Nat := natOfBytes ((bs.drop (4 * n)).take 4)

/-- The bounds that a run of k + 1 points gives; none where it breaks R118. -/
def tableBounds (bs : List Byte) (first pd k : Nat) : Option (List (Nat × Nat)) :=
  let p (n : Nat) : Nat := pointAt bs (first + n)
  if p 0 != 0 || p k != pd || (List.range k).any (fun s => p (s + 1) < p s) then none
  else some ((List.range k).map fun s => (p s, p (s + 1)))

/-- The points that the TABLE splits of a map use. -/
def tablePoints (sizes : List Nat) (w : Word) : Nat :=
  (List.range 6).foldl (fun n dim => if isTable w dim then n + sizeOver sizes (axesOf w dim) + 1 else n) 0

/-- The splits of a map, ascending by dimension, from the bytes of its split-point table. -/
def splitsFrom (sizes : List Nat) (pd : Nat → Nat) (w : Word) (bs : List Byte) : List Nat → Nat → Option (List Split)
  | [], _ => some []
  | dim :: l, first =>
    let ax := axesOf w dim
    let k := sizeOver sizes ax
    if ax.isEmpty then splitsFrom sizes pd w bs l first
    else if isTable w dim then
      match tableBounds bs first (pd dim) k, splitsFrom sizes pd w bs l (first + k + 1) with
      | some b, some r =>
        some ({ dim := dim, axes := ax, bounds := b, ext := b.foldl (fun n p => max n (p.2 - p.1)) 0 } :: r)
      | _, _ => none
    else match splitsFrom sizes pd w bs l first with
      | some r => some ({ dim := dim, axes := ax, bounds := evenBounds (pd dim) k, ext := ceilDiv (pd dim) k } :: r)
      | none => none

def splitOf? (l : List Split) (dim : Nat) : Option Split := l.find? fun p => p.dim == dim

/-! ## Validity (R113, R127) -/

def isPow2 (n : Nat) : Bool := n != 0 && 2 ^ Nat.log2 n == n

/-- Bits of one sequence position, and positions of a block (R127). -/
def Desc.posBits (d : Desc) : Nat :=
  ((List.range (Desc.rank d)).filter (· != Desc.seqDim d)).foldl (fun n k => n * Desc.padded d k) (Desc.fmt d).bits
def Desc.perBlock (d : Desc) : Nat := 32768 / Desc.posBits d
def Desc.blockCount (d : Desc) : Nat := ceilDiv (Desc.padded d (Desc.seqDim d)) (Desc.perBlock d)

/-- The conditions of a paged tensor fail (R127). A position of half a byte is no power of two of bytes (DESIGN CHOICE, log 40). -/
def Desc.pagedBad (d : Desc) : Bool :=
  axes4.any (fun a => mapMode (Desc.map d) a == mS || mapMode (Desc.map d) a == mP)
  || Desc.rank d ≤ Desc.seqDim d || Desc.slot d 0 != Desc.seqDim d
  || Desc.layout d != 0 || (List.range 6).any (fun k => Desc.halo d k != 0)
  || Desc.posBits d % 8 != 0 || 32768 < Desc.posBits d || !isPow2 (Desc.posBits d / 8)

/-- Every condition of R113 that needs no split points. R112 states more of the layout than R113 lists as invalid: a misaligned
SBASE (on a paged tensor too), SPLIT or BTAB, a SPLIT that is 0 under a TABLE split or nonzero without one, a BTAB without PG,
and tiles of a tensor of rank 1 count as invalid here (DESIGN CHOICE, log 40). -/
def Desc.fieldsBad (d : Desc) : Bool :=
  let r := Desc.rank d
  r == 0 || r == 7
  || Desc.fmtCode d == 0 || 0x12 ≤ Desc.fmtCode d
  || fld (recWord d 0) 48 16 != 0 || fld (recWord d 0) 20 5 != 0 || fld (recWord d 32) 18 46 != 0
  || recWord d 72 != 0 || recWord d 120 != 0 || fld (recWord d 112) 48 16 != 0
  || 2 ^ 56 ≤ Desc.sbase d || 2 ^ 56 ≤ Desc.split d || 2 ^ 56 ≤ Desc.btab d
  || Desc.sbase d % 8 != 0 || Desc.split d % 4 != 0 || Desc.btab d % 16 != 0
  || !((List.range r).all fun k => (Desc.order d).contains k) || (rangeFrom r (6 - r)).any (fun j => Desc.slot d j != 0)
  || (List.range 6).any (fun k =>
      if k < r then Desc.shape d k == 0 || 2 ^ 31 < Desc.shape d k || 2 ^ 32 - 1 < Desc.padded d k
      else Desc.shape d k != 0)
  || (if Desc.layout d = 1 then r < 2 || Desc.tileU d == 0 || 10 < Desc.tileU d || Desc.tileV d == 0 || 10 < Desc.tileV d
      else Desc.layout d != 0 || Desc.tileU d != 0 || Desc.tileV d != 0)
  || mapBad r (Desc.map d)
  || ((List.range 6).any (isTable (Desc.map d)) != (Desc.split d != 0))
  || (List.range 6).any (fun k => Desc.halo d k != 0 && (axesOf (Desc.map d) k).isEmpty)
  || (if Desc.paged d then Desc.pagedBad d else Desc.btab d != 0)

/-- A halo wider than the smallest nonempty shard (R113). -/
def haloBad (d : Desc) (l : List Split) : Bool :=
  l.any fun p => Desc.halo d p.dim != 0 &&
    (p.bounds.filter fun b => b.1 < b.2).any fun b => b.2 - b.1 < Desc.halo d p.dim

/-! ## Snapshots (R124, R126) -/

/-- Bytes of a descriptor or block entry as a core uses them: its snapshot, or memory. -/
def State.snapBytes (s : State) (core va len : Nat) : Except Trap (List Byte) :=
  match (s.core core).snaps.find? fun p => p.addr == va && p.bytes.length == len with
  | some p => .ok p.bytes
  | none =>
    match s.range core .read va len with
    | .error (cause, a) => .error (trapXlate cause a)
    | .ok segs => match s.poisonIn segs with
      | some b => .error (trapPoison b)
      | none => .ok (bytesOfSegs s.mem segs)

/-- Snapshots of one length that a core may hold (R124). -/
def snapCap (len : Nat) : Nat := if len = 16 then 1024 else 256

/-- The core keeps a snapshot that it has used (R124). -/
def State.keepSnap (s : State) (core va len : Nat) : State :=
  match s.snapBytes core va len with
  | .error _ => s
  | .ok bs =>
    s.modCore core fun k =>
      if k.snaps.any fun p => p.addr == va && p.bytes.length == len then k
      else
        let same := k.snaps.filter fun p => p.bytes.length == len
        let rest := k.snaps.filter fun p => p.bytes.length != len
        { k with snaps := pushCap (snapCap len) same { addr := va, bytes := bs } ++ rest }

/-- A plain read of module memory by the address units. -/
def State.vread8 (s : State) (core va len : Nat) : Except Trap (List Byte) :=
  match s.range core .read va len with
  | .error (cause, a) => .error (trapXlate cause a)
  | .ok segs => match s.poisonIn segs with
    | some b => .error (trapPoison b)
    | none => .ok (bytesOfSegs s.mem segs)

/-! ## Resolution (R111, R122) -/

/-- Address of descriptor n (R110). -/
def Die.descAddr (d : Die) (n : Nat) : Nat := fld d.tdtab 7 49 * 128 + 128 * n
/-- The ID names no descriptor of the table (R111). -/
def Die.idBad (d : Die) (n : Nat) : Bool := n == 0 || 2 ^ fld d.tdtab 56 5 ≤ n

def Die.sizes (d : Die) : List Nat := axes4.map d.axis
def Die.coords (d : Die) : List Nat := axes4.map d.coord

/-- Splits of a map whose split-point table stands at an address. -/
def State.splits (s : State) (core : Nat) (d : Desc) (w : Word) (ptr : Nat) : Except Trap (List Split) :=
  let sizes := (s.die (dieOf core)).sizes
  let n := tablePoints sizes w
  let bytes := if n = 0 then Except.ok [] else s.vread8 core ptr (4 * n)
  match bytes with
  | .error t => .error t
  | .ok bs => match splitsFrom sizes (Desc.padded d) w bs (List.range 6) 0 with
    | some l => .ok l
    | none => .error (trapOf tTable)

/-- A tensor as a resolution finds it: a valid descriptor with its splits. -/
structure Tens where
  d : Desc
  splits : List Split
  deriving DecidableEq, Repr

/-- The descriptor checked against R113, with its splits. -/
def State.checkDesc (s : State) (core : Nat) (d : Desc) : Except Trap Tens :=
  if Desc.fieldsBad d then .error (trapOf tTable)
  else match s.splits core d (Desc.map d) (Desc.split d) with
    | .error t => .error t
    | .ok l => if haloBad d l then .error (trapOf tTable) else .ok { d := d, splits := l }

/-- The descriptor of a tensor ID (R111, R113). -/
def State.tensor (s : State) (core id : Nat) : Except Trap Tens :=
  let die := s.die (dieOf core)
  if die.idBad id then .error (trapOf tTable)
  else match s.snapBytes core (die.descAddr id) 128 with
    | .error t => .error t
    | .ok bs =>
      let d := recordOf bs
      if !Desc.valid d || Desc.id d != id then .error (trapOf tTable) else s.checkDesc core d

/-- The kinds of access (R122). -/
inductive AKind where
  | read | write | reduce
  deriving DecidableEq, Repr

/-- Where an index resolves: a padding value, or a physical place as a bit address. -/
inductive Place where
  | pad (v : Nat)
  | at (bit : Nat)
  deriving DecidableEq, Repr

/-- The stored extent of a dimension (R121). -/
def Tens.extent (t : Tens) (k : Nat) : Nat :=
  match splitOf? t.splits k with
  | some p => p.ext + 2 * Desc.halo t.d k
  | none => Desc.padded t.d k

/-- Mixed-radix offset of coordinates, outermost first. -/
def mixed : List (Nat × Nat) → Nat → Nat
  | [], n => n
  | (l, e) :: r, n => mixed r (n * e + l)

/-- The two innermost dimensions as tiles (R121). -/
def tiled (tu tv : Nat) : List (Nat × Nat) → List (Nat × Nat)
  | [(u, eu), (v, ev)] => [(u / tu, ceilDiv eu tu), (v / tv, ceilDiv ev tv), (u % tu, tu), (v % tv, tv)]
  | p :: l => p :: tiled tu tv l
  | [] => []

/-- The element offset of local coordinates (R121). -/
def Tens.offset (t : Tens) (l : Nat → Nat) : Nat :=
  let dims := (Desc.order t.d).map fun k => (l k, t.extent k)
  mixed (if Desc.layout t.d = 1 then tiled (2 ^ Desc.tileU t.d) (2 ^ Desc.tileV t.d) dims else dims) 0

/-- Elements of a stored block (R121). -/
def Tens.blockElems (t : Tens) : Nat :=
  let dims := (Desc.order t.d).map fun k => (0, t.extent k)
  (if Desc.layout t.d = 1 then tiled (2 ^ Desc.tileU t.d) (2 ^ Desc.tileV t.d) dims else dims).foldl (fun n p => n * p.2) 1

/-- MESH, BOUNDS and PSUM of a resolution, in the order of R246. -/
def State.resolveBad (s : State) (core : Nat) (t : Tens) (idx : List Nat) (kind : AKind) : Option Trap :=
  let die := s.die (dieOf core)
  let w := Desc.map t.d
  if axes4.any fun a => mapMode w a == mN && 1 < die.axis a then some (trapOf tMesh)
  else if idx.length != Desc.rank t.d || (List.range idx.length).any (fun k => Desc.padded t.d k ≤ nth idx k 0) then
    some (trapOf tBounds)
  else if kind == .read && hasP w then some (trapOf tPsum)
  else none

def Tens.isPad (t : Tens) (idx : List Nat) : Bool :=
  (List.range (Desc.rank t.d)).any fun k =>
    nth idx k 0 < Desc.padLo t.d k || Desc.padLo t.d k + Desc.shape t.d k ≤ nth idx k 0

def shardHolding (p : Split) (i : Nat) : Nat :=
  ((List.zip (List.range p.bounds.length) p.bounds).find? fun q => q.2.1 ≤ i && i < q.2.2).elim 0 Prod.fst

/-- The owner's coordinates and the shard starts of an index; local where the die's own shard or halo serves (R122). -/
def Tens.owner (t : Tens) (sizes coords : List Nat) (idx : List Nat) (kind : AKind) : List Nat × (Nat → Nat) :=
  let own (p : Split) : Nat × Nat := nth p.bounds (shardNo sizes coords p.axes) (0, 0)
  let near (p : Split) : Bool :=
    let i := nth idx p.dim 0
    let h := if kind == .read then Desc.halo t.d p.dim else 0
    (own p).1 ≤ i + h && i < (own p).2 + h
  if t.splits.all near then
    (coords, fun k => match splitOf? t.splits k with
      | some p => nth idx k 0 + Desc.halo t.d k - (own p).1
      | none => nth idx k 0)
  else
    (t.splits.foldl (fun c p => setShard sizes p.axes.reverse (shardHolding p (nth idx p.dim 0)) c) coords,
     fun k => match splitOf? t.splits k with
      | some p => nth idx k 0 - (nth p.bounds (shardHolding p (nth idx k 0)) (0, 0)).1 + Desc.halo t.d k
      | none => nth idx k 0)

/-- Linear rank of coordinates (R13). -/
def rankOf (sizes c : List Nat) : Nat := nth c 0 0 + nth sizes 0 1 * (nth c 1 0 + nth sizes 1 1 * (nth c 2 0 + nth sizes 2 1 * nth c 3 0))

/-- A place behind a virtual bit address of a die (R123). -/
def State.placeVa (s : State) (core die : Nat) (n : Need) (bit : Nat) : Except Trap Place :=
  match s.xlateAt core die (bit / 8) n with
  | .error c => .error (trapXlate c (bit / 8))
  | .ok (pa, _) => .ok (.at (8 * pa + bit % 8))

def AKind.need : AKind → Need
  | .write => .write
  | _ => .read

/-- Address of a block-table entry. -/
def Desc.entryAddr (d : Desc) (b : Nat) : Nat := Desc.btab d + 16 * b

/-- paged(D, i, kind) of R129. -/
def State.pagedPlace (s : State) (core : Nat) (t : Tens) (idx : List Nat) (kind : AKind) : Except Trap Place :=
  let d := t.d
  let q := nth idx (Desc.seqDim d) 0
  let b := q / Desc.perBlock d
  let dense := mixed (((Desc.order d).drop 1).map fun k => (nth idx k 0, Desc.padded d k)) 0
  let off := q % Desc.perBlock d * Desc.posBits d + dense * (Desc.fmt d).bits
  match s.snapBytes core (Desc.entryAddr d b) 16 with
  | .error tr => .error tr
  | .ok bs =>
    let e := natOfBytes bs
    if !e.testBit 80 then .error (trapXlate causeBlock (Desc.entryAddr d b))
    else
      let bit := (moduleOf (dieOf core) * 2 ^ 52 + e / 2 ^ 12 % 2 ^ 40 * 2 ^ 12) * 8 + off
      if s.levelOf (bit / 8) == .none then .error (trapXlate causeNoTarget (bit / 8))
      else if kind == .write && e.testBit 81 then
        .error { code := tShared, detailA := Desc.id d, detailB := b }
      else .ok (.at bit)

/-- Resolution of an index of a tensor (R122). -/
def State.resolveIn (s : State) (core : Nat) (t : Tens) (idx : List Nat) (kind : AKind) : Except Trap Place :=
  match s.resolveBad core t idx kind with
  | some tr => .error tr
  | none =>
    if t.isPad idx then .ok (.pad (Desc.padVal t.d))
    else if Desc.paged t.d then s.pagedPlace core t idx kind
    else
      let die := s.die (dieOf core)
      let (own, l) := t.owner die.sizes die.coords idx kind
      let rank := rankOf die.sizes own
      match s.vread8 core (Desc.sbase t.d + 8 * rank) 8 with
      | .error tr => .error tr
      | .ok bs => s.placeVa core ((s.dieAt rank).getD (dieOf core)) kind.need (8 * natOfBytes bs + t.offset l * (storeFmt t.d (Desc.map t.d)).bits)

/-- A resolution keeps the snapshots that it used (R124). -/
def State.keepTensor (s : State) (core id : Nat) : State := s.keepSnap core ((s.die (dieOf core)).descAddr id) 128

/-- Blocks of a paged tensor that an index uses. -/
def State.keepBlock (s : State) (core : Nat) (t : Tens) (idx : List Nat) : State :=
  if Desc.paged t.d then s.keepSnap core (Desc.entryAddr t.d (nth idx (Desc.seqDim t.d) 0 / Desc.perBlock t.d)) 16 else s

/-- Bits at a physical bit address, as a unit sees them. -/
def State.bitsAt (s : State) (u bit n : Nat) : Nat :=
  natOfBytes (s.unitSees u (s.cycle + 1) [{ va := 0, pa := bit / 8, len := ceilDiv (bit % 8 + n) 8 }]) / 2 ^ (bit % 8) % 2 ^ n

/-- Writes n bits at a physical bit address: a whole number of bytes, or one nibble of a byte. -/
def State.bitsPut (s : State) (u bit n v : Nat) : State :=
  let g : Seg := { va := 0, pa := bit / 8, len := ceilDiv n 8 }
  if n % 8 = 0 then s.unitWrite u [g] (bytesOfNat (n / 8) v)
  else
    let old := natOfBytes (s.unitRead u [g])
    let keep := old - old / 2 ^ (bit % 8) % 2 ^ n * 2 ^ (bit % 8)
    s.unitWrite u [g] (bytesOfNat 1 (keep + v % 2 ^ n * 2 ^ (bit % 8)))

/-! ## TDLD and TDSET (R125, R528 to R532) -/

/-- Selectors 0 to 19: byte offset and length of the field. -/
def selField (sel : Nat) : Option (Nat × Nat) :=
  if sel = 0 then some (0, 8)
  else if sel ≤ 6 then some (8 + 4 * (sel - 1), 4)
  else if sel = 7 then some (32, 8)
  else if sel ≤ 11 then some (40 + 8 * (sel - 8), 8)
  else if sel ≤ 17 then some (80 + 4 * (sel - 12), 4)
  else if sel = 18 then some (104, 8)
  else if sel = 19 then some (112, 8)
  else none

def selAssigned (sel : Nat) : Bool := sel ≤ 19 || sel == 32 || sel == 33 || sel == 34

/-- Address and length of what the selector names: TABLE where it names nothing (R530). -/
def State.tdPlace (s : State) (core id sel b : Nat) (rsv : Bool) : Except Trap (Nat × Nat) :=
  let die := s.die (dieOf core)
  if die.idBad id || rsv || !selAssigned sel then .error (trapOf tTable)
  else match selField sel with
    | some (off, n) => .ok (die.descAddr id + off, n)
    | none =>
      match s.vread8 core (die.descAddr id) 128 with
      | .error t => .error t
      | .ok bs => match s.checkDesc core (recordOf bs) with
        | .error t => .error t
        | .ok t =>
          if !Desc.paged t.d || Desc.blockCount t.d ≤ b then .error (trapOf tTable)
          else
            let e := Desc.entryAddr t.d b
            .ok (if sel = 32 then (e, 8) else if sel = 33 then (e + 10, 1) else (e + 8, 2))

/-- Shift, width and left shift of the loaded value (R529). -/
def selBits (sel n : Nat) : Nat × Nat × Nat :=
  if sel = 32 then (12, 40, 12) else if sel = 33 then (0, 3, 0) else (0, 8 * n, 0)

/-- TDLD: a class-0 load of the field (R530). -/
def execTdld (f : C3) (s : State) : Host.Outcome State Fault Refusal :=
  let c := s.focus
  let core := coreOf c
  let x := s.ctx c
  let id := fld (x.sr f.a.toNat) 0 20
  let w := x.sr f.b.toNat
  let sel := fld w 0 8
  let i : Instr := .tdld f
  finish i s (s.sHold [f.d.toNat, f.a.toNat, f.b.toNat]
    (match s.tdPlace core id sel (fld w 8 32) (fld w 40 24 != 0) with
     | .error t => .trap s t
     | .ok (va, n) =>
       match s.reach core va n .read with
       | .error t => .trap s t
       | .miss l => s.walkFor core l
       | .ok segs =>
         match s.poisonIn segs with
         | some b => .trap s (trapPoison b)
         | none =>
           let (s1, reqs, ok) := ((s.trimBound core).fillRange core segs).bindSegs { core := core, unit := s.unitNo c } s.cycle segs
           if !ok && s.entriesFull core then .wait s .waiting .entries
           else
             let (sh, wd, up) := selBits sel n
             let o : Op := { s1.newOp .c i .load with
               dst := f.d.toNat, reads := true, va := va, segs := segs, v1 := BitVec.ofNat 64 sh, v2 := BitVec.ofNat 64 wd
               v3 := BitVec.ofNat 64 up, reqs := reqs, promised := ok, limit := limitOf ok reqs 0, fwd := s1.forwards (s.unitNo c) (s.cycle + 1) segs }
             .done (s1.launchOp o none).1))

/-- TABLE of TDSET's value, of which selector 33 alone depends on the entry as it stands (R529, R530). -/
def tdValueBad (sel id : Nat) (v : Word) (flags : Nat) : Bool :=
  if sel = 34 then true
  else if sel = 0 then fld v 0 20 != id
  else if (1 ≤ sel && sel ≤ 6) || (12 ≤ sel && sel ≤ 17) then fld v 32 32 != 0
  else if 8 ≤ sel && sel ≤ 10 then fld v 56 8 != 0
  else if sel = 32 then fld v 0 12 != 0 || fld v 52 12 != 0
  else if sel = 33 then fld v 3 61 != 0 || (!v.getLsbD 0 && flags.testBit 2)
  else false

/-- The snapshots of an entry are dropped in every core of the job (R124). -/
def dropSnaps (base len : Nat) (k : Core) : Core :=
  { k with snaps := k.snaps.filter fun p => !(p.addr < base + len && base < p.addr + p.bytes.length) }

def State.invalidate (s : State) (va len : Nat) : State :=
  { s with cores := s.cores.map fun (n, k) => (n, dropSnaps va len k) }

/-- The copies that the other modules of a job hold of a range of the descriptor table or of a block table (R110). -/
def State.copies (s : State) (core va len : Nat) : List Nat → Except Trap (List (List Seg))
  | [] => .ok []
  | m :: l =>
    if m = moduleOf (dieOf core) then s.copies core va len l
    else match s.rangeAt core (64 * m) .write va len, s.copies core va len l with
      | .error (c, a), _ => .error (trapXlate c a)
      | _, .error t => .error t
      | .ok g, .ok r => .ok (g :: r)

/-- What TDSET leaves of a field (R530). -/
def tdNew (sel n : Nat) (v : Word) (old : Nat) : Nat := if sel = 33 then old / 8 * 8 + v.toNat % 8 else v.toNat % 2 ^ (8 * n)

/-- TDSET writes one copy of the field. -/
def State.writeField (s : State) (sel n : Nat) (v : Word) (g : List Seg) : State :=
  s.writeSegs g (bytesOfNat n (tdNew sel n v (natOfBytes (bytesOfSegs s.mem g))))

/-- TDSET: the field is written once the accesses before it are performed, and every snapshot of it is invalidated (R530); each
module of the job takes it into its copy (R110). -/
def execTdset (f : C3) (s : State) : Host.Outcome State Fault Refusal :=
  let c := s.focus
  let core := coreOf c
  let x := s.ctx c
  let id := fld (x.sr f.a.toNat) 0 20
  let w := x.sr f.b.toNat
  let v := x.sr f.d.toNat
  let sel := fld w 0 8
  let i : Instr := .tdset f
  finish i s (s.sHold [f.d.toNat, f.a.toNat, f.b.toNat]
    (if s.versioned c then .trap s (trapOf tOrder)
     else if tdValueBad sel id v 0 && (sel != 33 || fld v 3 61 != 0) then .trap s (trapOf tTable)
     else match s.tdPlace core id sel (fld w 8 32) (fld w 40 24 != 0) with
      | .error t => .trap s t
      | .ok (va, n) =>
        match s.reach core va n .write with
        | .error t => .trap s t
        | .miss l => s.walkFor core l
        | .ok segs =>
          let old := natOfBytes (bytesOfSegs s.mem segs)
          if tdValueBad sel id v old then .trap s (trapOf tTable)
          else match s.poisonHurt segs with
            | some b => .trap s (trapPoison b)
            | none => match s.copies core va n (List.range s.modules) with
            | .error t => .trap s t
            | .ok others =>
              let o : Op := { s.newOp .c i .store with writes := true, segs := segs, va := va }
              if (s.waitsFor o none).any fun a => s.pending a then .wait s .waiting .other
              else
                let s1 := (((s.trimBound core).fillRange core segs).bindSegs
                  { core := core, unit := s.unitNo c, promised := false, rd := false } s.cycle segs).1
                .done (((segs :: others).foldl (fun t g => t.writeField sel n v g) s1).invalidate va n)))

end Sys2Proof.Machine
end

