-- ==== Sys2Proof/Machine/Chanter.lean ====
section
/-! DEFINITION. The Chanter (06_reshard.md R138 to R143): candidate plans, merging, the four tests, staging and the plan
record. Readings that the rules leave open stand in log 33. -/
namespace Sys2Proof.Machine

/-! ## Maps of a plan -/

/-- The 16-bit entry of an axis (R114). -/
def mapEntry (w : Word) (a : Nat) : Nat := fld w (16 * a) 16
def setEntry (w : Word) (a e : Nat) : Word :=
  BitVec.ofNat 64 (w.toNat - mapEntry w a * 2 ^ (16 * a) + e % 2 ^ 16 * 2 ^ (16 * a))
def entR : Nat := mR * 2 ^ 14
/-- EVEN split of a dimension. -/
def entS (dim : Nat) : Nat := mS * 2 ^ 14 + dim * 2 ^ 11

/-- A map with its splits. -/
structure MapSp where
  w : Word
  sp : List Split
  deriving DecidableEq, Repr

def sameRule (a b : Word) (dim : Nat) : Bool := isTable a dim == isTable b dim && axesOf a dim == axesOf b dim

/-- The splits of a map between source and destination: a dimension is split as a map that splits it over the same axes
under the same rule says, the destination's first where a step has set one of the axes; EVEN where neither does (log 33). -/
def midSplit (sizes : List Nat) (d : Desc) (src dst : MapSp) (changed : List Nat) (w : Word) (dim : Nat) : Option Split :=
  let ax := axesOf w dim
  let refs := if ax.any changed.contains then [dst, src] else [src, dst]
  if ax.isEmpty then none
  else match refs.find? fun r => sameRule r.w w dim with
    | some r => splitOf? r.sp dim
    | none =>
      let k := sizeOver sizes ax
      let pd := Desc.padded d dim
      some { dim := dim, axes := ax, bounds := evenBounds pd k, ext := ceilDiv pd k }

def midSplits (sizes : List Nat) (d : Desc) (src dst : MapSp) (changed : List Nat) (w : Word) : List Split :=
  (List.range (Desc.rank d)).filterMap (midSplit sizes d src dst changed w)

/-! ## Boxes of indices -/

/-- Per dimension, an interval of indices. -/
abbrev Box := List (Nat × Nat)

def meet (a b : Nat × Nat) : Nat × Nat := (max a.1 b.1, min a.2 b.2)
def boxMeet (a b : Box) : Box := (List.zip a b).map fun p => meet p.1 p.2
def boxSize (b : Box) : Nat := b.foldl (fun n p => n * (p.2 - p.1)) 1

/-- The interval of a dimension that a die's shard holds, widened by a halo (R116, R120). -/
def shardOf (sizes coords : List Nat) (halo : Nat) (p : Split) : Nat × Nat :=
  let b := nth p.bounds (shardNo sizes coords p.axes) (0, 0)
  (b.1 - halo, b.2 + halo)

/-- The data indices of a die's shard under a map (R119, R137). -/
def dataBox (d : Desc) (halo : Bool) (sp : List Split) (sizes coords : List Nat) : Box :=
  (List.range (Desc.rank d)).map fun k =>
    let data := (Desc.padLo d k, Desc.padLo d k + Desc.shape d k)
    match splitOf? sp k with
    | some p => meet data (shardOf sizes coords (if halo then Desc.halo d k else 0) p)
    | none => data

/-- Coordinates of a linear rank (R13). -/
def coordsOf (sizes : List Nat) (r : Nat) : List Nat :=
  [r % nth sizes 0 1, r / nth sizes 0 1 % nth sizes 1 1, r / (nth sizes 0 1 * nth sizes 1 1) % nth sizes 2 1,
   r / (nth sizes 0 1 * nth sizes 1 1 * nth sizes 2 1)]

def meshCount (sizes : List Nat) : Nat := sizeOver sizes axes4
def allCoords (sizes : List Nat) : List (List Nat) := (List.range (meshCount sizes)).map (coordsOf sizes)

/-! ## Candidates (R139, R140) -/

/-- A step before its maps are known: kind, dimension, axes, the paired axis, and the entries that it sets. -/
structure PStep where
  kind : Nat
  dim : Nat
  axes : List Nat
  axis2 : Option Nat := none
  sets : List (Nat × Nat)
  deriving DecidableEq, Repr

def kAG : Nat := 0
def kRS : Nat := 1
def kA2A : Nat := 2
def kPRM : Nat := 3
def kSlice : Nat := 4
def kDesignate : Nat := 5
def kExpand : Nat := 6
def kCopy : Nat := 7
def kHalo : Nat := 8

/-- The two maps split a dimension at the same points (R139): under TABLE the bounds, under EVEN the rule alone. -/
def samePoints (src dst : MapSp) (dim : Nat) : Bool :=
  !isTable src.w dim || (splitOf? src.sp dim).map Split.bounds == (splitOf? dst.sp dim).map Split.bounds

/-- The axis needs no step (R139). -/
def sameEntry (src dst : MapSp) (a : Nat) : Bool :=
  mapEntry src.w a == mapEntry dst.w a && (mapMode src.w a != mS || samePoints src dst (mapDim src.w a))

/-- The candidate steps of one axis (R139); none where the change is not allowed. -/
def axisChoices (sizes : List Nat) (rank : Nat) (src dst : MapSp) (a : Nat) : List (List PStep) :=
  let e := mapEntry dst.w a
  let ds := mapDim src.w a
  let dd := mapDim dst.w a
  let one (kind dim ent : Nat) : PStep := { kind := kind, dim := dim, axes := [a], sets := [(a, ent)] }
  let ms := mapMode src.w a
  let md := mapMode dst.w a
  if nth sizes a 1 = 1 || sameEntry src dst a then [[]]
  else if ms = mR && md = mS then [[one kSlice dd e]]
  else if ms = mS && md = mR then [[one kAG ds e]]
  else if ms = mS && md = mS then [[one kA2A dd e], [one kAG ds entR, one kSlice dd e]]
  else if ms = mS && md = mP then [[one kExpand ds e]]
  else if ms = mP && md = mS then [[one kRS dd e]]
  else if ms = mP && md = mR then (List.range rank).map fun k => [one kRS k (entS k), one kAG k e]
  else if ms = mR && md = mP then [[one kDesignate 0 e]]
  else []

/-- The axis exchanges whose lower axis is a (R139). -/
def exchanges (sizes : List Nat) (src dst : MapSp) (a : Nat) : List (Nat × PStep) :=
  axes4.filterMap fun b =>
    let dim := mapDim src.w a
    if a < b && nth sizes a 1 == nth sizes b 1 && 1 < nth sizes a 1
        && mapMode src.w a == mS && mapMode src.w b == mR && mapMode dst.w a == mR && mapMode dst.w b == mS
        && mapDim dst.w b == dim && mapRule src.w a == mapRule dst.w b && samePoints src dst dim then
      some (b, { kind := kPRM, dim := 0, axes := [a], axis2 := some b, sets := [(a, mapEntry dst.w a), (b, mapEntry dst.w b)] })
    else none

/-- One choice for every axis or pair, in the order of the lowest axis of each step. -/
def candidates (choices : Nat → List (List PStep)) (pairs : Nat → List (Nat × PStep)) : List Nat → List Nat → List (List PStep)
  | [], _ => [[]]
  | a :: l, used =>
    if used.contains a then candidates choices pairs l used
    else
      (choices a).flatMap (fun c => (candidates choices pairs l used).map (c ++ ·))
      ++ (pairs a).flatMap fun (b, st) =>
        if used.contains b then [] else (candidates choices pairs l (b :: used)).map (st :: ·)

/-- Two neighbouring steps as one, where R140 merges them. Of two local steps over different dimensions the merged step names the
later one's (DESIGN CHOICE, log 40). -/
def mergeTwo (p q : PStep) : Option PStep :=
  if p.kind = q.kind && p.kind < kPRM && p.dim = q.dim then some { p with axes := p.axes ++ q.axes, sets := p.sets ++ q.sets }
  else if kSlice ≤ p.kind && kSlice ≤ q.kind then
    let h := if p.kind ≤ q.kind then q else p
    some { kind := h.kind, dim := h.dim, axes := p.axes ++ q.axes, sets := p.sets ++ q.sets }
  else none

def mergeInto : List PStep → PStep → List PStep
  | [], q => [q]
  | [p], q => match mergeTwo p q with
    | some m => [m]
    | none => [p, q]
  | p :: l, q => p :: mergeInto l q

def mergeSteps (l : List PStep) : List PStep := l.foldl mergeInto []

/-! ## Steps with their maps -/

/-- Axes of size 1 take the destination's entry with the first step. -/
def unitAxes (sizes : List Nat) (src dst : Word) : Word :=
  axes4.foldl (fun w a => if nth sizes a 1 = 1 then setEntry w a (mapEntry dst a) else w) src

def applySets (w : Word) (l : List (Nat × Nat)) : Word := l.foldl (fun v p => setEntry v p.1 p.2) w

/-- The descriptor as a block between steps is laid out: without halos (log 33). -/
def noHalo (d : Desc) : Desc := d &&& ~~~(BitVec.ofNat 1024 ((2 ^ 64 - 1) * 2 ^ (8 * 112)))

/-- The block of a map: its layout, and its bytes (R121). -/
def blockTens (d : Desc) (last : Bool) (sp : List Split) : Tens := { d := if last then d else noHalo d, splits := sp }
def blockBytes (d : Desc) (last : Bool) (w : Word) (sp : List Split) : Nat :=
  ceilDiv ((blockTens d last sp).blockElems * (storeFmt d w).bits) 8

/-- Bytes of a piece (R146). -/
def pieceBytes : Nat := 65536

/-- Gives the steps their maps, from a map with its splits; the last writes the destination. -/
def withMaps (sizes : List Nat) (d : Desc) (src dst : MapSp) : Word → List Split → List Nat → List PStep → List PlanStep
  | _, _, _, [] => []
  | w, sp, _, [p] =>
    [{ kind := p.kind, dim := p.dim, axes := p.axes, axis2 := p.axis2, src := w, srcSp := sp, dst := dst.w, dstSp := dst.sp
       pieces := ceilDiv (blockBytes d true dst.w dst.sp) pieceBytes }]
  | w, sp, ch, p :: l =>
    let ch1 := ch ++ p.sets.map Prod.fst
    let w1 := applySets (unitAxes sizes w dst.w) p.sets
    let sp1 := midSplits sizes d src dst ch1 w1
    { kind := p.kind, dim := p.dim, axes := p.axes, axis2 := p.axis2, src := w, srcSp := sp, dst := w1, dstSp := sp1
      pieces := ceilDiv (blockBytes d false w1 sp1) pieceBytes } :: withMaps sizes d src dst w1 sp1 ch1 l

/-! ## Where a step's data comes from (R144) -/

/-- The axes of a local step on which it designates or expands. -/
def PlanStep.newP (p : PlanStep) (mode : Nat) : List Nat :=
  if kSlice ≤ p.kind && p.kind < kCopy then p.axes.filter fun a => mapMode p.src a == mode && mapMode p.dst a == mP else []

/-- The die writes zeros for the whole step: a designated axis on which its coordinate is not 0. -/
def PlanStep.zeros (p : PlanStep) (coords : List Nat) : Bool := (p.newP mR).any fun a => nth coords a 0 != 0

/-- Coordinates of the members of the step's group over its axes, in the order of R116. -/
def members (sizes axes coords : List Nat) : List (List Nat) :=
  (List.range (sizeOver sizes axes)).map fun c => setShard sizes axes.reverse c coords

def swapAxes (coords : List Nat) (a b : Nat) : List Nat := (coords.set a (nth coords b 0)).set b (nth coords a 0)

/-- The coordinates from which a die reads before shards are looked up: every member for RS, the exchanged die for PRM, its
own otherwise. -/
def PlanStep.bases (p : PlanStep) (sizes coords : List Nat) : List (List Nat) :=
  if p.kind = kRS then members sizes p.axes coords
  else match p.axis2 with
    | some b => [swapAxes coords (nth p.axes 0 0) b]
    | none => [coords]

/-- The die that holds an index for a base: the base itself where its shard does, else the owner by R116. -/
def holderOf (sizes : List Nat) (sp : List Split) (base idx : List Nat) : List Nat :=
  if sp.all fun p =>
      let b := shardOf sizes base 0 p
      b.1 ≤ nth idx p.dim 0 && nth idx p.dim 0 < b.2 then base
  else sp.foldl (fun c p => setShard sizes p.axes.reverse (shardHolding p (nth idx p.dim 0)) c) base

/-- The indices that a die's output takes from some die, with or without its halo. -/
def PlanStep.needs (p : PlanStep) (d : Desc) (halo : Bool) (sizes coords : List Nat) : Box :=
  let b := dataBox d halo p.dstSp sizes coords
  let own := dataBox d false p.srcSp sizes coords
  if p.zeros coords then b.map fun _ => (0, 0)
  else
    let dims := (p.newP mS).map (mapDim p.src)
    (List.range b.length).map fun k => if dims.contains k then meet (nth b k (0, 0)) (nth own k (0, 0)) else nth b k (0, 0)

/-- Elements of a box that the die's own source shard does not hold. -/
def PlanStep.missing (p : PlanStep) (d : Desc) (sizes coords : List Nat) (b : Box) : Nat :=
  boxSize b - boxSize (boxMeet b (dataBox d false p.srcSp sizes coords))

/-- Elements of a box that AG and A2A bring: those outside the die's source shard along the dimensions that the step's axes
split (R141's worked plans; log 33). -/
def PlanStep.brought (p : PlanStep) (d : Desc) (sizes coords : List Nat) (b : Box) : Nat :=
  let own := dataBox d false p.srcSp sizes coords
  boxSize b - boxSize (boxMeet b ((List.range b.length).map fun k =>
    match splitOf? p.srcSp k with
    | some q => if q.axes.any p.axes.contains then nth own k (0, 0) else nth b k (0, 0)
    | none => nth b k (0, 0)))

/-- Elements that a die receives from other dies in a step (R141), the halo of the destination among them. -/
def PlanStep.received (p : PlanStep) (d : Desc) (last : Bool) (sizes coords : List Nat) : Nat :=
  let b := p.needs d false sizes coords
  let h := p.needs d last sizes coords
  (if p.kind = kRS then (sizeOver sizes p.axes - 1) * boxSize b
   else if p.kind = kPRM then (if p.bases sizes coords == [coords] then 0 else boxSize b)
   else if p.kind < kPRM then p.brought d sizes coords b
   else 0)
  + (p.missing d sizes coords h - p.missing d sizes coords b)

def PlanStep.bitsMoved (p : PlanStep) (d : Desc) (last : Bool) (sizes : List Nat) : Nat :=
  ((allCoords sizes).foldl (fun n c => n + p.received d last sizes c) 0) * (storeFmt d p.src).bits

/-- Bits moved, and the largest block between steps. -/
def planBits (d : Desc) (sizes : List Nat) : List PlanStep → Nat
  | [] => 0
  | p :: l => p.bitsMoved d l.isEmpty sizes + planBits d sizes l

def planMid (d : Desc) : List PlanStep → Nat
  | [] => 0
  | [_] => 0
  | p :: l => max (blockBytes d false p.dst p.dstSp) (planMid d l)

/-- R142. -/
def stageSize (n mid : Nat) : Nat := if n ≤ 1 then 0 else if n = 2 then mid else 2 * mid

def planOf (sizes : List Nat) (d : Desc) (src dst : MapSp) (l : List PStep) : Plan :=
  let st := withMaps sizes d src dst src.w src.sp [] l
  { steps := st, bytes := planBits d sizes st / 8, stage := stageSize st.length (planMid d st) }

/-! ## Selection (R141) -/

def lexLess : List Nat → List Nat → Bool
  | [], [] => false
  | [], _ => true
  | _, [] => false
  | a :: l, b :: m => a < b || (a == b && lexLess l m)

def Plan.score (p : Plan) : List Nat := [p.bytes] ++ p.steps.map PlanStep.kind ++ p.steps.map PlanStep.dim

def bestPlan : List Plan → Option Plan
  | [] => none
  | p :: l => match bestPlan l with
    | some q => if lexLess q.score p.score then some q else some p
    | none => some p

/-- The local copy of an otherwise empty plan. -/
def copyStep : PStep := { kind := kCopy, dim := 0, axes := [], sets := [] }

/-- The plan of RESHARD; none where no plan leads to the destination map. -/
def chanter (sizes : List Nat) (d : Desc) (src dst : MapSp) : Option Plan :=
  let raw := candidates (axisChoices sizes (Desc.rank d) src dst) (exchanges sizes src dst) axes4 []
  let cands := raw.map fun l => match mergeSteps l with
    | [] => [copyStep]
    | m => m
  match cands.map List.length |>.min? with
  | some n => bestPlan ((cands.filter fun l => l.length == n).map (planOf sizes d src dst))
  | none => none

/-! ## Explicit steps (R152, R576) -/

/-- The one step of a kind that leads from source to destination; none where the transition is not that step. -/
def namedStep (sizes : List Nat) (rank : Nat) (src dst : MapSp) (kind : Nat) : Option PStep :=
  let raw := candidates (axisChoices sizes rank src dst) (exchanges sizes src dst) axes4 []
  firstSome (fun l => match mergeSteps l with
    | [p] => if p.kind = kind then some p else none
    | _ => none) raw

/-- The step's output layout is the destination's (R152). -/
def sameLayout (d : Desc) (w : Word) (sp : List Split) (dst : MapSp) : Bool :=
  let t := blockTens d true sp
  let u := blockTens d true dst.sp
  storeFmt d w == storeFmt d dst.w && (List.range (Desc.rank d)).all (fun k => t.extent k == u.extent k
    && (splitOf? sp k).map Split.bounds == (splitOf? dst.sp k).map Split.bounds)

/-- The plan of an explicit step, with its local copy where the layout differs. -/
def explicitPlan (sizes : List Nat) (d : Desc) (src dst : MapSp) (kind : Nat) : Option Plan :=
  match namedStep sizes (Desc.rank d) src dst kind with
  | none => none
  | some p =>
    let w := applySets src.w p.sets
    let sp := midSplits sizes d src dst (p.sets.map Prod.fst) w
    some (planOf sizes d src dst (if sameLayout d w sp dst then [p] else [p, copyStep]))

/-! ## The plan record (R143) -/

def axisMask (l : List Nat) : Nat := l.foldl (fun n a => n + 2 ^ a) 0

def stepWord (p : PlanStep) : Nat :=
  p.pieces % 2 ^ 24 * 2 ^ 16 + (p.axis2.elim 0 fun b => 2 ^ b) * 2 ^ 12 + p.dim % 8 * 2 ^ 8 + axisMask p.axes * 2 ^ 4 + p.kind % 16

def planRecord (p : Plan) : List Byte :=
  bytesOfNat 8 (p.bytes % 2 ^ 48 * 2 ^ 16 + p.steps.length % 16) ++ bytesOfNat 8 (p.stage % 2 ^ 48)
  ++ ((List.range 10).map fun j => bytesOfNat 8 (match p.steps[j]? with
    | some q => stepWord q
    | none => 0)).flatten

end Sys2Proof.Machine
end

