-- ==== Sys2Proof/Machine/Bank.lean ====
section
/-! DEFINITION. Banks and the read crossbar of a core (03_registers.md R68, R69; log 20), and the rows of stream ports as
the engines pop and push them (R71 to R75). -/
namespace Sys2Proof.Machine

/-! ## Banks -/

/-- The bank of a granule of a footprint (R68). -/
def bankOf (base g : Nat) : Nat := (16 * base + g) % 48

/-- The outcome of arbitration: the banks granted by cycle, the lost reads per bank, the cycle of each read in the order
presented, and the delay collected so far. -/
structure Arb where
  uses : Tab (List Nat)
  lost : List Nat := []
  delay : Nat := 0
  deriving DecidableEq, Repr

def Arb.free (a : Arb) (t b : Nat) : Bool := !(tgetD a.uses t []).contains b
def Arb.take (a : Arb) (t b : Nat) : Arb := { a with uses := tset a.uses t (b :: tgetD a.uses t []) }

/-- One cycle: each read is granted or lost, in operand order. -/
def Arb.cycle (a : Arb) (t : Nat) : List (Nat × Nat) → Arb × List (Nat × Nat) × List (Nat × Nat)
  | [] => (a, [], [])
  | (n, b) :: l =>
    if a.free t b then
      let (a1, won, lost) := (a.take t b).cycle t l
      (a1, (n, t) :: won, lost)
    else
      let (a1, won, lost) := ({ a with lost := b :: a.lost } : Arb).cycle t l
      (a1, won, (n, b) :: lost)

/-- Replays lost reads until all are granted; answers the cycle of each read. -/
def Arb.settle (t : Nat) : Nat → Arb → List (Nat × Nat) → Arb × List (Nat × Nat)
  | 0, a, _ => (a, [])
  | f + 1, a, l =>
    if l.isEmpty then (a, [])
    else
      let (a1, won, lost) := a.cycle t l
      let (a2, more) := Arb.settle (t + 1) f (if lost.isEmpty then a1 else { a1 with delay := a1.delay + 1 }) lost
      (a2, won ++ more)

def lookupNat : List (Nat × Nat) → Nat → Nat → Nat
  | [], _, d => d
  | (n, v) :: l, k, d => if n = k then v else lookupNat l k d

/-- The reads of one cycle of an instruction, as banks in operand order, from its nominal cycle on. -/
def Arb.group (a : Arb) (t : Nat) (banks : List Nat) : Arb × List Nat :=
  let l := List.zip (List.range banks.length) banks
  let (a1, got) := Arb.settle t (banks.length + (a.uses.filter fun (k, _) => t ≤ k).length + 1) a l
  (a1, (List.range banks.length).map fun n => lookupNat got n t)

/-- The reads of an instruction: for each of its cycles, the offset from issue and the granules in operand order. Answers
the cycles of the reads, group by group; the first is the issue. -/
def Arb.run (now base : Nat) : Arb → List (Nat × List Nat) → Arb × List (List Nat) × List Nat
  | a, [] => (a, [], [])
  | a, (off, gs) :: l =>
    let (a1, cs) := a.group (now + off + a.delay) (gs.map (bankOf base))
    let (a2, more, ds) := Arb.run now base a1 l
    (a2, cs :: more, a1.delay :: ds)

/-- Adds lost reads to the bank counters (R70). -/
def countLoss (t : Tab Nat) : List Nat → Tab Nat
  | [] => t
  | b :: l => countLoss (tmod t b 0 fun n => min (n + 1) 0xFFFFFFFF) l

/-- The crossbar after an instruction's reads. -/
def State.bankCommit (s : State) (c : Nat) (a : Arb) : State :=
  s.modCore (coreOf c) fun k => { k with bank := a.uses, bankLoss := countLoss k.bankLoss a.lost }

def State.arb (s : State) (c : Nat) : Arb := { uses := (s.core (coreOf c)).bank.filter fun (t, _) => s.cycle ≤ t }

/-! ## Port records (R72) -/

def Port.ctl (p : Port) : Word := recWord p.record 0
def Port.isSink (p : Port) : Bool := p.ctl.getLsbD 63
def Port.space (p : Port) : Nat := fld p.ctl 60 3
def Port.loops (p : Port) : Nat := fld p.ctl 57 3
def Port.ty (p : Port) : Fmt := (fmtOf (fld p.ctl 52 5)).getD .raw
def Port.cls (p : Port) : Nat := fld p.ctl 48 4
def Port.ratio (p : Port) : Nat := fld p.ctl 40 8
def Port.slot (p : Port) : Nat := fld p.ctl 36 4
def Port.chunk (p : Port) : Nat := 32 * fld p.ctl 12 8
def Port.base (p : Port) : Nat := (recWord p.record 8).toNat
def Port.loopWord (p : Port) (k : Nat) : Word := recWord p.record (16 + 8 * k)
def Port.count (p : Port) (k : Nat) : Nat := fld (p.loopWord k) 40 24
def Port.stride (p : Port) (k : Nat) : Int := sgnOf 40 (p.loopWord k).toNat
def Port.start (p : Port) (k : Nat) : Nat := (recWord p.record (64 + 8 * k)).toNat
def Port.sideAddr (p : Port) : Nat := (recWord p.record 112).toNat
def Port.escAddr (p : Port) : Nat := fld (recWord p.record 120) 8 56
def Port.factorReg (p : Port) : Nat := fld (recWord p.record 120) 4 4

/-- The four stage codes (R72). -/
def Port.stageCodes (p : Port) : List Nat := [fld p.ctl 20 4, fld p.ctl 24 4, fld p.ctl 28 4, fld p.ctl 32 4]
/-- The stages in use: a 0 ends the chain. -/
def Port.stages (p : Port) : List Nat := p.stageCodes.takeWhile (· != 0)

/-- Walk steps (R73). -/
def Port.steps (p : Port) : Nat := (List.range p.loops).foldl (fun n k => n * p.count k) 1
/-- Bytes of the encoded stream (R73). -/
def Port.streamBytes (p : Port) : Nat := p.steps * p.chunk

/-- The element type that a sink's chain puts out (R74). -/
def Port.sinkOut (p : Port) : Fmt :=
  match p.stages.getLast? with
  | some 6 => .ob8
  | some 7 => .ob4
  | _ => p.ty

/-- Encoded bytes of one pushed row. -/
def Port.rowOut (p : Port) : Nat := 32768 / p.ty.bits * p.sinkOut.bits / 8

/-- A push would lie beyond the walk's end (R75). -/
def Port.pushEnds (p : Port) : Bool := p.streamBytes ≤ p.pushes * p.rowOut

/-- No further row of a source will come (R75). -/
def Port.finished (p : Port) : Bool := p.steps ≤ p.at_.step && p.at_.raw.isEmpty && p.at_.decoded.isEmpty

/-- A pop of a source port, n rows from the front. -/
inductive Popped where
  | row (r : PortRow)
  | notYet
  | ended

def Port.peek (p : Port) (n : Nat) : Popped :=
  match (p.rows.drop n).head? with
  | some r => .row r
  | none => match p.broken with
    | some t => .row { fault := some t }
    | none => if p.finished then .ended else .notYet

def Ctx.port? (x : Ctx) (p : Nat) : Option Port := tget x.ports p
def Ctx.modPort (x : Ctx) (p : Nat) (f : Port → Port) : Ctx :=
  match tget x.ports p with
  | some q => { x with ports := tset x.ports p (f q) }
  | none => x

/-- One row has been popped (R75). -/
def Port.popRow (p : Port) : Port := { p with rows := p.rows.drop 1, delivered := p.delivered + 1 }
def Ctx.popPort (x : Ctx) (p : Nat) : Ctx := x.modPort p Port.popRow

/-- A row whose fault is raised is read again at the next pop (R496). -/
def Port.retryRow (p : Port) : Port := { p with rows := p.rows.filter fun r => r.fault.isNone }
def Ctx.retryPort (x : Ctx) (p : Nat) : Ctx := x.modPort p Port.retryRow

end Sys2Proof.Machine
end

