-- ==== Sys2Proof/Machine/Async.lean ====
section
/-! DEFINITION. Asynchronous operations: their token words (03_registers.md R67, 13_encoding.md R333, R334), their ends, and
the faults found on their data (10_faults.md R610; 07_memory.md R187; 20_ref_x_y.md R573). -/
namespace Sys2Proof.Machine

/-! ## Token words -/

/-- The consumed tokens are complete and the product is free (R67, R334). -/
def State.tokensReady (s : State) (c : Nat) (t : Tok) : Bool :=
  (afts t).all (fun k => s.tokReady c k) && s.tokReady c t.make.toNat

/-- An instruction with a token word waits for its tokens before anything else. -/
def State.afterTokens (s : State) (t : Tok) (k : Res) : Res :=
  if s.tokensReady s.focus t then k else .wait s .waiting .other

/-- The accesses that consuming the tokens orders before the instruction (R202, R211). -/
def State.aftHist (s : State) (c : Nat) (t : Tok) : List Acc := (afts t).foldl (fun a k => joinAcc a (s.tokHist c k)) []

/-- An asynchronous operation of the focus context in flight: its token claimed, its place in CTX order (R67, R202). -/
def State.asyncOp (s : State) (t : Tok) (promise : Nat) (o : Op) (release : Option (BitVec 16) := none) : State × Nat :=
  let c := s.focus
  let h := s.aftHist c t
  let (s1, n) := s.launchOp
    { o with
      tok := t.make.toNat, cls := t.cls.toNat, scope := t.scope.toNat, promise := promise, hist := joinAcc o.hist h } release
  let s2 := s1.addHist c o.eng h
  (s2.claim c t.make.toNat n promise t.scope.toNat, n)

/-! ## Faults on the data of an operation in flight (R123, R187, R573) -/

/-- What the record of a delivered fault says of its operation (R187, R610). -/
def Trap.onOp (t : Trap) (n : Nat) (o : Op) : Trap :=
  { t with eng := o.eng, token := o.tok, op := o.ins.major, fn := o.ins.fnField, async := true, opId := some n }

/-- A fault that parks its request and is delivered: to the issuing engine, or behind a save; a unit that has ended takes
nothing and ends faulted (R187, R263). -/
def State.parkOp (s : State) (n : Nat) (o : Op) (t : Trap) : State :=
  let t1 := t.onOp n o
  if s.opLive o then (s.modOp n fun p => { p with parked := some t1 }).deliver o.ctx t1
  else match s.unit? o.unit with
    | some r =>
      if r.saved.isSome then
        (s.modOp n fun p => { p with parked := some t1 }).modUnit o.unit fun q => { q with savedPend := q.savedPend ++ [t1] }
      else (s.delOp n).modUnit o.unit fun q => { q with ending := if q.ending = .done then .faulted else q.ending }
    | none => s.delOp n

/-- A fault that completes its operation faulted and is delivered (R573). -/
def State.failOp (s : State) (n : Nat) (o : Op) (t : Trap) : State :=
  let t1 := { t.onOp n o with opId := none }
  let s1 := (s.tokenDone n o).delOp n
  if s.opLive o then (if t1.code = tMcheck then s1.machineCheck o.ctx t1 false else s1.deliver o.ctx t1)
  else if t1.code = tMcheck then s1.unitCheck o.unit t1
  else s1.modUnit o.unit fun q =>
    if q.saved.isSome then { q with savedPend := q.savedPend ++ [t1] }
    else { q with ending := if q.ending = .done then .faulted else q.ending }

/-- An operation completes its token and is gone; its accesses were hits of the pinned windows that they touch (R172). -/
def State.endOp (s : State) (n : Nat) (o : Op) : State := ((s.touchPins (o.src ++ o.segs)).tokenDone n o).delOp n

end Sys2Proof.Machine
end

