-- ==== Sys2Proof/Machine/Res.lean ====
section
/-! DEFINITION. CCVT, ICBC and SMAP (15_ref_a_c.md R393 to R395; 16_ref_d_l.md R429 to R431; 18_ref_r_t.md R514, R515) with
the events that complete them (07_memory.md R166 to R168). -/
namespace Sys2Proof.Machine

/-! ## Way groups -/

/-- The token word that a control instruction's product stands for. -/
def ctlTok (d : BitVec 6) (scope : BitVec 3) : Tok :=
  { make := d.extractLsb' 0 5, aft0 := 0, aft1 := 0, aft2 := 0, cls := 0, scope := scope, tf := 0 }

/-- A product that completes at issue with a promise (R167, R430). -/
def State.madeAtOnce (s : State) (c k promise scope : Nat) (h : List Acc) : State :=
  s.modCtx c fun x => x.setTok k { done := true, promise := promise, scope := scope, op := 0, hist := h }

def WayState.converting : WayState → Bool
  | .toScratch _ => true
  | .toCache _ => true
  | _ => false

/-- The group is in the state that a direction asks for. -/
def wayDone (w : WayState) (toCache : Bool) : Bool :=
  match w with
  | .cache => toCache
  | .scratch => !toCache
  | _ => false

/-- Groups of a mask. -/
def maskGroups (w : Word) : List Nat := [0, 1, 2, 3].filter fun j => w.getLsbD j

/-- CCVT (R393 to R395): groups already in the state asked for are skipped; new allocations stop at its issue. -/
def execCcvt (f : C3) (s : State) : Host.Outcome State Fault Refusal :=
  let c := s.focus
  let cl := clusterOf (coreOf c)
  let i : Instr := .ccvt f
  let w := (s.ctx c).sr f.a.toNat
  let t := ctlTok f.d 2
  let way (j : Nat) : WayState := tgetD (s.cluster cl).ways j .cache
  let back := w.getLsbD 4
  let todo := (maskGroups w).filter fun j => !wayDone (way j) back
  finish i s (s.sHold [f.a.toNat]
    (if fld w 5 59 != 0 then .trap s (trapOf tTable)
     else s.afterTokens t
      (if (maskGroups w).any fun j => (way j).converting then .wait s .waiting .other
       else if todo.isEmpty then .done (s.madeAtOnce c t.make.toNat 0 2 [])
       else
         let mask : Nat := todo.foldl (fun n j => n + 2 ^ j) 0
         let (s1, n) := s.asyncOp t 0 { s.newOp .c i .async with v1 := BitVec.ofNat 64 mask, v2 := if back then 1 else 0 }
         .done (s1.modCluster cl fun k =>
           { k with ways := todo.foldl (fun a j => tset a j (if back then .toCache n else .toScratch n)) k.ways }))))

/-- Physical base of a converted group (R166). -/
def wayBase (cl j : Nat) : Nat := cl / 8 * 2 ^ 46 + 2 ^ 40 + 2 ^ 32 + cl % 8 * 2 ^ 24 + 2 ^ 23 + j * 2 ^ 21

/-- Every byte of a physical range becomes zero; the constant path keeps the bytes replaced (R217). -/
def State.zeroRange (s : State) (pa len : Nat) : State :=
  let old := s.mem.filter fun q => pa ≤ q.1 && q.1 < pa + len
  { s with
    mem := s.mem.filter fun q => !(pa ≤ q.1 && q.1 < pa + len)
    undo := s.undo ++ old.map fun q => { seq := s.seqNext, addr := q.1, old := q.2 }
    seqNext := s.seqNext + 1
    poison := s.poison.filter fun b => !(pa ≤ 256 * b && 256 * b + 256 ≤ pa + len) }

/-- An access in flight touches the group. -/
def State.wayInUse (s : State) (op cl j : Nat) : Bool :=
  let g : Seg := { va := 0, pa := wayBase cl j, len := 2 ^ 21 }
  s.ops.any fun (n, o) => n != op && (o.segs ++ o.src).any fun x => segOverlap g x

/-- A conversion ends (R167): every byte of a group that becomes scratchpad is zero. -/
def State.wayConverted (s : State) (cl j op : Nat) : State :=
  match tgetD (s.cluster cl).ways j .cache with
  | .toScratch n =>
    if n = op then (s.zeroRange (wayBase cl j) (2 ^ 21)).modCluster cl fun k => { k with ways := tset k.ways j .scratch } else s
  | .toCache n =>
    if n = op then (s.zeroRange (wayBase cl j) (2 ^ 21)).modCluster cl fun k => { k with ways := tset k.ways j .cache } else s
  | _ => s

/-- CCVT_COMPLETE: accesses already issued to the groups have completed, the groups change and the token completes (R167). -/
def execCcvtComplete (op : Nat) (s : State) : Host.Outcome State Fault Refusal :=
  match s.op? op with
  | some o =>
    match o.ins with
    | .ccvt _ =>
      let cl := clusterOf o.core
      let gs := maskGroups o.v1
      if gs.any fun j => s.wayInUse op cl j then .next s
      else .next ((gs.foldl (fun t j => t.wayConverted cl j op) s).endOp op o)
    | _ => .next s
  | none => .next s

/-! ## ICBC -/

/-- Drops the lines of a range from every instruction cache of the job; what is fetched of it from now on is new (R430, R218). -/
def State.dropICache (s : State) (va n : Nat) : State :=
  { s with
    codeSeen := (va, n, s.seqNext) :: s.codeSeen
    cores := s.cores.map fun (k, x) => (k, { x with icache := x.icache.filter fun (a, _) => !lineMeets va n a }) }

/-- ICBC (R430): it acts at issue; its token completes when every core has acknowledged. -/
def execIcbc (f : C3) (s : State) : Host.Outcome State Fault Refusal :=
  let c := s.focus
  let x := s.ctx c
  let i : Instr := .icbc f
  let va := (x.sr f.a.toNat).toNat
  let n := (x.sr f.b.toNat).toNat
  let t := ctlTok f.d 5
  finish i s (s.sHold [f.a.toNat, f.b.toNat]
    (if 2 ^ 32 < n || 2 ^ 56 < va + n then .trap s (trapOf tTable)
     else s.afterTokens t
      (if n = 0 then .done (s.madeAtOnce c t.make.toNat 0 5 [])
       else .done ((s.asyncOp t 0 { s.newOp .c i .async with va := va }).1.dropICache va n))))

/-- ICBC_ACK_COMPLETE: every core has acknowledged (R430, R431). -/
def execIcbcAckComplete (op : Nat) (s : State) : Host.Outcome State Fault Refusal :=
  match s.op? op with
  | some o =>
    match o.ins with
    | .icbc _ => .next (s.endOp op o)
    | _ => .next s
  | none => .next s

/-! ## SMAP -/

/-- An axis entry breaks R114. -/
def axisBad (e : Nat) : Bool :=
  let mode := bitsOf e 14 2
  let acc := bitsOf e 5 5
  bitsOf e 0 5 != 0 || (mode != 2 && bitsOf e 10 4 != 0) || (mode != 3 && acc != 0)
  || (mode == 3 && !(fmtOf acc == some .fp32 || fmtOf acc == some .fp64 || fmtOf acc == some .bf16 || fmtOf acc == some .i32))

/-- The pair of words that SMAP loads breaks R515. -/
def smapBad (w p : Nat) : Bool :=
  [0, 1, 2, 3].any (fun a => axisBad (bitsOf w (16 * a) 16)) || bitsOf p 56 8 != 0 || p % 4 != 0

/-- SMAP (R514, R515). -/
def execSmap (f : C3) (s : State) : Host.Outcome State Fault Refusal :=
  let c := s.focus
  let va := ((s.ctx c).sr f.a.toNat).toNat
  let i : Instr := .smap f
  finish i s (s.sHold [f.a.toNat]
    (if va % 16 != 0 then .trap s (trapAt tAlign va)
     else s.withRecord i va 16 16 fun s1 bs =>
       let w := natOfBytes (bs.take 8)
       let p := natOfBytes (bs.drop 8)
       if smapBad w p then .trap s (trapOf tTable)
       else .done (s1.modCtx c fun x =>
         { x with regs := { x.regs with sm := tset x.regs.sm (f.d.toNat % 8) (BitVec.ofNat 512 (p * 2 ^ 64 + w)) } })))

end Sys2Proof.Machine
end

