-- ==== Sys2Proof/Machine/CopyOps.lean ====
section
/-! DEFINITION. What every copy-engine instruction shares: address words (20_ref_x_y.md R572), the order of its checks
(R573, R246), promises (R574, R180) and the transfer of bytes (R32, R45, R258). -/
namespace Sys2Proof.Machine

/-! ## Address words (R572) -/

inductive YAddr where
  | reg (off : Nat)
  | phys (pa : Nat)
  | virt (va : Nat)
  deriving DecidableEq, Repr

def yAddr (w : Word) : YAddr :=
  if w.getLsbD 63 then .reg (fld w 0 20) else if w.getLsbD 62 then .phys (fld w 0 52) else .virt (fld w 0 56)

/-- REG with PHYS, or nonzero bits in a field marked 0 of a REG or PHYS word: TABLE. -/
def yTable (w : Word) : Bool :=
  (w.getLsbD 63 && (w.getLsbD 62 || fld w 20 42 != 0)) || (w.getLsbD 62 && !w.getLsbD 63 && fld w 52 10 != 0)
/-- Nonzero bits above a virtual address: TRANSLATE with cause INVALID. -/
def yInvalid (w : Word) : Bool := !w.getLsbD 63 && !w.getLsbD 62 && fld w 56 6 != 0
def yIsReg (w : Word) : Bool := w.getLsbD 63
/-- The number that alignment rules look at. -/
def yLow (w : Word) : Nat := fld w 0 52
/-- A register-space range that reaches past the footprint: VIEW (R51). -/
def yOutside (x : Ctx) (w : Word) (n : Nat) : Bool := yIsReg w && !yTable w && 4096 * x.foot < fld w 0 20 + n

/-- The first trap of a list of checks. -/
def firstBad : List (Bool × Trap) → Option Trap
  | [] => none
  | (b, t) :: l => if b then some t else firstBad l

/-- Pages of a virtual range, by their first addresses. -/
def pagesOf (w : Word) (n : Nat) : List Nat :=
  match yAddr w with
  | .virt va => if n = 0 then [] else rangeFrom (va / pageBytes) ((va + n - 1) / pageBytes - va / pageBytes + 1) |>.map (· * pageBytes)
  | _ => []

/-- A staged store to a page at SYS scope (R259). -/
def State.ySys (s : State) (c : Nat) (w : Word) (n : Nat) : Bool :=
  s.versioned c && (pagesOf w n).any fun p => s.isSys (coreOf c) p

/-- The physical range that an address word of a core names, in its module. -/
def physBase (core : Nat) : Nat := moduleOf (dieOf core) * 2 ^ 52

/-- Physical pieces of a physical range of a module, which must be populated (R160). -/
def State.physPieces (s : State) (pa len : Nat) : Except Trap (List Seg) :=
  if 2 ^ 52 < pa % 2 ^ 52 + len || !s.rangeLive pa len then .error { trapXlate causeNoTarget pa with phys := true }
  else .ok [{ va := 0, pa := pa, len := len }]

/-- The physical pieces behind an address word that names memory. -/
def State.yPieces (s : State) (core : Nat) (need : Need) (w : Word) (len : Nat) : Except Trap (List Seg) :=
  if len = 0 then .ok []
  else match yAddr w with
    | .reg _ => .ok []
    | .phys pa => s.physPieces (physBase core + pa) len
    | .virt va => match s.range core need va len with
      | .error (cause, a) => .error (trapXlate cause a)
      | .ok l => .ok l

/-- Bytes of memory that an operation reads, with the stores of its unit that were pending as it issued; a poisoned block
faults (R258, R32, R201, R167). -/
def State.yBytes (s : State) (o : Op) (w : Word) (len : Nat) : Except Trap (List Byte) :=
  match (s.asIssued o.issued).yPieces o.core .read w len with
  | .error t => .error t
  | .ok segs => match s.poisonIn segs with
    | some b => .error (trapPoison b)
    | none => .ok (s.unitSees o.unit o.issued segs)

/-- Writes bytes to memory for an operation; a poisoned block that a piece does not cover faults (R258, R167). -/
def State.yStore (s : State) (o : Op) (w : Word) (bs : List Byte) : Except Trap State :=
  match (s.asIssued o.issued).yPieces o.core .write w bs.length with
  | .error t => .error t
  | .ok segs => match s.poisonHurt segs with
    | some b => .error (trapPoison b)
    | none => .ok ((s.unitWrite o.unit segs bs).touchPins segs)

/-! ## Register space -/

def regGrans (off n : Nat) : List Nat := gransOf (8 * off) (8 * n)

/-- Bytes of the register space as a read in this cycle finds them. -/
def State.regBytes (s : State) (c off n : Nat) : List Byte :=
  (readElems (fun g => ((s.ctx c).granLook g s.cycle).bytes) 8 (n + 2) (8 * off) n).map fun v => BitVec.ofNat 8 v

/-- The granules that an address word names; none for memory. -/
def yGrans (w : Word) (n : Nat) : List Nat :=
  match yAddr w with
  | .reg off => if n = 0 then [] else regGrans off n
  | _ => []

/-- Bytes land in register space, and their granules fill (R45, R573); an operation whose context is gone writes nothing. -/
def State.fillReg (s : State) (o : Op) (off : Nat) (bs : List Byte) (tag : Nat → Fmt) : State :=
  if s.opLive o then
    let h := s.prune o.hist
    (writeElems 8 (bs.length + 2) (8 * off) (bs.map fun b => b.toNat)).foldl
      (fun t p => t.fillParts o syncBlock (tag p.g) h [p]) s
  else s

/-- The result of an operation goes to memory or to register space. -/
def State.yPut (s : State) (o : Op) (w : Word) (bs : List Byte) (tag : Nat → Fmt) : Except Trap State :=
  match yAddr w with
  | .reg off => .ok (s.fillReg o off bs tag)
  | _ => s.yStore o w bs

/-! ## Promises (R574) -/

def reqCount (l : List Seg) : Nat := l.foldl (fun n g => n + (g.pa % 64 + g.len + 63) / 64) 0

/-- A request of at most 64 bytes: its offset in the transfer, its addresses and its length. -/
structure Cut where
  off : Nat
  va : Nat
  pa : Nat
  len : Nat

/-- A contiguous piece cut at 64-byte lines. -/
def cut64 : Nat → Nat → Nat → Nat → Nat → List Cut
  | 0, _, _, _, _ => []
  | f + 1, off, va, pa, len =>
    if len = 0 then []
    else
      let k := min len (64 - pa % 64)
      { off := off, va := va, pa := pa, len := k } :: cut64 f (off + k) (va + k) (pa + k) (len - k)

def cutSegs (off : Nat) : List Seg → List Cut
  | [] => []
  | g :: l => cut64 (g.len / 64 + 2) off g.va g.pa g.len ++ cutSegs (off + g.len) l

/-- When the bytes of a write's data have arrived. -/
def arrival (arr : List (Nat × Nat × Nat)) (ready off len : Nat) : Nat :=
  arr.foldl (fun n a => if a.1 < off + len && off < a.1 + a.2.1 then max n a.2.2 else n) ready

/-- Binds requests one by one, each ready when `at_` says. -/
def State.bindEach (s : State) (w : Asker) (at_ : Nat → Nat → Nat) :
    List Cut → State × List (Nat × Nat × Nat) × List Req × Bool
  | [] => (s, [], [], true)
  | p :: l =>
    let (s1, r) := s.bindReq w p.va p.pa (at_ p.off p.len)
    let (s2, a, q, ok) := s1.bindEach w at_ l
    match r with
    | some x => (s2, (p.off, p.len, x.done) :: a, x :: q, ok)
    | none => (s2, a, q, false)

/-- What an instruction's requests come to: its promise, and the requests. -/
structure Bound where
  s : State
  promise : Nat := 0
  reqs : List Req := []

/-- How a copy-engine instruction uses time: reads, then writes that carry them; `list` is read before any element; `lag`
counts from the last read to the write of a computed result; `land` is the destination write time. -/
structure YTime where
  list : List Seg := []
  rd : List Seg := []
  wr : List Seg := []
  lag : Option Nat := none
  land : Nat := 0

def YTime.count (y : YTime) : Nat := reqCount y.list + reqCount y.rd + reqCount y.wr

/-- Binds every request of an instruction; no promise where one has no class or there are more than 1,536, which bind as entries
free (R574; log 5). -/
def State.yBind (s : State) (core : Nat) (y : YTime) : Bound :=
  if Config.promisedEntries < y.count then { s := s }
  else
    let now := s.cycle
    let w : Asker := { core := core, unit := s.unitNo s.focus }
    let (s1, a0, q0, ok0) := (s.trimBound core).bindEach w (fun _ _ => now) (cutSegs 0 y.list)
    let t0 := a0.foldl (fun n a => max n a.2.2) now
    let (s2, a1, q1, ok1) := s1.bindEach w (fun _ _ => t0) (cutSegs 0 y.rd)
    let t1 := a1.foldl (fun n a => max n a.2.2) t0
    let ready (off len : Nat) : Nat := match y.lag with
      | some k => t1 + k
      | none => arrival a1 t0 off len
    let (s3, a2, q2, ok2) := s2.bindEach { w with rd := false } ready (cutSegs 0 y.wr)
    let t2 := a2.foldl (fun n a => max n a.2.2) (match y.lag with
      | some k => t1 + k
      | none => t1)
    { s := s3, promise := if ok0 && ok1 && ok2 then t2 + y.land else 0, reqs := q0 ++ q1 ++ q2 }

/-- Promised entries of a core that are taken (R179). -/
def State.promisedUsed (s : State) (core : Nat) : Nat :=
  s.ops.foldl (fun n (_, o) => if o.core == core then n + (o.reqs.filter fun r => s.cycle < r.done).length else n) 0

/-! ## Issue -/

/-- Pages of an instruction that the core TLB does not hold and that have not been walked for it (R188). -/
def State.yMisses (s : State) (core : Nat) (ws : List (Word × Nat)) : List Nat :=
  let done := s.walked core
  ws.foldl (fun l w => unionNat l ((pagesOf w.1 w.2).filter fun p => (findTlb (s.core core).tlb p).isNone && !done.contains p)) []

/-- A core has at most 32 distinct pages under walk; the engine holds while more than that are missing (R188). -/
def State.walksFull (s : State) (core : Nat) (l : List Nat) : Bool :=
  Config.coreWalks < (s.walksOf core).length + (l.filter fun p => !(s.walksOf core).contains p).length

/-- Puts a copy-engine instruction in flight: its requests, its walks, its token, its destination granules. `ws` are the
address words with their lengths, `y` its timing where every range is translated. An instruction of at most 1,536 requests
holds until it has that many promised entries, and one without a promise until an entry is free (R574, R179). -/
def State.yLaunch (s : State) (t : Tok) (o : Op) (ws : List (Word × Nat)) (y : Option YTime) (dst : List Nat)
    (hand : List Acc) (release : Option (BitVec 16)) : Res :=
  let c := s.focus
  let core := coreOf c
  let misses := s.yMisses core ws
  let n := y.elim 1 YTime.count
  let hold := y.isSome && n ≤ Config.promisedEntries && Config.promisedEntries < s.promisedUsed core + n
  if s.walksFull core misses then s.walkFor core misses
  else if hold then .wait s .waiting .entries
  else
    let b : Bound := match y with
      | some k => s.yBind core k
      | none => { s := s }
    if b.promise = 0 && n != 0 && s.entriesFull core then .wait s .waiting .entries
    else
      let o1 : Op := { o with
        reqs := b.reqs, promised := b.promise != 0, walks := misses, entries := s.takeEntries core n
        due := if b.promise = 0 then s.cycle + 1 else b.promise, limit := b.promise
        src := (y.map fun k => k.list ++ k.rd).getD o.src, segs := (y.map YTime.wr).getD o.segs }
      let (s1, _) := b.s.asyncOp t b.promise o1 release
      let s2 := s1.startWalks core (misses.filter fun p => !(s.walksOf core).contains p)
      .done ((s2.addHist c .y hand).markEmpty c syncBlock dst)

/-- An instruction that moves nothing completes at issue (R586). -/
def State.yNothing (s : State) (t : Tok) (promise : Nat) : Res :=
  let c := s.focus
  .done ((s.addHist c .y (s.aftHist c t)).madeAtOnce c t.make.toNat promise t.scope.toNat [])

/-- A fault found on the data of an operation: TRANSLATE parks it, except that an unpopulated target and every other fault
complete its token faulted (R160, R187, R573). -/
def State.yFault (s : State) (n : Nat) (o : Op) (t : Trap) : State :=
  if t.code = tTranslate && t.sub != causeNoTarget then s.parkOp n o t else s.failOp n o t

/-- An operation of the copy engine with its three operands. -/
def State.yOp (s : State) (i : Instr) (f : YF) : Op :=
  let x := s.ctx s.focus
  { s.newOp .y i .async with v1 := x.sr f.so1.toNat, v2 := x.sr f.so2.toNat, v3 := x.sr f.so3.toNat }

/-- Two results of translations. -/
def bothOk {α β : Type} (a : Except Trap α) (b : Except Trap β) : Option (α × β) :=
  match a, b with
  | .ok x, .ok y => some (x, y)
  | _, _ => none

/-- The waits that precede everything else: tokens, then the register-space sources (R573), whose granules are all read in the
issue cycle, which is the one in which the crossbar has granted them (R68, R69). -/
def State.yWaits (s : State) (gs : List Nat) (k : Res) : Res :=
  let c := s.focus
  match (s.eng c .y).hold with
  | .reads n => if s.cycle < n then .wait s .waiting (.reads n) else k
  | _ =>
    if s.readWaits c syncBlock gs then .wait s .syncBlocked .bits
    else match k with
      | .done t =>
        let (a, _) := (s.arb c).group s.cycle (gs.map (bankOf (s.ctx c).base))
        if gs.isEmpty then .done t
        else if a.delay = 0 then .done (t.bankCommit c a)
        else .wait ((s.bankCommit c a).occupy c .y a.delay) .waiting (.reads (s.cycle + a.delay))
      | r => r

end Sys2Proof.Machine
end

