-- ==== Sys2Proof/Machine/Sinks.lean ====
section
/-! DEFINITION. Where a stream port reads and stores, what a sink makes of a row, and the operations that its rows become
(03_registers.md R72 to R76, R88; 08_ordering.md R198, R201; log 28). -/
namespace Sys2Proof.Machine

/-! ## Addresses of a walk (R72, R73) -/

/-- The loop indices of walk step n, loop 0 fastest. -/
def Port.loopIx (p : Port) : List Nat → Nat → List Nat
  | [], _ => []
  | k :: l, n => n % p.count k :: p.loopIx l (n / p.count k)

def Port.indices (p : Port) (n : Nat) : List Nat := p.loopIx (List.range p.loops) n

/-- The address of a step. -/
def Port.stepAddr (p : Port) (n : Nat) : Int :=
  (List.zip (List.range p.loops) (p.indices n)).foldl (fun a q => a + (q.2 : Int) * p.stride q.1) (p.base : Int)

/-- Physical pieces of a range of the port's space (R72, log 28). -/
def State.portRange (s : State) (core space : Nat) (need : Need) (a : Int) (len : Nat) : Except Trap (List Seg) :=
  let phys (pa : Nat) : Except Trap (List Seg) :=
    if s.rangeLive pa len then .ok [{ va := 0, pa := pa, len := len }] else .error (trapXlate causeNoTarget pa)
  let die := dieOf core
  if space = 0 then
    let off := wrapOf 56 a
    if 2 ^ 24 ≤ off + len - 1 then .error (trapXlate causeNoTarget off)
    else
      let pa := die * 2 ^ 46 + 2 ^ 40 + 2 ^ 32 + clusterOf core % 8 * 2 ^ 24 + off
      if s.rangeLive pa len then phys pa else .error (trapAt tBounds off)
  else if space = 1 then phys (die * 2 ^ 46 + 2 ^ 40 + wrapOf 40 a)
  else
    let va := wrapOf 64 a
    match s.range core need va len with
    | .error (cause, b) => .error (trapXlate cause b)
    | .ok l => .ok l

/-- Bytes read for a port: the unit's own staged bytes over memory (R32, R76). -/
def State.portBytes (s : State) (core u space : Nat) (a : Int) (len : Nat) : Except Trap (List Byte) :=
  match s.portRange core space .read a len with
  | .error t => .error t
  | .ok l => match s.poisonIn l with
    | some b => .error (trapPoison b)
    | none => .ok (s.unitSees u (s.cycle + 1) l)

/-- A coordinate that lies below 0 lies outside every extent. -/
def coordOf (i : Int) : Nat := if i < 0 then 2 ^ 64 else i.toNat

/-- The indices of a chunk's elements at a step of a SPACE 3 walk: consecutive along the innermost dimension (log 28).
The index has one component for each dimension of the tensor; loops and start words of others are not used (DESIGN CHOICE, log 40). -/
def Port.tensorIx (p : Port) (d : Desc) (n j : Nat) : List Nat :=
  let ix := p.indices n
  let inner := (Desc.order d).getLast?.getD 0
  (List.range (Desc.rank d)).map fun k =>
    let at_ : Nat := nth ix k 0
    let walk : Int := if k < p.loops then (at_ : Int) * p.stride k else 0
    coordOf ((p.start k : Int) + walk + (if k = inner then (j : Int) else 0))

def Port.tensorId (p : Port) : Nat := p.base % 2 ^ 20

/-! ## The chain of a sink (R74) -/

/-- CVT and SCL stages on elements (R74). -/
def elemStages (ty : Fmt) (factor : Nat) : List Nat → Fmt → List Nat → List Nat × Flg
  | [], _, l => (l, 0)
  | 4 :: st, cur, l =>
    let r := l.map fun v => convert cur ty {} false v
    let (q, g) := elemStages ty factor st ty (r.map Prod.fst)
    (q, r.foldl (fun a x => a ||| x.2) g)
  | 5 :: st, _, l =>
    let r := l.map fun v => (Fmt.ff .fp32).mul {} false (Fmt.value .fp32 v) (Fmt.value .fp32 factor)
    let (q, g) := elemStages ty factor st .fp32 (r.map Prod.fst)
    (q, r.foldl (fun a x => a ||| x.2) g)
  | _ :: st, cur, l => elemStages ty factor st cur l

/-- Quantised blocks of a row: codes and side entries (R88). -/
def quantPortRow (codeBits : Nat) : Nat → List Nat → List Nat × List Nat × Flg
  | 0, _ => ([], [], 0)
  | f + 1, l =>
    if l.isEmpty then ([], [], 0)
    else
      let (cs, z, sc, g) := quantBlock codeBits (fun _ => {}) (l.take 32)
      let (r, es, h) := quantPortRow codeBits f (l.drop 32)
      (cs ++ r, (z + 256 * sc) :: es, g ||| h)

/-- A pushed row through the chain: encoded bytes, side entries and flags. -/
def State.sinkChain (s : State) (c : Nat) (p : Port) (row : BitVec 32768) : List Byte × List Nat × Flg :=
  let factor := ((s.ctx c).br p.factorReg).toNat % 2 ^ 32
  let b := p.ty.bits
  let (l, g) := elemStages p.ty factor (p.stages.filter fun k => k == 4 || k == 5) p.ty (sliceElems b (32768 / b) row.toNat)
  match p.stages.getLast? with
  | some 6 =>
    let (cs, es, h) := quantPortRow 8 129 l
    (bytesOfNat cs.length (packElems 8 cs), es, g ||| h)
  | some 7 =>
    let (cs, es, h) := quantPortRow 4 257 l
    (bytesOfNat (cs.length / 2) (packElems 4 cs), es, g ||| h)
  | _ => (bytesOfNat 4096 (packElems b l), [], g)

/-! ## The stores of a row (R76, R123) -/

/-- A row of the encoded stream cut at the walk's chunks: stream positions with their bytes. What lies beyond the walk's end is
not stored. -/
def Port.cuts (p : Port) : Nat → Nat → List Byte → List (Nat × List Byte)
  | 0, _, _ => []
  | f + 1, at_, bs =>
    if bs.isEmpty || p.streamBytes ≤ at_ then []
    else
      let k := min bs.length (p.chunk - at_ % p.chunk)
      (at_, bs.take k) :: p.cuts f (at_ + k) (bs.drop k)

def Port.rowCuts (p : Port) (row : Nat) (bs : List Byte) : List (Nat × List Byte) :=
  p.cuts (bs.length / 32 + 3) (row * p.rowOut) bs

/-- The space of a port's side and escape streams: its own SPACE, the virtual space for SPACE 3 (DESIGN CHOICE, log 40). -/
def Port.sideSpace (p : Port) : Nat := if p.space = 3 then 2 else p.space

/-- The address of the side entries of a row. -/
def Port.sideAt (p : Port) (row n : Nat) : Int := (p.sideAddr : Int) + 2 * (row * n : Nat)

/-- Stands for bytes of a row whose place is not known. -/
def nowhere (n : Nat) : Seg := { va := 0, pa := 2 ^ 64, len := n }

/-- The place of byte k of a part of a row that a SPACE 3 walk stores: where all its elements lie in one byte. -/
def State.elemSeg (s : State) (core : Nat) (t : Tens) (p : Port) (n off k : Nat) : Seg :=
  let b := (storeFmt t.d (Desc.map t.d)).bits
  match s.resolveIn core t (p.tensorIx t.d n (8 * (off + k) / b)) .write with
  | .ok (.at bit) =>
    if 8 ≤ b then { va := 0, pa := bit / 8 + (off + k) % (b / 8), len := 1 }
    else match s.resolveIn core t (p.tensorIx t.d n (8 * (off + k) / b + 1)) .write with
      | .ok (.at bit1) => if bit % 8 = 0 && bit1 = bit + 4 then { va := 0, pa := bit / 8, len := 1 } else nowhere 1
      | _ => nowhere 1
  | _ => nowhere 1

/-- Where a part of a row will be stored; `nowhere` for what faults. -/
def State.cutSegs (s : State) (core : Nat) (p : Port) (at_ len : Nat) : List Seg :=
  let n := at_ / p.chunk
  let off := at_ % p.chunk
  if p.space = 3 then
    match s.tensor core p.tensorId with
    | .ok t => (List.range len).map fun k => s.elemSeg core t p n off k
    | .error _ => [nowhere len]
  else match s.portRange core p.space .write (p.stepAddr n + off) len with
    | .ok l => l
    | .error _ => [nowhere len]

/-- The store that pushing a row makes: an operation of the pushing engine in the port's class, which is performed once the row
stands in the port (R76, R198). Its requests take their slots as it issues (R175). It holds the encoded bytes and the side entries with their places, from which later accesses
of the context read (R201). -/
def State.pushOp (s : State) (i : Instr) (c n : Nat) (p : Port) (row : Nat) (d : Option (BitVec 32768)) : State × Nat :=
  let core := coreOf c
  let (bs, es, _) := s.sinkChain c p (d.getD 0)
  let cuts := p.rowCuts row bs
  let side := (if es.isEmpty then [] else match s.portRange core p.sideSpace .write (p.sideAt row es.length) (2 * es.length) with
    | .ok l => l
    | .error _ => [nowhere (2 * es.length)])
  let bytes := (cuts.flatMap Prod.snd) ++ bytesOfNat (2 * es.length) (packElems 16 es)
  let segs := (cuts.flatMap fun q => s.cutSegs core p q.1 q.2.length) ++ side
  let (s1, reqs, _) := (s.trimBound core).bindSegs { core := core, unit := s.unitNo c, promised := false, rd := false } s.cycle segs
  let o : Op := { s1.newOp (Instr.eng i) i .port with
    cls := p.cls, writes := true, v1 := BitVec.ofNat 64 n, data := if d.isSome then bytes else []
    segs := segs, reqs := reqs }
  s1.launchOp o none

/-- The data of a pushed row is known: later accesses of the context read it (R201). -/
def State.fillPush (s : State) (n : Nat) (d : BitVec 32768) : State :=
  match s.op? n with
  | some o => match (s.ctx o.ctx).port? o.v1.toNat with
    | some p =>
      let (bs, es, _) := s.sinkChain o.ctx p d
      s.setOp n { o with data := bs.take (segsLen o.segs - 2 * es.length) ++ bytesOfNat (2 * es.length) (packElems 16 es) }
    | none => s
  | none => s

end Sys2Proof.Machine
end

