-- ==== Sys2Proof/Machine/Vector.lean ====
section
/-! DEFINITION. The vector engine's shared operations: how an instruction reads its rows, ports and broadcast values, checks
them, and writes its results (19_ref_v.md R539 to R545, 03_registers.md R52, R56, R64, R69, R75). -/
namespace Sys2Proof.Machine

/-! ## Sources -/

/-- A source: its operand, its sync code, the tags it admits, and the granules of a row that it touches. -/
structure VSrc where
  op : VOp
  sync : Nat := 0
  ok : Fmt → Bool := fun _ => true
  grans : List Nat := List.range 16

/-- The source accepts any tag. -/
def VSrc.raw (op : VOp) (sync : BitVec 2) : VSrc := { op := op, sync := sync.toNat }
/-- The source requires tag t. -/
def VSrc.typed (op : VOp) (sync : BitVec 2) (t : Fmt) : VSrc := { op := op, sync := sync.toNat, ok := fun u => u == t }

/-- The footprint granules of a row source. -/
def VSrc.rowGrans (v : VSrc) : List Nat :=
  match v.op with
  | .row n => v.grans.map fun j => 16 * n.toNat + j
  | _ => []

/-- VIEW: a row beyond the footprint, an unbound port, or a popped sink (R545). -/
def VSrc.badView (x : Ctx) (v : VSrc) : Bool :=
  match v.op with
  | .row n => x.foot ≤ n.toNat
  | .port p => match x.port? p.toNat with
    | some q => q.isSink
    | none => true
  | _ => false

/-- FORMAT of a port's TYPE (R541). -/
def VSrc.badType (x : Ctx) (v : VSrc) : Bool :=
  match v.op with
  | .port p => match x.port? p.toNat with
    | some q => !v.ok q.ty
    | none => false
  | _ => false

def VSrc.portNo (v : VSrc) : Option Nat :=
  match v.op with
  | .port p => some p.toNat
  | _ => none

/-- The pops of the sources in operand order: each port with the number of rows popped from it before (R75). -/
def popsOf : List VSrc → List Nat → List (Option (Nat × Nat))
  | [], _ => []
  | v :: l, seen => match v.portNo with
    | some p => some (p, (seen.filter (· == p)).length) :: popsOf l (p :: seen)
    | none => none :: popsOf l seen

def Ctx.popped (x : Ctx) (q : Nat × Nat) : Popped :=
  match x.port? q.1 with
  | some p => p.peek q.2
  | none => .ended

/-! ## Destinations -/

/-- A destination: a row with the granules that will be written, a sink port, or a register. -/
inductive VDst where
  | row (n : Nat) (sync : Nat) (grans : List Nat)
  | port (p : Nat)
  | reg
  deriving DecidableEq, Repr

def VDst.badView (x : Ctx) : VDst → Bool
  | .row n _ _ => x.foot ≤ n
  | .port p => match x.port? p with
    | some q => !q.isSink
    | none => true
  | .reg => false

def VDst.badType (x : Ctx) (t : Fmt) : VDst → Bool
  | .port p => match x.port? p with
    | some q => q.ty != t
    | none => false
  | _ => false

/-- The granules that lanes with a set mask bit lie in, as indices in a row. -/
def maskGrans (b : Nat) (mask : List Bool) : List Nat :=
  (List.range 16).filter fun j => ((mask.drop (j * (2048 / b))).take (2048 / b)).any id

/-- The destination named by a code, under a mask. -/
def dstOf (o : VOp) (sync : BitVec 2) (b : Nat) (mask : List Bool) : VDst :=
  match o with
  | .row n => .row n.toNat sync.toNat ((maskGrans b mask).map fun j => 16 * n.toNat + j)
  | .port p => .port p.toNat
  | _ => .reg

/-! ## Results -/

/-- A result: parts of granules with their tags, a pushed row, a register, and the flags of the enabled lanes. -/
structure VOut where
  flags : Flg := 0
  parts : List (GranPart × Fmt × Nat) := []
  push : Option (BitVec 32768) := none
  reg : Option Land := none
  chk : Checked := fun _ => none

/-- The significand of a floating code (R83, R613). -/
def FF.significand (f : FF) (code : Nat) : Nat :=
  if code / 2 ^ f.m % 2 ^ f.ebits = 0 then code % 2 ^ f.m else 2 ^ f.m + code % 2 ^ f.m

/-- The checked values of result lanes (R613). -/
def laneChecked (ff : Option FF) (b : Nat) (row : Option Nat) (vals : List Nat) (mask : List Bool) : Checked := fun l =>
  let gran := match row with
    | some n => 16 * n + l * b / 2048
    | none => 0
  if 32 ≤ b then
    if nth mask l false then
      some (gran, match ff with
        | some f => residue7 (f.significand (nth vals l 0))
        | none => residue7 (nth vals l 0))
    else none
  else if l % (32 / b) != 0 then none
  else if ((mask.drop l).take (32 / b)).any id then some (gran, residue7 (packElems b ((vals.drop l).take (32 / b))))
  else none

/-- Lane results as a row or a pushed row (R542). -/
def laneOut (dst : VDst) (b : Nat) (ff : Option FF) (tag : Nat → Fmt) (mask : List Bool) (r : List Nat × Flg) : VOut :=
  match dst with
  | .row n sync _ =>
    { flags := r.2
      parts := (rowParts b n r.1 mask 16 0).map fun p => (p, tag (p.g % 16), sync)
      chk := laneChecked ff b (some n) r.1 mask }
  | .port _ =>
    { flags := r.2
      push := some (BitVec.ofNat 32768 (packElems b ((List.zip r.1 mask).map fun (v, m) => if m then v else 0)))
      chk := laneChecked ff b none r.1 mask }
  | .reg => { flags := r.2 }

/-- Lane by lane, enabled lanes only: results and the flags of the enabled lanes. -/
def mapLanes (f : Nat → Nat → Nat → Nat → Nat × Flg) : Nat → List Bool → List Nat → List Nat → List Nat → List Nat × Flg
  | _, [], _, _, _ => ([], 0)
  | l, m :: ms, as, bs, cs =>
    let (v, g) := if m then f l (as.headD 0) (bs.headD 0) (cs.headD 0) else (0, 0)
    let (vs, h) := mapLanes f (l + 1) ms as.tail bs.tail cs.tail
    (v :: vs, g ||| h)

/-! ## Issue -/

/-- The reads of each cycle: a key for the source and granule, and the footprint granule (R52, R69). -/
def readPlan (occ : Nat) (srcs : List VSrc) : List (List (Nat × Nat)) :=
  (List.range occ).map fun k =>
    ((List.zip (List.range srcs.length) srcs).map fun (m, v) =>
      match v.op with
      | .row n => (v.grans.filter fun j => occ == 1 || j / 4 == k).map fun j => (16 * m + j, 16 * n.toNat + j)
      | _ => []).foldr (· ++ ·) []

/-- What the crossbar gives: the arbitration, the cycle of each read by key, and the cycles by which the whole instruction
is delayed. -/
structure VRead where
  arb : Arb
  at_ : List (Nat × Nat)
  deriving DecidableEq, Repr

def State.vread (s : State) (c : Nat) (occ : Nat) (srcs : List VSrc) : VRead :=
  let plan := readPlan occ srcs
  let (a, cycles, _) := Arb.run s.cycle (s.ctx c).base (s.arb c)
    ((List.zip (List.range occ) plan).map fun (k, l) => (k, l.map Prod.snd))
  { arb := a
    at_ := ((List.zip plan cycles).map fun (l, cs) => List.zip (l.map Prod.fst) cs).foldr (· ++ ·) [] }

/-- The value of source m. -/
def State.vvalue (s : State) (c : Nat) (rd : VRead) (m : Nat) (v : VSrc) (pop : Option (Nat × Nat)) : VVal :=
  let x := s.ctx c
  match v.op, pop with
  | .row n, _ => .row ((List.range 16).map fun j =>
      if v.grans.contains j then
        let g := x.granLook (16 * n.toNat + j) (lookupNat rd.at_ (16 * m + j) s.cycle)
        (g.bytes, g.tag)
      else (0, .raw))
  | .port _, some q => match x.popped q, x.port? q.1 with
    | .row r, some p => .row ((List.range 16).map fun j => (granOfRow r.data j, p.ty))
    | _, _ => .all 0
  | o, _ => .all (VOp.word o x)

/-- The first granule whose tag the source does not admit (R56). -/
def badTag (v : VSrc) (w : VVal) : Option Nat :=
  match v.op, w with
  | .row n, .row gs => (v.grans.find? fun j => !v.ok (nth gs j (0, .raw)).2).map fun j => 16 * n.toNat + j
  | _, _ => none

def minNat : List Nat → Option Nat
  | [] => none
  | a :: l => match minNat l with
    | some b => some (min a b)
    | none => some a

/-- The checks that need data, before the operation's own (R246). -/
def State.vecData (s : State) (c : Nat) (srcs : List VSrc) (pops : List (Option (Nat × Nat))) (dsts : List VDst)
    (vals : List VVal) : Option Trap :=
  let x := s.ctx c
  match minNat ((List.zip srcs vals).filterMap fun (v, w) => badTag v w) with
  | some g => some (trapGran tFormat g)
  | none =>
    let dstEmpty := dsts.filterMap fun d => match d with
      | .row _ sync gs => s.writeEmpty c sync gs
      | _ => none
    match minNat (srcs.filterMap (fun v => s.readEmpty c v.sync v.rowGrans) ++ dstEmpty) with
    | some g => some (trapGran tEmpty g)
    | none =>
      let pushEnds := dsts.any fun d => match d with
        | .port p => match x.port? p with
          | some q => q.pushEnds
          | none => false
        | _ => false
      if pushEnds || pops.any (fun q => match q with
          | some q => (match x.popped q with
            | .ended => true
            | _ => false)
          | none => false)
      then some (trapOf tBounds)
      else firstSome (fun q => match q with
        | some q => (match x.popped q with
          | .row r => r.fault
          | _ => none)
        | none => none) pops

/-- An operand must be waited for: a row's bits, a destination's, or a port's row (R44, R64, R75). -/
def State.vecWaits (s : State) (c : Nat) (srcs : List VSrc) (pops : List (Option (Nat × Nat))) (dsts : List VDst) : Bool :=
  srcs.any (fun v => s.readWaits c v.sync v.rowGrans)
  || dsts.any (fun d => match d with
      | .row _ sync gs => s.writeWaits c sync gs
      | _ => false)
  || pops.any fun q => match q with
      | some q => (match (s.ctx c).popped q with
        | .notYet => true
        | _ => false)
      | none => false

/-- Empties the consume-marked granules after their last reads (R44). -/
def State.vecConsume (s : State) (c : Nat) (rd : VRead) : Nat → List VSrc → State
  | _, [] => s
  | m, v :: l =>
    (match v.op with
      | .row n => s.consume c .v v.sync v.rowGrans fun g =>
          lookupNat rd.at_ (16 * m + (g - 16 * n.toNat)) s.cycle + 1 - s.cycle
      | _ => s).vecConsume c rd (m + 1) l

/-- Lands the parts of a result, each with its tag (R46, R542). -/
def State.landTagged (s : State) (c : Nat) (e : Engine) (delay : Nat) (ps : List (GranPart × Fmt × Nat)) : State :=
  let h := s.histOf c e
  ps.foldl (fun t p => t.land c e delay (.gran p.1.g p.1.data p.1.sel p.2.1 (p.2.2 != syncPlain)) h) s

/-- A port popped into a row makes it a long-latency destination: under the block code it is empty until the result lands; its
latency is that of R543 (R45). -/
def State.markPopped (s : State) (c : Nat) (pops : List (Option (Nat × Nat))) (dsts : List VDst) : State :=
  if pops.any Option.isSome then
    dsts.foldl (fun t d => match d with
      | .row _ sync gs => t.markEmpty c sync gs
      | _ => t) s
  else s

/-- What the instruction commits. -/
def State.vecCommit (s : State) (i : Instr) (c : Nat) (f : VX) (srcs : List VSrc) (pops : List (Option (Nat × Nat))) (dsts : List VDst)
    (lat occ : Nat) (rd : VRead) (o : VOut) : State :=
  let d := lat + rd.arb.delay
  let s1 := (srcs.foldl (fun t v => t.addHist c .v (s.handoffs c v.sync v.rowGrans)) s).bankCommit c rd.arb
  let s2 := s1.modCtx c fun x =>
    let y := pops.foldl (fun y q => match q with
      | some q => y.popPort q.1
      | none => y) (x.raiseFlags s.cycle o.flags)
    let z := dsts.foldl (fun y d => match d with
      | .port p => y.modPort p fun q => { q with pushes := q.pushes + 1 }
      | _ => y) y
    if f.rnd = 4 then { z with sprs := { z.sprs with dphase := BitVec.ofNat 64 ((fld z.sprs.dphase 0 5 + 1) % 32) } } else z
  let s3 := ((s2.vecConsume c rd 0 srcs).markPopped c pops dsts).landTagged c .v d o.parts
  let s4 := match o.push, dsts with
    | some w, .port p :: _ => match (s.ctx c).port? p with
      | some q =>
        let (t, n) := s3.pushOp i c p q q.pushes (some w)
        t.land c .v d (.push p n w)
      | none => s3
    | _, _ => s3
  let s5 := match o.reg with
    | some r => s4.land c .v d r
    | none => s4
  s5.occupy c .v (occ + rd.arb.delay)

/-- A vector instruction, from its checks to its end. `static` tells that T is accepted; `k` forms the result. -/
def vecIssue (i : Instr) (f : VX) (s : State) (srcs : List VSrc) (dsts : List VDst) (static : Bool) (lat occ : Nat)
    (k : List VVal → Except Trap VOut) : Host.Outcome State Fault Refusal :=
  let c := s.focus
  let x := s.ctx c
  let pops := popsOf srcs []
  if srcs.any (fun v => v.badView x) || dsts.any (fun d => d.badView x) then finish i s (.trap s (trapOf tView))
  else if !static || srcs.any (fun v => v.badType x) || dsts.any (fun d => d.badType x x.vt) then finish i s (.trap s (trapOf tFormat))
  else if s.vecWaits c srcs pops dsts then finish i s (.wait s .syncBlocked .bits)
  else
    let rd := s.vread c occ srcs
    let vals := (List.zip (List.range srcs.length) (List.zip srcs pops)).map fun (m, v, q) => s.vvalue c rd m v q
    match s.vecData c srcs pops dsts vals with
    | some t =>
      finish i s (.trap (s.modCtx c fun y => pops.foldl (fun y q => match q with
        | some q => y.retryPort q.1
        | none => y) y) t)
    | none =>
      match k vals with
      | .error t => finish i s (.trap s t)
      | .ok o =>
        match enabledFlag x.sprs.arstat o.flags with
        | some n => finish i s (.trap (s.modCtx c fun y => y.raiseFlags s.cycle o.flags) { code := tTrap, sub := 1, detailA := n })
        | none => finishWith i s o.chk (.done (s.vecCommit i c f srcs pops dsts lat occ rd o))

/-! ## Fields -/

def Ctx.maskList (x : Ctx) (f : VX) (n : Nat) : List Bool := maskBits (x.mr f.mask.toNat) n

/-- The rounding of a lane (R96, R98). -/
def VX.rm (f : VX) (x : Ctx) (l : Nat) : RM := { mode := rndOf f.rnd.toNat, d := dither l (fld x.sprs.dphase 0 5) }

/-- A lane number, amount, n or address: one 64-bit integer (R541). -/
def VOp.scalar (o : VOp) (x : Ctx) : Word := VOp.word o x

def Fmt.ffOf (t : Fmt) : Option FF := if t.isFloat then some t.ff else none

/-- Integer value of a code by a type's signedness. -/
def Fmt.int (t : Fmt) (v : Nat) : Int := if t.isSigned then sgnOf t.bits v else ((v % 2 ^ t.bits : Nat) : Int)

end Sys2Proof.Machine
end

