-- ==== Sys2Proof/Machine/Ports.lean ====
section
/-! DEFINITION. Stream ports: binding, walks, the stage chain and CB4 decoding (03_registers.md R71 to R82), PBIND and PUNB
(17_ref_m_p.md R495 to R498), and the events that form rows and accept pushed ones (log 28). -/
namespace Sys2Proof.Machine

/-! ## The checks of PBIND (R72, R74) -/

/-- The element type of a source's chain after its stages, from the type that enters it; none where a stage does not take
its input. -/
def chainType (ty table : Fmt) : Nat → List Nat → Fmt → Option Fmt
  | _, [], cur => some cur
  | n, k :: l, cur =>
    match k with
    | 1 => if n = 0 then chainType ty table (n + 1) l table else none
    | 2 | 3 => if n = 0 then chainType ty table (n + 1) l .fp32 else none
    | 4 => chainType ty table (n + 1) l ty
    | 5 => if cur = .fp32 then chainType ty table (n + 1) l .fp32 else none
    | _ => none

/-- The stages of a sink: CVT, SCL and a last quantisation, on rows of its type. A chain that ends in a quantisation puts out OB
codes, which no TYPE of its FP32 input rows can equal: it is valid with TYPE FP32 (DESIGN CHOICE, log 40). -/
def sinkChainBad (ty : Fmt) : List Nat → Bool
  | [] => false
  | 4 :: l => sinkChainBad ty l
  | 5 :: l => ty != .fp32 || sinkChainBad ty l
  | [6] | [7] => ty != .fp32
  | _ => true

/-- The type that enters the chain of a source with no stage, or with SCL first. -/
def firstType (ty : Fmt) : List Nat → Fmt
  | 5 :: _ => .fp32
  | _ => ty

def Port.chainBad (p : Port) (table : Fmt) : Bool :=
  let st := p.stages
  ((p.stageCodes.drop st.length).any fun k => k != 0)
  || (st.contains 1 != (p.ratio != 0))
  || (if p.isSink then sinkChainBad p.ty st
      else match chainType p.ty table 0 st (firstType p.ty st) with
        | some t => t != p.ty
        | none => true)

/-- A field of the record breaks R72. -/
def Port.recordBad (p : Port) : Bool :=
  3 < p.space || p.loops == 0 || p.loops == 7 || (fmtOf (fld p.ctl 52 5)).isNone || p.cls == 15 || p.chunk == 0
  || fld p.ctl 0 12 != 0 || fld (recWord p.record 120) 0 4 != 0
  || ((List.range p.loops).any fun k => p.count k == 0)
  || (p.space != 3 && (List.range 6).any fun k => p.start k != 0)

/-- FIFO bytes that a CB4 port reserves (R79). -/
def Port.reserve (p : Port) : Nat := if p.stages.contains 1 then 8192 + 256 * ceilDiv (p.ratio * 128) 256 else 0

def Ctx.fifoUsed (x : Ctx) : Nat := x.ports.foldl (fun n (_, p) => n + p.fifo) 0

def Core.slot (k : Core) (n : Nat) : Slot := tgetD k.slots n {}
def Slot.table (t : Slot) (g : Nat) : DecodeTable := if g = 0 then t.g0 else t.g1

/-- Acquires that are still to be performed before the accesses of a class that an engine makes from now on (R204). -/
def State.acquiresFor (s : State) (c : Nat) (e : Engine) (cls : Nat) : List Acc :=
  (s.histOf c e).filter fun a => match s.op? a.op with
    | some p => !p.performedAt p.scope && p.acquire.any fun k => k.getLsbD cls || p.cls == cls
    | none => false

/-- PBIND (R495, R496); its port decodes against the generation that was current at its issue (R81). -/
def execPbind (f : C3) (s : State) : Host.Outcome State Fault Refusal :=
  let c := s.focus
  let x := s.ctx c
  let n := f.d.toNat
  let va := (x.sr f.a.toNat).toNat
  let i : Instr := .pbind f
  let gens := match x.c.hold with
    | .gens l _ => l
    | _ => (List.range 16).map fun k => ((s.core (coreOf c)).slot k).current
  finish i s (s.sHold [f.a.toNat]
    (if va % 64 != 0 then .trap s (trapAt tAlign va)
     else if (x.port? n).isSome then .trap s (trapOf tTable)
     else match s.withRecord i va 128 64 fun s1 bs =>
       let p : Port := { record := recordOf bs }
       let slot := (s1.core (coreOf c)).slot p.slot
       let q : Port := { p with gen := nth gens p.slot 0, fifo := p.reserve, waits := s1.acquiresFor c .c p.cls }
       if q.recordBad || q.chainBad (slot.table q.gen).ty || 65536 < x.fifoUsed + q.fifo then .trap s (trapOf tTable)
       else .done (s1.modCtx c fun y => { y with ports := tset y.ports n q }) with
       | .wait t st (.walk l) => .wait t st (.gens gens l)
       | .wait t st _ => .wait t st (.gens gens [])
       | r => r))

/-- A pushed row of a port is still to be accepted by memory (R76, R498). -/
def State.sinkBusy (s : State) (c n : Nat) : Bool :=
  s.ops.any fun (_, o) => o.kind == .port && o.ctx == c && s.opLive o && o.v1.toNat == n

/-- PUNB (R497, R498). -/
def execPunb (f : C3) (s : State) : Host.Outcome State Fault Refusal :=
  let c := s.focus
  let n := f.d.toNat
  finish (.punb f) s
    (match (s.ctx c).port? n with
     | none => .done s
     | some p =>
       if p.isSink && s.sinkBusy c n then .wait s .waiting .other
       else .done (s.modCtx c fun y => { y with ports := tdel y.ports n }))

/-! ## Walks (R73) -/

/-- Elements of a SPACE 3 chunk in order. -/
def State.tensorElems (s : State) (core u : Nat) (t : Tens) (p : Port) (n : Nat) : Nat → Nat → Except Trap (List Nat)
  | 0, _ => .ok []
  | k + 1, j =>
    let b := (storeFmt t.d (Desc.map t.d)).bits
    match s.resolveIn core t (p.tensorIx t.d n j) .read with
    | .error tr => .error tr
    | .ok pl =>
      let v : Except Trap Nat := match pl with
        | .pad v => .ok v
        | .at bit => match s.poisonIn [{ va := 0, pa := bit / 8, len := ceilDiv b 8 }] with
          | some blk => .error (trapPoison blk)
          | none => .ok (s.bitsAt u bit b)
      match v, s.tensorElems core u t p n k (j + 1) with
      | .error tr, _ => .error tr
      | _, .error tr => .error tr
      | .ok v, .ok l => .ok (v :: l)

/-- What a port reads is a hit of the pinned windows that it touches, and its requests take their slots in the core's order
(R172, R175). -/
def State.touchSegs (s : State) (core u : Nat) (l : List Seg) : State :=
  (((s.touchPins l).trimBound core).bindSegs { core := core, unit := u, promised := false } s.cycle l).1

def State.touchRange (s : State) (core u space : Nat) (a : Int) (len : Nat) : State :=
  match s.portRange core space .read a len with
  | .ok l => s.touchSegs core u l
  | .error _ => s

/-- The chunk of a step of a source (R73). -/
def State.readStep (s : State) (core u : Nat) (p : Port) : Except Trap (State × List Byte) :=
  let n := p.at_.step
  if p.space = 3 then
    match s.tensor core p.tensorId with
    | .error t => .error t
    | .ok t =>
      let b := (storeFmt t.d (Desc.map t.d)).bits
      let count := p.chunk * 8 / b
      match s.tensorElems core u t p n count 0 with
      | .error tr => .error tr
      | .ok l =>
        .ok ((((List.range count).foldl (fun st j => st.keepBlock core t (p.tensorIx t.d n j)) s).keepTensor core p.tensorId).touchSegs core u
               ((List.range count).flatMap fun j => match s.resolveIn core t (p.tensorIx t.d n j) .read with
                 | .ok (.at bit) => [{ va := 0, pa := bit / 8, len := ceilDiv b 8 }]
                 | _ => []),
             bytesOfNat p.chunk (packElems b l))
  else match s.portBytes core u p.space (p.stepAddr n) p.chunk with
    | .error t => .error t
    | .ok l => .ok (s.touchRange core u p.space (p.stepAddr n) p.chunk, l)

/-! ## CB4 (R77, R78) -/

/-- What a code of a block produces. -/
inductive CbTok where
  | entry (c : Nat)
  | zeros (n : Nat)
  | escape
  deriving DecidableEq, Repr

/-- A block cut from a stream. -/
inductive CbScan where
  | block (toks : List CbTok) (nibbles : Nat)
  | short
  | bad
  deriving DecidableEq, Repr

/-- Codes until 64 elements stand (R77). -/
def cbScan : Nat → List Nat → Nat → Nat → List CbTok → CbScan
  | 0, _, _, _, _ => .short
  | f + 1, l, made, used, acc =>
    if made = 64 then .block acc.reverse used
    else match l with
      | [] => .short
      | 14 :: [] => .short
      | 14 :: v :: r => if 64 < made + v + 1 then .bad else cbScan f r (made + v + 1) (used + 2) (.zeros (v + 1) :: acc)
      | 15 :: r => cbScan f r (made + 1) (used + 1) (.escape :: acc)
      | c :: r => cbScan f r (made + 1) (used + 1) (.entry c :: acc)

def nibblesOf (l : List Byte) : List Nat := l.foldr (fun b r => b.toNat % 16 :: b.toNat / 16 :: r) []

def escapesIn (l : List CbTok) : Nat := (l.filter fun t => t == .escape).length

/-- The elements of a block, with its literals in order. -/
def cbElems (tab : BitVec 256) : List CbTok → List Nat → List Nat
  | [], _ => []
  | .entry c :: l, lits => (tab.extractLsb' (16 * c) 16).toNat :: cbElems tab l lits
  | .zeros n :: l, lits => List.replicate n 0 ++ cbElems tab l lits
  | .escape :: l, lits => lits.headD 0 :: cbElems tab l lits.tail

/-- The outcome of decoding what stands encoded. -/
inductive Dec where
  /-- Elements, with the encoded bytes, literals and side entries used. -/
  | elems (l : List Nat) (bytes escapes sides : Nat)
  | more
  | bad (t : Trap)

/-- One CB4 block (R77, R78). -/
def State.cbBlock (s : State) (core u : Nat) (p : Port) : Dec :=
  -- a block has at most 64 codes of one nibble, or of two for a run
  match cbScan 65 (nibblesOf (p.at_.raw.take 65)) 0 0 [] with
  | .short => .more
  | .bad => .bad (trapOf tRate)
  | .block toks n =>
    let bytes := ceilDiv n 2
    let e := escapesIn toks
    let pad := if n % 2 = 1 then (nth p.at_.raw (bytes - 1) 0).toNat / 16 else 0
    if pad != 0 || p.ratio * (bytes + 2 * e) < 512 then .bad (trapOf tRate)
    else
      let slot := (s.core core).slot p.slot
      let go (lits : List Nat) : Dec := .elems (cbElems (slot.table p.gen).entries toks lits) bytes e 0
      if e = 0 then go []
      else match s.portBytes core u p.sideSpace ((p.escAddr : Int) + 2 * p.at_.escapes) (2 * e) with
        | .error t => .bad t
        | .ok bs => go (sliceElems 16 e (natOfBytes bs))

/-! ## Stages (R74) -/

/-- Side entries from block n on: zero point and scale (R60, R75). Side and escape streams lie in the port's SPACE, those of a SPACE 3
port in the virtual space (DESIGN CHOICE, log 40). -/
def State.sideEntries (s : State) (core u : Nat) (p : Port) (n count : Nat) : Except Trap (List (Nat × Nat)) :=
  match s.portBytes core u p.sideSpace ((p.sideAddr : Int) + 2 * n) (2 * count) with
  | .error t => .error t
  | .ok bs => .ok ((sliceElems 16 count (natOfBytes bs)).map fun v => (v % 256, v / 256))

/-- Dequantised elements, 32 to a block, with zero points of b bits (R60). -/
def dqElems (b : Nat) : List (Nat × Nat) → List Nat → List Nat × Flg
  | [], _ => ([], 0)
  | (z, sc) :: l, cs =>
    let here := (cs.take 32).map fun (c : Nat) => dequant ((c : Int) - (z % 2 ^ b : Nat)) sc
    let (r, g) := dqElems b l (cs.drop 32)
    (here.map Prod.fst ++ r, here.foldl (fun a x => a ||| x.2) g)

/-- The type of the elements in the encoded stream (R72, R74, log 28). -/
def State.streamType (s : State) (core : Nat) (p : Port) : Fmt :=
  match p.stages with
  | 2 :: _ => .ob8
  | 3 :: _ => .ob4
  | k :: _ =>
    if p.space = 3 then match s.tensor core p.tensorId with
      | .ok t => storeFmt t.d (Desc.map t.d)
      | .error _ => p.ty
    else if k = 5 then .fp32
    else (fmtOf (Config.portInput p.record).val).getD .raw
  | [] => p.ty

/-- Elements decoded from what stands encoded: a CB4 block, or every whole element with its side entries. -/
def State.decodeRaw (s : State) (core u : Nat) (p : Port) : Dec :=
  match p.stages with
  | 1 :: _ => s.cbBlock core u p
  | _ =>
    let b := (s.streamType core p).bits
    if p.at_.raw.isEmpty then .more
    else .elems (sliceElems b (p.at_.raw.length * 8 / b) (natOfBytes p.at_.raw)) p.at_.raw.length 0 0

/-- The rest of the chain on decoded elements: the delivered bytes and the stage flags. -/
def State.chain (s : State) (c core u : Nat) (p : Port) (l : List Nat) : Except Trap (List Byte × Nat × Flg) :=
  let factor := ((s.ctx c).br p.factorReg).toNat % 2 ^ 32
  let pack (r : List Nat) : List Byte := bytesOfNat (r.length * p.ty.bits / 8) (packElems p.ty.bits r)
  let slot := (s.core core).slot p.slot
  match p.stages with
  | 1 :: st =>
    let (r, g) := elemStages p.ty factor st (slot.table p.gen).ty l
    .ok (pack r, 0, g)
  | 2 :: st | 3 :: st =>
    match s.sideEntries core u p p.at_.sideTaken (l.length / 32) with
    | .error t => .error t
    | .ok es =>
      let (q, g) := dqElems (s.streamType core p).bits es l
      let (r, h) := elemStages p.ty factor st .fp32 q
      .ok (pack r, l.length / 32, g ||| h)
  | [] => .ok (bytesOfNat (l.length * p.ty.bits / 8) (packElems p.ty.bits l), 0, 0)
  | st =>
    let (r, g) := elemStages p.ty factor st (s.streamType core p) l
    .ok (pack r, 0, g)

/-! ## Rows of a source (R75) -/

/-- A port at work: the state, the port, the flags so far, and a fault that stopped it. -/
structure Fill where
  s : State
  p : Port
  flags : Flg := 0
  fault : Option Trap := none

/-- Decodes until a row stands or the encoded bytes run out. -/
def Fill.decode (c core u : Nat) : Nat → Fill → Fill
  | 0, w => w
  | f + 1, w =>
    if 4096 ≤ w.p.at_.decoded.length || w.fault.isSome || w.p.broken.isSome then w
    else match w.s.decodeRaw core u w.p with
      | .more => w
      | .bad t => if t.code = tRate then { w with p := { w.p with broken := some t } } else { w with fault := some t }
      | .elems l n e _ =>
        match w.s.chain c core u w.p l with
        | .error t => { w with fault := some t }
        | .ok (bs, sides, g) =>
          let m := w.p.at_
          let esc (t : State) : State :=
            if e = 0 then t else t.touchRange core u w.p.sideSpace ((w.p.escAddr : Int) + 2 * m.escapes) (2 * e)
          let side (t : State) (k : Nat) : State :=
            if k = 0 then t else t.touchRange core u w.p.sideSpace ((w.p.sideAddr : Int) + 2 * m.sideTaken) (2 * k)
          Fill.decode c core u f
            { w with
              s := side (esc w.s) sides
              p := { w.p with at_ :=
                { m with raw := m.raw.drop n, escapes := m.escapes + e, sideTaken := m.sideTaken + sides
                         decoded := m.decoded ++ bs } }
              flags := w.flags ||| g }

/-- Reads chunks and decodes them until a row stands, the walk has ended, or a fault stops it. A truncated CB4 block at the
walk's end delivers nothing. -/
def Fill.run (c core u : Nat) : Nat → Fill → Fill
  | 0, w => w
  | f + 1, w =>
    let w1 := Fill.decode c core u 300 w
    if 4096 ≤ w1.p.at_.decoded.length || w1.fault.isSome || w1.p.broken.isSome then w1
    else if w1.p.steps ≤ w1.p.at_.step then { w1 with p := { w1.p with at_ := { w1.p.at_ with raw := [] } } }
    else match w1.s.readStep core u w1.p with
      | .error t => { w1 with fault := some t }
      | .ok (s2, bs) =>
        let m := w1.p.at_
        Fill.run c core u f { w1 with s := s2, p := { w1.p with at_ := { m with step := m.step + 1, raw := m.raw ++ bs } } }

/-- The side entries that travel with a row of codes (R75). -/
def State.rowSides (s : State) (core u : Nat) (p : Port) (bytes : Nat) : Except Trap (List (Nat × Nat)) :=
  let codes := (p.ty == .ob8 || p.ty == .ob4) && !(p.stages.contains 2 || p.stages.contains 3)
  if !codes || p.sideAddr = 0 then .ok []
  else s.sideEntries core u p p.at_.sideTaken (ceilDiv (bytes * 8 / p.ty.bits) 32)

/-- The next row of a source: a whole row, the padded last one, or the fault of its walk. -/
def Fill.row (core u : Nat) (from_ : PortMark) (w : Fill) : Fill :=
  let add (w : Fill) (r : PortRow) : Fill := { w with p := { w.p with rows := w.p.rows ++ [r] } }
  let n := min w.p.at_.decoded.length 4096
  match w.fault with
  | some t => add w { fault := some t, mark := from_ }
  | none =>
    if n = 0 || (n < 4096 && w.p.broken.isSome) then w
    else match w.s.rowSides core u w.p n with
      | .error t => add w { fault := some t, mark := from_ }
      | .ok es =>
        let m := w.p.at_
        add { w with
              s := if es.isEmpty then w.s
                else w.s.touchRange core u w.p.sideSpace ((w.p.sideAddr : Int) + 2 * m.sideTaken) (2 * es.length)
              p := { w.p with at_ := { m with decoded := m.decoded.drop n, sideTaken := m.sideTaken + es.length } } }
          { data := BitVec.ofNat 32768 (natOfBytes (m.decoded.take n)), side := es, mark := from_ }

/-- A further row of a source may be formed: the walk has not ended, no fault stands in it, the captured generation is
loaded (R408), and the acquires before PBIND are performed (R204, R76). -/
def State.rowMayForm (s : State) (c : Nat) (p : Port) : Bool :=
  !p.isSink && !p.waits.any s.pending && !p.finished && p.broken.isNone && !(p.rows.any fun r => r.fault.isSome)
  && !(p.stages.contains 1 && ((s.core (coreOf c)).slot p.slot).loading.any fun l => l.1 == p.gen)

/-- PORT_ROW_READY: the walk and the chain produce the next row (R73 to R78). The flags of its stages reach ARSTAT as the row
forms, whether or not it is popped later (R101 does not say when; DESIGN CHOICE, log 40). -/
def execPortRowReady (ctx : Nat) (port : Fin 16) (s : State) : Host.Outcome State Fault Refusal :=
  match (s.ctx ctx).port? port.val with
  | some p =>
    if s.rowMayForm ctx p then
      let core := coreOf ctx
      let u := s.unitNo ctx
      let w := (Fill.run ctx core u 4200 { s := s, p := p }).row core u p.at_
      .next (w.s.modCtx ctx fun x => ({ x with ports := tset x.ports port.val w.p }).raiseFlags s.cycle w.flags)
    else .next s
  | none => .next s

/-! ## Rows of a sink (R74 to R76) -/

/-- Stores a part of a chunk: the bytes from a position of the encoded stream. -/
def State.storeChunk (s : State) (o : Op) (p : Port) (at_ : Nat) (bs : List Byte) : Except Trap State :=
  let v := s.asIssued o.issued
  let n := at_ / p.chunk
  let off := at_ % p.chunk
  if p.space = 3 then
    match s.tensor o.core p.tensorId with
    | .error t => .error t
    | .ok t =>
      let b := (storeFmt t.d (Desc.map t.d)).bits
      let es := sliceElems b (bs.length * 8 / b) (natOfBytes bs)
      (List.zip (List.range es.length) es).foldl (fun (a : Except Trap State) q =>
        match a with
        | .error e => .error e
        | .ok st =>
          let ix := p.tensorIx t.d n (off * 8 / b + q.1)
          match st.resolveIn o.core t ix .write with
          | .error e => .error e
          | .ok (.pad _) => .ok st
          | .ok (.at bit) =>
            .ok (((st.bitsPut o.unit bit b q.2).keepBlock o.core t ix).touchPins [{ va := 0, pa := bit / 8, len := ceilDiv b 8 }]))
        (.ok (s.keepTensor o.core p.tensorId))
  else match v.portRange o.core p.space .write (p.stepAddr n + off) bs.length with
    | .error t => .error t
    | .ok segs => match s.poisonHurt segs with
      | some blk => .error (trapPoison blk)
      | none => .ok ((s.unitWrite o.unit segs bs).touchPins segs)

/-- Stores the side entries of a row (R88). -/
def State.storeSides (s : State) (o : Op) (p : Port) (row : Nat) (bs : List Byte) : Except Trap State :=
  match (s.asIssued o.issued).portRange o.core p.sideSpace .write (p.sideAt row (bs.length / 2)) bs.length with
  | .error t => .error t
  | .ok segs => match s.poisonHurt segs with
    | some b => .error (trapPoison b)
    | none => .ok ((s.unitWrite o.unit segs bs).touchPins segs)

/-- A sink port of a unit: in its context, or kept past a save or the context's release (R263, R507). -/
def State.sinkPort (s : State) (o : Op) (n : Nat) : Option Port :=
  if s.opLive o then (s.ctx o.ctx).port? n
  else match s.unit? o.unit with
    | some r => tget r.savedPorts n
    | none => none

def State.setSinkPort (s : State) (o : Op) (n : Nat) (p : Port) : State :=
  if s.opLive o then s.modCtx o.ctx fun x => { x with ports := tset x.ports n p }
  else s.modUnit o.unit fun r => { r with savedPorts := tset r.savedPorts n p }

/-- The oldest pushed row of a port, with its operation. -/
def State.headPush (s : State) (ctx n : Nat) : Option (Nat × Op × Port × BitVec 32768) :=
  firstSome (fun (k, o) =>
    if o.kind == .port && o.ctx == ctx && o.v1.toNat == n then
      match (if o.v3 = 0 then s.sinkPort o n else none) with
      | some p => match p.pushed with
        | (row, j) :: _ => if j = k then some (k, o, p, row) else none
        | [] => none
      | none => none
    else none) s.ops

/-- A request of a pushed row: a part of a chunk, at its position of the encoded stream, or the side entries of a row. -/
def State.storePart (s : State) (o : Op) (p : Port) (sides : Bool) (at_ : Nat) (bs : List Byte) : Except Trap State :=
  if sides then s.storeSides o p at_ bs else s.storeChunk o p at_ bs

/-- One request of a row is stored. A fault parks it alone, as an operation of its own that is replayed (R123, R187); a poisoned
block makes it have no effect and delivers MCHECK (R258). -/
def State.partStored (s : State) (n : Nat) (o : Op) (p : Port) (sides : Bool) (at_ : Nat) (bs : List Byte) : State :=
  match s.storePart o p sides at_ bs with
  | .ok t => t
  | .error tr =>
    if tr.code = tMcheck then s.failOp n o tr
    else
      let q : Op := { o with v2 := BitVec.ofNat 64 at_, v3 := if sides then 2 else 1, data := bs, segs := [], waits := [] }
      (s.addOp q).1.parkOp s.opNext q tr

/-- The requests of a row: the parts of its chunks in walk order, then its side entries (R75, R76, R88). -/
def State.rowStored (s : State) (n : Nat) (o : Op) (p : Port) (bs : List Byte) (es : List Nat) : State :=
  let s1 := (p.rowCuts p.accepted bs).foldl (fun t q => t.partStored n o p false q.1 q.2) s
  if es.isEmpty then s1 else s1.partStored n o p true p.accepted (bytesOfNat (2 * es.length) (packElems 16 es))

/-- The version log has room for the unit's stores (R260). -/
def State.logRoom (s : State) (o : Op) : Bool :=
  !(match s.unit? o.unit with
    | some r => r.logWait && s.versionedUnit o.unit
    | none => false)

/-- SINK_ROW_ACCEPTED: the oldest pushed row is stored along the walk, once the accesses before it are performed (R75, R76,
R123, R258, R101). -/
def execSinkRowAccepted (ctx : Nat) (port : Fin 16) (s : State) : Host.Outcome State Fault Refusal :=
  match s.headPush ctx port.val with
  | some (n, o, p, row) =>
    if s.mayPerform o && s.logRoom o then
      let (bs, es, g) := s.sinkChain o.ctx p row
      let q : Port := { p with pushed := p.pushed.drop 1, accepted := p.accepted + 1 }
      let s1 := ((s.rowStored n o p bs es).setSinkPort o port.val q).delOp n
      .next (if s.opLive o then s1.modCtx ctx fun x => x.raiseFlags s.cycle g else s1)
    else .next s
  | none => .next s

/-- A request of a row that had parked is replayed (R187). -/
def State.replayPart (s : State) (n : Nat) (o : Op) : State :=
  match s.sinkPort o o.v1.toNat with
  | some p => match s.storePart o p (o.v3 == 2) o.v2.toNat o.data with
    | .ok t => t.delOp n
    | .error tr => if tr.code = tMcheck then s.failOp n o tr else s.parkOp n o tr
  | none => s.delOp n

/-- STORE_PERFORMED: a store is performed, or staged in a versioned unit, and frees its entry (R521, R32); so is a request of a
sink's row that is replayed. A part of a poisoned block that the store does not cover stays as it is, and MCHECK is delivered
(R258). -/
def execStorePerformed (op : Nat) (s : State) : Host.Outcome State Fault Refusal :=
  match s.op? op with
  | some o =>
    if (o.kind == .store || o.kind == .vstore) && s.opReady o then .next (s.storeNow op o)
    else if o.kind == .port && o.v3 != 0 && s.opReady o then .next (s.replayPart op o)
    else .next s
  | none => .next s

end Sys2Proof.Machine
end

