-- ==== Sys2Proof/Machine/Matrix.lean ====
section
/-! DEFINITION. The matrix engine: K-block arithmetic (04_arithmetic.md R102 to R107), how an instruction reads its rows and
lands its results (17_ref_m_p.md R457 to R461), and MMA, MSCL, MWB, MZERO, MTRN and MXMOV (R474 to R491). -/
namespace Sys2Proof.Machine

/-! ## Formats (R18, R102) -/

/-- Cycles per row, K-block size and columns of a macro format. -/
def macFmt : Fmt → Option (Nat × Nat × Nat)
  | .lg6 => some (2, 256, 256)
  | .e4m3 | .e5m2 => some (4, 128, 512)
  | .ob4 => some (4, 256, 256)
  | .bf16 => some (8, 64, 1024)
  | .ob8 => some (8, 128, 512)
  | .fp32 => some (24, 32, 1024)
  | .fp64 => some (64, 16, 1024)
  | _ => none

def rowCycles (t : Fmt) : Nat := ((macFmt t).map fun q => q.1).getD 1

def isE8 (t : Fmt) : Bool := t == .e4m3 || t == .e5m2
def isOb (t : Fmt) : Bool := t == .ob8 || t == .ob4

/-- The pairing of A, B and accumulator types (R102). -/
def macPair (a b acc : Fmt) : Bool :=
  (a == b || (isE8 a && isE8 b)) && match a with
    | .fp64 => acc == .fp64
    | .fp32 => acc == .fp32 || acc == .fp64
    | .bf16 => acc == .fp32 || acc == .fp64 || acc == .bf16
    | .e4m3 | .e5m2 | .lg6 => acc == .fp32 || acc == .bf16
    | .ob8 | .ob4 => acc == .fp32 || acc == .bf16 || acc == .i32
    | _ => false

/-- Macro slots of an element (R461). -/
def slotsOf (t : Fmt) : Nat := if t.bits = 64 then 4 else if t.bits = 32 then 2 else 1

/-! ## Products and sums (R103 to R107) -/

/-- An operand element. -/
inductive MEl where
  | fl (v : FVal)
  | ob (d : Int) (scale : Nat)
  | lg (sign : Bool) (q : Nat)

/-- One exact product. -/
inductive MTerm where
  | nan (sig : Bool)
  | zeroInf
  | inf (s : Bool)
  | fin (s : Bool) (m : Nat) (e : Int)

def elemOf (t : Fmt) (code : Nat) (side : Nat × Nat) : MEl :=
  if t == .lg6 then .lg (code / 32 % 2 == 1) (code % 32)
  else if isOb t then
    let z : Nat := if t == .ob4 then side.1 % 16 else side.1
    .ob ((code : Int) - (z : Int)) side.2
  else .fl (t.value code)

/-- A resident element: OB elements are held as differences (R465). -/
def elemB (t : Fmt) (v : Int) (scale : Nat) : MEl :=
  if isOb t then .ob v scale else elemOf t v.toNat (0, 0)

/-- A product (R105, R106, R107): `i32` leaves OB scales out, `lgScale` is σ_A + σ_B − 254 of LG6, none for a NaN scale. -/
def mulTerm (i32 : Bool) (lgScale : Option Int) : MEl → MEl → MTerm
  | .ob d sa, .ob e sb =>
    if sa = 255 || sb = 255 then .nan false
    else
      let p := d * e
      .fin (p < 0) p.natAbs (if i32 then 0 else (sa : Int) + (sb : Int) - 254)
  | .lg s q, .lg u r =>
    match lgScale with
    | none => .nan false
    | some k =>
      if q = 0 || r = 0 then .fin false 0 0
      else .fin (s != u) (lgTable ((q + r) % 4)) (((q + r) / 4 : Nat) - 20 + k)
  | .fl a, .fl b =>
    if a.isNan || b.isNan then .nan (a.isSig || b.isSig)
    else match a.mul b with
      | none => .zeroInf
      | some (.inf s) => .inf s
      | some (.fin s m e) => .fin s m e
      | some (.nan _ _ g) => .nan g
  | _, _ => .fin false 0 0

/-- A K-block sum in progress. -/
structure XSum where
  nan : Bool := false
  snan : Bool := false
  zeroInf : Bool := false
  pinf : Bool := false
  ninf : Bool := false
  v : Int := 0
  low : Int := 0
  allNeg : Bool := true
  anyNeg : Bool := false

def XSum.add (x : XSum) : MTerm → XSum
  | .nan g => { x with nan := true, snan := x.snan || g }
  | .zeroInf => { x with zeroInf := true }
  | .inf s => if s then { x with ninf := true } else { x with pinf := true }
  | .fin s m e =>
    let low := min x.low e
    { x with v := x.v * (2 ^ (x.low - low).toNat : Nat) + dyAt s m e low, low := low
             allNeg := x.allNeg && s, anyNeg := x.anyNeg || s }

/-- The default NaN as a value (R84). -/
def nanVal : FVal := .nan false (2 ^ 51) false

/-- The exact sum (R107): what precedes rounding. Where several rows of R107's table hold, the first of them gives the result
and its flag, and the later ones add no NV (DESIGN CHOICE, log 40). -/
def XSum.total (x : XSum) (r : RM) : FVal × Flg :=
  if x.nan then (nanVal, if x.snan then fNV else 0)
  else if x.zeroInf || (x.pinf && x.ninf) then (nanVal, fNV)
  else if x.pinf then (.inf false, 0)
  else if x.ninf then (.inf true, 0)
  else if x.v = 0 then (.fin (if x.allNeg then true else x.anyNeg && r.mode == .rd) 0 0, 0)
  else (.fin (x.v < 0) x.v.natAbs x.low, 0)

def clamp32 (v : Int) : Nat × Flg := Fmt.intResult .i32 true v

/-- An I32 element times a factor (R484). -/
def scaleInt (r : RM) (v : Int) (f : FVal) : Nat × Flg :=
  match f with
  | .nan _ _ _ => (wrapOf 32 v, fNV)
  | .inf s => if v = 0 then (wrapOf 32 v, fNV) else clamp32 (if (s != (v < 0 : Bool)) then -(2 ^ 40 : Nat) else (2 ^ 40 : Nat))
  | .fin s m e =>
    let (x, inexact) := roundToInt r (s != (v < 0 : Bool)) (m * v.natAbs) e
    let (c, g) := clamp32 x
    (c, g ||| (if inexact then fNX else 0))

/-- A value times a factor, exactly; a NaN factor gives the default NaN (R484). -/
def scaleVal (v f : FVal) : FVal × Flg :=
  if f.isNan then (nanVal, if f.isSig || v.isSig then fNV else 0)
  else match v with
    | .nan s p g => (.nan s p false, if g then fNV else 0)
    | _ => match v.mul f with
      | some w => (w, 0)
      | none => (nanVal, fNV)

/-- An accumulator element times a factor, rounded once (R484). -/
def scaleElem (t : Fmt) (r : RM) (code : Nat) (f : FVal) : Nat × Flg :=
  if t == .i32 then scaleInt r (sgnOf 32 code) f
  else
    let (v, g) := scaleVal (t.value code) f
    let (c, h) := t.ofValue r false v
    (c, g ||| h)

/-- 2^e as a factor. -/
def pow2Val (e : Int) : FVal := .fin false 1 e

/-- The output exponent adjust (R475, R488). -/
def adjust (t : Fmt) (r : RM) (ea : Int) (c : Nat × Flg) : Nat × Flg :=
  if ea = 0 then c
  else
    let (d, g) := scaleElem t r c.1 (pow2Val ea)
    (d, c.2 ||| g)

/-- An accumulator element after a K-block (R103, R105, R107): `start` is its code before, none under ZA. -/
def macElem (t : Fmt) (r : RM) (ea : Int) (factor : Option FVal) (start : Option Nat) (x : XSum) : Nat × Flg :=
  if t == .i32 then
    if x.nan then (start.getD 0, fNV)
    else adjust t r ea (match factor with
      | some f => scaleInt r x.v f
      | none => clamp32 x.v)
  else
    match start.map t.value with
    | some (.nan s p g) => (t.ff.nan s p, if g then fNV else 0)
    | _ =>
      let (v, g) := x.total r
      let (w, h) := match factor with
        | some f => scaleVal v f
        | none => (v, 0)
      let (c, k) := t.ofValue r false w
      adjust t r ea (c, g ||| h ||| k)

/-- The sum with the accumulator's element as its first term. -/
def startSum (t : Fmt) : Option Nat → XSum
  | none => {}
  | some code =>
    if t == .i32 then ({} : XSum).add (.fin (sgnOf 32 code < 0) (sgnOf 32 code).natAbs 0)
    else match t.value code with
      | .fin s m e => ({} : XSum).add (.fin s m e)
      | .inf s => ({} : XSum).add (.inf s)
      | .nan _ _ _ => {}

/-! ## Reading (R458, R459) -/

/-- A granule as the matrix engine reads it in a cycle: the writes that land by then, and every result of the instructions
that it follows (R459). -/
def Ctx.mlook (x : Ctx) (t : Nat) (prev : List Nat) (g : Nat) : Gran :=
  (sortLands (x.lands.filter fun l =>
    (l.due ≤ t || prev.contains l.run) && match l.act with
      | .gran k _ _ _ _ => k == g
      | _ => false)).foldl (fun a l =>
    match l.act with
    | .gran _ d m ty f => a.write t d m ty f l.hist
    | _ => a) (x.granAt g)

/-- A granule that an earlier instruction of the engine will write: its tag then, and whether it counts as full. -/
abbrev Fwd := List (Nat × Fmt × Bool)

/-- What the previous matrix instruction still has to land (R459). -/
def Ctx.forwarded (x : Ctx) : Fwd :=
  (x.lands.filter fun l => x.m.lastRuns.contains l.run).filterMap fun l =>
    match l.act with
    | .gran g _ _ t f => some (g, t, f && x.m.lastFull)
    | _ => none

def fwdTag (w : Fwd) (g : Nat) : Option Fmt := (w.reverse.find? fun p => p.1 == g).map fun p => p.2.1
def fwdFull (w : Fwd) (g : Nat) : Bool := w.any fun p => p.1 == g && p.2.2

/-- The granule counts as full for a block or trap read. -/
def State.mFull (s : State) (c : Nat) (w : Fwd) (g : Nat) : Bool := s.fullAt c g || fwdFull w g

def State.mWaits (s : State) (c sync : Nat) (w : Fwd) (gs : List Nat) : Bool :=
  (sync == syncBlock && gs.any fun g => !s.mFull c w g) || (sync == syncConsume && gs.any fun g => !s.fullAt c g || s.taken c g)

/-- The first granule in address order whose tag is not the one required (R56). -/
def State.mBadTag (s : State) (c : Nat) (w : Fwd) (l : List (Nat × Fmt)) : Option Nat :=
  minNat ((l.filter fun p => (fwdTag w p.1).getD (((s.ctx c).granLook p.1 s.cycle).tag) != p.2).map Prod.fst)

/-- Bit ranges overlap. -/
def rangesMeet (a b : List (Nat × Nat)) : Bool := a.any fun p => b.any fun q => p.1 < q.1 + q.2 && q.1 < p.1 + p.2

/-- R459: an instruction that names bytes that the previous one writes waits for the second cycle after it. -/
def State.tooEarly (s : State) (c : Nat) (l : List (Nat × Nat)) : Bool :=
  s.cycle < (s.eng c .m).lastEnd + 2 && rangesMeet (s.eng c .m).lastWrites l

def TileView.ranges (v : TileView) : List (Nat × Nat) := (List.range v.rows).map fun i => (v.bitOf i 0, v.cols * v.ty.bits)
def TileView.sideRanges (v : TileView) : List (Nat × Nat) := if v.isOb then [(v.sideBit 0, 16 * v.blocks)] else []
def AccView.ranges (v : AccView) (n : Nat) : List (Nat × Nat) :=
  let per := 32768 / v.ty.bits
  (List.range v.count).flatMap fun i =>
    (v.bitOf i 0, min n per * v.ty.bits) :: (if n ≤ per then [] else [(v.bitOf i per, (n - per) * v.ty.bits)])

/-! ## Rows (R475, R484, R488) -/

/-- Side entry n of a tile. -/
def TileView.sideAt (v : TileView) (look : Nat → GranBits) (n : Nat) : Nat × Nat :=
  let e := (readElems look 16 1 (v.sideBit n) 1).headD 0
  (e % 256, e / 256)

/-- Element (i, j) of a tile. -/
def TileView.elem (v : TileView) (look : Nat → GranBits) (i j : Nat) : Nat := (readElems look v.ty.bits 1 (v.bitOf i j) 1).headD 0

/-- Elements with the side entries of their blocks of 32. -/
def withSides (t : Fmt) (sides : Nat → Nat × Nat) (l : List Nat) : List MEl :=
  (List.zip (List.range l.length) l).map fun (k, code) => elemOf t code (sides (k / 32))

/-- Row i of A, in the order of A's columns (R475, R280). -/
def KPart.columns (p : KPart) (look : Nat → GranBits) (i : Nat) : List MEl :=
  let v := tileOf p.a
  if p.popped then
    let r := nth p.rows i {}
    withSides p.fmt (fun b => nth r.side b (0, 0)) (sliceElems p.fmt.bits p.k r.data.toNat)
  else match p.accA with
    | some w => withSides p.fmt (fun _ => (0, 0)) ((accOf w).readRow look i p.k)
    | none =>
      if p.ta then (List.range p.k).map fun k =>
        elemOf p.fmt (v.elem look k i) (if isOb p.fmt then v.sideAt look (k * v.rowBlocks + i / 32) else (0, 0))
      else withSides p.fmt (fun b => if isOb p.fmt then v.sideAt look (i * v.rowBlocks + b) else (0, 0)) (v.readRow look i)

/-- Row i of A as it enters the macro rows. -/
def KPart.row (p : KPart) (look : Nat → GranBits) (i : Nat) : List MEl :=
  let l := p.columns look i
  if p.route.isEmpty then l else p.route.map fun k => nth l k (.fl (.fin false 0 0))

/-- Row k of the resident B. -/
def KPart.rowB (p : KPart) (n k : Nat) : List MEl :=
  let nb := ceilDiv n 32
  (List.zip (List.range n) ((p.elems.drop (k * n)).take n)).map fun (j, v) => elemB p.bfmt v (nth p.scales (k * nb + j / 32) 0)

/-- σ_A + σ_B − 254 of LG6 (R106): 0x7F where no scale is supplied. -/
def lgScaleOf (a b : List Nat) (i j : Nat) : Option Int :=
  let x := nth a i 0x7F
  let y := nth b j 0x7F
  if x = 255 || y = 255 then none else some ((x : Int) + (y : Int) - 254)

/-- Adds a macro row's products to the sums of the columns. -/
def addProducts (i32 : Bool) (lg : Nat → Option Int) (a : MEl) : Nat → List XSum → List MEl → List XSum
  | j, x :: xs, b :: bs => x.add (mulTerm i32 (lg j) a b) :: addProducts i32 lg a (j + 1) xs bs
  | _, xs, _ => xs

/-- The sums of a row over a part of the K range. -/
def KPart.accumulate (p : KPart) (i32 : Bool) (lg : Nat → Option Int) (n : Nat) : Nat → List MEl → List XSum → List XSum
  | _, [], xs => xs
  | k, a :: as, xs => p.accumulate i32 lg n (k + 1) as (addProducts i32 lg a 0 xs (p.rowB n k))

/-- Rounding of a matrix instruction (R457). -/
def matRm (rnd : Nat) : RM := { mode := rndOf rnd }

def factorVal (r : MatRun) : Option FVal := r.factor.map fun w => Fmt.value .fp64 w.toNat

/-- The result of row i: the codes of its columns, and the flags. -/
def MatRun.row (r : MatRun) (look : Nat → GranBits) (i : Nat) : List Nat × Flg :=
  let av := accOf r.acc
  let rm := matRm r.rnd
  let fin (l : List (Nat × Flg)) : List Nat × Flg := (l.map Prod.fst, l.foldl (fun g x => g ||| x.2) 0)
  match r.kind with
  | .mma =>
    let starts : List (Option Nat) :=
      if r.za then List.replicate r.n none else (av.readRow look i r.n).map some
    let sums := r.parts.foldl (fun xs p =>
      p.accumulate (av.ty == .i32) (fun j => lgScaleOf r.lgA r.lgB i j) r.n 0 (p.row look i) xs)
      (starts.map (startSum av.ty))
    fin ((List.zip starts sums).map fun (st, x) => macElem av.ty rm r.ea (factorVal r) st x)
  | .mscl => fin ((av.readRow look i r.n).map fun c => scaleElem av.ty rm c ((factorVal r).getD (pow2Val r.ea)))
  | .mwb =>
    let t := (tileOf r.dst).ty
    fin ((av.readRow look i r.n).map fun c =>
      let (x, g) := adjust av.ty rm r.ea (c, 0)
      match factorVal r with
      | some f =>
        let (w, h) := scaleVal (av.ty.value x) f
        let (y, k) := t.ofValue rm r.sat w
        (y, g ||| h ||| k)
      | none =>
        let (y, k) := castValue av.ty t rm r.sat x
        (y, g ||| k))

/-- What a row writes: its parts, their tag and whether they fill. -/
def MatRun.placed (r : MatRun) (i : Nat) (l : List Nat) : List GranPart × Fmt × Bool :=
  match r.kind with
  | .mwb => ((tileOf r.dst).writeRow i l, (tileOf r.dst).ty, r.sync != syncPlain)
  | _ => ((accOf r.acc).writeRow i l, (accOf r.acc).ty, true)

/-- Cycles from a row's read to its landing (R460). -/
def MatRun.lag (r : MatRun) : Nat :=
  match r.kind with
  | .mma => 13
  | .mscl => 4
  | .mwb => 39

/-! ## Landing of rows (R47, R460) -/

/-- Schedules a result for a cycle. -/
def State.landDue (s : State) (c : Nat) (e : Engine) (due : Nat) (a : Land) (h : List Acc) (run : Nat) : State :=
  let t : State := { s with seqNext := s.seqNext + 1 }
  t.modCtx c fun x => { x with lands := x.lands ++ [{ due := due, eng := e, seq := s.seqNext, act := a, hist := h, run := run }] }

def State.landMany (s : State) (c : Nat) (due : Nat) (tag : Fmt) (fill : Bool) (h : List Acc) (run : Nat) (ps : List GranPart) :
    State :=
  ps.foldl (fun t p => t.landDue c .m due (.gran p.g p.data p.sel tag fill) h run) s

/-- The encoded bytes of a row. -/
def rowBytesOf (b : Nat) (l : List Nat) : List Byte := bytesOfNat (l.length * b / 8) (packElems b l)

/-- A run whose factor register is read with its first row (R287). -/
def MatRun.atIssue (r : MatRun) (x : Ctx) : MatRun :=
  match r.factorReg with
  | some k => { r with factor := some (x.sr k), factorReg := none }
  | none => r

/-- A row of a matrix instruction reads its operands and forms its result in a cycle. -/
def State.matrixRow (s : State) (c n row due : Nat) : State :=
  let x := s.ctx c
  match tget x.mats n with
  | none => s
  | some q =>
    let r := q.atIssue x
    let (l, g) := r.row (fun k => (x.mlook due r.prev k).bytes) row
    let s1 := s.modCtx c fun y =>
      ({ y with mats := if (accOf r.acc).count ≤ row + 1 then tdel y.mats n else tset y.mats n r }).raiseFlags s.cycle g
    match r.port with
    | some p =>
      let t := ((s.ctx c).port? p).elim Fmt.raw Port.ty
      let w := BitVec.ofNat 32768 (packElems t.bits l)
      (s1.fillPush (r.op + row) w).landDue c .m (r.landAt.getD (due + r.lag)) (.push p (r.op + row) w) r.hist n
    | none =>
      if r.op != 0 then s1.modOp r.op fun o => { o with data := o.data ++ rowBytesOf (tileOf r.dst).ty.bits l }
      else
        let (ps, tag, fill) := r.placed row l
        s1.landMany c (r.landAt.getD (due + r.lag)) tag fill r.hist n ps

/-- The order in which the results of a context take effect: a row of a matrix instruction reads after every write of its
cycle has been applied (R47). -/
def landKey (a b : Landing) : Bool :=
  let row (l : Landing) : Nat := match l.act with
    | .matrixRow _ _ => 1
    | _ => 0
  a.due < b.due || (a.due == b.due && (row a < row b || (row a == row b && landBefore a b)))

def insertKey (a : Landing) : List Landing → List Landing
  | [] => [a]
  | b :: l => if landKey a b then a :: b :: l else b :: insertKey a l

def sortKeys (l : List Landing) : List Landing := l.foldr insertKey []

def State.applyOne (s : State) (c : Nat) (l : Landing) : State :=
  match l.act with
  | .matrixRow n row => s.matrixRow c n row l.due
  | _ => s.modCtx c fun x => x.applyLand s.cycle l

/-- Every result due by a cycle takes effect; results that these form and that are due as well follow. -/
def State.applyDue (s : State) (c now : Nat) : Nat → State
  | 0 => s
  | f + 1 =>
    let l := (s.ctx c).lands.filter fun x => x.due ≤ now
    if l.isEmpty then s
    else
      let t := s.modCtx c fun x => { x with lands := x.lands.filter fun y => now < y.due }
      ((sortKeys l).foldl (fun u y => u.applyOne c y) t).applyDue c now f

/-- RESULT_WRITE: the results due in this cycle land (R47). -/
def execResultWrite (ctx : Nat) (s : State) : Host.Outcome State Fault Refusal := .next (s.applyDue ctx s.cycle 4)

/-- Every result in flight of a context lands: its unit's stream has ended (R507). -/
def State.landAll (s : State) (c : Nat) : State := s.applyDue c (s.cycle + 2 ^ 40) 4

/-! ## Plans -/

/-- A matrix instruction that may issue: its reads by cycle, the bits that it names and writes, its rows, its fixed results
and what else it does. -/
structure MPlan where
  occ : Nat
  cross : List (Nat × List Nat) := []
  writes : List (Nat × Nat) := []
  run : Option MatRun := none
  /-- Offset of a row's read; row i is group i of `cross`. -/
  rowAt : Nat → Nat := fun _ => 0
  /-- Consume-marked granules with the group of their last read. -/
  empties : List (Nat × Nat) := []
  fixed : List (Nat × List GranPart × Fmt) := []
  mark : List Nat := []
  markSync : Nat := 0
  hand : List Acc := []
  pops : Option (Nat × Nat) := none
  full : Bool := true
  /-- What it does beyond register results, given the cycle of its issue. -/
  effect : State → Nat → State := fun s _ => s
  chk : Checked := fun _ => none

/-- What the checks of a matrix instruction give. -/
inductive MRes where
  | trap (s : State) (t : Trap)
  | hold (st : EngState) (h : Hold)
  | ready (p : MPlan)

/-- The last group that reads each granule. -/
def lastGroups (l : List (List Nat)) : List (Nat × Nat) :=
  (List.zip (List.range l.length) l).foldl (fun a q => q.2.foldl (fun b g => tset b g q.1) a) []

/-- Offset of a plan in a group: the occupancy of those before it. -/
def planOffsets : Nat → List MPlan → List (Nat × MPlan)
  | _, [] => []
  | off, p :: l => (off, p) :: planOffsets (off + p.occ) l

/-- Splits the delays of the groups among the plans. -/
def planDelays : List (Nat × MPlan) → List Nat → Nat → List (Nat × MPlan × List Nat × Nat)
  | [], _, _ => []
  | (off, p) :: l, ds, d =>
    let mine := ds.take p.cross.length
    let last := mine.getLast?.getD d
    (off, p, mine, last) :: planDelays l (ds.drop p.cross.length) last

/-- The cycle in which a plan's last result lands, issue being `now`. -/
def MPlan.lastLand (p : MPlan) (now off delay : Nat) : Nat :=
  let rows := match p.run with
    | some r => match r.kind with
      | .mwb => now + off + delay + 39 + (accOf r.acc).count
      | _ => now + off + delay + p.rowAt ((accOf r.acc).count - 1) + r.lag
    | none => 0
  p.fixed.foldl (fun n q => max n (now + off + delay + q.1)) rows

/-- One plan is committed: its rows and fixed results are scheduled. -/
def State.commitPlan (s : State) (c : Nat) (prev : List Nat) (landAt : Option Nat) (q : Nat × MPlan × List Nat × Nat) : State :=
  let (off, p, ds, last) := q
  let n := (s.eng c .m).runNext
  let h := s.histOf c .m
  let s1 := (s.addHist c .m p.hand).modCtx c fun x =>
    (match p.pops with
      | some (k, m) => (List.range m).foldl (fun (y : Ctx) _ => y.popPort k) x
      | none => x).modEng .m fun e => { e with runNext := n + 1, lastRuns := [n], lastWrites := p.writes, lastFull := p.full }
  let s2 := s1.markEmpty c p.markSync p.mark
  let s3 := p.empties.foldl (fun t e =>
    t.landDue c .m (s.cycle + (nth p.cross e.2 (off, [])).1 + nth ds e.2 0 + 1) (.empty e.1) [] 0) s2
  let s4 := match p.run with
    | none => s3
    | some r =>
      let at_ := match landAt, r.kind with
        | some t, _ => some t
        | none, .mwb => some (s.cycle + off + last + 39 + (accOf r.acc).count)
        | none, _ => none
      let s5 := s3.modCtx c fun x => { x with mats := tset x.mats n { r with prev := prev, landAt := at_, hist := h } }
      (List.range (accOf r.acc).count).foldl (fun t i =>
        t.landDue c .m (s.cycle + off + p.rowAt i + nth ds i last) (.matrixRow n i) [] 0) s5
  let s6 := p.fixed.foldl (fun t f =>
    t.landMany c (landAt.getD (s.cycle + off + last + f.1)) f.2.2 true h n f.2.1) s4
  p.effect s6 (s.cycle + off + last)

/-- Several plans are committed as one (R287, R460, R69); one plan alone is an instruction. -/
def State.commitPlans (s : State) (c : Nat) (ps : List MPlan) : State :=
  let offs := planOffsets 0 ps
  let groups := offs.flatMap fun (off, p) => p.cross.map fun (k, gs) => (off + k, gs)
  let (a, _, ds) := Arb.run s.cycle (s.ctx c).base (s.arb c) groups
  let qs := planDelays offs ds 0
  let landAt : Option Nat :=
    if ps.length < 2 then none
    else some (qs.foldl (fun n q => max n (q.2.1.lastLand s.cycle q.1 q.2.2.2)) (s.cycle + 1))
  let occ := ps.foldl (fun n p => n + p.occ) 0
  let old := (s.eng c .m).lastRuns
  let (t, runs, ws) := qs.foldl (fun (st : State × List Nat × List (Nat × Nat)) q =>
    let (s1, prev, ws) := st
    let n := (s1.eng c .m).runNext
    (s1.commitPlan c (if q.1 = 0 then old else prev) landAt q, if q.1 = 0 then [n] else prev ++ [n], ws ++ q.2.1.writes))
    (s.bankCommit c a, [], [])
  let streams := qs.foldl (fun n q => match q.2.1.run with
    | some { kind := .mma, .. } => max n (s.cycle + q.1 + q.2.1.occ + q.2.2.2)
    | _ => n) 0
  if occ = 0 then t
  else ((t.modEng c .m fun e => { e with lastRuns := runs, lastWrites := ws }).modCore (coreOf c) fun k =>
    { k with stream := max k.stream streams }).occupy c .m (occ + a.delay)

/-- A matrix instruction that issues alone. -/
def matFinish (i : Instr) (s : State) (r : MRes) : Host.Outcome State Fault Refusal :=
  match r with
  | .trap t tr => finish i s (.trap t tr)
  | .hold st h => finish i s (.wait s st h)
  | .ready p => finishWith i s p.chk (.done (s.commitPlans s.focus [p]))

/-! ## Checked values (R613) -/

/-- Elements of an accumulator row. -/
def accChecked (av : AccView) (row : Unit → List Nat) : Checked := fun l =>
  match (row ()).drop l with
  | [] => none
  | v :: _ => some (av.bitOf 0 l / 2048, if av.ty == .i32 then residue7 v else residue7 (FF.significand av.ty.ff v))

/-- 4-byte groups of a row of codes of b bits. -/
def groupChecked (b : Nat) (gran : Nat → Nat) (row : Unit → List Nat) : Checked := fun l =>
  let per := max 1 (32 / b)
  if l % per != 0 then none
  else match (row ()).drop l with
    | [] => none
    | r => some (gran l, residue7 (packElems b (r.take per) % 2 ^ 32))

/-! ## MMA (R474 to R476) -/

/-- Where a part of A comes from, before its operands are checked. -/
structure ASrc where
  tile : Word := 0
  ta : Bool := false
  acc : Option Word := none
  port : Option Nat := none
  /-- The tile number that names B, and the view it is compared with. -/
  b : Nat
  bview : Word
  /-- The resident matrix through which A is routed: its tile, or the context's routing matrix. -/
  route : Option (Option Nat) := none

/-- An MMA to be checked. -/
structure MmaSpec where
  acc : Word
  srcs : List ASrc
  za : Bool
  rnd : Nat
  ea : Int := 0
  factor : Option Word := none
  sa : Nat
  lgA : List Nat := []
  lgB : List Nat := []

/-- The residency of (context, tile) (R461). -/
def State.resident (s : State) (c t : Nat) : Option Resid := (s.core (coreOf c)).resid.find? fun r => r.ctx == c && r.tile == t

/-- The context's routing matrix: its latest pass-mode residency (R461). -/
def State.routing (s : State) (c : Nat) : Option Resid :=
  (s.core (coreOf c)).resid.foldl (fun b r => if r.ctx == c && r.pass then
    (match b with
      | some q => if q.order < r.order then some r else some q
      | none => some r) else b) none

/-- A resident element is the 1 of a routing matrix. -/
def Resid.one (r : Resid) (k j : Nat) : Bool := nth r.elems (k * r.cols + j) 0 != 0

/-- For each macro row r, the column k of A with routing(k, r) = 1. -/
def Resid.route (r : Resid) : List Nat :=
  (List.range r.cols).map fun j => ((List.range r.rows).find? fun k => r.one k j).getD r.rows

/-- One part checked for VIEW: the part, and the load that it must wait for. -/
def State.mmaPart (s : State) (c : Nat) (m : Nat) (a : ASrc) : Option (KPart × Bool) :=
  let x := s.ctx c
  let v := tileOf a.tile
  let bv := tileOf a.bview
  match s.resident c a.b with
  | none => none
  | some b =>
    if bv.rows = 0 || bv.ty != b.fmt || bv.rows != b.rows || bv.cols != b.cols then none
    else
      let late := b.loading.isSome || s.cycle ≤ b.ready
      let rt : Option (List Nat) := match a.route with
        | none => some []
        | some (some t) => (s.resident c t).map Resid.route
        | some none => (s.routing c).map Resid.route
      match rt with
      | none => none
      | some route =>
        let p : KPart :=
          { a := a.tile, ta := a.ta, accA := a.acc, fmt := v.ty, bfmt := b.fmt, k := b.rows, elems := b.elems
            scales := b.scales, route := route }
        match a.port, a.acc with
        | some n, _ => match x.port? n with
          | some q => if q.isSink || a.ta then none else some ({ p with popped := true, fmt := q.ty }, late)
          | none => none
        | none, some w => if (accOf w).count = m && b.rows ≤ (accOf w).cols then some ({ p with fmt := (accOf w).ty }, late) else none
        | none, none =>
          if v.rows = 0 || (if a.ta then v.cols != m || v.rows != b.rows else v.rows != m || v.cols != b.rows) then none
          else some (p, late)

/-- Granules that row i of a part reads, A then side entries. -/
def KPart.grans (p : KPart) (i : Nat) : List Nat :=
  let v := tileOf p.a
  if p.popped then []
  else match p.accA with
    | some w => (accOf w).rowGrans i p.k
    | none =>
      if p.ta then (List.range p.k).foldl (fun l k => insertNew l (v.bitOf k i / 2048)) []
      else v.rowGrans i

/-- Granules of the side entries that row i of a part takes (R60). -/
def KPart.sideRow (p : KPart) (i : Nat) : List Nat :=
  let v := tileOf p.a
  if p.popped || p.accA.isSome || !v.isOb then []
  else
    let es := if p.ta then (List.range p.k).map fun k => k * v.rowBlocks + i / 32 else rangeFrom (i * v.rowBlocks) v.rowBlocks
    es.foldl (fun l n => insertNew l (v.sideBit n / 2048)) []

/-- The granules of A with the tags required of them. -/
def KPart.tags (p : KPart) : List (Nat × Fmt) :=
  let v := tileOf p.a
  if p.popped then []
  else match p.accA with
    | some w => ((accOf w).grans p.k).map fun g => (g, (accOf w).ty)
    | none => v.grans.map (fun g => (g, v.ty)) ++ v.sideGrans.map fun g => (g, Fmt.side)

def KPart.ranges (p : KPart) : List (Nat × Nat) :=
  if p.popped then []
  else match p.accA with
    | some w => (accOf w).ranges p.k
    | none => (tileOf p.a).ranges ++ (tileOf p.a).sideRanges

/-- The rows that a port must deliver, or why not. -/
inductive Pops where
  | rows (l : List PortRow)
  | notYet
  | fault (t : Trap)

/-- The next n rows of a port (R75). -/
def Port.take (p : Port) : Nat → Nat → Pops
  | 0, _ => .rows []
  | n + 1, k =>
    match p.peek k with
    | .notYet => .notYet
    | .ended => .fault (trapOf tBounds)
    | .row r => match r.fault with
      | some t => .fault t
      | none => match p.take n (k + 1) with
        | .rows l => .rows (r :: l)
        | e => e

/-- A residency whose slots hold a value that its residue does not match is read: an error in storage (R252, R253). -/
def upsetTrap (l : List Resid) : Option Trap :=
  (firstSome (fun r : Resid => r.upset) l).map fun e => { code := tMcheck, sub := 1, exp := e.1, act := e.2 }

/-- The residencies that an A operand meets: B, and the matrix through which A is routed. -/
def State.partResids (s : State) (c : Nat) (a : ASrc) : List Resid :=
  (s.resident c a.b).toList ++ match a.route with
    | none => []
    | some (some t) => (s.resident c t).toList
    | some none => (s.routing c).toList

/-- The checks of an MMA and its plan (R475, R476, R458, R460). The granules of side entries are neither waited for nor emptied
under the operand's sync code, for which the spec gives the tile's own granules only (R60; DESIGN CHOICE, log 40). -/
def State.mmaPlan (s : State) (fw : Fwd) (early : Bool) (q : MmaSpec) : MRes :=
  let c := s.focus
  let x := s.ctx c
  let av := accOf q.acc
  let m := av.count
  let parts := q.srcs.map fun a => s.mmaPart c m a
  let n := (tileOf ((q.srcs.head?.map ASrc.bview).getD 0)).cols
  let port := (q.srcs.head?.bind ASrc.port)
  if m = 0 || parts.any Option.isNone || av.cols < n then .trap s (trapOf tView)
  else
    let ps := parts.filterMap id
    let ks := ps.map Prod.fst
    let portBad := match port.bind x.port? with
      | some p => isOb p.ty && p.sideAddr = 0
      | none => false
    if ks.any (fun p => !macPair p.fmt p.bfmt av.ty) || portBad then .trap s (trapOf tFormat)
    else if ps.any Prod.snd then .hold .syncBlocked .residency
    else if early && s.tooEarly c (ks.flatMap KPart.ranges ++ av.ranges n) then .hold .waiting .other
    else
      let ag := ks.foldl (fun l p => unionNat l (p.tags.map Prod.fst)) []
      let marked := ks.foldl (fun l p => if p.popped then l else unionNat l (match p.accA with
        | some _ => []
        | none => (tileOf p.a).grans)) []
      let side := ks.foldl (fun l p => if p.popped || p.accA.isSome then l else unionNat l (tileOf p.a).sideGrans) []
      let cg := if q.za then [] else av.grans n
      let accs := ag.filter fun g => !marked.contains g && !side.contains g
      let pops := match port.bind x.port? with
        | some p => p.take m 0
        | none => .rows []
      let portWaits := match pops with
        | .notYet => true
        | _ => false
      if s.mWaits c q.sa fw marked || s.mWaits c syncBlock fw (cg ++ accs) || portWaits then .hold .syncBlocked .bits
      else match s.mBadTag c fw (ks.flatMap KPart.tags ++ cg.map fun g => (g, av.ty)) with
        | some g => .trap s (trapGran tFormat g)
        | none =>
          match (if q.sa == syncTrap then marked.find? (fun g => !s.mFull c fw g) else none), pops with
          | some g, _ => .trap s (trapGran tEmpty g)
          | none, .fault t => .trap (s.modCtx c fun y => y.retryPort (port.getD 0)) t
          | none, .notYet => .hold .syncBlocked .bits
          | none, .rows rows => match upsetTrap (q.srcs.flatMap (s.partResids c)) with
            | some t => .trap s t
            | none =>
            let cyc := rowCycles ((ks.head?.map KPart.fmt).getD .bf16)
            let run : MatRun :=
              { kind := .mma, acc := q.acc, n := n, za := q.za, rnd := q.rnd, ea := q.ea, factor := q.factor
                parts := ks.map fun p => if p.popped then { p with rows := rows } else p, lgA := q.lgA, lgB := q.lgB }
            let rowAt (i : Nat) : Nat := i * cyc + cyc - 1
            let rg (i : Nat) : List Nat := ks.flatMap fun p => p.grans i
            let look (g : Nat) : GranBits := (x.mlook (s.cycle + cyc - 1) x.m.lastRuns g).bytes
            .ready
              { occ := m * cyc
                cross := (List.range m).map fun i => (rowAt i, rg i ++ ks.flatMap (fun p => p.sideRow i) ++ if q.za then [] else av.rowGrans i n)
                writes := av.ranges n, run := some run, rowAt := rowAt
                empties := if q.sa == syncConsume then
                  (lastGroups ((List.range m).map rg)).filter fun e => marked.contains e.1 else []
                hand := joinAcc (s.handoffs c q.sa marked) (s.handoffs c syncBlock (cg ++ accs))
                pops := port.map fun k => (k, m)
                chk := accChecked av fun _ => (run.row look 0).1 }

/-- The A operand and B of a decoded MMA, with the state that a group gives it (R280). -/
def Ctx.aSrc (x : Ctx) (f : MF) (r : Repl) : ASrc :=
  { tile := tgetD x.captured.t f.fa.toNat tUnset, ta := f.mf.getLsbD 1
    acc := r.accA.map fun a => tgetD x.captured.a a 0
    port := if f.pa then some (f.fa.toNat % 16) else none
    b := f.fb.toNat, bview := tgetD x.captured.t f.fb.toNat tUnset
    route := match r.prTile with
      | some t => some (some t)
      | none => if r.prRouting then some none else none }

/-- Reads a factor register of the group or of MSCL.reg (R484, R280). -/
def Ctx.factor (x : Ctx) (r : Option Nat) : Option Word := r.map x.sr

def mmaSpec (x : Ctx) (f : MF) (r : Repl) : MmaSpec :=
  { acc := tgetD x.captured.a f.fc.toNat 0
    srcs := x.aSrc f r :: r.joined.filterMap fun j => match j with
      | .mma g => some (x.aSrc g { r with accA := none })
      | _ => none
    za := f.mf.getLsbD 0, rnd := f.mf.toNat / 4, ea := r.ea, factor := x.factor r.factor, sa := f.sa.toNat }

/-- MMA (R474). -/
def execMma (f : MF) (s : State) : Host.Outcome State Fault Refusal :=
  let x := s.ctx s.focus
  matFinish (.mma f) s (s.mmaPlan x.forwarded true (mmaSpec x f { ins := .mma f }))

/-! ## MSCL (R483, R484) and MZERO (R491) -/

/-- The plan of a scaling of an accumulator. -/
def State.msclPlan (s : State) (fw : Fwd) (early : Bool) (acc : Word) (rnd : Nat) (e : Int) (factor : Option Word) : MRes :=
  let c := s.focus
  let x := s.ctx c
  let av := accOf acc
  let n := av.cols
  if av.count = 0 then .trap s (trapOf tView)
  else if early && s.tooEarly c (av.ranges n) then .hold .waiting .other
  else
    let cg := av.grans n
    if s.mWaits c syncBlock fw cg then .hold .syncBlocked .bits
    else match s.mBadTag c fw (cg.map fun g => (g, av.ty)) with
      | some g => .trap s (trapGran tFormat g)
      | none =>
        let run : MatRun := { kind := .mscl, acc := acc, n := n, rnd := rnd, ea := e, factor := factor }
        .ready
          { occ := av.count
            cross := (List.range av.count).map fun i => (i, av.rowGrans i n)
            writes := av.ranges n, run := some run, rowAt := id
            hand := s.handoffs c syncBlock cg
            chk := accChecked av fun _ => (run.row (fun g => (x.mlook s.cycle x.m.lastRuns g).bytes) 0).1 }

/-- The exponent of MSCL: ten bits, signed. -/
def msclExp (f : MF) : Int := sgnOf 10 (f.fa.toNat * 32 + f.fb.toNat)

def execMscl (f : MF) (s : State) : Host.Outcome State Fault Refusal :=
  let x := s.ctx s.focus
  matFinish (.mscl f) s (s.msclPlan x.forwarded true (tgetD x.captured.a f.fc.toNat 0) (f.mf.toNat / 4) (msclExp f) none)

def execMsclReg (f : MF) (s : State) : Host.Outcome State Fault Refusal :=
  let x := s.ctx s.focus
  matFinish (.msclReg f) s
    (s.msclPlan x.forwarded true (tgetD x.captured.a f.fc.toNat 0) (f.mf.toNat / 4) 0 (some (x.sr f.fa.toNat)))

/-- +0 in every column of every row (R491). -/
def State.mzeroPlan (s : State) (early : Bool) (acc : Word) : MRes :=
  let c := s.focus
  let av := accOf acc
  let n := av.cols
  if av.count = 0 then .trap s (trapOf tView)
  else if early && s.tooEarly c (av.ranges n) then .hold .waiting .other
  else .ready
    { occ := av.count
      writes := av.ranges n
      fixed := (List.range av.count).map fun i => (1 + i, mergeParts (av.writeRow i (List.replicate n 0)), av.ty)
      chk := groupChecked av.ty.bits (fun l => av.bitOf 0 l / 2048) fun _ => List.replicate n 0 }

def execMzero (f : MF) (s : State) : Host.Outcome State Fault Refusal :=
  matFinish (.mzero f) s (s.mzeroPlan true (tgetD (s.ctx s.focus).captured.a f.fc.toNat 0))

/-! ## MTRN and MXMOV (R485 to R490) -/

/-- A source tile that is read whole in the issue cycle. -/
def State.tileMove (s : State) (fw : Fwd) (early : Bool) (y v : TileView) (sa : Nat) (tags : List (Nat × Fmt))
    (lat : Nat) (rows : (Nat → Gran) → List (List Nat)) (outTag : (Nat → Gran) → Nat → Fmt) : MRes :=
  let c := s.focus
  let x := s.ctx c
  let sg := y.grans
  if early && s.tooEarly c (y.ranges ++ v.ranges) then .hold .waiting .other
  else if s.mWaits c sa fw sg then .hold .syncBlocked .bits
  else match s.mBadTag c fw tags with
    | some g => .trap s (trapGran tFormat g)
    | none =>
      match (if sa == syncTrap then sg.find? (fun g => !s.mFull c fw g) else none) with
      | some g => .trap s (trapGran tEmpty g)
      | none =>
        let look := x.mlook s.cycle x.m.lastRuns
        let l := rows look
        .ready
          { occ := lat
            cross := [(0, sg)]
            writes := v.ranges
            fixed := (List.zip (List.range l.length) l).map fun (i, r) => (8 + lat, v.writeRow i r, outTag look i)
            empties := if sa == syncConsume then sg.map fun g => (g, 0) else []
            hand := s.handoffs c sa sg
            chk := groupChecked v.ty.bits (fun k => v.bitOf 0 k / 2048) fun _ => l.headD [] }

/-- x(i, j) := y(j, i) (R486). -/
def State.mtrnPlan (s : State) (fw : Fwd) (early : Bool) (yw vw : Word) (sa : Nat) : MRes :=
  let y := tileOf yw
  let v := tileOf vw
  if y.rows = 0 || v.rows = 0 || v.rows != y.cols || v.cols != y.rows || v.ty != y.ty then .trap s (trapOf tView)
  else
    s.tileMove fw early y v sa (y.grans.map fun g => (g, y.ty)) (ceilDiv (v.rows * v.cols * v.ty.bits) 8192)
      (fun look => (List.range v.rows).map fun i => (List.range v.cols).map fun j => y.elem (fun g => (look g).bytes) j i)
      (fun _ _ => v.ty)

def execMtrn (f : MF) (s : State) : Host.Outcome State Fault Refusal :=
  let x := s.ctx s.focus
  matFinish (.mtrn f) s
    (s.mtrnPlan x.forwarded true (tgetD x.captured.t f.fa.toNat tUnset) (tgetD x.captured.t f.fb.toNat tUnset) f.sa.toNat)

/-- x(i, j) := y(i, k) for the k with P(k, j) = 1 (R490); no tag is checked. -/
def State.mxmovPlan (s : State) (fw : Fwd) (early : Bool) (yw vw : Word) (sa : Nat) : MRes :=
  let y := tileOf yw
  let v := tileOf vw
  match s.routing s.focus with
  | none => .trap s (trapOf tView)
  | some p =>
    if y.rows = 0 || v.rows = 0 || y.cols != p.rows || v.cols != p.cols || v.rows != y.rows || v.ty != y.ty then
      .trap s (trapOf tView)
    else if p.loading.isSome || s.cycle ≤ p.ready then .hold .syncBlocked .residency
    else
      let lat := v.rows * ceilDiv (max y.cols v.cols * v.ty.bits) 8192
      match upsetTrap [p] with
      | some t => .trap s t
      | none => s.tileMove fw early y v sa [] lat
        (fun look => (List.range v.rows).map fun i => p.route.map fun k =>
          if k < p.rows then y.elem (fun g => (look g).bytes) i k else 0)
        (fun look i => (look (y.bitOf i 0 / 2048)).tag)

def execMxmov (f : MF) (s : State) : Host.Outcome State Fault Refusal :=
  let x := s.ctx s.focus
  matFinish (.mxmov f) s
    (s.mxmovPlan x.forwarded true (tgetD x.captured.t f.fa.toNat tUnset) (tgetD x.captured.t f.fb.toNat tUnset) f.sa.toNat)

/-! ## MWB (R487, R488) -/

def wbType (t : Fmt) : Bool := t == .fp64 || t == .fp32 || t == .bf16 || t == .e4m3 || t == .e5m2 || t == .i32

/-- The checks of a writeback up to its waits; the plan without its destination. -/
def State.mwbPlan (s : State) (fw : Fwd) (early : Bool) (acc dst : Word) (rnd : Nat) (sat : Bool) (ea : Int)
    (factor : Option Word) (sa : Nat) (mem : Option Nat) (effect : MatRun → State → Nat → State) : MRes :=
  let c := s.focus
  let x := s.ctx c
  let av := accOf acc
  let v := tileOf dst
  if av.count = 0 || v.rows != av.count || av.cols < v.cols || !wbType v.ty then .trap s (trapOf tView)
  else if early && s.tooEarly c (av.ranges v.cols ++ if mem.isSome then [] else v.ranges) then .hold .waiting .other
  else
    let cg := av.grans v.cols
    let dg := if mem.isSome then [] else v.grans
    if s.mWaits c syncBlock fw cg || s.writeWaits c sa dg then .hold .syncBlocked .bits
    else match s.mBadTag c fw (cg.map fun g => (g, av.ty)) with
      | some g => .trap s (trapGran tFormat g)
      | none => match s.writeEmpty c sa dg with
        | some g => .trap s (trapGran tEmpty g)
        | none =>
          if mem.any fun a => a % (v.ty.bits / 8) != 0 then .trap s (trapAt tAlign (mem.getD 0))
          else
            let run : MatRun :=
              { kind := .mwb, acc := acc, n := v.cols, rnd := rnd, sat := sat, ea := ea, factor := factor, dst := dst, sync := sa }
            .ready
              { occ := av.count
                cross := (List.range av.count).map fun i => (i, av.rowGrans i v.cols)
                writes := if mem.isSome then [] else v.ranges
                run := some run, rowAt := id
                mark := dg.filter fun _ => sa != syncTrap, markSync := sa
                hand := s.handoffs c syncBlock cg
                full := false
                effect := effect run
                chk := groupChecked v.ty.bits (fun l => if mem.isSome then 0 else v.bitOf 0 l / 2048)
                  fun _ => (run.row (fun g => (x.mlook s.cycle x.m.lastRuns g).bytes) 0).1 }

def execMwb (f : MF) (s : State) : Host.Outcome State Fault Refusal :=
  let x := s.ctx s.focus
  matFinish (.mwb f) s
    (s.mwbPlan x.forwarded true (tgetD x.captured.a f.fc.toNat 0) (tgetD x.captured.t f.fb.toNat tUnset) (f.mf.toNat / 4)
      (f.mf.getLsbD 1) 0 none f.sa.toNat none fun _ t _ => t)

/-- The memory form puts an operation in flight that stores the rows once they are read; its promise is 0. Where its rows lie is
known at issue, for the order of R197. -/
def mwbMemEffect (i : Instr) (t : Tok) (va : Nat) (r : MatRun) (s : State) (_ : Nat) : State :=
  let c := s.focus
  let v := tileOf r.dst
  let row (k : Nat) : List Seg := match s.range (coreOf c) .write (va + k * (v.stride * 32)) (v.cols * v.ty.bits / 8) with
    | .ok l => l
    | .error _ => []
  let o : Op := { s.newOp .m i .async with
    writes := true, va := va, v1 := r.dst, v2 := BitVec.ofNat 64 (accOf r.acc).count
    segs := (List.range (accOf r.acc).count).flatMap row }
  let (s1, n) := s.asyncOp t 0 o
  s1.modCtx c fun x =>
    { x with mats := tmod x.mats (x.m.runNext - 1) { kind := .mwb, acc := 0, n := 0 } fun r => { r with op := n } }

def State.mwbMemPlan (s : State) (fw : Fwd) (early : Bool) (i : Instr) (f : MF) (t : Tok) (r : Repl) : MRes :=
  let x := s.ctx s.focus
  let va := (x.sr f.fa.toNat).toNat
  s.mwbPlan fw early (tgetD x.captured.a f.fc.toNat 0) (tgetD x.captured.t f.fb.toNat tUnset) (f.mf.toNat / 4) (f.mf.getLsbD 1)
    r.ea (x.factor r.factor) syncPlain (some va) (mwbMemEffect i t va)

def execMwbMem (f : MF) (t : Tok) (s : State) : Host.Outcome State Fault Refusal :=
  let i : Instr := .mwbMem f t
  if s.tokensReady s.focus t then
    matFinish i s (s.mwbMemPlan (s.ctx s.focus).forwarded true i f t { ins := i })
  else finish i s (.wait s .waiting .other)

/-- The rows of a memory writeback as addresses and bytes (R488). -/
def mwbRows (va stride len : Nat) : Nat → List Byte → List (Nat × List Byte)
  | 0, _ => []
  | n + 1, bs => (va, bs.take len) :: mwbRows (va + stride * 32) stride len n (bs.drop len)

end Sys2Proof.Machine
end

