-- ==== Sys2Proof/Machine/MatLoad.lean ====
section
/-! DEFINITION. Residencies and gangs: MBLD (17_ref_m_p.md R464 to R467), MGANG (R468 to R471) and MKAT (R472, R473), with
the events that complete their loads (R461, R466). -/
namespace Sys2Proof.Machine

/-! ## Residencies (R461) -/

def Resid.slots (r : Resid) : Nat := r.rows * r.cols * slotsOf r.fmt

/-- The range of slots from n on overlaps none of the residencies. -/
def slotsFree (l : List Resid) (n len : Nat) : Bool :=
  n + len ≤ 65536 && l.all fun r => n + len ≤ r.slot || r.slot + r.slots ≤ n

/-- Drops the residencies loaded earliest until len slots are free (R461). -/
def dropEarliest (len : Nat) : List Resid → List Resid
  | [] => []
  | r :: l => if 65536 < len + ((r :: l).foldl (fun n q => n + q.slots) 0) then dropEarliest len l else r :: l

/-- Where the slots of a new residency begin: the lowest place where they fit (log 29). -/
def placeSlots (l : List Resid) (len : Nat) : Nat :=
  (((0 :: l.map fun r => r.slot + r.slots).filter fun n => slotsFree l n len).foldl (fun (b : Option Nat) n =>
    match b with
    | some m => some (min m n)
    | none => some n) none).getD 0

/-- Records a residency: it replaces that of its pair, and those loaded earliest make room (R461). -/
def State.addResid (s : State) (core : Nat) (r : Resid) : State :=
  s.modCore core fun k =>
    let l := dropEarliest r.slots (k.resid.filter fun q => !(q.ctx == r.ctx && q.tile == r.tile))
    { k with resid := l ++ [{ r with slot := placeSlots l r.slots, order := k.residNext }], residNext := k.residNext + 1 }

/-- The elements of a tile in row-major order, those of OB8 and OB4 as differences, with the scales of its blocks
(R465, R105). -/
def tileResid (v : TileView) (look : Nat → GranBits) (row : Nat → List Nat) : List Int × List Nat :=
  let ob := isOb v.ty
  let side (i b : Nat) : Nat × Nat := if ob then v.sideAt look (i * v.rowBlocks + b) else (0, 0)
  let elems (i : Nat) : List Int :=
    let l := row i
    (List.zip (List.range l.length) l).map fun (j, c) =>
      if ob then
        let z : Nat := if v.ty == .ob4 then (side i (j / 32)).1 % 16 else (side i (j / 32)).1
        (c : Int) - (z : Int)
      else (c : Int)
  ((List.range v.rows).flatMap elems,
   if ob then (List.range v.rows).flatMap fun i => (List.range v.rowBlocks).map fun b => (side i b).2 else [])

/-- The code of the value 1 (R465). -/
def oneCode (t : Fmt) : Nat :=
  if t.isFloat then (t.ofValue {} false (.fin false 1 0)).1
  else if t == .e8m0 then 127
  else if t == .lg6 then 16
  else 1

/-- Element (k, j) is zero or the value 1: of OB8 and OB4 the difference at its block's scale, which is 1 as a difference of
2 ^ (127 − σ) (R465, R87; log 40). -/
def passElem (v : TileView) (scales : List Nat) (k j : Nat) (e : Int) : Bool :=
  e == 0 || (if isOb v.ty then
      let sigma := nth scales (k * v.rowBlocks + j / 32) 0
      sigma ≤ 127 && e == (2 ^ (127 - sigma) : Nat)
    else e == oneCode v.ty)

/-- A routing matrix holds zeros and ones, at most one 1 in a column (R465). -/
def passBad (v : TileView) (d : List Int × List Nat) : Bool :=
  let l := d.1
  (List.range v.rows).any (fun k => (List.range v.cols).any fun j => !passElem v d.2 k j (nth l (k * v.cols + j) 0))
  || (List.range v.cols).any fun j => 1 < ((List.range v.rows).filter fun k => nth l (k * v.cols + j) 0 != 0).length

/-- Cycles from issue to the completion of a register source's load (R460). -/
def loadTime (v : TileView) : Nat := 8 + 4 * ceilDiv (v.rows * v.cols * slotsOf v.ty) 1024

/-- VIEW of a load's view (R465). -/
def loadView (v : TileView) (pass : Bool) : Bool :=
  v.rows = 0 || v.ty == .raw || v.ty == .side
  || if pass then 64 < v.rows || 1024 < v.cols else (macFmt v.ty).any fun q => q.2.1 < v.rows || q.2.2 < v.cols

/-- FORMAT of a load's view (R465). -/
def loadFormat (v : TileView) (pass : Bool) : Bool := !pass && (macFmt v.ty).isNone

/-! ## Gangs (R469) -/

/-- The gang that a context has joined and that is formed. -/
def State.gangOf (s : State) (c : Nat) : Option (Nat × Gang) :=
  (s.cluster (clusterOf (coreOf c))).gangs.find? fun (_, g) => g.formed && g.members.contains c

/-- The member whose source is read (R466). -/
def Gang.source (g : Gang) : Nat := g.members.foldl Nat.min (g.members.headD 0)

/-- The number of a member's next load in its gang. -/
def State.nextLoad (s : State) (c : Nat) : State × Option (Nat × Nat) :=
  match s.gangOf c with
  | some (id, g) =>
    let n := tgetD g.loads c 0
    (s.modCluster (clusterOf (coreOf c)) fun k => { k with gangs := tset k.gangs id { g with loads := tset g.loads c (n + 1) } },
     some (id, n))
  | none => (s, none)

/-- The context's own source is read for its loads. -/
def State.readsSource (s : State) (c : Nat) : Bool :=
  match s.gangOf c with
  | some (_, g) => g.source == c
  | none => true

/-! ## MBLD -/

/-- The load is put in flight with its residency. -/
def loadEffect (i : Instr) (t : Tok) (tile : Nat) (v : TileView) (w : Word) (pass : Bool) (promise : Bool) (also : List Nat)
    (data : List Int × List Nat) (fault : Option Trap) (park : Option Trap) (s : State) (now : Nat) : State :=
  let c := s.focus
  let (s1, gang) := s.nextLoad c
  let due := now + loadTime v
  let o : Op := { s1.newOp .m i .async with
    due := due, gang := gang, fault := fault, v1 := w, also := also, reads := false }
  let (s2, n) := s1.asyncOp t (if promise then due else 0) o
  let s3 := also.foldl (fun u k => u.claim c k n (if promise then due else 0) 0) s2
  let s4 := s3.addResid (coreOf c)
    { ctx := c, tile := tile, fmt := v.ty, rows := v.rows, cols := v.cols, pass := pass, slot := 0, order := 0
      loading := some n, elems := data.1, scales := data.2 }
  match park, s4.op? n with
  | some tr, some o1 => (s4.modOp n fun p => { p with v3 := 1 }).parkOp n o1 tr
  | _, _ => s4

/-- The rows of a port as elements (R465): OB codes take the entries of the view's side rows. -/
def portRowsOf (v : TileView) (l : List PortRow) (i : Nat) : List Nat := sliceElems v.ty.bits v.cols (nth l i {}).data.toNat

/-- The checks of a load from register space or a port, and its plan. `f` gives the operand fields, `w` the view. -/
def State.loadPlan (s : State) (fw : Fwd) (early : Bool) (i : Instr) (f : MF) (t : Tok) (w : Word) (also : List Nat) : MRes :=
  let c := s.focus
  let x := s.ctx c
  let v := tileOf w
  let pass := f.mf.getLsbD 0
  let tile := f.fb.toNat
  let sa := f.sa.toNat
  let own := s.readsSource c
  let noPort := f.pa && match x.port? (f.fa.toNat % 16) with
    | some p => p.isSink
    | none => true
  if loadView v pass || (own && noPort) then .trap s (trapOf tView)
  else if loadFormat v pass then .trap s (trapOf tFormat)
  else
    let look (g : Nat) : GranBits := (x.mlook s.cycle x.m.lastRuns g).bytes
    let sideFault := (s.mBadTag c fw (v.sideGrans.map fun g => (g, Fmt.side))).map fun g => trapGran tFormat g
    let judge (data : List Int × List Nat) : Option Trap := if pass && passBad v data then some (trapOf tPass) else none
    if !own then
      -- the source of another member of the gang is read (R466)
      .ready { occ := 1, effect := loadEffect i t tile v w pass (!f.pa) also ([], []) none none }
    else if f.pa then
      match x.port? (f.fa.toNat % 16) with
      | none => .trap s (trapOf tView)
      | some p =>
        if p.ty != v.ty then .trap s (trapOf tFormat)
        else if early && s.tooEarly c v.sideRanges then .hold .waiting .other
        else match p.take v.rows 0 with
          | .notYet => .hold .syncBlocked .bits
          | .fault tr =>
            let parks := tr.code == tTranslate || tr.code == tMesh || tr.code == tPsum || tr.code == tTable || tr.code == tShared
            let (fault, park) := if parks then (none, some tr) else (some tr, none)
            .ready { occ := 1, effect := loadEffect i t tile v w pass false also ([], []) fault park }
          | .rows l =>
            let data := tileResid v look (portRowsOf v l)
            .ready
              { occ := 1, cross := [(0, v.sideGrans)], pops := some (f.fa.toNat % 16, v.rows)
                effect := loadEffect i t tile v w pass false also data (sideFault.orElse fun _ => judge data) none }
    else
      let sg := v.grans
      if early && s.tooEarly c (v.ranges ++ v.sideRanges) then .hold .waiting .other
      else if s.mWaits c sa fw sg then .hold .syncBlocked .bits
      else match (if sa == syncTrap then sg.find? (fun g => !s.mFull c fw g) else none) with
        | some g => .trap s (trapGran tEmpty g)
        | none =>
          let data := tileResid v look (v.readRow look)
          let tagFault := (s.mBadTag c fw (sg.map (fun g => (g, v.ty)) ++ v.sideGrans.map fun g => (g, Fmt.side))).map
            fun g => trapGran tFormat g
          .ready
            { occ := 1, cross := [(0, sg ++ v.sideGrans)]
              empties := if sa == syncConsume then sg.map fun g => (g, 0) else []
              hand := s.handoffs c sa sg
              effect := loadEffect i t tile v w pass true also data
                (tagFault.orElse fun _ => judge data) none }

/-- MBLD (R464, R465). -/
def execMbld (f : MF) (t : Tok) (s : State) : Host.Outcome State Fault Refusal :=
  let i : Instr := .mbld f t
  let x := s.ctx s.focus
  if s.tokensReady s.focus t then
    matFinish i s (s.loadPlan x.forwarded true i f t (tgetD x.captured.t f.fb.toNat tUnset) [])
  else finish i s (.wait s .waiting .other)

/-! ## Loads complete (R460, R465, R466) -/

/-- The residency that an operation loads. -/
def State.residOf (s : State) (n : Nat) (o : Op) : Option Resid := (s.core o.core).resid.find? fun r => r.loading == some n

/-- The tokens of the MBLDs that a group eliminated complete with the token of the one that remains (R287). -/
def State.alsoDone (s : State) (n : Nat) (o : Op) : State := o.also.foldl (fun t k => t.tokenDone n { o with tok := k }) s

/-- A load ends well. -/
def State.loadDone (s : State) (n : Nat) (o : Op) (data : Option (List Int × List Nat)) : State :=
  let s1 := s.modCore o.core fun k =>
    { k with resid := k.resid.map fun r =>
        if r.loading == some n then
          match data with
          | some d => { r with loading := none, ready := s.cycle, elems := d.1, scales := d.2 }
          | none => { r with loading := none, ready := s.cycle }
        else r }
  (s1.alsoDone n o).endOp n o

/-- A load ends faulted: no residency stands (R465). -/
def State.loadFailed (s : State) (n : Nat) (o : Op) (t : Trap) : State :=
  let s1 := s.modCore o.core fun k => { k with resid := k.resid.filter fun r => r.loading != some n }
  (s1.alsoDone n o).failOp n o t

/-- The matched loads of a gang: those of the same number of every member, once all have been issued. -/
def State.matched (s : State) (o : Op) : Option (List (Nat × Op)) :=
  match o.gang with
  | none => none
  | some (id, n) =>
    let cl := clusterOf o.core
    match tget (s.cluster cl).gangs id with
    | none => none
    | some g =>
      let l := s.ops.filter fun (_, q) => q.gang == some (id, n) && clusterOf q.core == cl && s.opLive q
      if g.members.all fun m => l.any fun p => p.2.ctx == m then some l else none

/-- The source of a gang's matched loads. -/
def gangSource (l : List (Nat × Op)) : Option (Nat × Op) :=
  l.foldl (fun b p => match b with
    | some q => if p.2.ctx < q.2.ctx then some p else some q
    | none => some p) none

/-- The elements of a load in flight. -/
def State.fillResid (s : State) (n : Nat) (o : Op) (data : List Int × List Nat) : State :=
  s.modCore o.core fun k =>
    { k with resid := k.resid.map fun r =>
        if r.loading == some n then { r with elems := data.1, scales := data.2 } else r }

/-- The rows of a port are popped for a load that had parked (R187, R465). -/
def State.popForLoad (s : State) (n : Nat) (o : Op) (f : MF) : State :=
  let x := s.ctx o.ctx
  let v := tileOf o.v1
  let pass := f.mf.getLsbD 0
  let pn := f.fa.toNat % 16
  if o.v3 = 1 then (s.modCtx o.ctx fun y => y.retryPort pn).modOp n fun p => { p with v3 := 2 }
  else match x.port? pn with
    | none => s.loadFailed n o (trapOf tView)
    | some p =>
      match p.take v.rows 0 with
      | .notYet => s
      | .fault tr =>
        let parks := tr.code == tTranslate || tr.code == tMesh || tr.code == tPsum || tr.code == tTable || tr.code == tShared
        if parks then (s.modOp n fun q => { q with v3 := 1 }).parkOp n o tr else s.loadFailed n o tr
      | .rows l =>
        let data := tileResid v (fun g => (x.granAt g).bytes) (portRowsOf v l)
        let sideFault := (s.mBadTag o.ctx [] (v.sideGrans.map fun g => (g, Fmt.side))).map fun g => trapGran tFormat g
        let fault := sideFault.orElse fun _ => if pass && passBad v data then some (trapOf tPass) else none
        let s1 := s.modCtx o.ctx fun y => (List.range v.rows).foldl (fun (z : Ctx) _ => z.popPort pn) y
        (s1.fillResid n o data).modOp n fun q => { q with v3 := 0, fault := fault, due := s.cycle + loadTime v }

/-- Views of matched loads agree (R466). -/
def sameView (a b : Resid) : Bool := a.fmt == b.fmt && a.rows == b.rows && a.cols == b.cols && a.pass == b.pass

/-- A gang's matched loads end together. -/
def State.gangLoaded (s : State) (l : List (Nat × Op)) : State :=
  match gangSource l with
  | none => s
  | some (n0, o0) =>
    match s.residOf n0 o0 with
    | none => l.foldl (fun t (n, o) => t.loadFailed n o (trapOf tView)) s
    | some r0 =>
      if l.all (fun (n, o) => match s.residOf n o with
          | some r => sameView r r0
          | none => false)
      then match o0.fault with
        | some t => l.foldl (fun u (n, o) => u.loadFailed n o t) s
        | none => l.foldl (fun u (n, o) => u.loadDone n o (some (r0.elems, r0.scales))) s
      else l.foldl (fun t (n, o) => t.loadFailed n o (trapOf tView)) s

/-- RESIDENCY_LOADED: an MBLD completes, alone or with the matched loads of its gang (R461, R465, R466). -/
def execResidencyLoaded (op : Nat) (s : State) : Host.Outcome State Fault Refusal :=
  match s.op? op with
  | some o =>
    match o.ins with
    | .mbld f _ =>
      if o.parked.isSome then .next s
      else if o.v3 != 0 then .next (s.popForLoad op o f)
      else match o.gang with
        | none => match o.fault with
          | some t => .next (s.loadFailed op o t)
          | none => .next (s.loadDone op o none)
        | some _ => match s.matched o with
          | some l => if l.all (fun (_, q) => q.parked.isNone && q.v3 == 0) then .next (s.gangLoaded l) else .next s
          | none => .next s
    | _ => .next s
  | none => .next s

/-! ## MGANG (R468 to R471) -/

/-- The last member has joined: every other member's MGANG retires in the same cycle (R469). -/
def State.retireJoins (s : State) (l : List Nat) : State :=
  l.foldl (fun t m =>
    match (t.eng m .m).st, (t.eng m .m).held with
    | .waiting, some (.mgang f) => State.retire { t with focus := m } (.mgang f) (t.eng m .m).next
    | _, _ => t) s

/-- MGANG joins a gang and waits until it is formed (R469). -/
def execMgang (f : MF) (s : State) : Host.Outcome State Fault Refusal :=
  let c := s.focus
  let cl := clusterOf (coreOf c)
  let id := f.fb.toNat
  let size := f.fa.toNat % 16 + 1
  let i : Instr := .mgang f
  let gangs := (s.cluster cl).gangs
  let put (t : State) (g : Gang) : State := t.modCluster cl fun k => { k with gangs := tset k.gangs id g }
  let g := tgetD gangs id { size := size }
  if g.joining.contains c then
    if g.formed then finish i s (.done (put s { g with joining := g.joining.filter (· != c) }))
    else finish i s (.wait s .waiting .gang)
  else if gangs.any (fun p => p.2.members.contains c) || g.members.any (fun m => coreOf m == coreOf c) then
    finish i s (.trap s (trapOf tOrder))
  else if g.size != size || g.formed then finish i s (.trap s (trapOf tTable))
  else
    let all := g.members ++ [c]
    if all.length < size then
      finish i s (.wait (put s { g with members := all, joining := g.joining ++ [c] }) .waiting .gang)
    else
      let others := g.joining
      let s1 := put s { g with members := all, joining := others.filter fun m => (s.eng m .m).st != .waiting, formed := true }
      let s2 : State := { s1.retireJoins others with focus := c }
      finish i s (.done s2)

/-- MGANG.leave breaks the gang (R470). -/
def execMgangLeave (f : MF) (s : State) : Host.Outcome State Fault Refusal :=
  let c := s.focus
  let cl := clusterOf (coreOf c)
  let id := f.fb.toNat
  finish (.mgangLeave f) s (.done (match tget (s.cluster cl).gangs id with
    | some g => if g.members.contains c then s.breakGangAt cl id g.members else s
    | none => s))

/-! ## MKAT (R472, R473) -/

/-- KSIG of a healthy core (R473). -/
def goodSignature : Word := 0x6B1D30E5A7C49F82

/-- MKAT runs the known-answer tile in idle cycles (R473). -/
def execMkat (f : MF) (t : Tok) (s : State) : Host.Outcome State Fault Refusal :=
  let c := s.focus
  let i : Instr := .mkat f t
  finish i s (s.afterTokens t
    (if (s.core (coreOf c)).kat.isSome then .wait s .waiting .other
     else
       let (s1, n) := s.asyncOp t 0 (s.newOp .m i .async)
       .done (s1.modCore (coreOf c) fun k => { k with kat := some (n, 0) })))

/-- MKAT_COMPLETE: 4,096 idle cycles have passed; the signature is written (R473). -/
def execMkatComplete (op : Nat) (s : State) : Host.Outcome State Fault Refusal :=
  match s.op? op with
  | some o =>
    match (s.core o.core).kat with
    | some (n, k) =>
      if n = op ∧ 4096 ≤ k then
        .next ((s.modCore o.core fun q => { q with kat := none, ksig := goodSignature }).endOp op o)
      else .next s
    | none => .next s
  | none => .next s

end Sys2Proof.Machine
end

