-- ==== Sys2Proof/Machine/Nest.lean ====
section
/-! DEFINITION. The nest table and MNEST (17_ref_m_p.md R477 to R481, R493, R494). -/
namespace Sys2Proof.Machine

/-! ## Shadows (R479) -/

def nestWord (b : BitVec 2048) (off : Nat) : Word := b.extractLsb' (8 * off) 64
def Ctx.shadow (x : Ctx) (n : Nat) : BitVec 2048 := if n = 0 then x.shadow0 else x.shadow1
def Ctx.setShadow (x : Ctx) (n : Nat) (b : BitVec 2048) : Ctx := if n = 0 then { x with shadow0 := b } else { x with shadow1 := b }

def nWt (b : BitVec 2048) : Nat := fld (nestWord b 0) 59 5
def nWp (b : BitVec 2048) : Bool := (nestWord b 0).getLsbD 58
def nWen (b : BitVec 2048) : Bool := (nestWord b 0).getLsbD 57
def nRnd (b : BitVec 2048) : Nat := fld (nestWord b 0) 54 3
def nSat (b : BitVec 2048) : Bool := (nestWord b 0).getLsbD 53
def nKmask (b : BitVec 2048) (l : Nat) : Bool := (nestWord b 0).getLsbD (47 + l)
def nRiv (b : BitVec 2048) : Nat := fld (nestWord b 0) 42 5
def nPlev (b : BitVec 2048) : Nat := fld (nestWord b 0) 39 3
def nPtok (b : BitVec 2048) : Nat := fld (nestWord b 0) 34 5
def nPstep (b : BitVec 2048) : Nat := fld (nestWord b 0) 0 32
def nSca (b : BitVec 2048) : Nat := fld (nestWord b 8) 56 8
def nScb (b : BitVec 2048) : Nat := fld (nestWord b 8) 48 8
def nPbase (b : BitVec 2048) : Nat := fld (nestWord b 8) 0 32
def nCount (b : BitVec 2048) (l : Nat) : Nat := fld (nestWord b (16 + 8 * l)) 48 16 + 1
def nAstr (b : BitVec 2048) (l : Nat) : Int := sgnOf 16 (fld (nestWord b (16 + 8 * l)) 32 16)
def nBstr (b : BitVec 2048) (l : Nat) : Int := sgnOf 16 (fld (nestWord b (16 + 8 * l)) 16 16)
def nCstr (b : BitVec 2048) (l : Nat) : Int := sgnOf 16 (fld (nestWord b (16 + 8 * l)) 0 16)
def nWstr (b : BitVec 2048) (l : Nat) : Int := sgnOf 16 (fld (nestWord b (64 + 8 * l)) 0 16)

def levels : List Nat := [0, 1, 2, 3, 4, 5]

/-- Steps of an accumulator's reduction. -/
def nReduce (b : BitVec 2048) : Nat := levels.foldl (fun n l => if nKmask b l then n * nCount b l else n) 1

/-- The record breaks R479 (R494). -/
def shadowBad (b : BitVec 2048) : Bool :=
  3 < nRnd b || fld (nestWord b 0) 32 2 != 0 || 24 < nRiv b || (nPtok b != 0 && 5 < nPlev b)
  || fld (nestWord b 8) 32 16 != 0
  || levels.any (fun l => fld (nestWord b (64 + 8 * l)) 16 48 != 0 || (nWp b && nWstr b l != 0))
  || b.extractLsb' 896 1152 != 0 || 2 ^ nRiv b < nReduce b

/-- Clears bytes 112 to 127. -/
def clearProgress (b : BitVec 2048) : BitVec 2048 := b &&& ~~~(((BitVec.allOnes 128).zeroExtend 2048) <<< 896)

/-- Progress in bytes 112 to 127: six indices and VAL (R479). -/
def withProgress (b : BitVec 2048) (idx : List Nat) : BitVec 2048 :=
  clearProgress b ||| (BitVec.ofNat 2048 (packElems 16 idx + 2 ^ 127) <<< 896)
def hasProgress (b : BitVec 2048) : Bool := b.getLsbD (896 + 127)
def progressOf (b : BitVec 2048) : List Nat := sliceElems 16 6 (b.extractLsb' 896 96).toNat

/-- An incomplete MNEST of the context uses a shadow. -/
def State.nestUses (s : State) (c sh : Nat) : Bool := s.ops.any fun (_, o) =>
  o.ctx == c && s.opLive o && match o.ins with
    | .mnest f _ => (f.mf.toNat % 2) == sh
    | _ => false

/-- NSET (R493, R494). -/
def execNset (f : C3) (s : State) : Host.Outcome State Fault Refusal :=
  let c := s.focus
  let x := s.ctx c
  let va := (x.sr f.a.toNat).toNat
  let sh := (x.sr f.b.toNat).toNat
  let i : Instr := .nset f
  finish i s (s.sHold [f.a.toNat, f.b.toNat]
    (if va % 64 != 0 then .trap s (trapAt tAlign va)
     else if 1 < sh then .trap s (trapOf tTable)
     else if s.nestUses c sh then .wait s .waiting .other
     else s.withRecord i va 256 64 fun s1 bs =>
       let b : BitVec 2048 := BitVec.ofNat 2048 (natOfBytes bs)
       if shadowBad b then .trap s (trapOf tTable)
       else .done (s1.modCtx c fun y => y.setShadow sh (clearProgress b))))

/-! ## Index tuples (R480) -/

/-- The next tuple, level 0 fastest; none after the last. -/
def nestNext : List Nat → List Nat → Option (List Nat)
  | i :: is, n :: ns => if i + 1 < n then some ((i + 1) :: is) else (nestNext is ns).map fun l => 0 :: l
  | _, _ => none

/-- A displacement at a tuple. -/
def dispAt (stride : Nat → Int) (idx : List Nat) : Int :=
  levels.foldl (fun a l => a + (nth idx l 0 : Nat) * stride l) 0

/-- The smallest and largest displacement of a nest. -/
def dispMin (b : BitVec 2048) (stride : Nat → Int) : Int :=
  levels.foldl (fun a l => a + min 0 (((nCount b l - 1 : Nat) : Int) * stride l)) 0
def dispMax (b : BitVec 2048) (stride : Nat → Int) : Int :=
  levels.foldl (fun a l => a + max 0 (((nCount b l - 1 : Nat) : Int) * stride l)) 0

/-- A tile view word with BASE displaced. -/
def tileAt (w : Word) (d : Int) : Word :=
  (w &&& ~~~(0x7FFF#64 <<< 8)) ||| (BitVec.ofNat 64 (((tileOf w).base : Int) + d).toNat <<< 8)
/-- An accumulator view word with BASE displaced. -/
def accAt (w : Word) (d : Int) : Word := (w &&& ~~~0xFF#64) ||| BitVec.ofNat 64 (((accOf w).base : Int) + d).toNat

/-- A tile stays in the footprint over every tuple. -/
def tileFits (foot : Nat) (b : BitVec 2048) (w : Word) (stride : Nat → Int) : Bool :=
  let v := tileOf w
  v.rows != 0 && 0 ≤ (v.base : Int) + dispMin b stride
  && ({ v with base := ((v.base : Int) + dispMax b stride).toNat } : TileView).inside foot

def accFits (foot : Nat) (b : BitVec 2048) (w : Word) (stride : Nat → Int) : Bool :=
  let v := accOf w
  v.count != 0 && 0 ≤ (v.base : Int) + dispMin b stride
  && (v.base : Int) + dispMax b stride + ((v.per * v.count : Nat) : Int) ≤ (foot : Int)

/-- The check of every operand over the extreme index values (R480). -/
def nestBad (x : Ctx) (f : MF) (b : BitVec 2048) : Bool :=
  let t (n : Nat) : Word := tgetD x.captured.t n tUnset
  (if f.pa then levels.any (fun l => nAstr b l != 0) || (x.port? (f.fa.toNat % 16)).all Port.isSink
   else !tileFits x.foot b (t f.fa.toNat) (nAstr b))
  || !tileFits x.foot b (t f.fb.toNat) (nBstr b)
  || !accFits x.foot b (tgetD x.captured.a f.fc.toNat 0) (nCstr b)
  || (nWen b && !nWp b && !tileFits x.foot b (t (nWt b)) (nWstr b))
  || (nWen b && nWp b && !((x.port? (nWt b % 16)).any Port.isSink))
  || (nSca b != 0xFF && x.foot ≤ nSca b) || (nScb b != 0xFF && x.foot ≤ nScb b)

/-! ## Steps -/

def State.setNest (s : State) (c : Nat) (n : Option Nest) : State := s.modCtx c fun x => { x with nest := n }

/-- The step holds: its boundary is a retirement point (R244). -/
def State.nestHold (s : State) (c : Nat) (n : Nest) (st : EngState) (h : Hold) : State :=
  (s.setNest c (some { n with val := true })).waitOn c .m st h .mnestStep

/-- A fault of a step: the progress names the step, with VAL set (R481). -/
def State.nestTrap (s t : State) (c : Nat) (n : Nest) (tr : Trap) : Host.Outcome State Fault Refusal :=
  let u := t.setNest c (some { n with val := true })
  let tr1 := tr.of s n.ins
  .next (if tr1.code = tMcheck then u.machineCheck c tr1 false else u.raise c tr1)

/-- The engine stands at its next step, a candidate once the step has issued (R236, R239). -/
def Eng.stepped (e : Eng) : Eng :=
  { e with
    st := if e.st = .stopped then e.st else .ready
    age := none, hold := .none, held := none, candSince := none, gapEnd := max e.gapEnd (e.lastEnd + 1) }

/-- The cycle in which the last result in flight lands. -/
def Ctx.lastDue (x : Ctx) (now : Nat) : Nat :=
  x.lands.foldl (fun n l => max n (match l.act with
    | .matrixRow r _ => match tget x.mats r with
      | some q => q.landAt.getD (l.due + q.lag)
      | none => l.due
    | _ => l.due)) now

/-- The nest ends: MNEST retires, and MAKE completes when the last write-back does (R480). -/
def State.nestEnd (s : State) (c : Nat) (n : Nest) : State :=
  let due := (s.ctx c).lastDue s.cycle
  let b := clearProgress ((s.ctx c).shadow n.shadow)
  let s1 := (s.modCtx c fun x => ({ x with nest := none } : Ctx).setShadow n.shadow b).modOp n.op fun o =>
    { o with due := max due (s.cycle + 1), sampled := true }
  s1.retire n.ins n.next

/-- A step has committed: the next tuple, or the end; a step that ends a reduction is a retirement point (R244), and so is every
step while the engine single-steps (R268). -/
def State.nestAdvance (s : State) (c : Nat) (n : Nest) (retires : Bool) : State :=
  let b := (s.ctx c).shadow n.shadow
  match nestNext n.idx (levels.map (nCount b)) with
  | some l =>
    let s1 := (s.setNest c (some { n with idx := l, val := retires || s.steps c .m, wb := false, steps := n.steps + 1 })).modEng c .m Eng.stepped
    ((s1.modEng c .m fun e => if retires then { e with resumed := false } else e).stepTrap c n.ins).settle c
  | none => s.nestEnd c n

/-- What INJECT does to a step (R253, R256). -/
def nestCommit (s : State) (n : Nest) (p : MPlan) (k : State → State) : Host.Outcome State Fault Refusal :=
  let c := s.focus
  let w := (s.ctx c).sprs.inject
  let t := s.commitPlans c [p]
  match plant w n.ins p.chk with
  | .none => .next (k t)
  | .skip => .next (k (t.setInject c (w - (1#64 <<< 16))))
  | .retried => .next (k ((t.setInject c (disarm w)).countRetry (coreOf c)))
  | .failed l g x a =>
    .next (((s.setInject c (disarm w)).setNest c (some { n with val := true })).machineCheck c
      (({ code := tMcheck, inj := true, lane := l, gran := g, exp := x, act := a } : Trap).of s n.ins) false)

/-- A register-source load of a nest's B tile (R480). -/
def nestLoadFields (f : MF) : MF := { f with fa := 0, fc := 0, lu := false, pa := false, sa := 0, mf := 0 }
def nullTok : Tok := { make := 0, aft0 := 0, aft1 := 0, aft2 := 0, cls := 0, scope := 0, tf := 0 }

/-- LG6 scales from a footprint row; none where the row is 0xFF. -/
def scaleRow (look : Nat → GranBits) (row n : Nat) : List Nat := if row = 0xFF then [] else readElems look 8 40 (32768 * row) n

/-- PTOK's counter has reached the step's threshold (R480, R148). -/
def State.piecesReached (s : State) (c : Nat) (b : BitVec 2048) (idx : List Nat) : Bool :=
  nPtok b = 0 || (levels.any fun l => l < nPlev b && nth idx l 0 != 0)
  || nPbase b + (nth idx (nPlev b) 0 + 1) * nPstep b ≤ ((s.ctx c).tok (nPtok b)).pieces

/-- A write-back of the nest's accumulator to a sink port: one row pushed for each of its rows (log 30). -/
def State.portBack (s : State) (n : Nest) (b : BitVec 2048) (acc : Word) : MRes :=
  let c := s.focus
  let x := s.ctx c
  let av := accOf acc
  let k := nWt b % 16
  match x.port? k with
  | none => .trap s (trapOf tView)
  | some p =>
    let cols := min (32768 / p.ty.bits) av.cols
    let cg := av.grans cols
    if !p.isSink || !wbType p.ty then .trap s (trapOf tView)
    else if s.tooEarly c (av.ranges cols) then .hold .waiting .other
    else if s.mWaits c syncBlock x.forwarded cg then .hold .syncBlocked .bits
    else match s.mBadTag c x.forwarded (cg.map fun g => (g, av.ty)) with
      | some g => .trap s (trapGran tFormat g)
      | none =>
        if p.streamBytes ≤ (p.pushes + av.count - 1) * p.rowOut then .trap s (trapOf tBounds)
        else
          let run : MatRun :=
            { kind := .mwb, acc := acc, n := cols, rnd := nRnd b, sat := nSat b, dst := BitVec.ofNat 64 p.ty.code <<< 59
              port := some k, op := s.opNext }
          .ready
            { occ := av.count, cross := (List.range av.count).map fun i => (i, av.rowGrans i cols)
              run := some run, rowAt := id, hand := s.handoffs c syncBlock cg, full := false
              effect := fun t _ =>
                let u := (List.range av.count).foldl (fun (u : State) row =>
                  (u.pushOp n.ins c k p (p.pushes + row) none).1) t
                u.modCtx c fun y => y.modPort k fun q => { q with pushes := q.pushes + av.count } }

/-- The write-back of a tuple whose reduction has ended (R480). -/
def State.nestBack (s : State) (n : Nest) (b : BitVec 2048) (acc : Word) : MRes :=
  let x := s.ctx s.focus
  if nWp b then s.portBack n b acc
  else
    s.mwbPlan x.forwarded true acc (tileAt (tgetD x.captured.t (nWt b) tUnset) (dispAt (nWstr b) n.idx)) (nRnd b) (nSat b) 0 none
      syncBlock none fun _ t _ => t

/-- The accumulator view and the B view of a tuple (R480). -/
def Ctx.nestAcc (x : Ctx) (n : Nest) (f : MF) : Word :=
  accAt (tgetD x.captured.a f.fc.toNat 0) (dispAt (nCstr (x.shadow n.shadow)) n.idx)
def Ctx.nestB (x : Ctx) (n : Nest) (f : MF) : Word :=
  tileAt (tgetD x.captured.t f.fb.toNat tUnset) (dispAt (nBstr (x.shadow n.shadow)) n.idx)

/-- The MMA of a tuple (R480). -/
def State.nestMma (s : State) (n : Nest) (f : MF) : MmaSpec :=
  let x := s.ctx s.focus
  let b := x.shadow n.shadow
  let bw := x.nestB n f
  let look (g : Nat) : GranBits := (x.mlook s.cycle x.m.lastRuns g).bytes
  { acc := x.nestAcc n f
    srcs := [{ tile := if f.pa then 0 else tileAt (tgetD x.captured.t f.fa.toNat tUnset) (dispAt (nAstr b) n.idx)
               port := if f.pa then some (f.fa.toNat % 16) else none
               b := f.fb.toNat, bview := bw }]
    za := levels.all fun l => !nKmask b l || nth n.idx l 0 == 0
    rnd := nRnd b, sa := f.sa.toNat
    lgA := scaleRow look (nSca b) (accOf (x.nestAcc n f)).count, lgB := scaleRow look (nScb b) (tileOf bw).cols }

/-- One move of the nest: a write-back, a wait for pieces, a load of B, or an MMA (R480). -/
def State.nestMove (s : State) (n : Nest) (f : MF) : Host.Outcome State Fault Refusal :=
  let c := s.focus
  let x := s.ctx c
  let b := x.shadow n.shadow
  let bw := x.nestB n f
  if n.wb then
    match s.nestBack n b (x.nestAcc n f) with
    | .trap t tr => s.nestTrap t c n tr
    | .hold st h => .next (s.nestHold c n st h)
    | .ready p => .next ((s.commitPlans c [p]).nestAdvance c n true)
  else if !s.piecesReached c b n.idx then .next (s.nestHold c n .waiting .other)
  else if n.lastB != some bw || (s.resident c f.fb.toNat).isNone then
    match s.loadPlan x.forwarded true (.mbld (nestLoadFields f) nullTok) (nestLoadFields f) nullTok bw [] with
    | .trap t tr => s.nestTrap t c n tr
    | .hold st h => .next (s.nestHold c n st h)
    | .ready p => .next (((s.commitPlans c [p]).setNest c (some { n with lastB := some bw })).modEng c .m Eng.stepped)
  else
    match s.mmaPlan x.forwarded true (s.nestMma n f) with
    | .trap t tr => s.nestTrap t c n tr
    | .hold st h => .next (s.nestHold c n st h)
    | .ready p =>
      let last := levels.all fun l => !nKmask b l || nth n.idx l 0 + 1 == nCount b l
      nestCommit s n p fun t =>
        if last && nWen b then (t.setNest c (some { n with wb := true, val := false })).modEng c .m Eng.stepped
        else t.nestAdvance c n last

/-- MNEST_STEP: the next move of the nest in progress in the context (R477, R480, R481). -/
def execMnestStep (s : State) : Host.Outcome State Fault Refusal :=
  let x := s.ctx s.focus
  match x.nest with
  | some n => match n.ins with
    | .mnest f _ =>
      if x.m.st == .joined || x.m.st == .stopped || x.m.cur != n.pos then .next s else s.nestMove n f
    | _ => .next s
  | none => .next s

/-- Progress that another MNEST leaves behind goes to its shadow (R479), and its operation ends. -/
def State.leaveNest (s : State) (c : Nat) : State :=
  match (s.ctx c).nest with
  | some n =>
    let s1 := s.modCtx c fun x =>
      ({ x with nest := none } : Ctx).setShadow n.shadow (withProgress (x.shadow n.shadow) n.idx)
    match s1.op? n.op with
    | some o => s1.endOp n.op o
    | none => s1
  | none => s

/-- A nest begins, from the progress of its shadow where VAL is set (R480). -/
def State.nestStart (s : State) (i : Instr) (f : MF) (t : Tok) : Host.Outcome State Fault Refusal :=
  let c := s.focus
  let s0 := s.leaveNest c
  let x := s0.ctx c
  let sh := f.mf.toNat % 2
  let b := x.shadow sh
  if !s.tokensReady c t then finish i s (.wait s .waiting .other)
  else if nestBad x f b then finish i s (.trap s (trapOf tView))
  else
    let (s1, k) := s0.asyncOp t 0 (s0.newOp .m i .async)
    let m : Nest := { ins := i, shadow := sh, pos := x.m.cur, next := x.m.next, val := true, op := k
                      idx := if hasProgress b then progressOf b else [0, 0, 0, 0, 0, 0] }
    (s1.setNest c (some m)).nestMove m f

/-- MNEST: its tokens and operands are checked, and the nest begins, or goes on where it stopped (R478, R480, R481). -/
def execMnest (f : MF) (t : Tok) (s : State) : Host.Outcome State Fault Refusal :=
  let i : Instr := .mnest f t
  match (s.ctx s.focus).nest with
  | some n => if n.ins = i ∧ n.pos = (s.eng s.focus .m).cur then s.nestMove n f else s.nestStart i f t
  | none => s.nestStart i f t

end Sys2Proof.Machine
end

