-- ==== Sys2Proof/Machine/Copy.lean ====
section
/-! DEFINITION. The copy engine: YCOPY, YFILL, YGATH, YSCAT, YPREF, YFPR, YCMP, DTLD, YPIN, YUNPIN, XATOM and XSTF
(20_ref_x_y.md R572 to R594; 16_ref_d_l.md R405 to R410; 03_registers.md R80 to R82; 07_memory.md R171, R172), with the
events that complete them. -/
namespace Sys2Proof.Machine

/-- The tag that a type field names: RAW where it is 0 (R57, R585). -/
def tfTag (t : Tok) : Fmt := (fmtOf t.tf.toNat).getD .raw

/-! ## YCOPY and YFILL (R585, R586) -/

/-- The checks of YCOPY and YFILL. -/
def moveBad (s : State) (d : Word) (src : Option Word) (n : Nat) : Option Trap :=
  let c := s.focus
  let x := s.ctx c
  firstBad
    [(yOutside x d n || src.any fun w => yOutside x w n, trapOf tView),
     (s.ySys c d n, trapOf tOrder),
     (yLow d % 32 != 0 || n % 32 != 0, trapAt tAlign (fld d 0 56)),
     (src.any fun w => yLow w % 32 != 0, trapAt tAlign (fld (src.getD 0) 0 56)),
     (2 ^ 32 < n || yTable d || src.any yTable, trapOf tTable),
     (yInvalid d, trapXlate causeInvalid (fld d 0 56)),
     (src.any yInvalid, trapXlate causeInvalid (fld (src.getD 0) 0 56))]

/-- Bytes of a repeated 64-bit pattern. -/
def patternBytes (p : Word) (n : Nat) : List Byte := ((List.range (n / 8)).map fun _ => bytesOfNat 8 p.toNat).flatten

/-- YCOPY: a register-space source is read at issue, with the tags of its granules (R57, R573). -/
def execYcopy (f : YF) (t : Tok) (s : State) : Host.Outcome State Fault Refusal :=
  let c := s.focus
  let core := coreOf c
  let i : Instr := .ycopy f t
  let o := s.yOp i f
  let n := o.v3.toNat
  finish i s (s.afterTokens t (match moveBad s o.v1 (some o.v2) n with
    | some tr => .trap s tr
    | none =>
      if n = 0 then s.yNothing t 0
      else
        let gs := yGrans o.v2 n
        s.yWaits gs
          (let o1 : Op := match yAddr o.v2 with
            | .reg off =>
              { o with
                writes := true, data := s.regBytes c off n, lanes := gs.map fun g => ((s.ctx c).granLook g s.cycle).tag.code }
            | _ => { o with writes := true, reads := true }
           let y := (bothOk (s.yPieces core .read o.v2 n) (s.yPieces core .write o.v1 n)).map fun (a, b) =>
             ({ rd := a, wr := b, land := if yIsReg o.v1 then 2 else 0 } : YTime)
           s.yLaunch t o1 [(o.v2, n), (o.v1, n)] y (yGrans o.v1 n) (s.handoffs c syncBlock gs) none)))

/-- YFILL. -/
def execYfill (f : YF) (t : Tok) (s : State) : Host.Outcome State Fault Refusal :=
  let i : Instr := .yfill f t
  let o := s.yOp i f
  let n := o.v3.toNat
  finish i s (s.afterTokens t (match moveBad s o.v1 none n with
    | some tr => .trap s tr
    | none =>
      if n = 0 then s.yNothing t 0
      else
        let y := match s.yPieces (coreOf s.focus) .write o.v1 n with
          | .ok l => some ({ wr := l, land := if yIsReg o.v1 then 2 else 0 } : YTime)
          | .error _ => none
        s.yLaunch t { o with writes := true } [(o.v1, n)] y (yGrans o.v1 n) [] none))

/-- The bytes of a copy between overlapping memory ranges: each destination byte holds the old source byte or a byte that
this copy wrote there (R586). -/
def copiedByte (src dst : List Nat) (old : List Byte) (k : Nat) : Nat → Nat → Byte
  | 0, i => nth old i 0
  | f + 1, i =>
    match (List.range dst.length).find? fun j => j != i && nth dst j 0 == nth src i 0 with
    | some j => if Config.choice (k + i) then copiedByte src dst old k f j else nth old i 0
    | none => nth old i 0

def State.overlapped (s : State) (src dst : List Seg) (bs : List Byte) : State × List Byte :=
  if segsOverlap src dst then
    let a := addrsOf src
    let b := addrsOf dst
    ({ s with freshN := s.freshN + bs.length }, (List.range bs.length).map fun i => copiedByte a b bs s.freshN bs.length i)
  else (s, bs)

/-- The tag of a granule that a copy writes: the type field, the tag of the source granule that supplies its first byte, or
RAW (R57). -/
def copyTag (o : Op) (tf : Nat) (g : Nat) : Fmt :=
  if tf != 0 then (fmtOf tf).getD .raw
  else match yAddr o.v1, yAddr o.v2 with
    | .reg d, .reg a =>
      let first := max d (256 * g) - d
      (fmtOf (nth o.lanes ((a + first) / 256 - a / 256) 0)).getD .raw
    | _, _ => .raw

/-- A copy ends. -/
def State.endCopy (s : State) (n : Nat) (o : Op) (t : Tok) : State :=
  let len := o.v3.toNat
  let got : Except Trap (List Byte) :=
    if yIsReg o.v2 || o.sampled then .ok o.data else s.yBytes o o.v2 len
  match got with
  | .error tr => s.yFault n o tr
  | .ok bs =>
    let v := s.asIssued o.issued
    let (s1, bs1) := match v.yPieces o.core .read o.v2 len, v.yPieces o.core .write o.v1 len with
      | .ok a, .ok b => s.overlapped a b bs
      | _, _ => (s, bs)
    match s1.yPut o o.v1 bs1 (copyTag o t.tf.toNat) with
    | .error tr => s.yFault n o tr
    | .ok s2 => s2.endOp n o

def State.endFill (s : State) (n : Nat) (o : Op) (t : Tok) : State :=
  match s.yPut o o.v1 (patternBytes o.v2 o.v3.toNat) (fun _ => tfTag t) with
  | .error tr => s.yFault n o tr
  | .ok s1 => s1.endOp n o

/-! ## YGATH and YSCAT (R587) -/

def headerBad (h : Nat) : Bool := bitsOf h 36 28 != 0 || bitsOf h 32 4 < 5 || 12 < bitsOf h 32 4 || h % 2 ^ 32 = 0 || 2 ^ 20 < h % 2 ^ 32
def headerSize (h : Nat) : Nat := 2 ^ bitsOf h 32 4
def headerCount (h : Nat) : Nat := h % 2 ^ 32
def listBytes (h : Nat) : Nat := 8 + 4 * headerCount h

/-- The header as issue finds it: none where it cannot be read. -/
def State.peekHeader (s : State) (o : Op) (w : Word) : Option Nat :=
  let c := s.focus
  match yAddr w with
  | .reg off => if yOutside (s.ctx c) w 8 then none else some (natOfBytes (s.regBytes c off 8))
  | _ => match s.yBytes o w 8 with
    | .ok bs => some (natOfBytes bs)
    | .error _ => none

/-- The indices of a list. -/
def indicesOf (h : Nat) (bs : List Byte) : List Nat := sliceElems 32 (headerCount h) (natOfBytes (bs.drop 8))

/-- The address word of an element. -/
def elemWord (base : Word) (e idx : Nat) : Word := base + BitVec.ofNat 64 (e * idx)

/-- The checks of YGATH and YSCAT: `base` names memory, `row` the contiguous side, `h` the header where it is known and in
range. -/
def listBad (s : State) (base row l : Word) (h : Option Nat) (write : Bool) : Option Trap :=
  let c := s.focus
  let x := s.ctx c
  let e := h.elim 1 headerSize
  let n := h.elim 0 fun k => headerCount k * headerSize k
  firstBad
    [(yOutside x row n || yOutside x l (h.elim 8 listBytes), trapOf tView),
     (if write then s.ySys c row n else s.ySys c base 1, trapOf tOrder),
     (yLow l % 8 != 0, trapAt tAlign (fld l 0 56)),
     (yLow base % e != 0, trapAt tAlign (fld base 0 56)),
     (yLow row % e != 0, trapAt tAlign (fld row 0 56)),
     (yIsReg base || yTable base || yTable row || yTable l, trapOf tTable),
     (yInvalid base, trapXlate causeInvalid (fld base 0 56)),
     (yInvalid row, trapXlate causeInvalid (fld row 0 56)),
     (yInvalid l, trapXlate causeInvalid (fld l 0 56))]

/-- The pieces of every element. -/
def State.elemPieces (s : State) (core : Nat) (need : Need) (base : Word) (e : Nat) : List Nat → Except Trap (List Seg)
  | [] => .ok []
  | k :: l => match s.yPieces core need (elemWord base e k) e with
    | .error t => .error t
    | .ok a => match s.elemPieces core need base e l with
      | .error t => .error t
      | .ok b => .ok (a ++ b)

/-- The list as issue finds it, for the promise. -/
def State.peekList (s : State) (o : Op) (l : Word) (h : Nat) : Option (List Nat) :=
  let c := s.focus
  match yAddr l with
  | .reg off => some (indicesOf h (s.regBytes c off (listBytes h)))
  | _ => match s.yBytes o l (listBytes h) with
    | .ok bs => some (indicesOf h bs)
    | .error _ => none

/-- Register-space bytes that are read at issue: the list, then the source rows. -/
def State.listRegs (s : State) (l : Word) (src : Option Word) (h : Nat) : List Byte :=
  let c := s.focus
  (match yAddr l with
    | .reg off => s.regBytes c off (listBytes h)
    | _ => [])
  ++ match src.map yAddr with
    | some (.reg off) => s.regBytes c off (headerCount h * headerSize h)
    | _ => []

/-- YGATH and YSCAT issue: `row` is the contiguous side, `scatter` tells which way elements go. -/
def listIssue (t : Tok) (s : State) (o : Op) (base row : Word) (scatter : Bool) : Res :=
  let c := s.focus
  let core := coreOf c
  let l := o.v3
  let h := (s.peekHeader o l).filter fun k => !headerBad k
  match listBad s base row l h (!scatter) with
  | some tr => .trap s tr
  | none =>
    let hv := h.getD 0
    let n := h.elim 0 fun k => headerCount k * headerSize k
    let gs := yGrans l (h.elim 8 listBytes) ++ if scatter then yGrans row n else []
    s.yWaits gs
      (let o1 : Op := { o with
        reads := true, writes := true, lanes := (h.map fun k => [k, 0]).getD []
        data := if h.isSome then s.listRegs l (if scatter then some row else none) hv else [] }
       let y : Option YTime := match h with
        | none => none
        | some k => match s.peekList o l k with
          | none => none
          | some idx =>
            let e := headerSize k
            match s.elemPieces core (if scatter then .write else .read) base e idx, s.yPieces core .read l (listBytes k),
              s.yPieces core (if scatter then .read else .write) row n with
            | .ok es, .ok ls, .ok rs =>
              if scatter then some { list := ls, rd := rs, wr := es }
              else some { list := ls, rd := es, wr := rs, land := if yIsReg row then 2 else 0 }
            | _, _, _ => none
       s.yLaunch t o1 ([(l, h.elim 8 listBytes)] ++ if n = 0 then [] else [(row, n)]) y
        (if scatter then [] else yGrans row n) (s.handoffs c syncBlock gs) none)

def execYgath (f : YF) (t : Tok) (s : State) : Host.Outcome State Fault Refusal :=
  let i : Instr := .ygath f t
  let o := s.yOp i f
  finish i s (s.afterTokens t (listIssue t s o o.v2 o.v1 false))

def execYscat (f : YF) (t : Tok) (s : State) : Host.Outcome State Fault Refusal :=
  let i : Instr := .yscat f t
  let o := s.yOp i f
  finish i s (s.afterTokens t (listIssue t s o o.v1 o.v2 true))

/-- The header and the list of an operation whose list is read now. -/
def State.readList (s : State) (o : Op) : Except Trap (Nat × List Nat) :=
  let head : Except Trap Nat := match o.lanes.head? with
    | some h => .ok h
    | none => match yAddr o.v3 with
      | .reg _ => .ok 0
      | _ => match s.yBytes o o.v3 8 with
        | .ok bs => .ok (natOfBytes bs)
        | .error t => .error t
  match head with
  | .error t => .error t
  | .ok h =>
    if headerBad h then .error (trapOf tTable)
    else match yAddr o.v3 with
      | .reg _ => .ok (h, indicesOf h (o.data.take (listBytes h)))
      | _ => match s.yBytes o o.v3 (listBytes h) with
        | .ok bs => .ok (h, indicesOf h bs)
        | .error t => .error t

/-- Elements gathered up to the first that faults. -/
def State.gather (s : State) (o : Op) (base : Word) (e : Nat) : List Nat → List Byte × Option Trap
  | [] => ([], none)
  | k :: l => match s.yBytes o (elemWord base e k) e with
    | .error t => ([], some t)
    | .ok bs =>
      let (r, f) := s.gather o base e l
      (bs ++ r, f)

/-- A gather ends: elements before one that faults stand (R587). -/
def State.endGather (s : State) (n : Nat) (o : Op) (t : Tok) : State :=
  match s.readList o with
  | .error tr => s.yFault n o tr
  | .ok (h, idx) =>
    let e := headerSize h
    if yLow o.v2 % e != 0 || yLow o.v1 % e != 0 then s.yFault n o (trapAt tAlign (fld o.v2 0 56))
    else if yOutside (s.ctx o.ctx) o.v1 (e * headerCount h) then s.yFault n o (trapOf tView)
    else
      let (bs, flt) := s.gather o o.v2 e idx
      match flt with
      | some tr =>
        (match yAddr o.v1 with
          | .reg _ => s
          | _ => match s.yStore o o.v1 bs with
            | .ok s1 => s1
            | .error _ => s).yFault n o tr
      | none => match s.yPut o o.v1 bs (fun _ => tfTag t) with
        | .error tr => s.yFault n o tr
        | .ok s1 => s1.endOp n o

/-- Elements scattered in ascending order, from one on; answers how far it came (R587: the highest j prevails). -/
def State.scatter (s : State) (o : Op) (base : Word) (e : Nat) (src : List Byte) : Nat → List Nat → State × Option (Nat × Trap)
  | _, [] => (s, none)
  | j, k :: l => match s.yStore o (elemWord base e k) (src.take e) with
    | .error t => (s, some (j, t))
    | .ok s1 => s1.scatter o base e (src.drop e) (j + 1) l

def State.endScatter (s : State) (n : Nat) (o : Op) : State :=
  match s.readList o with
  | .error tr => s.yFault n o tr
  | .ok (h, idx) =>
    let e := headerSize h
    if yLow o.v1 % e != 0 || yLow o.v2 % e != 0 then s.yFault n o (trapAt tAlign (fld o.v1 0 56))
    else
      let src : Except Trap (List Byte) := match yAddr o.v2 with
        | .reg _ => .ok (if yIsReg o.v3 then o.data.drop (listBytes h) else o.data)
        | _ => s.yBytes o o.v2 (e * headerCount h)
      match src with
      | .error tr => s.yFault n o tr
      | .ok bs =>
        let from_ := nth o.lanes 1 0
        match s.scatter o o.v1 e (bs.drop (e * from_)) from_ (idx.drop from_) with
        | (s1, none) => s1.endOp n o
        | (s1, some (j, tr)) =>
          let o1 : Op := { o with lanes := [h, j] }
          (s1.setOp n o1).yFault n o1 tr

/-! ## YFPR and YCMP (R589, R590, R130) -/

/-- One step of the CRC-64 (R130): a bit enters at the top. -/
def crcBit (r : Word) (b : Bool) : Word :=
  let out := r.msb != b
  let shifted := r <<< 1
  if out then shifted ^^^ 0x42F0E1EBA9EA3693 else shifted

def crcByte (r : Word) (b : Byte) : Word := [7, 6, 5, 4, 3, 2, 1, 0].foldl (fun x k => crcBit x (b.getLsbD k)) r

/-- The fingerprint of a block (R130). -/
def crc64 (bs : List Byte) : Word := bs.foldl crcByte 0

/-- The checks of YFPR and YCMP. -/
def blockBad (s : State) (res : Word) (blocks : List Word) : Option Trap :=
  let c := s.focus
  let x := s.ctx c
  firstBad
    ([(yOutside x res 8 || blocks.any fun b => yOutside x b 4096, trapOf tView),
      (s.ySys c res 8, trapOf tOrder),
      (yLow res % 8 != 0, trapAt tAlign (fld res 0 56))]
     ++ (blocks.map fun b => (yLow b % 4096 != 0, trapAt tAlign (fld b 0 56)))
     ++ [(yTable res || blocks.any yTable, trapOf tTable), (yInvalid res, trapXlate causeInvalid (fld res 0 56))]
     ++ blocks.map fun b => (yInvalid b, trapXlate causeInvalid (fld b 0 56)))

/-- Pieces of several blocks. -/
def State.blockPieces (s : State) (core : Nat) : List Word → Except Trap (List Seg)
  | [] => .ok []
  | b :: l => match s.yPieces core .read b 4096, s.blockPieces core l with
    | .ok x, .ok y => .ok (x ++ y)
    | .error t, _ => .error t
    | _, .error t => .error t

/-- YFPR and YCMP issue; blocks in register space are read at issue. -/
def blockIssue (t : Tok) (s : State) (o : Op) (blocks : List Word) (lag : Nat) : Res :=
  let c := s.focus
  let core := coreOf c
  match blockBad s o.v1 blocks with
  | some tr => .trap s tr
  | none =>
    let gs := blocks.flatMap fun b => yGrans b 4096
    s.yWaits gs
      (let data := blocks.flatMap fun b => match yAddr b with
        | .reg off => s.regBytes c off 4096
        | _ => []
       let y := (bothOk (s.blockPieces core blocks) (s.yPieces core .write o.v1 8)).map fun (a, b) =>
        ({ rd := a, wr := b, lag := some lag, land := if yIsReg o.v1 then 2 else 0 } : YTime)
       s.yLaunch t { o with reads := blocks.any fun b => !yIsReg b, writes := true, data := data }
        ((blocks.map fun b => (b, 4096)) ++ [(o.v1, 8)]) y (yGrans o.v1 8) (s.handoffs c syncBlock gs) none)

def execYfpr (f : YF) (t : Tok) (s : State) : Host.Outcome State Fault Refusal :=
  let i : Instr := .yfpr f t
  let o := s.yOp i f
  finish i s (s.afterTokens t (blockIssue t s o [o.v2] 32))

def execYcmp (f : YF) (t : Tok) (s : State) : Host.Outcome State Fault Refusal :=
  let i : Instr := .ycmp f t
  let o := s.yOp i f
  finish i s (s.afterTokens t (blockIssue t s o [o.v2, o.v3] 8))

/-- The bytes of blocks: those in register space were read at issue. -/
def State.blockBytes (s : State) (o : Op) : List Byte → List Word → Except Trap (List Byte)
  | _, [] => .ok []
  | held, b :: l =>
    let (got, rest) : Except Trap (List Byte) × List Byte :=
      if yIsReg b then (.ok (held.take 4096), held.drop 4096) else (s.yBytes o b 4096, held)
    match got, s.blockBytes o rest l with
    | .ok x, .ok y => .ok (x ++ y)
    | .error t, _ => .error t
    | _, .error t => .error t

def State.endBlocks (s : State) (n : Nat) (o : Op) (blocks : List Word) (result : List Byte → Word) : State :=
  match (if o.sampled then .ok o.data else s.blockBytes o o.data blocks) with
  | .error tr => s.yFault n o tr
  | .ok bs => match s.yPut o o.v1 (bytesOfNat 8 (result bs).toNat) (fun _ => .n64) with
    | .error tr => s.yFault n o tr
    | .ok s1 => s1.endOp n o

/-- 1 where two blocks are equal byte for byte. -/
def sameBlocks (bs : List Byte) : Word := if bs.take 4096 == bs.drop 4096 then 1 else 0

/-! ## YPREF (R593, R594) -/

/-- A level that a prefetch may fill holds the line (R157). -/
def prefetchable (core : Nat) (mscOnly : Bool) : Level → Bool
  | .near d _ => d == dieOf core
  | .far d _ => d == dieOf core
  | .vault d v => !mscOnly && d == dieOf core && d * 8 + v != clusterOf core
  | _ => false

/-- The lines that are prefetched: those of the range that translate and that a level can hold. -/
def State.prefetchLines (s : State) (core : Nat) (w : Word) (n : Nat) (mscOnly : Bool) : List Seg :=
  if n = 0 then []
  else
    let a := match yAddr w with
      | .phys p => p
      | .virt v => v
      | .reg _ => 0
    (rangeFrom (a / 256) ((a + n - 1) / 256 - a / 256 + 1)).filterMap fun k =>
      match s.yPieces core .read (BitVec.ofNat 64 (256 * k + if w.getLsbD 62 then 2 ^ 62 else 0)) 256 with
      | .ok [g] => if prefetchable core mscOnly (s.levelOf g.pa) then some g else none
      | _ => none

def execYpref (f : YF) (t : Tok) (s : State) : Host.Outcome State Fault Refusal :=
  let core := coreOf s.focus
  let i : Instr := .ypref f t
  let o := s.yOp i f
  let n := o.v2.toNat
  finish i s (s.afterTokens t (match firstBad
      [(yIsReg o.v1 || yTable o.v1 || 2 ^ 32 < n, trapOf tTable), (yInvalid o.v1, trapXlate causeInvalid (fld o.v1 0 56))] with
    | some tr => .trap s tr
    | none =>
      let l := s.prefetchLines core o.v1 n (t.tf.getLsbD 0)
      if l.isEmpty then s.yNothing t 0
      else s.yLaunch t { o with reads := true } [] (some { rd := l }) [] [] none))

/-- Every line that is not skipped is resident; a poisoned one delivers MCHECK (R594). -/
def State.endPrefetch (s : State) (n : Nat) (o : Op) : State :=
  match s.poisonIn o.src with
  | some b => s.failOp n o (trapPoison b)
  | none => s.endOp n o

/-! ## DTLD (R405 to R410, R80, R82) -/

/-- Bound ports of the core that reference a generation of a slot, by context. -/
def State.genRefs (s : State) (core slot g : Nat) : List Nat :=
  (ctxsOf core).filter fun c => (s.ctx c).ports.any fun (_, p) => p.slot == slot && p.gen == g

def State.slotAt (s : State) (core n : Nat) : Slot := tgetD (s.core core).slots n {}

/-- A generation is referenced by a port or by a load in flight. -/
def State.genBusy (s : State) (core slot g : Nat) : Bool :=
  !(s.genRefs core slot g).isEmpty || (s.slotAt core slot).loading.any fun p => p.1 == g

/-- The generation that a load takes (R80). -/
def State.freeGen (s : State) (core slot : Nat) : Option Nat :=
  let cur := (s.slotAt core slot).current
  let other := 1 - cur
  if !s.genBusy core slot other then some other else if !s.genBusy core slot cur then some cur else none

/-- Every reference is of the context's own ports (R82). -/
def State.ownRefs (s : State) (c slot : Nat) : Bool :=
  let core := coreOf c
  [0, 1].all fun g => !(s.genRefs core slot g).isEmpty && (s.genRefs core slot g).all (· == c)
    && !((s.slotAt core slot).loading.any fun p => p.1 == g)

/-- Another context's DTLD has waited longer for a generation of the slot (R82). -/
def State.slotAhead (s : State) (c slot : Nat) : Bool :=
  let age (d : Nat) : Nat := (s.eng d .y).age.getD s.cycle
  (ctxsOf (coreOf c)).any fun d => d != c && (s.eng d .y).hold == .slot slot && (s.eng d .y).st == .waiting
    && (age d < age c || (age d == age c && d < c))

def dtldType (v : Word) : Bool := v == 0x03 || v == 0x0B || v == 0x0F

def execDtld (f : YF) (t : Tok) (s : State) : Host.Outcome State Fault Refusal :=
  let c := s.focus
  let core := coreOf c
  let i : Instr := .dtld f t
  let o := s.yOp i f
  let slot := o.v1.toNat
  finish i s (s.afterTokens t (match firstBad
      [(yIsReg o.v2 && !yTable o.v2 && yOutside (s.ctx c) o.v2 32, trapOf tView),
       (yLow o.v2 % 32 != 0, trapAt tAlign (fld o.v2 0 56)),
       (15 < slot || !dtldType o.v3 || yTable o.v2 || s.ownRefs c slot, trapOf tTable),
       (yInvalid o.v2, trapXlate causeInvalid (fld o.v2 0 56))] with
    | some tr => .trap s tr
    | none => match (if s.slotAhead c slot then none else s.freeGen core slot) with
      | none => .wait s .waiting (.slot slot)
      | some g =>
        let gs := yGrans o.v2 32
        s.yWaits gs
          (let data := match yAddr o.v2 with
            | .reg off => s.regBytes c off 32
            | _ => []
           let y := match s.yPieces core .read o.v2 32 with
            | .ok l => some ({ rd := l, land := 2 } : YTime)
            | .error _ => none
           match s.yLaunch t { o with reads := !yIsReg o.v2, data := data, lanes := [g] } [(o.v2, 32)] y []
              (s.handoffs c syncBlock gs) none with
           | .done s1 =>
             .done (s1.modCore core fun k =>
               { k with slots := tmod k.slots slot {} fun q => { q with loading := q.loading ++ [(g, s.opNext)] } })
           | r => r)))

/-- The load leaves its slot. -/
def Slot.unload (q : Slot) (n : Nat) : Slot := { q with loading := q.loading.filter fun p => p.2 != n }

/-- The generation takes the table and becomes current. -/
def Slot.load (q : Slot) (g : Nat) (d : DecodeTable) : Slot :=
  if g = 0 then { q with g0 := d, current := 0 } else { q with g1 := d, current := 1 }

/-- DTLD_COMPLETE: the table lands and its generation becomes current (R80, R407). -/
def execDtldComplete (op : Nat) (s : State) : Host.Outcome State Fault Refusal :=
  match s.op? op with
  | some o =>
    match o.ins with
    | .dtld _ _ =>
      if !s.opReady o then .next s
      else
        let slot := o.v1.toNat
        let put (t : State) (h : Slot → Slot) : State :=
          t.modCore o.core fun k => { k with slots := tmod k.slots slot {} h }
        match (if yIsReg o.v2 || o.sampled then .ok o.data else s.yBytes o o.v2 32) with
        | .error tr =>
          .next (if tr.code = tTranslate && tr.sub != causeNoTarget then s.parkOp op o tr
            else (put s fun q => q.unload op).failOp op o tr)
        | .ok bs =>
          let d : DecodeTable := { entries := BitVec.ofNat 256 (natOfBytes bs), ty := (fmtOf o.v3.toNat).getD .bf16 }
          .next ((put s fun q => (q.unload op).load (nth o.lanes 0 0) d).endOp op o)
    | _ => .next s
  | none => .next s

/-! ## YPIN and YUNPIN (R171, R172, R591, R592) -/

/-- The physical pieces of a window, where every page lies in the die's HBM. -/
def State.pinPieces (s : State) (core : Nat) (base size : Nat) : Option (List Seg) :=
  match s.range core .read base size with
  | .error _ => none
  | .ok l => if l.all fun g => prefetchable core true (s.levelOf g.pa) && prefetchable core true (s.levelOf (g.pa + g.len - 1))
      then some l else none

def pinSum (l : List Pin) : Nat := l.foldl (fun n p => n + p.size) 0

def execYpin (f : YF) (t : Tok) (s : State) : Host.Outcome State Fault Refusal :=
  let c := s.focus
  let d := dieOfCtx c
  let i : Instr := .ypin f t
  let o := s.yOp i f
  let base := fld o.v1 0 56
  let size := o.v2.toNat
  let fade := o.v3.toNat
  let pins := (s.die d).pins
  finish i s (s.afterTokens t
    (if o.v1.getLsbD 63 || o.v1.getLsbD 62 || base % 2 ^ 18 != 0 || size % 2 ^ 18 != 0 || size = 0 || fade = 0 || 255 < fade
        || 2 ^ 27 < size then .trap s (trapOf tTable)
     else if yInvalid o.v1 then .trap s (trapXlate causeInvalid base)
     else match s.pinPieces (coreOf c) base size with
      | none => .trap s (trapOf tTable)
      | some segs =>
        if pins.any fun p => p.base == base && p.size == size && p.segs == segs then
          match s.yNothing t s.cycle with
          | .done s1 =>
            .done (s1.modDie d fun x => { x with pins := x.pins.map fun p =>
              if p.base == base && p.size == size then { p with fade := fade, count := fade, since := s.cycle } else p })
          | r => r
        else if 64 ≤ pins.length || 2 ^ 27 < pinSum pins + size || pins.any (fun p => segsOverlap p.segs segs) then
          .trap s (trapOf tTable)
        else match s.yLaunch t { o with reads := true } [(o.v1, size)] (some { rd := segs }) [] [] none with
          | .done s1 =>
            .done (s1.modDie d fun x => { x with pins := x.pins ++ [{ base := base, size := size, segs := segs, fade := fade }] })
          | r => r))

def execYunpin (f : YF) (t : Tok) (s : State) : Host.Outcome State Fault Refusal :=
  let c := s.focus
  let d := dieOfCtx c
  let i : Instr := .yunpin f t
  let o := s.yOp i f
  let base := fld o.v1 0 56
  finish i s (s.afterTokens t
    (if o.v1.getLsbD 63 || o.v1.getLsbD 62 then .trap s (trapOf tTable)
     else if yInvalid o.v1 then .trap s (trapXlate causeInvalid base)
     else match (s.die d).pins.find? fun p => p.base == base with
      | none => s.yNothing t 0
      | some p =>
        if p.filled then
          match s.yNothing t 0 with
          | .done s1 => .done ((s1.modDie d fun x => { x with pins := x.pins.filter fun q => q.base != base }).pinReleased d p)
          | r => r
        else match s.yLaunch t o [] none [] [] none with
          | .done s1 =>
            .done (s1.modDie d fun x => { x with pins := x.pins.map fun q =>
              if q.base == base then { q with unpin := q.unpin ++ [s.opNext] } else q })
          | r => r))

/-- PIN_FILL_COMPLETE: every line is resident, the counter is loaded, and a YUNPIN that waits releases the window (R171,
R172, R592). -/
def execPinFillComplete (op : Nat) (s : State) : Host.Outcome State Fault Refusal :=
  match s.op? op with
  | some o =>
    match o.ins with
    | .ypin _ _ =>
      let d := dieOf o.core
      let base := fld o.v1 0 56
      let waiting := ((s.die d).pins.find? fun p => p.base == base && !p.filled).elim [] Pin.unpin
      if !s.opReady o then .next s
      else
        let bad := s.poisonIn o.src
        let s1 := s.modDie d fun x =>
          { x with
            pins := if bad.isSome || !waiting.isEmpty then x.pins.filter fun p => p.base != base
              else x.pins.map fun p =>
                if p.base == base then { p with filled := true, count := p.fade, since := s.cycle } else p }
        let s2 := match bad with
          | some b => s1.failOp op o (trapPoison b)
          | none => s1.endOp op o
        .next (waiting.foldl (fun t n => match t.op? n with
          | some q => t.endOp n q
          | none => t) s2)
    | _ => .next s
  | none => .next s

/-! ## XATOM (R577 to R579) -/

def execXatom (f : YF) (t : Tok) (x : At) (s : State) : Host.Outcome State Fault Refusal :=
  let c := s.focus
  let core := coreOf c
  let i : Instr := .xatom f t x
  let o := s.yOp i f
  let size := 2 ^ x.size.toNat
  let cas := x.aop.toNat = 9
  let r := o.v3
  finish i s (s.afterTokens t (match firstBad
      [(r != 0 && yOutside (s.ctx c) r 8, trapOf tView),
       (s.versioned c, trapOf tOrder),
       (yLow o.v1 % size != 0, trapAt tAlign (fld o.v1 0 56)),
       (yLow r % 8 != 0, trapAt tAlign (fld r 0 56)),
       (yIsReg o.v1 || yTable o.v1 || yTable r || (cas && r = 0), trapOf tTable),
       (yInvalid o.v1, trapXlate causeInvalid (fld o.v1 0 56)),
       (yInvalid r, trapXlate causeInvalid (fld r 0 56))] with
    | some tr => .trap s tr
    | none =>
      let gs := if cas then yGrans r 8 else []
      s.yWaits gs
        (let got : Except Trap (List Byte) := match yAddr r with
          | .reg off => .ok (s.regBytes c off 8)
          | _ => match s.yPieces core .read r 8 with
            | .error e => .error e
            | .ok segs => match s.poisonIn segs with
              | some b => .error (trapPoison b)
              | none => .ok (s.unitSees (s.unitNo c) (s.cycle + 1) segs)
         let exp : Option (List Byte) := if !cas then some [] else match got with
          | .ok bs => some bs
          | .error _ => none
         let y := (bothOk (s.yPieces core .write o.v1 size) (if r = 0 then .ok [] else s.yPieces core .write r 8)).map fun (a, b) =>
          (a ++ b)
         let o1 : Op := { o with
          reads := true, writes := true, v2 := BitVec.ofNat 64 (8 * size), v1 := BitVec.ofNat 64 (o.v2.toNat % 2 ^ (8 * size))
          va := o.v1.toNat, data := exp.getD [], lanes := if exp.isSome then [1] else [0], segs := y.getD [] }
         s.yLaunch t o1 [(o.v1, size), (r, if r = 0 then 0 else 8)] none (if r = 0 then [] else yGrans r 8)
            (s.handoffs c syncBlock gs) (if t.tf.getLsbD 0 then some (s.ordRel c) else none))))

/-- The remote read-modify-write and the write of its result (R578): a poisoned target delivers MCHECK and nothing is
written. -/
def State.endXatom (s : State) (n : Nat) (o : Op) (x : At) : State :=
  let target : Word := BitVec.ofNat 64 o.va
  let r := o.v3
  let w := o.v2.toNat
  let exp : Except Trap (List Byte) := if nth o.lanes 0 0 = 1 then .ok o.data else s.yBytes o r 8
  let v := s.asIssued o.issued
  match exp, v.yPieces o.core .write target (w / 8), (if r = 0 then .ok [] else v.yPieces o.core .write r 8) with
  | .error t, _, _ => s.yFault n o t
  | _, .error t, _ => s.yFault n o t
  | _, _, .error t => s.yFault n o t
  | .ok eb, .ok segs, .ok rs =>
    match s.poisonIn segs, s.poisonHurt rs with
    | some b, _ => s.failOp n o (trapPoison b)
    | none, hurt =>
      let old := natOfBytes (bytesOfSegs s.mem segs)
      let s1 := match atomNew x.aop.toNat w old o.v1.toNat (natOfBytes eb % 2 ^ w) with
        | some v => s.writeSegs segs (bytesOfNat (w / 8) v)
        | none => s
      if r = 0 then s1.endOp n o
      else match hurt with
        | some b => s1.failOp n o (trapPoison b)
        | none => match s1.yPut o r (bytesOfNat 8 old) (fun _ => .n64) with
          | .error t => s1.yFault n o t
          | .ok s2 => s2.endOp n o

/-! ## XSTF (R582 to R584, R212) -/

/-- The die behind a memory address word. -/
def State.yDie (s : State) (core : Nat) (w : Word) : Option Nat :=
  match s.yPieces core .write w 1 with
  | .ok (g :: _) => some (paDie g.pa)
  | _ => none

def State.diesDiffer (s : State) (core : Nat) (a b : Word) : Bool :=
  match s.yDie core a, s.yDie core b with
  | some x, some y => x != y
  | _, _ => false

def execXstf (f : YF) (t : Tok) (s : State) : Host.Outcome State Fault Refusal :=
  let c := s.focus
  let core := coreOf c
  let i : Instr := .xstf f t
  let o := s.yOp i f
  let size := 2 ^ (t.tf.toNat % 4)
  finish i s (s.afterTokens t (match firstBad
      [(s.versioned c, trapOf tOrder),
       (yLow o.v1 % size != 0, trapAt tAlign (fld o.v1 0 56)),
       (yLow o.v3 % 8 != 0, trapAt tAlign (fld o.v3 0 56)),
       (yIsReg o.v1 || yIsReg o.v3 || yTable o.v1 || yTable o.v3 || s.diesDiffer core o.v1 o.v3, trapOf tTable),
       (yInvalid o.v1, trapXlate causeInvalid (fld o.v1 0 56)),
       (yInvalid o.v3, trapXlate causeInvalid (fld o.v3 0 56))] with
    | some tr => .trap s tr
    | none =>
      let y := bothOk (s.yPieces core .write o.v1 size) (s.yPieces core .write o.v3 8)
      s.yLaunch t { o with writes := true, data := bytesOfNat size o.v2.toNat, segs := (y.map fun (a, b) => a ++ b).getD [] }
        [(o.v1, size), (o.v3, 8)] none [] [] none))

/-- The data of an XSTF is performed: neither location is written where either faults (R583). -/
def State.xstfData (s : State) (n : Nat) (o : Op) : State :=
  if o.sampled then s
  else match (s.asIssued o.issued).yPieces o.core .write o.v1 o.data.length, (s.asIssued o.issued).yPieces o.core .write o.v3 8 with
    | .error t, _ => s.yFault n o t
    | _, .error t => s.yFault n o t
    | .ok a, .ok b =>
      if s.diesDiffer o.core o.v1 o.v3 then s.failOp n o (trapOf tTable)
      else match s.poisonHurt a, s.poisonIn b with
        | some k, _ => s.failOp n o (trapPoison k)
        | none, some k => s.failOp n o (trapPoison k)
        | none, none => ((s.writeSegs a o.data).touchPins a).modOp n fun q => { q with sampled := true, due := s.cycle + 1 }

/-- FLAG_INCREMENT: the data is performed, so the flag counts and the token completes (R212, R583, R584). -/
def execFlagIncrement (op : Nat) (s : State) : Host.Outcome State Fault Refusal :=
  match s.op? op with
  | some o =>
    match o.ins with
    | .xstf _ _ =>
      if !o.sampled || o.parked.isSome then .next s
      else match (s.asIssued o.issued).yPieces o.core .write o.v3 8 with
        | .error t => .next (s.yFault op o t)
        | .ok segs => match s.poisonIn segs with
          | some k => .next (s.failOp op o (trapPoison k))
          | none =>
            let v := natOfBytes (bytesOfSegs s.mem segs)
            .next ((s.writeSegs segs (bytesOfNat 8 (v + 1))).endOp op o)
    | _ => .next s
  | none => .next s

/-! ## Rows of a memory writeback (R488) -/

/-- Every row of an MWB to memory is stored, or none. -/
def State.endWriteback (s : State) (n : Nat) (o : Op) : State :=
  let v := tileOf o.v1
  let len := v.cols * v.ty.bits / 8
  let rows := mwbRows o.va v.stride len (if s.opLive o then o.v2.toNat else o.data.length / max 1 len) o.data
  if s.opLive o && o.data.length < len * o.v2.toNat then s
  else
    let pieces (r : Nat × List Byte) : Except (Nat × Nat) (List Seg) := (s.asIssued o.issued).range o.core .write r.1 r.2.length
    match firstSome (fun r => match pieces r with
        | .error e => some e
        | .ok _ => none) rows with
    | some (cause, a) => s.yFault n o (trapXlate cause a)
    | none =>
      let segs (r : Nat × List Byte) : List Seg := match pieces r with
        | .ok l => l
        | .error _ => []
      match firstSome (fun r => s.poisonHurt (segs r)) rows with
      | some b => s.failOp n o (trapPoison b)
      | none => (rows.foldl (fun t r => (t.unitWrite o.unit (segs r) r.2).touchPins (segs r)) s).endOp n o

/-! ## The record of RSPLAN (R510) -/

def State.endRecord (s : State) (n : Nat) (o : Op) : State :=
  match s.yPut o o.v2 o.data (fun _ => .raw) with
  | .error t => s.yFault n o t
  | .ok s1 => s1.endOp n o

/-! ## TOKEN_COMPLETE -/

/-- TOKEN_COMPLETE: an asynchronous operation does what is left of it and completes its token, or faults (R573, R594). -/
def execTokenComplete (op : Nat) (s : State) : Host.Outcome State Fault Refusal :=
  match s.op? op with
  | some o =>
    if o.kind != .async || !s.opReady o then .next s
    else match o.ins with
      | .ycopy _ t => .next (s.endCopy op o t)
      | .yfill _ t => .next (s.endFill op o t)
      | .ygath _ t => .next (s.endGather op o t)
      | .yscat _ _ => .next (s.endScatter op o)
      | .yfpr _ _ => .next (s.endBlocks op o [o.v2] crc64)
      | .ycmp _ _ => .next (s.endBlocks op o [o.v2, o.v3] sameBlocks)
      | .ypref _ _ => .next (s.endPrefetch op o)
      | .xatom _ _ x => .next (s.endXatom op o x)
      | .xstf _ _ => .next (s.xstfData op o)
      | .mwbMem _ _ => .next (s.endWriteback op o)
      | .rsplan _ _ _ => .next (s.endRecord op o)
      | .mnest _ _ => if o.sampled then .next (s.endOp op o) else .next s
      | _ => .next s
  | none => .next s

/-- An asynchronous operation reads its source bytes now (R201); a fault is found again when it completes. -/
def State.sampleOp (s : State) (op : Nat) : State :=
  match s.op? op with
  | some o =>
    if o.kind != .async || !s.opReady o || o.sampled || !o.reads then s
    else
      let got : Except Trap (List Byte) := match o.ins with
        | .ycopy _ _ => s.yBytes o o.v2 o.v3.toNat
        | .yfpr _ _ => s.blockBytes o o.data [o.v2]
        | .ycmp _ _ => s.blockBytes o o.data [o.v2, o.v3]
        | .dtld _ _ => s.yBytes o o.v2 32
        | _ => .error (trapOf 0)
      match got with
      | .ok bs => s.setOp op { o with sampled := true, data := bs }
      | .error _ => s
  | none => s

end Sys2Proof.Machine
end

