-- ==== Sys2Proof/Machine/Sched.lean ====
section
/-! DEFINITION. Events of the job's graph state, of the ready pools and of the life of units (02_execution.md R22, R25, R29,
R36 to R40; 09_scheduling.md R226 to R235, R239; 16_ref_d_l.md R427; 10_faults.md R259, R260; 12_system.md R298). -/
namespace Sys2Proof.Machine

/-! ## The graph state -/

/-- Work of a versioned unit that fails at its commit is recorded in the management log (R413, R441). -/
def State.logCommit (s : State) (u code : Nat) : State := s.logEntry (.commitFailed u code)

/-- Creates a launch (R439): one copy of its units on each of its dies, each with its own record (R234). -/
def State.createLaunch (s : State) (index die : Nat) (r : BitVec 1024) (args : Word) (copies : Tab (BitVec 1024 × Word)) :
    State :=
  s.modJob fun j => j.addLaunch index { record := r, args := args, graph := 0, die := die, mesh := recMesh r, copies := copies }
    (s.copyDies r die)

/-- What an effect does at the graph state: the state after it, with the value or the trap answered. -/
def State.applyWork (s : State) (f : Effect) (die : Nat) : State × Except Nat Word :=
  if s.job.ctr.sealed then
    -- no work takes effect after the job's counter is sealed (R25); what the instruction then answers is not stated
    let (n, s1) := s.fresh
    (s1, .ok (Config.freeWord n))
  else match f.work with
    | .launch index r args =>
      if s.job.launchFull r then (s, .error tTable)
      else
        let (s1, n) := if f.committed then (s, index) else s.takeIndex
        (s1.createLaunch n die r args [], .ok (handle 0 n))
    | .edge kind h a b =>
      match s.job.edge { kind := kind, h := h, a := handleIndex a, b := handleIndex b } with
      | .error t => (s, .error t)
      | .ok j => ({ s with job := j }, .ok 0)
    | .seal ph =>
      let (j, h) := s.job.seal ph
      ({ s with job := j }, .ok h)
    | .cancel level index => (s.cancelObject level index, .ok 0)

/-- Committed work of a unit that comes before a place in its program order has still to take effect (R35). -/
def State.workBefore (s : State) (u order : Nat) : Bool :=
  (s.job.effects.any fun (_, f) => f.unit == u && f.committed && f.order < order)
    || s.job.contributions.any fun (_, k) => k.unit == u && k.atCommit && k.order < order

/-- The first effect that may take place: not yet done, its released accesses performed, and after the work that its unit
committed before it. -/
def State.nextEffect (s : State) : Option (Nat × Effect) :=
  s.job.effects.find? fun (_, f) =>
    !f.done && !(f.waits.any fun a => s.pending a) && !(f.committed && s.workBefore f.unit f.order)

def State.effectDie (s : State) (f : Effect) : Nat :=
  if f.committed then match s.unit? f.unit with
    | some r => r.versionDie
    | none => 0
  else dieOfCtx f.ctx

/-- GRAPH_STATE_EFFECT (R427): one LAUNCH, EDGE, GSEAL or piece of committed work takes effect. -/
def execGraphStateEffect (s : State) : Host.Outcome State Fault Refusal :=
  match s.nextEffect with
  | some (n, f) =>
    let (s1, r) := s.applyWork f (s.effectDie f)
    .next (if f.committed then
        let s2 := s1.dropEffect n
        match r with
        | .ok _ => s2
        | .error t => s2.logCommit f.unit t
      else s1.modJob fun j => { j with effects := tset j.effects n (match r with
        | .ok v => { f with done := true, val := v }
        | .error t => { f with done := true, trap := some (trapOf t) }) })
  | none => .next s

/-! ## Mesh launches (R234) -/

/-- The contributions that match one, those not yet answered. -/
def State.sameKey (s : State) (k : Contribution) : Tab Contribution :=
  s.job.contributions.filter fun (_, q) => q.key == k.key && !q.done

/-- The unit that contributes for a die under a key. -/
def State.peerUnit (s : State) (key : List Nat) (d : Nat) : Option UnitRec :=
  match key with
  | l :: j :: _ => match s.launch? l with
    | some r => firstSome (fun u => match s.unit? u with
        | some q => if q.j == j && q.die == d then some q else none
        | none => none) r.units
    | none => none
  | _ => none

/-- Some die's unit has ended without its contribution. -/
def State.meshBroken (s : State) (k : Contribution) : Bool :=
  s.meshDies.any fun d => !((s.sameKey k).any fun (_, q) => q.die == d) && (match s.peerUnit k.key d with
    | some r => r.st.terminal
    | none => true)

/-- Every die of the mesh has contributed, with its released accesses performed and after its unit's earlier work. -/
def State.meshComplete (s : State) (k : Contribution) : Bool :=
  s.meshDies.all fun d => (s.sameKey k).any fun (_, q) =>
    q.die == d && !(q.waits.any fun a => s.pending a) && !(q.atCommit && s.workBefore q.unit q.order)

def sameShape (a b : BitVec 1024) : Bool := recWord a 64 == recWord b 64 && recCtl a == recCtl b

/-- Answers every contribution of a key: a committing unit's is taken away, and a failure logged. -/
def State.answerMesh (s : State) (k : Contribution) (r : Except Nat Word) : State :=
  (s.sameKey k).foldl (fun t (n, q) =>
    if q.atCommit then
      let t1 := t.modJob fun j => { j with contributions := tdel j.contributions n }
      match r with
      | .ok _ => t1
      | .error c => t1.logCommit q.unit c
    else t.modJob fun j => { j with contributions := tset j.contributions n (match r with
      | .ok v => { q with done := true, val := v }
      | .error c => { q with done := true, trap := some (trapOf c) }) }) s

def State.meshReady (s : State) (n : Nat) : Bool :=
  match tget s.job.contributions n with
  | some k => !k.done && (s.meshComplete k || s.meshBroken k)
  | none => false

/-- MESH_LAUNCH_MATCH: the contributions of a key are compared; the copies are created, or MESH is raised. -/
def execMeshLaunchMatch (contribution : Nat) (s : State) : Host.Outcome State Fault Refusal :=
  match tget s.job.contributions contribution with
  | some k =>
    if k.done then .next s
    else if s.meshComplete k then
      .next (if (s.sameKey k).all fun (_, q) => sameShape q.record k.record then
          let (s1, n) := s.meshIndex k.key
          (s1.createLaunch n k.die k.record k.args ((s.sameKey k).map fun (_, q) => (q.die, q.record, q.args))).answerMesh k
            (.ok (handle 0 n))
        else s.answerMesh k (.error tMesh))
    else if s.meshBroken k then .next (s.answerMesh k (.error tMesh))
    else .next s
  | none => .next s

/-! ## Counters (R25, R221, R298) -/

/-- Every store of the launch's units is performed (R221). -/
def State.launchStored (s : State) (l : Nat) : Bool :=
  match s.launch? l with
  | some r => r.units.all fun u => !s.storesLeft u
  | none => true

def State.finalReady (s : State) (level index : Nat) : Bool :=
  match s.job.counter level index with
  | some k => k.ready && !k.final && (level != 0 || s.launchStored index)
  | none => false

/-- The parent of an object: its level and index. -/
def State.parentOf (s : State) (level index : Nat) : Option (Nat × Nat) :=
  match level with
  | 0 => match s.launch? index with
    | some l => some (1, l.graph)
    | none => none
  | 1 => match tget s.job.graphs index with
    | some g => some (2, g.phase)
    | none => none
  | 2 => some (3, 0)
  | _ => none

/-- Every TLB of the job is emptied and the pinned windows are released (R300, R171). -/
def State.jobCleanup (s : State) : State :=
  { s with
    cores := s.cores.map fun (k, x) => (k, { x with tlb := [], snaps := [] })
    dies := s.dies.map fun (d, x) => (d, { x with tlb := [], walks := [], seen := [], pins := [], reserved := [] }) }

/-- The job ends (R298). -/
def State.jobEnd (s : State) (st : JobState) : State :=
  let s1 := ((s.modJob fun j => { j with st := st, stopping := false }).jobCleanup.logEntry (.jobEnd st)).msi 0
  if st = .done then s1 else s1.msi 1

/-- COUNTER_FINAL: the object becomes terminal and is counted in its parent; the job ends with its own counter. -/
def execCounterFinal (level : Fin 4) (index : Nat) (s : State) : Host.Outcome State Fault Refusal :=
  if s.finalReady level index then
    match s.job.counter level index with
    | some k =>
      let s1 := s.modJob fun j => j.modCounter level index fun c => { c with final := true }
      .next (match s.parentOf level index with
        | some (l, p) => s1.modJob fun j => j.modCounter l p fun c => c.member (k.canc || k.flt)
        | none => if s.job.st = .running || s.job.st = .stopped then s1.jobEnd (if k.flt then .faulted else .done) else s1)
    | none => .next s
  else .next s

/-- Nothing of the job can run any more (R25). -/
def State.jobIdle (s : State) : Bool :=
  s.job.st == .running && !s.job.ctr.sealed && s.job.effects.isEmpty && s.job.contributions.isEmpty
  && s.job.units.all fun (_, r) =>
    r.st.terminal || (r.st == .held && match s.launch? r.launch with
      | some l => s.job.openGraph == some l.graph
      | none => false)

/-- JOB_SEAL: the job's counter is sealed; what the open graph holds is cancelled and an open phase is closed. -/
def execJobSeal (s : State) : Host.Outcome State Fault Refusal :=
  if s.jobIdle then
    let s1 := match s.job.openGraph with
      | some g => s.cancelObject 1 g
      | none => s
    .next (s1.modJob fun j =>
      let j1 := match j.openPhase with
        | some p => { j.modCounter 2 p setSealed with openPhase := none }
        | none => j
      { j1 with ctr := setSealed j1.ctr })
  else .next s

/-! ## Release (R22, R227) -/

/-- A phase is released once the counter of the previous phase is FINAL (R22). -/
def Job.phaseOpen (j : Job) (p : Nat) : Bool :=
  p = 0 || match tget j.phases (p - 1) with
    | some q => q.ctr.final
    | none => false

/-- The launch at the head of a queue, with the one before it. -/
def queueHead (j : Job) : Option Nat → List Nat → Option (Option Nat × Nat)
  | _, [] => none
  | prev, l :: rest => match tget j.launches l with
    | some r => if r.released || r.started then queueHead j (some l) rest else some (prev, l)
    | none => queueHead j prev rest

def Job.mayRelease (j : Job) (prev : Option Nat) (l : Nat) : Bool :=
  match tget j.launches l with
  | some r =>
    (match tget j.graphs r.graph with
      | some g => g.ctr.sealed && j.phaseOpen g.phase
      | none => false)
    && match prev with
      | some p => match tget j.launches p with
        | some q => q.started && (!r.bar || q.ctr.final)
        | none => true
      | none => true
  | none => false

def State.releaseHead (s : State) (q : Nat) : Option Nat :=
  match queueHead s.job none (tgetD s.job.queues q []) with
  | some (prev, l) => if s.job.mayRelease prev l then some l else none
  | none => none

/-! ## Readiness (R29, R229) -/

/-- The copies on which a unit's edge depends (R235). -/
def edgeCopies (a b : LaunchRec) (u src : UnitRec) : Bool := !(a.mesh && b.mesh) || src.die == u.die

/-- The source units of a unit under one pattern. -/
def State.sourcesIn (s : State) (u : UnitRec) (p : Pattern) : List Nat :=
  if p.b != u.launch then []
  else match s.launch? p.a, s.launch? p.b with
    | some a, some b => a.units.filter fun n => match s.unit? n with
      | some r => p.joins a b r.j u.j && edgeCopies a b u r
      | none => false
    | _, _ => []

def State.sources (s : State) (u : UnitRec) : List Nat :=
  match s.launch? u.launch with
  | some l => match tget s.job.graphs l.graph with
    | some g => g.patterns.foldl (fun a p => a ++ s.sourcesIn u p) []
    | none => []
  | none => []

/-- An edge from the unit is satisfied (R29). -/
def State.satisfied (s : State) (u : Nat) : Bool :=
  match s.unit? u with
  | some r => r.st == .done && !s.storesLeft u
  | none => true

def State.failed (s : State) (u : Nat) : Bool :=
  match s.unit? u with
  | some r => r.st == .faulted || r.st == .cancelled
  | none => false

/-- The unit becomes Ready, and enters the pool where there is room (R229, R230). -/
def State.makeReady (s : State) (u : Nat) : State :=
  (s.modUnit u fun r => { r with st := .ready, age := some (r.age.getD s.cycle), inPool := false }).fillPool
    (((s.unit? u).map UnitRec.die).getD 0)

def State.unitReadyNow (s : State) (u : Nat) : Bool :=
  match s.unit? u with
  | some r =>
    (r.st == .waiting && (s.sources r).all s.satisfied) || ((r.st == .waiting || r.st == .held) && (s.sources r).any s.failed)
  | none => false

/-- UNIT_READY: every edge is satisfied and the unit becomes Ready, or one has failed and it is cancelled (R29). -/
def execUnitReady (unit : Nat) (s : State) : Host.Outcome State Fault Refusal :=
  match s.unit? unit with
  | some r =>
    if (r.st == .waiting || r.st == .held) && (s.sources r).any s.failed then .next (s.removeUnit unit)
    else if r.st == .waiting && (s.sources r).all s.satisfied then .next (s.makeReady unit)
    else .next s
  | none => .next s

/-- A unit of a released launch becomes Waiting, or Ready where nothing holds it (R36). -/
def State.releaseUnit (s : State) (u : Nat) : State :=
  match s.unit? u with
  | some r =>
    if r.st != .held then s
    else
      let s1 := s.modUnit u fun r => { r with st := .waiting }
      if (s.sources r).all s.satisfied then s1.makeReady u else s1
  | none => s

/-- LAUNCH_RELEASE: the head of a queue is released (R227). -/
def execLaunchRelease (queue : Fin 8) (s : State) : Host.Outcome State Fault Refusal :=
  match s.releaseHead queue with
  | some l => match s.launch? l with
    | some r => .next (r.units.foldl (fun t u => t.releaseUnit u)
        (s.modLaunch l fun r => { r with released := true, releaseSeq := s.seqNext }))
    | none => .next s
  | none => .next s

/-! ## Placement (R230 to R233, R235, R259) -/

/-- The rank of a unit: priority, then age, the oldest first; a promoted unit has priority 7 and the oldest age. -/
def State.placeRank (s : State) (u : Nat) (r : UnitRec) : Nat × Nat × Nat :=
  if r.promoted then (0, 0, u)
  else match s.launch? r.launch with
    | some l => (7 - l.prio, r.age.getD 0 + 1, u)
    | none => (7, r.age.getD 0 + 1, u)

def rankLess (a b : Nat × Nat × Nat) : Bool :=
  a.1 < b.1 || (a.1 == b.1 && (a.2.1 < b.2.1 || (a.2.1 == b.2.1 && a.2.2 < b.2.2)))

/-- The cores of a die in the order of steps 2 and 3 of R232. -/
def dieOrder (d g n : Nat) : List Nat :=
  (List.range 8).foldl (fun a k => a ++ (List.range 16).map fun m => d * 128 + (g + k) % 8 * 16 + (n + m) % 16) []

/-- The order in which cores are tried: those of the module, or of the die alone for a mesh unit (R232). -/
def placeOrder (home : Nat) (mesh : Bool) : List Nat :=
  let d := dieOf home
  let g := coreIdx home / 16
  let n := coreIdx home % 16
  if mesh then dieOrder d g n else (List.range Config.dies).foldl (fun a k => a ++ dieOrder (dieAfter d k) g n) []

/-- Where the order of a unit starts: its home as it was found, or core 0 of cluster 0 of its die (R231, R232). -/
def State.startCore (s : State) (r : UnitRec) (l : LaunchRec) : Nat := (r.home.getD (s.homeOf r l)).getD (r.die * 128)

/-- Rows of a core held by bound contexts. -/
def State.rowTaken (s : State) (k row : Nat) : Bool :=
  (ctxsOf k).any fun c => (s.ctx c).unit.isSome && (s.ctx c).base ≤ row && row < (s.ctx c).base + (s.ctx c).foot

/-- The lowest base of a free contiguous range of rows (R38). -/
def State.freeBase (s : State) (k foot : Nat) : Option Nat :=
  (List.range (Config.rows + 1 - foot)).find? fun b => (List.range foot).all fun i => !s.rowTaken k (b + i)

/-- The lowest version id that is free on a die (R259). -/
def State.freeVersion (s : State) (d : Nat) : Option Nat :=
  (List.range Config.versionIds).find? fun v => !(s.versionsUsed d).contains v

def State.dieRuns (s : State) (d : Nat) : Bool := !(s.die d).out && !(s.die d).draining

/-- A context and a row base for the unit on a core. -/
def State.fitsAt (s : State) (u : Nat) (r : UnitRec) (l : LaunchRec) (k : Nat) : Option (Nat × Nat) :=
  let reserved := match tget (s.die (dieOf k)).reserved k with
    | some v => v != u
    | none => false
  if reserved || (s.core k).fenced || r.avoid.contains k || !s.dieRuns (dieOf k) || s.job.st != .running || s.job.stopping
    || (l.versioned && r.version.isNone && (s.freeVersion (dieOf k)).isNone) then none
  else match (s.freeCtxs k).head?, s.freeBase k l.foot with
    | some c, some b => some (c, b)
    | _, _ => none

/-- Where placement binds a unit (R232). -/
def State.placeFor (s : State) (u : Nat) : Option (Nat × Nat) :=
  match s.unit? u with
  | some r => match s.launch? r.launch with
    | some l =>
      if r.st == .ready && r.inPool && r.again ≤ s.cycle then firstSome (s.fitsAt u r l) (placeOrder (s.startCore r l) l.mesh) else none
    | none => none
  | none => none

/-- No other unit goes first: of its die, one of higher rank that fits; of another die, one that takes the same context
with higher rank, or equal rank and a lower die (R233). -/
def State.placedFirst (s : State) (u : Nat) (r : UnitRec) (c : Nat) : Bool :=
  let mine := s.placeRank u r
  !(s.job.units.any fun (v, q) =>
    v != u && q.st == .ready && q.inPool && (match s.placeFor v with
      | some (d, _) =>
        if q.die == r.die then rankLess (s.placeRank v q) mine
        else d == c && (((s.placeRank v q).1, (s.placeRank v q).2.1, q.die) |> fun a => rankLess a (mine.1, mine.2.1, r.die))
      | none => false))

/-- Units of other dies that choose the context in the same cycle: of each die, the one of highest rank (R233). -/
def State.losers (s : State) (u : Nat) (r : UnitRec) (c : Nat) : List Nat :=
  let same := s.job.units.filter fun (v, q) => v != u && q.die != r.die && (s.placeFor v).any fun p => p.1 == c
  (same.filter fun (v, q) => !same.any fun (w, p) => p.die == q.die && rankLess (s.placeRank w p) (s.placeRank v q)).map Prod.fst

/-- They are considered again in the next cycle. -/
def State.loseTo (s : State) (u : Nat) (r : UnitRec) (c : Nat) : State :=
  (s.losers u r c).foldl (fun t v => t.modUnit v fun q => { q with again := s.cycle + 1 }) s

/-- The control engine of a context as binding leaves it: a candidate from the next cycle (R39, R240). -/
def boundEng (s : State) (entry : Word) : Eng := { st := .ready, cur := posOfWord entry, gapEnd := s.cycle + 1 }

/-- BINDING (R39, R225): the context of a unit as it starts. -/
def State.boundCtx (s : State) (u : Nat) (r : UnitRec) (l : LaunchRec) (base : Nat) : Ctx :=
  let (rc, args) := l.copyOf r.die
  let g : Regs := {}
  let g1 := ((g.setS 1 false args).setS 2 false (recWord rc 16 + BitVec.ofNat 64 r.j * recWord rc 24)).setS 3 false
    (BitVec.ofNat 64 (affinity rc l r.j))
  { unit := some u, foot := l.foot, base := base, regs := g1, c := boundEng s (recWord rc 0) }

/-- The unit leaves the pool for a context. -/
def State.takePlace (s : State) (u c : Nat) (l : LaunchRec) : State :=
  let d := dieOfCtx c
  let s1 := s.modUnit u fun q =>
    let fresh := l.versioned && q.version.isNone
    { q with st := .resident, inPool := false, ctx := some c
             version := if fresh then s.freeVersion d else q.version
             versionDie := if fresh then d else q.versionDie }
  let s2 : State := { s1 with dies := s1.dies.map fun (n, x) => (n, { x with reserved := x.reserved.filter fun (_, v) => v != u }) }
  s2.modLaunch ((s.unit? u).map UnitRec.launch |>.getD 0) fun q => { q with started := true }

/-- A promoted unit of a pool that fits nowhere reserves its home core, or the first of its order (R233). -/
def State.reserveFor (s : State) (u : Nat) : State :=
  match s.unit? u with
  | some r => match s.launch? r.launch with
    | some l =>
      let k := s.startCore r l
      if r.promoted && r.st == .ready && r.inPool && (s.placeFor u).isNone && (tget (s.die (dieOf k)).reserved k).isNone then
        s.modDie (dieOf k) fun d => { d with reserved := tset d.reserved k u }
      else s
    | none => s
  | none => s

def State.placementReady (s : State) (u : Nat) : Bool :=
  match s.unit? u, s.placeFor u with
  | some r, some (c, _) => r.saved.isNone && s.placedFirst u r c
  | _, _ => false

/-- PLACEMENT: a ready unit is bound to a free context and footprint (R232, R39). -/
def execPlacement (unit : Nat) (s : State) : Host.Outcome State Fault Refusal :=
  match s.unit? unit, s.placeFor unit with
  | some r, some (c, b) =>
    match s.launch? r.launch with
    | some l =>
      if r.saved.isNone && s.placedFirst unit r c then
        .next ((((s.loseTo unit r c).takePlace unit c l).setCtx c (s.boundCtx unit r l b)).fillPool r.die)
      else .next s
    | none => .next s
  | some _, none => .next (s.reserveFor unit)
  | _, _ => .next s

/-- AGE_PROMOTION (R230, R49). -/
def execAgePromotion (unit : Nat) (s : State) : Host.Outcome State Fault Refusal :=
  match s.unit? unit with
  | some r =>
    if r.st == .ready && !r.promoted && r.age.getD s.cycle + 2 ^ 20 ≤ s.cycle then
      .next ((s.modUnit unit fun r => { r with promoted := true }).reserveFor unit)
    else .next s
  | none => .next s

/-- CANDIDATE_WAIT_EXPIRY: the engine switches to a candidate that has waited 1,024 cc (R238, R239). -/
def execCandidateWaitExpiry (core : Nat) (eng : Engine) (ctx : Fin 4) (s : State) : Host.Outcome State Fault Refusal :=
  let c := 4 * core + ctx.val
  if s.expired core eng = some c then .next (s.setCurrent c eng) else .next s

/-! ## The end of a unit (R37, R215, R35) -/

/-- Rows pushed to sinks that memory, or the fabric for those that lie on another die, has still to accept (R507, R220). -/
def State.sinksDone (s : State) (r : UnitRec) : Bool :=
  r.savedPorts.all fun (_, p) => p.pushed.all fun q => (s.op? q.2).any remotePosted

/-- What the unit must still wait for, other than its commit. -/
def State.unitSettled (s : State) (u : Nat) (r : UnitRec) : Bool :=
  r.st == .completing && !s.asyncLeft u && s.sinksDone r && (!s.versionedUnit u || !s.storesLeft u)

/-- Consecutive staged bytes. -/
def stagedRuns : Tab Byte → List (Nat × List Byte)
  | [] => []
  | (a, b) :: t => match stagedRuns t with
    | (c, bs) :: rest => if c = a + 1 then (a, b :: bs) :: rest else (a, [b]) :: (c, bs) :: rest
    | [] => [(a, [b])]

/-- A poisoned block that a commit would write in part: such a write has no effect and is a machine check (R258). -/
def State.commitHurt (s : State) (r : UnitRec) : Option Nat :=
  s.poison.find? fun b =>
    let held := (rangeFrom (256 * b) 256).map fun a => (tget r.staged a).isSome
    held.any id && !held.all id

/-- All runs are written in one instant. -/
def State.writeRuns (s : State) (l : List (Nat × List Byte)) : State :=
  let t := l.foldl (fun (x : State) (a, bs) => { x.writePhys a bs with seqNext := s.seqNext }) s
  { t with seqNext := s.seqNext + 1 }

/-- One piece of staged work, in its place in the unit's order, goes to the graph state; a mesh launch of a mesh unit is
contributed (R234, R35). -/
def State.commitWork (s : State) (u : Nat) (n : Nat) (w : Work) : State :=
  let e : Effect := { ctx := 0, unit := u, work := w, committed := true, order := n }
  match w, s.unit? u with
  | .launch _ r args, some q =>
    if recMesh r && s.inMesh u then
      ((s.postContribution { die := q.die, unit := u, ctx := 0, key := [q.launch, q.j, q.meshLaunches], record := r, args := args
                             atCommit := true, order := n }).1).modUnit u fun x => { x with meshLaunches := x.meshLaunches + 1 }
    else (s.postEffect e).1
  | _, _ => (s.postEffect e).1

/-- VERSIONED_COMMIT: every staged write is performed in one instant, and the staged work goes to the graph state. -/
def State.commit (s : State) (u : Nat) (r : UnitRec) : State :=
  let s1 := (s.writeRuns (stagedRuns r.staged)).touchPins
    (r.staged.map fun (a, _) => { va := a, pa := a, len := 1 })
  let s2 := s1.modUnit u fun q => { q.dropVersion with work := [] }
  (List.zip (List.range r.work.length) r.work).foldl (fun t (n, w) => t.commitWork u n w) s2

def UnitRec.uncommitted (r : UnitRec) : Bool := r.version.isSome || !r.staged.isEmpty || !r.work.isEmpty

/-- Committed work of the unit that has still to take effect. -/
def State.workLeft (s : State) (u : Nat) : Bool :=
  (s.job.effects.any fun (_, f) => f.unit == u && f.committed)
    || s.job.contributions.any fun (_, k) => k.unit == u && k.atCommit

def State.unitDoneReady (s : State) (u : Nat) : Bool :=
  match s.unit? u with
  | some r => s.unitSettled u r && !s.workLeft u
  | none => false

/-- UNIT_DONE: Completing ends. A versioned unit commits first, and is done once its committed work has taken effect. A commit
that meets a poisoned block which it covers in part is a machine check (R258). -/
def execUnitDone (unit : Nat) (s : State) : Host.Outcome State Fault Refusal :=
  match s.unit? unit with
  | some r =>
    if s.unitDoneReady unit then
      if r.ending == .done && s.versionedUnit unit && r.uncommitted then
        match s.commitHurt r with
        | some b => .next (s.unitCheck unit (trapPoison b))
        | none => .next (s.commit unit r)
      else .next ((s.countUnit unit r.ending).fillPool r.die)
    else .next s
  | none => .next s

end Sys2Proof.Machine
end

