-- ==== Sys2Proof/Machine/VecAlu.lean ====
section
/-! DEFINITION. Lane-wise arithmetic, bits, compares, reductions and conversions of the vector engine (19_ref_v.md R546 to
R552, R555 to R560, R568, R569). -/
namespace Sys2Proof.Machine

/-! ## Accepted types (R540) -/

def tArith (t : Fmt) : Bool := t.isFloat || t.isInt
def tWide (t : Fmt) : Bool := t == .fp64 || t == .fp32 || t == .bf16
def tDiv (t : Fmt) : Bool := tWide t || t.isInt
/-- For integer T, RND is required to be 0. -/
def rndFits (t : Fmt) (f : VX) : Bool := !t.isInt || f.rnd == 0

/-! ## One lane (R548, R549) -/

/-- A two- or three-operand result: floating or integer. -/
def laneAdd (t : Fmt) (r : RM) (sat : Bool) (a b : Nat) : Nat × Flg :=
  if t.isFloat then t.ff.add r sat (t.ff.value a) (t.ff.value b) else t.intResult sat (t.int a + t.int b)
def laneSub (t : Fmt) (r : RM) (sat : Bool) (a b : Nat) : Nat × Flg :=
  if t.isFloat then t.ff.add r sat (t.ff.value a) (t.ff.value b).neg else t.intResult sat (t.int a - t.int b)
def laneMul (t : Fmt) (r : RM) (sat : Bool) (a b : Nat) : Nat × Flg :=
  if t.isFloat then t.ff.mul r sat (t.ff.value a) (t.ff.value b) else t.intResult sat (t.int a * t.int b)
def laneFma (t : Fmt) (r : RM) (sat : Bool) (a b c : Nat) : Nat × Flg :=
  if t.isFloat then t.ff.fma r sat (t.ff.value a) (t.ff.value b) (t.ff.value c)
  else t.intResult sat (t.int a * t.int b + t.int c)
def laneMinMax (t : Fmt) (isMax : Bool) (a b : Nat) : Nat × Flg :=
  if t.isFloat then t.ff.minmax isMax a b
  else if (if isMax then t.int a < t.int b else t.int b < t.int a) then (b, 0) else (a, 0)
def laneDiv (t : Fmt) (r : RM) (sat : Bool) (a b : Nat) : Nat × Flg :=
  if t.isFloat then t.ff.div r sat (t.ff.value a) (t.ff.value b)
  else ((divInt t.isSigned t.bits a b).1, if b % 2 ^ t.bits = 0 then fDZ else 0)
def laneAbs (t : Fmt) (a : Nat) : Nat × Flg :=
  if t.isFloat then (a % t.ff.signBit, 0) else if t.isSigned then (wrapOf t.bits (t.int a).natAbs, 0) else (a, 0)
def laneNeg (t : Fmt) (a : Nat) : Nat × Flg :=
  if t.isFloat then (if a / t.ff.signBit % 2 = 1 then a - t.ff.signBit else a + t.ff.signBit, 0)
  else (wrapOf t.bits (-(a : Int)), 0)

/-! ## Arithmetic (R546 to R550) -/

/-- A lane-wise instruction over sources of type T. -/
def vArith (i : Instr) (f : VX) (s : State) (ok : Fmt → Bool) (ops : List (VOp × BitVec 2)) (lat : Nat)
    (g : Fmt → RM → Nat → Nat → Nat → Nat × Flg) : Host.Outcome State Fault Refusal :=
  let x := s.ctx s.focus
  let t := x.vt
  let mask := x.maskList f t.lanes
  let dst := dstOf f.d f.syd t.bits mask
  vecIssue i f s (ops.map fun o => .typed o.1 o.2 t) [dst] (ok t && rndFits t f) lat 4 fun vals =>
    let v (n : Nat) : List Nat := (nth vals n (.all 0)).lanes t.bits t.lanes
    .ok (laneOut dst t.bits t.ffOf (fun _ => t) mask
      (mapLanes (fun l a b c => g t (VX.rm f x l) a b c) 0 mask (v 0) (v 1) (v 2)))

def opA (f : VX) : List (VOp × BitVec 2) := [(f.a, f.sya)]
def opAB (f : VX) : List (VOp × BitVec 2) := [(f.a, f.sya), (f.b, f.syb)]
def opABC (f : VX) : List (VOp × BitVec 2) := [(f.a, f.sya), (f.b, f.syb), (f.c, f.syc)]

def execVadd (f : VX) (s : State) : Host.Outcome State Fault Refusal :=
  vArith (.vadd f) f s tArith (opAB f) 6 fun t r a b _ => laneAdd t r f.sat a b
def execVsub (f : VX) (s : State) : Host.Outcome State Fault Refusal :=
  vArith (.vsub f) f s tArith (opAB f) 6 fun t r a b _ => laneSub t r f.sat a b
def execVmul (f : VX) (s : State) : Host.Outcome State Fault Refusal :=
  vArith (.vmul f) f s tArith (opAB f) 8 fun t r a b _ => laneMul t r f.sat a b
def execVfma (f : VX) (s : State) : Host.Outcome State Fault Refusal :=
  vArith (.vfma f) f s tArith (opABC f) 8 fun t r a b c => laneFma t r f.sat a b c
def execVmin (f : VX) (s : State) : Host.Outcome State Fault Refusal :=
  vArith (.vmin f) f s tArith (opAB f) 6 fun t _ a b _ => laneMinMax t false a b
def execVmax (f : VX) (s : State) : Host.Outcome State Fault Refusal :=
  vArith (.vmax f) f s tArith (opAB f) 6 fun t _ a b _ => laneMinMax t true a b
def execVdiv (f : VX) (s : State) : Host.Outcome State Fault Refusal :=
  vArith (.vdiv f) f s tDiv (opAB f) 24 fun t r a b _ => laneDiv t r f.sat a b
def execVabs (f : VX) (s : State) : Host.Outcome State Fault Refusal :=
  vArith (.vabs f) f s tArith (opA f) 6 fun t _ a _ _ => laneAbs t a
def execVneg (f : VX) (s : State) : Host.Outcome State Fault Refusal :=
  vArith (.vneg f) f s tArith (opA f) 6 fun t _ a _ _ => laneNeg t a
def execVsqrt (f : VX) (s : State) : Host.Outcome State Fault Refusal :=
  vArith (.vsqrt f) f s tWide (opA f) 24 fun t r a _ _ => t.ff.sqrt r (t.ff.value a)
def execVrcp (f : VX) (s : State) : Host.Outcome State Fault Refusal :=
  vArith (.vrcp f) f s tWide (opA f) 24 fun t r a _ _ => t.ff.rcp r (t.ff.value a)
def execVrsq (f : VX) (s : State) : Host.Outcome State Fault Refusal :=
  vArith (.vrsq f) f s tWide (opA f) 24 fun t r a _ _ => t.ff.rsq r (t.ff.value a)
def execVexp2 (f : VX) (s : State) : Host.Outcome State Fault Refusal :=
  vArith (.vexp2 f) f s tWide (opA f) 24 fun t r a _ _ => t.ff.exp2 r f.sat (t.ff.value a)
def execVlog2 (f : VX) (s : State) : Host.Outcome State Fault Refusal :=
  vArith (.vlog2 f) f s tWide (opA f) 24 fun t r a _ _ => t.ff.log2 r f.sat (t.ff.value a)
/-- VSCL: n is one signed integer (R548). -/
def execVscl (f : VX) (s : State) : Host.Outcome State Fault Refusal :=
  vArith (.vscl f) f s tWide (opA f) 6 fun t r a _ _ =>
    t.ff.scl r f.sat (t.ff.value a) (VOp.scalar f.b (s.ctx s.focus)).toInt

/-! ## Bits (R551, R552) -/

/-- An integer tag of width e (R56). -/
def intTag (t u : Fmt) : Bool := u.isInt && u.bits == t.bits

/-- A bitwise or shift instruction: any integer tag of the width, the result tagged as A. -/
def vBits (i : Instr) (f : VX) (s : State) (ops : List (VOp × BitVec 2)) (g : Nat → Nat → Nat → Nat) :
    Host.Outcome State Fault Refusal :=
  let x := s.ctx s.focus
  let t := x.vt
  let mask := x.maskList f t.lanes
  let dst := dstOf f.d f.syd t.bits mask
  vecIssue i f s (ops.map fun o => { op := o.1, sync := o.2.toNat, ok := intTag t }) [dst] t.isInt 6 4 fun vals =>
    let a := nth vals 0 (.all 0)
    let b := nth vals 1 (.all 0)
    .ok (laneOut dst t.bits none (a.tagAt t) mask
      (mapLanes (fun _ a b _ => (g t.bits a b % 2 ^ t.bits, 0)) 0 mask (a.lanes t.bits t.lanes) (b.lanes t.bits t.lanes) []))

def execVand (f : VX) (s : State) : Host.Outcome State Fault Refusal := vBits (.vand f) f s (opAB f) fun _ a b => a &&& b
def execVor (f : VX) (s : State) : Host.Outcome State Fault Refusal := vBits (.vor f) f s (opAB f) fun _ a b => a ||| b
def execVxor (f : VX) (s : State) : Host.Outcome State Fault Refusal := vBits (.vxor f) f s (opAB f) fun _ a b => a ^^^ b
def execVnot (f : VX) (s : State) : Host.Outcome State Fault Refusal := vBits (.vnot f) f s (opA f) fun w a _ => 2 ^ w - 1 - a
def execVshl (f : VX) (s : State) : Host.Outcome State Fault Refusal :=
  vBits (.vshl f) f s (opAB f) fun w a b => shlN w (b % 256) a
def execVshr (f : VX) (s : State) : Host.Outcome State Fault Refusal :=
  vBits (.vshr f) f s (opAB f) fun w a b => shrN w (b % 256) a
def execVsar (f : VX) (s : State) : Host.Outcome State Fault Refusal :=
  vBits (.vsar f) f s (opAB f) fun w a b => sarN w (b % 256) a
def execVrol (f : VX) (s : State) : Host.Outcome State Fault Refusal :=
  vBits (.vrol f) f s (opAB f) fun w a b => rolN w (b % 256) a

/-! ## Compares (R555, R556) -/

/-- The relations of VCMP. -/
inductive Rel where
  | eq | ne | lt | le | gt | ge
  deriving DecidableEq, Repr

/-- The relation on two integers. -/
def Rel.int (r : Rel) (a b : Int) : Bool :=
  match r with
  | .eq => a == b
  | .ne => a != b
  | .lt => a < b
  | .le => a ≤ b
  | .gt => b < a
  | .ge => b ≤ a

/-- The relation on two floating values that are not NaN: -0 equals +0. -/
def Rel.vals (r : Rel) (a b : FVal) : Bool :=
  let lt := valLess false a b
  let gt := valLess false b a
  match r with
  | .eq => !lt && !gt
  | .ne => lt || gt
  | .lt => lt
  | .le => !gt
  | .gt => gt
  | .ge => !lt

/-- One lane: whether the relation holds, and NV (R556). -/
def Rel.lane (r : Rel) (t : Fmt) (a b : Nat) : Nat × Flg :=
  if t.isFloat then
    let x := t.ff.value a
    let y := t.ff.value b
    if x.isNan || y.isNan then
      (if r == .ne then 1 else 0, if r == .eq || r == .ne then anySig [x, y] else fNV)
    else (if r.vals x y then 1 else 0, 0)
  else (if r.int (t.int a) (t.int b) then 1 else 0, 0)

def vCmp (i : Instr) (f : VX) (s : State) (r : Rel) : Host.Outcome State Fault Refusal :=
  let x := s.ctx s.focus
  let t := x.vt
  let mask := x.maskList f t.lanes
  vecIssue i f s [.typed f.a f.sya t, .typed f.b f.syb t] [.reg] (tArith t && rndFits t f) 6 4 fun vals =>
    let v (n : Nat) : List Nat := (nth vals n (.all 0)).lanes t.bits t.lanes
    let (bits, g) := mapLanes (fun _ a b _ => r.lane t a b) 0 mask (v 0) (v 1) []
    .ok { flags := g, reg := some (.mask (VOp.num f.d) (BitVec.ofNat 4096 (packElems 1 bits))) }

def execVcmpEq (f : VX) (s : State) : Host.Outcome State Fault Refusal := vCmp (.vcmpEq f) f s .eq
def execVcmpNe (f : VX) (s : State) : Host.Outcome State Fault Refusal := vCmp (.vcmpNe f) f s .ne
def execVcmpLt (f : VX) (s : State) : Host.Outcome State Fault Refusal := vCmp (.vcmpLt f) f s .lt
def execVcmpLe (f : VX) (s : State) : Host.Outcome State Fault Refusal := vCmp (.vcmpLe f) f s .le
def execVcmpGt (f : VX) (s : State) : Host.Outcome State Fault Refusal := vCmp (.vcmpGt f) f s .gt
def execVcmpGe (f : VX) (s : State) : Host.Outcome State Fault Refusal := vCmp (.vcmpGe f) f s .ge

/-! ## Reductions (R568, R569) -/

/-- The values of the enabled lanes, lowest first. -/
def enabled : List Bool → List Nat → List Nat
  | m :: ms, v :: vs => if m then v :: enabled ms vs else enabled ms vs
  | _, _ => []

/-- The finite parts of values. -/
def finParts : List FVal → List (Bool × Nat × Int)
  | [] => []
  | .fin s m e :: l => (s, m, e) :: finParts l
  | _ :: l => finParts l

/-- The exact floating sum, rounded once; specials as R107. -/
def FF.sumAll (f : FF) (r : RM) (vs : List FVal) : Nat × Flg :=
  if vs.any FVal.isNan then (f.nanCode, anySig vs)
  else
    let infs := vs.filter FVal.isInf
    if infs.any FVal.sign && !(infs.all FVal.sign) then (f.nanCode, fNV)
    else match infs with
      | v :: _ => f.infinity false v.sign
      | [] =>
        if vs.isEmpty then (0, 0)
        else
          let (v, low) := dySum (finParts vs)
          f.sumResult r false (zeroSign r (vs.map FVal.sign)) v low

/-- The value of .min or .max over no lanes (R569). -/
def emptyExtreme (t : Fmt) (isMax : Bool) : Nat :=
  if t.isFloat then (if isMax then t.ff.signBit else 0) + (if t.ff.inf then t.ff.infCode else t.ff.maxCode)
  else if isMax then wrapOf t.bits (t.clamp (-(2 ^ 80 : Nat)))
  else wrapOf t.bits (t.clamp (2 ^ 80 : Nat))

/-- .min or .max over the enabled lanes: NaNs drop out unless every lane is one (R548, R569). -/
def redExtreme (t : Fmt) (isMax : Bool) (l : List Nat) : Nat × Flg :=
  match l with
  | [] => (emptyExtreme t isMax, 0)
  | a :: rest =>
    let r := rest.foldl (fun b x => (laneMinMax t isMax b x).1) a
    if t.isFloat then
      let vs := l.map t.ff.value
      ((if vs.all FVal.isNan then firstNan t.ff vs else r), anySig vs)
    else (r, 0)

def redAdd (t : Fmt) (r : RM) (l : List Nat) : Nat × Flg :=
  if t.isFloat then t.ff.sumAll r (l.map t.ff.value)
  else (wrapOf t.bits (l.foldl (fun (a : Int) x => a + t.int x) 0), 0)

def vRed (i : Instr) (f : VX) (s : State) (isAdd : Bool) (g : Fmt → List Nat → Nat × Flg) :
    Host.Outcome State Fault Refusal :=
  let x := s.ctx s.focus
  let t := x.vt
  let mask := x.maskList f t.lanes
  vecIssue i f s [.typed f.a f.sya t] [.reg] (tArith t && rndFits t f) 12 4 fun vals =>
    let (v, h) := g t (enabled mask ((nth vals 0 (.all 0)).lanes t.bits t.lanes))
    let w : Word := extendTo64 t.isSigned t.bits v
    .ok { flags := h, reg := some (.breg (VOp.num f.d) w)
          chk := fun l => if l = 0 then
            some (0, if isAdd && t.isFloat then residue7 (t.ff.significand v) else residue7 w.toNat) else none }

/-- VRED.add: under SD the dither position is 0 (R569). -/
def execVredAdd (f : VX) (s : State) : Host.Outcome State Fault Refusal :=
  vRed (.vredAdd f) f s true fun t l => redAdd t (VX.rm f (s.ctx s.focus) 0) l
def execVredMin (f : VX) (s : State) : Host.Outcome State Fault Refusal :=
  vRed (.vredMin f) f s false fun t l => redExtreme t false l
def execVredMax (f : VX) (s : State) : Host.Outcome State Fault Refusal :=
  vRed (.vredMax f) f s false fun t l => redExtreme t true l

/-! ## VCVT (R557, R558) -/

/-- Source types of VCVT. -/
def cvtFrom (t : Fmt) : Bool := !(t == .raw || t == .side || t == .ob8 || t == .ob4)

/-- The source type of VCVT: the tag of A, as its first granule has it, or a port's TYPE. -/
def State.cvtSource (s : State) (f : VX) : Fmt :=
  let x := s.ctx s.focus
  match f.a with
  | .row n => (x.granLook (16 * n.toNat) s.cycle).tag
  | .port p => match x.port? p.toNat with
    | some q => q.ty
    | none => .raw
  | _ => .raw

/-- VCVT: a lane at or beyond the source's lanes gets zero bits. -/
def execVcvt (f : VX) (s : State) : Host.Outcome State Fault Refusal :=
  let x := s.ctx s.focus
  let t := x.vt
  let u := s.cvtSource f
  let mask := x.maskList f t.lanes
  let dst := dstOf f.d f.syd t.bits mask
  vecIssue (.vcvt f) f s [{ op := f.a, sync := f.sya.toNat, ok := fun v => v == u && cvtFrom u }] [dst]
    (t != .ob8 && t != .e8m0) 8 4 fun vals =>
      let a := (nth vals 0 (.all 0)).lanes u.bits (min u.lanes t.lanes)
      .ok (laneOut dst t.bits t.ffOf (fun _ => t) mask
        (mapLanes (fun l a _ _ => if u.lanes ≤ l then (0, 0) else convert u t (VX.rm f x l) f.sat a) 0 mask a [] []))

/-! ## VQNT, VDQNT (R559, R560) -/

/-- The blocks of a row quantised: codes and side entries, in order, with flags. -/
def quantRow (rm : Nat → RM) : Nat → List Nat → List Nat × List Nat × Flg
  | 0, _ => ([], [], 0)
  | n + 1, xs =>
    let (cs, z, sg, g) := quantBlock 8 rm (xs.take 32)
    let (cs2, side, h) := quantRow rm n (xs.drop 32)
    (cs ++ cs2, (z + 256 * sg) :: side, g ||| h)

/-- A whole part of a granule. -/
def bytePart (g lo len v : Nat) : GranPart :=
  { g := g, data := BitVec.ofNat 2048 (v * 2 ^ (8 * lo)), sel := BitVec.ofNat 2048 ((2 ^ (8 * len) - 1) * 2 ^ (8 * lo)) }

/-- VQNT: codes into granules 0 to 3 of D, entries into granule 0 of the side row, whose other bytes become zero. -/
def execVqnt (f : VX) (s : State) : Host.Outcome State Fault Refusal :=
  let x := s.ctx s.focus
  let d := 16 * VOp.num f.d
  let sd := 16 * VOp.num f.b
  vecIssue (.vqnt f) f s [{ op := f.a, sync := f.sya.toNat, ok := fun t => t == .fp32 }]
    [.row (VOp.num f.d) f.syd.toNat (rangeFrom d 4), .row (VOp.num f.b) f.syb.toNat [sd]] (x.vt == .ob8) 8 4 fun vals =>
      let (codes, side, g) := quantRow (fun p => VX.rm f x p) 32 ((nth vals 0 (.all 0)).lanes 32 1024)
      let cs := (List.range 4).map fun j => bytePart (d + j) 0 256 (packElems 8 ((codes.drop (256 * j)).take 256))
      .ok { flags := g
            parts := cs.map (fun p => (p, .ob8, f.syd.toNat)) ++ [(bytePart sd 0 256 (packElems 16 side), .side, f.syb.toNat)]
            chk := laneChecked none 8 (some (VOp.num f.d)) codes (List.replicate 1024 true) }

/-- VDQNT (R87). -/
def execVdqnt (f : VX) (s : State) : Host.Outcome State Fault Refusal :=
  let x := s.ctx s.focus
  let all := List.replicate 1024 true
  let dst := dstOf f.d f.syd 32 all
  vecIssue (.vdqnt f) f s
    [{ op := f.a, sync := f.sya.toNat, ok := fun t => t == .ob8, grans := [0, 1, 2, 3] },
     { op := f.b, sync := f.syb.toNat, ok := fun t => t == .side, grans := [0] }] [dst] (x.vt == .fp32) 8 4 fun vals =>
      let codes := (nth vals 0 (.all 0)).lanes 8 1024
      let side := (nth vals 1 (.all 0)).lanes 16 32
      .ok (laneOut dst 32 (some (Fmt.ff .fp32)) (fun _ => .fp32) all
        (mapLanes (fun l c _ _ =>
          let e := nth side (l / 32) 0
          dequant ((c : Int) - (e % 256 : Nat)) (e / 256)) 0 all codes [] []))

end Sys2Proof.Machine
end

