-- ==== Sys2Proof/Machine/Collective.lean ====
section
/-! DEFINITION. Redistribution and collectives (06_reshard.md R132 to R156; 18_ref_r_t.md R501 to R505, R509, R510;
20_ref_x_y.md R575, R576, R580, R581): RESHARD, RSPLAN, XAG, XRS, XA2A, XPRM, XHALO and the events of their plans. Readings
that the rules leave open stand in log 33. -/
namespace Sys2Proof.Machine

/-! ## Issue -/

def mapPtr (m : MapWord) : Nat := (m.extractLsb' 64 64).toNat
def mapWord (m : MapWord) : Word := m.extractLsb' 0 64

/-- A record with one of its 64-bit words replaced. -/
def setRecWord (r : BitVec 1024) (off : Nat) (w : Word) : BitVec 1024 :=
  (r &&& ~~~(BitVec.ofNat 1024 ((2 ^ 64 - 1) * 2 ^ (8 * off)))) ||| BitVec.ofNat 1024 (w.toNat * 2 ^ (8 * off))

/-- The descriptor as it would stand with another map. -/
def withMap (d : Desc) (m : MapWord) : Desc :=
  setRecWord (setRecWord d 48 (BitVec.ofNat 64 (mapPtr m))) 64 (mapWord m)

/-- The checks of R154 that need no destination descriptor: MESH. -/
def mapsBad (sizes : List Nat) (d : Desc) (ma mb : MapWord) : Bool :=
  let a := mapWord ma
  let b := mapWord mb
  a != Desc.map d || mapPtr ma != Desc.split d || Desc.paged d || mapBad (Desc.rank d) a || mapBad (Desc.rank d) b
  || axes4.any fun k =>
    ((mapMode a k == mN || mapMode b k == mN) && 1 < nth sizes k 1)
    || (mapMode a k == mP && mapMode b k == mP && mapAcc a k != mapAcc b k)

/-- The tensor with its source and destination maps, past the checks that raise TABLE and MESH (R135, R154). -/
structure Maps2 where
  t : Tens
  src : MapSp
  dst : MapSp
  deriving DecidableEq, Repr

def State.collMaps (s : State) (core id : Nat) (ma mb : MapWord) : Except Trap Maps2 :=
  match s.tensor core id with
  | .error e => .error e
  | .ok t =>
    if mapsBad (s.die (dieOf core)).sizes t.d ma mb then .error (trapOf tMesh)
    else match s.checkDesc core (withMap t.d mb) with
      | .error e => .error (if e.code = tTable then trapOf tMesh else e)
      | .ok u => .ok { t := t, src := { w := mapWord ma, sp := t.splits }, dst := { w := mapWord mb, sp := u.splits } }

/-- A collective on the tensor is incomplete on the die (R134). -/
def State.collBusy (s : State) (core id : Nat) : Bool :=
  s.ops.any fun (_, o) => dieOf o.core == dieOf core && o.coll.any fun k => k.tensor == id

/-- The unit may issue collectives: it is of a mesh launch, or the mesh has one die (R132). -/
def State.collAllowed (s : State) (c : Nat) : Bool := s.inMesh (s.unitNo c) || (s.die (dieOfCtx c)).meshSize ≤ 1

/-- The key of a unit's next collective (R132). -/
def State.collKey (s : State) (u : Nat) : List Nat :=
  match s.unit? u with
  | some r => [r.launch, r.j, r.collectives]
  | none => []

/-- Puts a collective in flight (R132, R146): its promise is 0. -/
def State.launchColl (s : State) (i : Instr) (t : Tok) (k : Coll) : Res :=
  let c := s.focus
  let u := s.unitNo c
  let o : Op := { s.newOp .y i .async with reads := true, writes := true, coll := some { k with key := s.collKey u } }
  .done ((s.asyncOp t 0 o).1.modUnit u fun r => { r with collectives := r.collectives + 1 })

/-- The axes over which a plan's group spans: all of them for RESHARD, those of the step for an explicit step (R132). -/
def groupAxes (explicit : Bool) (p : Plan) : List Nat :=
  if explicit then match p.steps.head? with
    | some q => q.axes ++ q.axis2.toList
    | none => axes4
  else axes4

/-- RESHARD, and the explicit step of a kind (R503, R576): the checks in the order of R246. -/
def reshardIssue (i : Instr) (f : YF) (t : Tok) (m : Maps) (kind : Option Nat) (s : State) : Host.Outcome State Fault Refusal :=
  let c := s.focus
  let core := coreOf c
  let x := s.ctx c
  let id := fld (x.sr f.so1.toNat) 0 20
  let dt := (x.sr f.so2.toNat).toNat
  let st := (x.sr f.so3.toNat).toNat
  let ma := x.sm m.sma.toNat
  let mb := x.sm m.smb.toNat
  let die := s.die (dieOf core)
  finish i s (s.afterTokens t
    (if s.versioned c || s.collBusy core id then .trap s (trapOf tOrder)
     else if dt = 0 || dt % 8 != 0 || 2 ^ 56 ≤ dt || 2 ^ 56 ≤ st then .trap s (trapOf tTable)
     else match s.collMaps core id ma mb with
      | .error e => .trap s e
      | .ok g =>
        let plan := match kind with
          | none => chanter die.sizes g.t.d g.src g.dst
          | some k => explicitPlan die.sizes g.t.d g.src g.dst k
        match plan with
        | none => .trap s (trapOf tMesh)
        | some p =>
          if (p.stage != 0 && st = 0) || (kind.isSome && p.stage = 0 && st != 0) then .trap s (trapOf tTable)
          else if !s.collAllowed c then .trap s (trapOf tMesh)
          else if kind.any (· != kRS) && (hasP g.src.w || hasP g.dst.w) then .trap s (trapOf tPsum)
          else (s.keepTensor core id).launchColl i t
            { tensor := id, desc := g.t.d, srcMap := ma, dstMap := mb, points := g.src.sp ++ g.dst.sp, dstTab := dt, stgTab := st
              sizes := die.sizes, axes := groupAxes kind.isSome p, coords := die.coords, key := [], plan := p }))

def execReshard (f : YF) (t : Tok) (x : Maps) (s : State) : Host.Outcome State Fault Refusal :=
  reshardIssue (.reshard f t x) f t x none s
def execXag (f : YF) (t : Tok) (x : Maps) (s : State) : Host.Outcome State Fault Refusal :=
  reshardIssue (.xag f t x) f t x (some kAG) s
def execXrs (f : YF) (t : Tok) (x : Maps) (s : State) : Host.Outcome State Fault Refusal :=
  reshardIssue (.xrs f t x) f t x (some kRS) s
def execXa2a (f : YF) (t : Tok) (x : Maps) (s : State) : Host.Outcome State Fault Refusal :=
  reshardIssue (.xa2a f t x) f t x (some kA2A) s
def execXprm (f : YF) (t : Tok) (x : Maps) (s : State) : Host.Outcome State Fault Refusal :=
  reshardIssue (.xprm f t x) f t x (some kPRM) s

/-- RSPLAN: the record of the plan that RESHARD would run (R143, R510). -/
def execRsplan (f : YF) (t : Tok) (x : Maps) (s : State) : Host.Outcome State Fault Refusal :=
  let c := s.focus
  let core := coreOf c
  let i : Instr := .rsplan f t x
  let o := s.yOp i f
  let va := o.v2
  let id := fld o.v1 0 20
  let cx := s.ctx c
  let die := s.die (dieOf core)
  finish i s (s.afterTokens t (match firstBad
      [(yOutside cx va 96, trapOf tView), (s.ySys c va 96, trapOf tOrder), (yLow va % 64 != 0, trapAt tAlign (fld va 0 56)),
       (yTable va, trapOf tTable)] with
    | some e => .trap s e
    | none => match s.collMaps core id (cx.sm x.sma.toNat) (cx.sm x.smb.toNat) with
      | .error e => .trap s e
      | .ok g => match chanter die.sizes g.t.d g.src g.dst with
        | none => .trap s (trapOf tMesh)
        | some p =>
          if yInvalid va then .trap s (trapXlate causeInvalid (fld va 0 56))
          else
            let segs := match s.yPieces core .write va 96 with
              | .ok l => l
              | .error _ => []
            (s.keepTensor core id).yLaunch t { o with writes := true, data := planRecord p, segs := segs } [(va, 96)] none
              (yGrans va 96) [] none))

/-- XHALO (R153, R581). -/
def execXhalo (f : YF) (t : Tok) (s : State) : Host.Outcome State Fault Refusal :=
  let c := s.focus
  let core := coreOf c
  let i : Instr := .xhalo f t
  let id := fld ((s.ctx c).sr f.so1.toNat) 0 20
  let die := s.die (dieOf core)
  finish i s (s.afterTokens t
    (if s.versioned c || s.collBusy core id then .trap s (trapOf tOrder)
     else match s.tensor core id with
      | .error e => .trap s e
      | .ok g =>
        let w := Desc.map g.d
        if !s.collAllowed c then .trap s (trapOf tMesh)
        else if hasP w then .trap s (trapOf tPsum)
        else
          let m : MapWord := BitVec.ofNat 512 (w.toNat + Desc.split g.d * 2 ^ 64)
          let p : PlanStep := { kind := kHalo, src := w, srcSp := g.splits, dst := w, dstSp := g.splits
                                pieces := ceilDiv (blockBytes g.d true w g.splits) pieceBytes }
          (s.keepTensor core id).launchColl i t
            { tensor := id, desc := g.d, srcMap := m, dstMap := m, points := g.splits, dstTab := Desc.sbase g.d
              sizes := die.sizes, axes := axes4, coords := die.coords, key := []
              plan := { steps := if g.splits.any fun q => Desc.halo g.d q.dim != 0 then [p] else [] } }))

/-! ## Matching (R132, R133) -/

/-- The dies that take part, by coordinates. -/
def Coll.dies (k : Coll) : List (List Nat) := members k.sizes k.axes k.coords

/-- The operation of a die under a key, not yet matched; one that FABRIC stopped has not issued again (R156). -/
def State.collAt (s : State) (key : List Nat) (d : Nat) : Option (Nat × Op) :=
  s.ops.find? fun (_, o) => dieOf o.core == d && o.coll.any fun k => k.key == key && !k.matched

def collLost (o : Op) : Bool := o.coll.any Coll.lost

/-- What a participant's die has done about a collective. -/
inductive Peer where
  | issued (n : Nat) (o : Op)
  | late
  | gone
  deriving DecidableEq, Repr

/-- A participant that is stopped by FABRIC, or has not issued, is late; one whose die has no route, that has ended or that
issued another collective under the number is gone (R133, R156). -/
def State.peerAt (s : State) (k : Coll) (coords : List Nat) : Peer :=
  match s.dieAt (rankOf k.sizes coords) with
  | none => .gone
  | some d => if !s.routed d then .gone else match s.collAt k.key d with
    | some (n, o) => if collLost o then .late else .issued n o
    | none => match s.peerUnit k.key d with
      | some r => if r.st.terminal || nth k.key 2 0 < r.collectives then .gone else .late
      | none => .gone

def issuedOf (l : List Peer) : List (Nat × Op) :=
  l.filterMap fun p => match p with
    | .issued n o => some (n, o)
    | _ => none

/-- The kind of collective, the tensor, the maps and the split points agree (R133). -/
def agrees (a b : Op) : Bool :=
  match a.coll, b.coll with
  | some x, some y =>
    a.ins.fnField == b.ins.fnField && x.tensor == y.tensor && x.srcMap == y.srcMap && x.dstMap == y.dstMap && x.points == y.points
  | _, _ => false

/-- Every operation of a list completes its token faulted, with a trap (R133, R504). -/
def State.stopPlan (s : State) (l : List Nat) (t : Trap) : State :=
  l.foldl (fun r n => match r.op? n with
    | some o => r.failOp n o t
    | none => r) s

def meshDelivered : Trap := { code := tMesh, sub := 1 }

/-- The progress from which the plan runs on: the step, and the lowest counter of that step (R156). -/
def resumePoint (l : List Coll) : Nat × Nat :=
  let st := l.foldl (fun n k => min n k.step) (l.headD { tensor := 0, desc := 0, sizes := [], axes := [], coords := [], key := [], plan := {} }).step
  let at_ := l.filter fun k => k.step == st
  (st, at_.foldl (fun n k => min n k.counter) (at_.head?.elim 0 Coll.counter))

/-- A matched participant starts, or resumes, its plan. -/
def Coll.start (k : Coll) (group : List Nat) (p : Nat × Nat) : Coll :=
  { k with matched := true, group := group, step := p.1, counter := p.2, landed := [], parkedPieces := [] }

/-- A collective may be matched, or fails now. -/
inductive MatchState where
  | wait
  | fail (l : List Nat)
  | go (l : List (Nat × Op))
  deriving DecidableEq, Repr

def State.collState (s : State) (n : Nat) (o : Op) (k : Coll) : MatchState :=
  if k.lost then .wait
  else if k.matched then
    if k.step < k.plan.steps.length && k.group.any (fun m => (s.op? m).isNone) then .fail k.group else .wait
  else
    let ps := k.dies.map (s.peerAt k)
    let l := issuedOf ps
    if ps.contains .gone then .fail (insertNew (l.map Prod.fst) n)
    else if ps.contains .late then .wait
    else if l.all fun q => agrees o q.2 then .go l
    else .fail (l.map Prod.fst)

/-- COLLECTIVE_MATCH: the matched instructions are compared; the plan starts, or every participant takes MESH (R133). -/
def execCollectiveMatch (op : Nat) (s : State) : Host.Outcome State Fault Refusal :=
  match s.op? op with
  | some o => match o.coll with
    | some k => .next (match s.collState op o k with
      | .wait => s
      | .fail l => s.stopPlan l meshDelivered
      | .go l =>
        let p := resumePoint (l.filterMap fun q => q.2.coll)
        l.foldl (fun t q => t.modOp q.1 fun r => { r with coll := r.coll.map fun c => c.start (l.map Prod.fst) p }) s)
    | none => .next s
  | none => .next s

/-! ## Pieces (R144 to R147, R153) -/

/-- Digits of a number, outermost radix first. -/
def unmix : List Nat → Nat → List Nat
  | [], _ => []
  | e :: l, n => n / l.foldl (· * ·) 1 % e :: unmix l n

/-- The two innermost coordinates from their tile digits. -/
def untile (tu tv : Nat) : List Nat → List Nat
  | [a, b, c, d] => [a * tu + c, b * tv + d]
  | x :: l => x :: untile tu tv l
  | [] => []

/-- The local coordinates, by dimension, of an element offset of a block; none at an offset that no element has (R121). -/
def Tens.coordsAt (t : Tens) (off : Nat) : Option (List Nat) :=
  let dims := (Desc.order t.d).map fun k => (0, t.extent k)
  let tu := 2 ^ Desc.tileU t.d
  let tv := 2 ^ Desc.tileV t.d
  let l := if Desc.layout t.d = 1 then untile tu tv (unmix ((tiled tu tv dims).map Prod.snd) off) else unmix (dims.map Prod.snd) off
  if (List.zip l dims).all fun p => p.1 < p.2.2 then
    some ((List.range (Desc.rank t.d)).map fun k =>
      ((List.zip (Desc.order t.d) l).find? fun p => p.1 == k).elim 0 Prod.snd)
  else none

/-- The index that a block's local coordinate stands for, and back (R121). -/
def globalOf (t : Tens) (sizes coords : List Nat) (k l : Nat) : Option Nat :=
  match splitOf? t.splits k with
  | some p =>
    let st := (nth p.bounds (shardNo sizes coords p.axes) (0, 0)).1
    if st + l < Desc.halo t.d k then none else some (st + l - Desc.halo t.d k)
  | none => some l

def localOf (t : Tens) (sizes coords idx : List Nat) (k : Nat) : Nat :=
  match splitOf? t.splits k with
  | some p => nth idx k 0 + Desc.halo t.d k - (nth p.bounds (shardNo sizes coords p.axes) (0, 0)).1
  | none => nth idx k 0

def allSome {α : Type} : List (Option α) → Option (List α)
  | [] => some []
  | none :: _ => none
  | some a :: l => (allSome l).map (a :: ·)

/-- The index at an element offset of a die's block. -/
def Tens.indexAt (t : Tens) (sizes coords : List Nat) (off : Nat) : Option (List Nat) :=
  match t.coordsAt off with
  | some l => allSome ((List.range (Desc.rank t.d)).map fun k => globalOf t sizes coords k (nth l k 0))
  | none => none

def inBox (b : Box) (idx : List Nat) : Bool :=
  (List.range b.length).all fun k => (nth b k (0, 0)).1 ≤ nth idx k 0 && nth idx k 0 < (nth b k (0, 0)).2

/-- The blocks of one side of a step: the table that holds their addresses, how far into each block, and their layout. -/
structure Side where
  tab : Nat
  skip : Nat
  t : Tens
  fmt : Fmt

/-- The half of the staging block that a step writes (R142). -/
def Coll.half (k : Coll) (j : Nat) : Nat := if 2 < k.plan.steps.length then j % 2 * (k.plan.stage / 2) else 0

def Coll.srcSide (k : Coll) (j : Nat) (p : PlanStep) : Side :=
  { tab := if j = 0 then Desc.sbase k.desc else k.stgTab, skip := if j = 0 then 0 else k.half (j - 1)
    t := blockTens k.desc (j = 0) p.srcSp, fmt := storeFmt k.desc p.src }

def Coll.isLast (k : Coll) (j : Nat) : Bool := j + 1 = k.plan.steps.length

def Coll.dstSide (k : Coll) (j : Nat) (p : PlanStep) : Side :=
  { tab := if k.isLast j then k.dstTab else k.stgTab, skip := if k.isLast j then 0 else k.half j
    t := blockTens k.desc (k.isLast j) p.dstSp, fmt := storeFmt k.desc p.dst }

/-- Bytes of a side's block. -/
def Side.bytes (x : Side) : Nat := ceilDiv (x.t.blockElems * x.fmt.bits) 8

/-- The virtual address of a rank's block. -/
def State.blockVa (s : State) (core : Nat) (x : Side) (rank : Nat) : Except Trap Nat :=
  match s.vread8 core (x.tab + 8 * rank) 8 with
  | .error t => .error t
  | .ok bs => .ok (natOfBytes bs + x.skip)

/-- The physical bit address of an index in the block of a die. -/
def State.elemPlace (s : State) (core : Nat) (need : Need) (x : Side) (sizes coords idx : List Nat) : Except Trap Nat :=
  let rank := rankOf sizes coords
  match s.blockVa core x rank with
  | .error t => .error t
  | .ok va => match s.placeVa core ((s.dieAt rank).getD (dieOf core)) need (8 * va + x.t.offset (localOf x.t sizes coords idx) * x.fmt.bits) with
    | .error t => .error t
    | .ok (.at b) => .ok b
    | .ok (.pad v) => .ok v

/-- Physical ranges of the destination and staging blocks of every die, as far as they translate (R136). -/
def State.outRanges (s : State) (core : Nat) (k : Coll) : List Seg :=
  let sides := (List.zip (List.range k.plan.steps.length) k.plan.steps).map fun p => k.dstSide p.1 p.2
  sides.flatMap fun x => (List.range (meshCount k.sizes)).flatMap fun r =>
    match s.blockVa core x r with
    | .error _ => []
    | .ok va => match s.rangeAt core ((s.dieAt r).getD (dieOf core)) .write va x.bytes with
      | .ok l => l
      | .error _ => []

/-- One source element: a byte of it that a destination or staging block overlaps makes it a free value (R136). -/
def State.srcElem (s : State) (core : Nat) (out : List Seg) (first : Bool) (x : Side) (sizes coords idx : List Nat) (free : Nat) :
    Except Trap Nat :=
  match s.elemPlace core .read x sizes coords idx with
  | .error t => .error t
  | .ok b =>
    let g : Seg := { va := 0, pa := b / 8, len := ceilDiv (b % 8 + x.fmt.bits) 8 }
    match s.poisonIn [g] with
    | some p => .error (trapPoison p)
    | none =>
      if first && segsOverlap [g] out then .ok ((Config.freeWord free).toNat % 2 ^ x.fmt.bits)
      else .ok (natOfBytes (bytesOfSegs s.mem [g]) / 2 ^ (b % 8) % 2 ^ x.fmt.bits)

/-- The left fold of R145 in the accumulation format. -/
def foldPartials (acc : Fmt) : List Nat → Nat × Flg
  | [] => (0, 0)
  | p :: l => l.foldl (fun r v =>
      let (x, f) := laneAdd acc {} acc.isInt r.1 v
      (x, r.2 ||| f)) (p, 0)

/-- The value that a step gives an index of a die's block, from what its bases hold, with the flags of its reduction and its
conversion (R144, R145, R101). -/
def combine (p : PlanStep) (src dst : Fmt) (vals : List Nat) : Nat × Flg :=
  if p.kind = kRS then
    let (a, f) := foldPartials src vals
    let (v, g) := convert src dst {} false a
    (v, f ||| g)
  else convert src dst {} false (vals.headD 0)

def eachOk {α : Type} : List (Except Trap α) → Except Trap (List α)
  | [] => .ok []
  | .error t :: _ => .error t
  | .ok a :: l => match eachOk l with
    | .error t => .error t
    | .ok r => .ok (a :: r)

/-- One element of a step's output: none where the step writes nothing there. -/
def State.stepElem (s : State) (core : Nat) (k : Coll) (j : Nat) (p : PlanStep) (out : List Seg) (free : Nat) (idx : List Nat) :
    Except Trap (Option (Nat × Nat × Nat × Flg)) :=
  let last := k.isLast j
  let x := k.dstSide j p
  let y := k.srcSide j p
  let box := dataBox k.desc last p.dstSp k.sizes k.coords
  let own := dataBox k.desc false p.dstSp k.sizes k.coords
  if !inBox box idx || (p.kind = kHalo && inBox own idx) then .ok none
  else match s.elemPlace core .write x k.sizes k.coords idx with
    | .error t => .error t
    | .ok b =>
      if !inBox (p.needs k.desc last k.sizes k.coords) idx then .ok (some (b, x.fmt.bits, 0, 0))
      else match eachOk ((p.bases k.sizes k.coords).map fun c =>
          s.srcElem core out (j = 0 && p.kind != kHalo) y k.sizes (holderOf k.sizes p.srcSp c idx) idx free) with
        | .error t => .error t
        | .ok vs =>
          let (v, f) := combine p y.fmt x.fmt vs
          .ok (some (b, x.fmt.bits, v, f))

/-- The offsets of the elements whose first bit lies in a piece. -/
def pieceElems (bits total n : Nat) : List Nat :=
  let lo := ceilDiv (8 * pieceBytes * n) bits
  let hi := min total (ceilDiv (8 * pieceBytes * (n + 1)) bits)
  rangeFrom lo (hi - lo)

/-- An element's value and flags are those read ahead, where they have been (R151). -/
def Coll.readAhead (k : Coll) (piece elem : Nat) (r : Nat × Nat × Nat × Flg) : Nat × Nat × Nat × Flg :=
  match k.early.find? fun q => q.1 == piece && q.2.1 == elem with
  | some q => (r.1, r.2.1, q.2.2.1, q.2.2.2)
  | none => r

/-- A fabric engine may complete the piece: the participants are in the step, the sixteen engines take pieces in ascending
order, and the piece is not parked (R144, R146, R504). -/
def State.pieceReady (s : State) (o : Op) (k : Coll) (n : Nat) : Bool :=
  k.matched && !k.lost && (match k.plan.steps[k.step]? with
    | some p => n < p.pieces
    | none => false)
  && k.counter ≤ n && !k.landed.contains n && !k.parkedPieces.contains n
  && n < k.counter + k.landed.length + 16
  && k.group.all (fun m => match s.op? m with
    | some q => q.coll.all fun c => k.step ≤ c.step
    | none => false)
  && !(o.waits.any fun a => s.pending a)

/-- What a piece writes: places, widths and values, with the flags of its steps. -/
def State.pieceOut (s : State) (core : Nat) (k : Coll) (j : Nat) (p : PlanStep) (n : Nat) :
    Except Trap (List (Nat × Nat × Nat × Flg)) :=
  let x := k.dstSide j p
  let out := if j = 0 then s.outRanges core k else []
  match eachOk ((pieceElems x.fmt.bits x.t.blockElems n).map fun e =>
      match x.t.indexAt k.sizes k.coords e with
      | some idx => (s.stepElem core k j p out (s.freshN + e) idx).map fun r => r.map (k.readAhead n e)
      | none => .ok none) with
  | .error t => .error t
  | .ok l => .ok (l.filterMap id)

/-- COLLECTIVE_PIECE reads its sources when it performs, but each element may have been read before, on its own (R151): that of
one element is read now. -/
def State.sampleElem (s : State) (op piece elem : Nat) : State :=
  match s.op? op with
  | some o => match o.coll with
    | some k => match k.plan.steps[k.step]? with
      | some p =>
        let x := k.dstSide k.step p
        if !s.pieceReady o k piece || !(pieceElems x.fmt.bits x.t.blockElems piece).contains elem then s
        else match x.t.indexAt k.sizes k.coords elem with
          | some idx => match s.stepElem o.core k k.step p (if k.step = 0 then s.outRanges o.core k else []) (s.freshN + elem) idx with
            | .ok (some (_, _, v, f)) => s.setOp op { o with coll := some { k with early := (piece, elem, v, f) :: k.early } }
            | _ => s
          | none => s
      | none => s
    | none => s
  | none => s

/-- The source pieces of a piece, whose accesses may hit pinned windows (R172). -/
def State.pieceSources (s : State) (core : Nat) (k : Coll) (j : Nat) (p : PlanStep) (n : Nat) : List Seg :=
  let x := k.dstSide j p
  let y := k.srcSide j p
  (pieceElems x.fmt.bits x.t.blockElems n).flatMap fun e =>
    match x.t.indexAt k.sizes k.coords e with
    | some idx =>
      if inBox (p.needs k.desc (k.isLast j) k.sizes k.coords) idx then
        (p.bases k.sizes k.coords).flatMap fun c =>
          match s.elemPlace core .read y k.sizes (holderOf k.sizes p.srcSp c idx) idx with
          | .ok b => [{ va := 0, pa := b / 8, len := ceilDiv (b % 8 + y.fmt.bits) 8 }]
          | .error _ => []
      else []
    | none => []

/-- A die has a pinned window. -/
def State.anyPin (s : State) : Bool := s.dies.any fun q => !q.2.pins.isEmpty

/-- Neighbouring bytes as one range. -/
def joinSeg : List Seg → Seg → List Seg
  | [], g => [g]
  | [h], g => if h.pa + h.len = g.pa then [{ h with len := h.len + g.len }]
    else if h.pa ≤ g.pa && g.pa + g.len ≤ h.pa + h.len then [h] else [h, g]
  | h :: l, g => h :: joinSeg l g

def outSegs (l : List (Nat × Nat × Nat × Flg)) : List Seg :=
  l.foldl (fun r q => joinSeg r { va := 0, pa := q.1 / 8, len := ceilDiv (q.1 % 8 + q.2.1) 8 }) []

/-- Writes the elements of a piece as one access (R258). -/
def State.putPiece (s : State) (u : Nat) (l : List (Nat × Nat × Nat × Flg)) (segs : List Seg) : State :=
  let t := (l.foldl (fun r q => r.bitsPut u q.1 q.2.1 q.2.2.1) s).touchPins segs
  { t with poison := t.poison.filter fun b => !(segs.any fun g => g.pa ≤ 256 * b && 256 * b + 256 ≤ g.pa + g.len) }

/-- The piece counter after a piece: pieces that landed early count once those below them have (R147). -/
def advance (landed : List Nat) : Nat → Nat → Nat
  | 0, n => n
  | f + 1, n => if landed.contains n then advance landed f (n + 1) else n

def Coll.landPiece (k : Coll) (p : PlanStep) (n : Nat) (f : Flg) : Coll :=
  let l := insertNew k.landed n
  let m := advance l p.pieces k.counter
  let q := { k with flags := k.flags ||| f, early := k.early.filter fun e => e.1 != n }
  if m < p.pieces then { q with counter := m, landed := l.filter (m ≤ ·) }
  else { q with step := k.step + 1, counter := if k.isLast k.step then m else 0, landed := [], early := [] }

/-- The token's piece counter follows the plan's last step (R147), in the context or, while its unit is saved, for its resume
(R263); that of XHALO stays 0 (R581). -/
def State.showCounter (s : State) (n : Nat) (o : Op) (k : Coll) : State :=
  if o.tok = 0 || k.step + 1 < k.plan.steps.length || (k.plan.steps.any fun p => p.kind == kHalo) then s
  else if s.opLive o then
    s.modCtx o.ctx fun x => if (x.tok o.tok).op == n then x.modTok o.tok fun t => { t with pieces := k.counter } else x
  else s.modUnit o.unit fun r =>
    if r.savedRest.any fun x => (x.tok o.tok).op == n then { r with savedPieces := tset r.savedPieces o.tok k.counter } else r

/-- COLLECTIVE_PIECE: a fabric engine completes a piece (R146). -/
def execCollectivePiece (op piece : Nat) (s : State) : Host.Outcome State Fault Refusal :=
  match s.op? op with
  | some o => match o.coll with
    | some k =>
      if !s.pieceReady o k piece then .next s
      else match k.plan.steps[k.step]? with
        | none => .next s
        | some p => .next (match s.pieceOut o.core k k.step p piece with
          | .error t =>
            if t.code = tTranslate && t.sub != causeNoTarget then
              (s.modOp op fun q => { q with coll := some { k with parkedPieces := k.parkedPieces ++ [piece] } }).parkOp op o t
            else s.stopPlan k.group t
          | .ok l =>
            let segs := outSegs l
            match s.poisonHurt segs with
            | some b => s.stopPlan k.group (trapPoison b)
            | none =>
              let k1 := k.landPiece p piece (l.foldl (fun f q => f ||| q.2.2.2) 0)
              let s0 := if s.anyPin then s.touchPins (s.pieceSources o.core k k.step p piece) else s
              let t := { s0.putPiece o.unit l segs with freshN := s.freshN + (k.dstSide k.step p).t.blockElems }
              (t.setOp op { o with coll := some k1 }).showCounter op o k1)
    | none => .next s
  | none => .next s

/-! ## Completion (R149, R150) -/

/-- Every participant has finished the last step. -/
def State.planDone (s : State) (k : Coll) : Bool :=
  k.matched && !k.lost && k.group.all fun m => match s.op? m with
    | some q => q.parked.isNone && q.coll.all fun c => c.plan.steps.length ≤ c.step
    | none => false

def collIsHalo (o : Op) : Bool :=
  match o.ins with
  | .xhalo _ _ => true
  | _ => false

/-- The participant of linear rank 0, if it is in the group. -/
def State.rankZero (s : State) (k : Coll) : Option (Nat × Op) :=
  firstSome (fun m => match s.op? m with
    | some q => if q.coll.any fun c => rankOf c.sizes c.coords == 0 then some (m, q) else none
    | none => none) k.group

/-- The descriptor already shows the destination map: a group without rank 0 waits for that write (R149, R150; log 33). -/
def State.descShows (s : State) (core : Nat) (k : Coll) : Bool :=
  match s.vread8 core ((s.die (dieOf core)).descAddr k.tensor) 128 with
  | .ok bs => Desc.map (recordOf bs) == mapWord k.dstMap && Desc.split (recordOf bs) == mapPtr k.dstMap
  | .error _ => false

/-- A plan's end in one copy of its descriptor: SBASE, SPLIT and MAP (R149). -/
def State.writePlan (s : State) (k : Coll) (segs : List Seg) : State :=
  let old := bytesOfSegs s.mem segs
  s.writeSegs segs (old.take 40 ++ bytesOfNat 8 k.dstTab ++ bytesOfNat 8 (mapPtr k.dstMap) ++ (old.drop 56).take 8
    ++ bytesOfNat 8 (mapWord k.dstMap).toNat ++ old.drop 72)

/-- SBASE, MAP and SPLIT are written as TDSETs, in the copy of every module (R149). -/
def State.writeDesc (s : State) (core : Nat) (k : Coll) : Except Trap State :=
  let va := (s.die (dieOf core)).descAddr k.tensor
  match s.range core .write va 128 with
  | .error (c, a) => .error (trapXlate c a)
  | .ok segs =>
    match s.poisonHurt segs, s.copies core va 128 (List.range s.modules) with
    | some b, _ => .error (trapPoison b)
    | none, .error t => .error t
    | none, .ok others => .ok (((segs :: others).foldl (fun t g => t.writePlan k g) s).invalidate va 128)

/-- A participant's token completes, and the flags of its plan go to ARSTAT (R101, R145, R150), at its resume if its unit is
saved (R263). -/
def State.endColl (s : State) (n : Nat) : State :=
  match s.op? n with
  | some o =>
    let f := o.coll.elim 0 Coll.flags
    let s1 := if s.opLive o then s.modCtx o.ctx fun x => x.raiseFlags s.cycle f
      else s.modUnit o.unit fun r => if r.saved.isSome then { r with savedFlags := r.savedFlags ||| f } else r
    (s1.tokenDone n o).delOp n
  | none => s

/-- The halo writes on a participant's die are performed (R153). -/
def haloDone (o : Op) (k : Coll) : Bool := k.matched && !k.lost && o.parked.isNone && k.plan.steps.length ≤ k.step

def State.planReady (s : State) (o : Op) (k : Coll) : Bool :=
  if collIsHalo o then haloDone o k else s.planDone k && ((s.rankZero k).isSome || s.descShows o.core k)

/-- A participant that has completed no longer holds up the others. -/
def State.leavePlan (s : State) (n : Nat) (group : List Nat) : State :=
  group.foldl (fun t m => t.modOp m fun q => { q with coll := q.coll.map fun k => { k with group := k.group.filter (· != n) } }) s

/-- PLAN_COMPLETE: rank 0 writes the descriptor and every participant's token completes (R149); of XHALO, each participant's
own (R153). -/
def execPlanComplete (op : Nat) (s : State) : Host.Outcome State Fault Refusal :=
  match s.op? op with
  | some o => match o.coll with
    | some k =>
      if !s.planReady o k then .next s
      else if collIsHalo o then .next ((s.endColl op).leavePlan op k.group)
      else match s.rankZero k with
        | none => .next (k.group.foldl State.endColl s)
        | some (n, q) => match s.writeDesc q.core (q.coll.getD k) with
          | .ok t => .next (k.group.foldl State.endColl t)
          | .error e => .next (if e.code = tTranslate then s.parkOp n q e else s.stopPlan k.group e)
    | none => .next s
  | none => .next s

end Sys2Proof.Machine
end

