-- ==== Sys2Proof/Machine/Fetch.lean ====
section
/-! DEFINITION. Fetching: lines, their parity and lane structure, and the words of an instruction
(13_encoding.md R308 to R320). -/
namespace Sys2Proof.Machine

/-- Lines that the cursor has left are no longer held as fetched. -/
def Eng.dropLines (n : Eng) : Eng := { n with lines := n.lines.filter fun (a, _) => a == n.cur.line || a == (n.cur.line + 32) % 2 ^ 56 }

/-- The major opcode and fn that TRAPREC reports for a first word (R250): formats without an fn field read 0. -/
def rawFn (e : Engine) (w : W32) : Nat :=
  let op := majorOf w
  if op = 0x3F then Raw.fnHi w
  else match e with
    | .c =>
      if op ≤ 0x07 ∨ (0x0C ≤ op ∧ op ≤ 0x0F) then Raw.fnHi w
      else if 0x28 ≤ op ∧ op ≤ 0x2B then Raw.fnLo w
      else 0
    | .v => if op ≤ 0x06 then Raw.fnHi w else 0
    | .m => 0
    | .y => if op ≤ 0x05 then Raw.fnLo w else 0

def trapDecode (sub : Nat) (e : Engine) (p : Pos) (w : Option W32) : Trap :=
  { code := tDecode, sub := sub, eng := e, pos := p,
    op := match w with | some w => majorOf w | none => 0, fn := match w with | some w => rawFn e w | none => 0 }

/-- The outcome of a fetch. -/
inductive FetchRes where
  | ok (s : State) (pos next : Pos) (i : Instr)
  | far (s : State) (p : Pos)
  | fault (s : State) (t : Trap)

/-- The trap of a fetch that stops at a boundary (R312, R320). -/
def fetchTrap (e : Engine) (p : Pos) (t : Trap) : Trap := { t with eng := e, pos := p }

/-- Collects n more words of the engine from a position; every word lies in the first word's line or the next (R313,
R314). -/
def State.collect (s : State) (c : Nat) (e : Engine) (first : Pos) (w0 : W32) :
    Nat → Nat → Pos → Except (State × Trap) (State × List W32 × Pos)
  | 0, _, p => .ok (s, [], p)
  | _ + 1, 0, _ => .error (s, trapDecode 4 e first (some w0))
  | n + 1, f + 1, p =>
    if p.line ≠ first.line ∧ p.line ≠ nextLine first.line then .error (s, trapDecode 4 e first (some w0))
    else match s.getLine c e p.line with
      | .fault t => .error (s, { fetchTrap e first t with op := majorOf w0, fn := rawFn e w0 })
      | .ok l true => .error (s.keepLine c e p.line l, trapDecode 5 e first (some w0))
      | .ok l false =>
        let s1 := s.keepLine c e p.line l
        match laneKind e (laneNibble l p.lane) with
        | .first => .error (s1, trapDecode 4 e first (some w0))
        | .skip => s1.collect c e first w0 (n + 1) f (after p)
        | .cont =>
          match s1.collect c e first w0 n f (after p) with
          | .error x => .error x
          | .ok (s2, ws, q) => .ok (s2, laneWord l p.lane :: ws, q)

/-- The word that runs at a position: the displaced one where ERET has armed it (R267). -/
def State.wordAt (s : State) (c : Nat) (e : Engine) (p : Pos) (w : W32) : W32 :=
  let x := s.ctx c
  if (x.eng e).displaced && x.sprs.displaced.getLsbD 63 && (x.eng e).cur == p then x.sprs.displaced.extractLsb' 0 32 else w

/-- Decodes the instruction whose first word stands at a position. -/
def State.decodeAt (s : State) (c : Nat) (e : Engine) (p : Pos) (w : W32) : FetchRes :=
  let w0 := s.wordAt c e p w
  let more := wordCount e w0 0 - 1
  match s.collect c e p w0 (min more 1) 16 (after p) with
  | .error (s1, t) => .fault s1 t
  | .ok (s1, ws, q) =>
    match s1.collect c e p w0 (wordCount e w0 (ws.headD 0) - 1 - min more 1) 16 q with
    | .error (s2, t) => .fault s2 t
    | .ok (s2, ws2, q2) =>
      match decode e (w0 :: ws ++ ws2) with
      | .error sub => .fault s2 (trapDecode sub e p (some w0))
      | .ok (i, _) => .ok s2 p q2 i

/-- Searches for the next first word of the engine from a position (R315, R317). -/
def State.seek (s : State) (c : Nat) (e : Engine) (start : Pos) : Nat → Pos → FetchRes
  | 0, p => .far s p
  | f + 1, p =>
    match s.getLine c e p.line with
    | .fault t => .fault s (fetchTrap e start t)
    | .ok l true => .fault (s.keepLine c e p.line l) (trapDecode 5 e { line := p.line, lane := 0 } none)
    | .ok l false =>
      let s1 := s.keepLine c e p.line l
      match findLane e l (lanesFrom p.lane) with
      | none => s1.seek c e start f { line := nextLine p.line, lane := 1 }
      | some (n, .first) => s1.decodeAt c e { line := p.line, lane := n } (laneWord l n)
      | some (n, _) => .fault s1 (trapDecode 4 e { line := p.line, lane := n } none)

/-- The next instruction of an engine from its cursor. A search longer than 64 lines goes on in the next step. -/
def State.fetch (s : State) (c : Nat) (e : Engine) : FetchRes :=
  let s1 := s.modEng c e Eng.dropLines
  let p := (s1.eng c e).cur
  s1.seek c e p 64 p

/-- The engine stands at a decoded instruction. -/
def State.at_ (s : State) (c : Nat) (e : Engine) (pos next : Pos) : State :=
  let t : State := { s with focus := c }
  t.modEng c e fun n => { n with cur := pos, next := next }

end Sys2Proof.Machine
end

