-- ==== Sys2Proof/Machine/Events.lean ====
section
/-! DEFINITION. Events of the memory system and of the traps: walks, fetches, calendars and windows (07_memory.md R172, R177,
R178, R182 to R184, R188; 13_encoding.md R311), DEADLOCK (02_execution.md R48), trap entry and delivered faults
(10_faults.md R246 to R248, R610), residue and uncorrectable errors (R252 to R254, R258), the version log (R260). -/
namespace Sys2Proof.Machine

/-! ## Moving bound requests (R177, R178) -/

/-- The requests of a core that are bound to one of some slots of a channel. -/
def State.boundTo (s : State) (core ch : Nat) (slots : List Nat) (skip : Nat × Nat) : List (Nat × Nat) :=
  s.ops.flatMap fun (n, o) =>
    if o.core != core then []
    else (List.zip (List.range o.reqs.length) o.reqs).filterMap fun (j, r) =>
      if (n, j) != skip && r.ch == ch && r.slots.any slots.contains then some (n, j) else none

/-- A request moves k rotations: each of its slots, its issue and its completion (R177, R178). -/
def Req.rotate (r : Req) (k cause : Nat) : Req :=
  { r with mc := r.mc + 64 * k, done := r.done + 96 * k, slots := r.slots.map (· + 64 * k), cause := cause }

/-- The cycle in which the last of some requests completes; an operation ends a fixed time after it. -/
def lastDone (l : List Req) : Nat := l.foldl (fun n r => max n r.done) 0

/-- Moves requests, each with the rotations it moves, and with them every request bound where they go, with the same code
(R178, R182). -/
def State.moveReqs (s : State) (cause : Nat) : Nat → List (Nat × Nat × Nat) → State
  | 0, _ => s
  | _ + 1, [] => s
  | f + 1, (n, j, k) :: l =>
    match s.op? n with
    | none => s.moveReqs cause f l
    | some o => match o.reqs[j]? with
      | none => s.moveReqs cause f l
      | some r =>
        let r1 := r.rotate k cause
        let key := dieOf o.core * 128 + r.ch
        let behind := s.boundTo o.core r.ch r1.slots (n, j)
        let later (t : Nat) : Nat := max t (r1.done + (t - lastDone o.reqs))
        let s1 := (s.setOp n
            { o with reqs := o.reqs.set j r1, due := later o.due, limit := if o.limit = 0 then 0 else later o.limit }).modCore o.core fun c =>
          { c with bound := c.bound.map fun b =>
              if b.key == key && r.slots.contains b.mc then { b with mc := b.mc + 64 * k, done := b.done + 96 * k } else b }
        s1.moveReqs cause f (behind.map (fun q => (q.1, q.2, 1)) ++ l)

def State.reqTotal (s : State) : Nat := s.ops.foldl (fun n (_, o) => n + o.reqs.length) 0

def State.moveReq (s : State) (n j k cause : Nat) : State := s.moveReqs cause (s.reqTotal * 64 + 64) [(n, j, k)]

/-- A bound request of an operation that has not completed, of HBM. -/
def State.hbmReq (s : State) (op req : Nat) : Option Req :=
  match s.op? op with
  | some o => match o.reqs[req]? with
    | some r => if r.ch < 128 && s.cycle ≤ r.done then some r else none
    | none => none
  | none => none

/-- ECC_CORRECTION_REPLAY: a corrected error replays an HBM read one rotation later (R182, code 2). -/
def execEccCorrectionReplay (op req : Nat) (s : State) : Host.Outcome State Fault Refusal :=
  match s.hbmReq op req with
  | some r => .next (if r.rd then s.moveReq op req 1 2 else s)
  | none => .next s

/-- FAR_CHAIN_LINK_RETRY: the four beats of a far request move one rotation (R177, R182, code 3). -/
def execFarChainLinkRetry (op req : Nat) (s : State) : Host.Outcome State Fault Refusal :=
  match s.hbmReq op req with
  | some r => .next (if r.far then s.moveReq op req 1 3 else s)
  | none => .next s

/-! ## Fading (R172) -/

def fadeCycles : Nat := 2 ^ 20

def Pin.fades (p : Pin) (now : Nat) : Bool := p.filled && p.since + fadeCycles ≤ now

/-- FADE_DECREMENT: the counter drops by one; at zero the window is released. -/
def execFadeDecrement (die base : Nat) (s : State) : Host.Outcome State Fault Refusal :=
  match (s.die die).pins.find? fun p => p.base == base with
  | some p =>
    if !p.fades s.cycle then .next s
    else if p.count ≤ 1 then
      .next ((s.modDie die fun d => { d with pins := d.pins.filter fun q => q.base != base }).pinReleased die p)
    else .next (s.modDie die fun d => { d with pins := d.pins.map fun q =>
      if q.base == base then { q with count := q.count - 1, since := q.since + fadeCycles } else q })
  | none => .next s

/-! ## Walks (R188) -/

/-- Requests of an operation to a page whose slots have passed while the page was walked: each moves one rotation at a time, as
often as the walk has lasted (R178, R182). -/
def lateReqs (now n page : Nat) (o : Op) : List (Nat × Nat × Nat) :=
  (List.zip (List.range o.reqs.length) o.reqs).flatMap fun (j, r) =>
    if r.ch < 128 && r.va / pageBytes * pageBytes = page && mcIssue r.mc < now then
      List.replicate (ceilDiv (now - mcIssue r.mc) 96) (n, j, 1)
    else []

/-- A request without a slot to the page goes once the page is found, and arrives its class later (R182). -/
def lateOther (now issued page : Nat) (r : Req) : Req :=
  if r.ch < 128 || r.va / pageBytes * pageBytes != page then r else { r with done := r.done + (now - issued), cause := 4 }

/-- The first address of a page that an operation accesses (R187). -/
def Op.firstVa (o : Op) (page : Nat) : Nat :=
  match (o.reqs.map Req.va ++ (o.src ++ o.segs).map Seg.va).filter fun a => a / pageBytes * pageBytes = page with
  | a :: l => l.foldl min a
  | [] => page

/-- An operation that waited for a page: the walk's failure parks it; its late requests move (R182, code 4; R187). -/
def State.walkEnds (s : State) (page : Nat) (bad : Bool) (n : Nat) : State :=
  match s.op? n with
  | none => s
  | some o =>
    if !o.walks.contains page then s
    else
      let l := o.reqs.map (lateOther s.cycle o.issued page)
      let late (t : Nat) : Nat := max t (lastDone l + (t - lastDone o.reqs))
      let o1 : Op := { o with
        walks := o.walks.filter (· != page), reqs := l, due := late o.due, limit := if o.limit = 0 then 0 else late o.limit }
      let s1 := s.setOp n o1
      if bad then s1.parkOp n o1 (trapXlate causeInvalid (o1.firstVa page))
      else s1.moveReqs 4 (s1.reqTotal * 64 + 64) (lateReqs s.cycle n page o1)

/-- WALK_COMPLETE: one of the walks at work on a die ends, filling the TLBs or parking the requests that need the page. -/
def execWalkComplete (core page : Nat) (s : State) : Host.Outcome State Fault Refusal :=
  if !s.walkServed core page then .next s
  else
    let s1 := s.modDie (dieOf core) fun d => { d with walks := d.walks.filter (· != (core, page)) }
    let r := s1.lookup core page
    let s2 := match r with
      | some t => s1.fillTlb core t
      | none => s1
    .next ((s2.ops.filterMap fun (n, o) => if o.core == core then some n else none).foldl
      (fun t n => t.walkEnds page r.isNone n) s2)

/-! ## The version log (R260) -/

/-- Bytes of a die's version log in use. -/
def State.logUsed (s : State) (d : Nat) : Nat :=
  s.job.units.foldl (fun n (_, r) => if r.version.isSome && r.versionDie == d then n + 256 * r.spilled.length else n) 0

/-- The staged lines of a unit that the die's cache holds, each with the instant in which it was staged (R170, R259). -/
def UnitRec.residentLines (r : UnitRec) : List (Nat × Nat) := r.stagedAt.filter fun (b, _) => !r.spilled.contains b

/-- The oldest resident staged line of some lines, with its unit. -/
def State.oldestStaged (s : State) (d : Nat) (p : Nat → Bool) : Option (Nat × Nat) :=
  let l := s.job.units.flatMap fun (u, r) =>
    if r.version.isSome && r.versionDie == d then (r.residentLines.filter fun q => p q.1).map fun (b, t) => (t, u, b) else []
  (l.foldl (fun o q => match o with
    | some b => if q.1 < b.1 then some q else some b
    | none => some q) none).map Prod.snd

/-- The requests to HBM that wait for a set when a line of it is spilled: their slots have come (R182, code 5). -/
def State.setWaiters (s : State) (d k : Nat) : List (Nat × Nat × Nat) :=
  s.ops.flatMap fun (n, o) =>
    if dieOf o.core != d then []
    else (List.zip (List.range o.reqs.length) o.reqs).filterMap fun (j, r) =>
      if r.ch < 128 && Config.mscSet (r.pa / 256) == k && mcIssue r.mc ≤ s.cycle && s.cycle ≤ r.done then some (n, j, 1) else none

/-- VERSION_SPILL_COMPLETE: the oldest staged line of the set of an address goes to the version log, one rotation later for
the requests to HBM that wait for the set; where the log is full, the staging store waits. -/
def execVersionSpillComplete (die addr : Nat) (s : State) : Host.Outcome State Fault Refusal :=
  let k := Config.mscSet (addr / 256)
  match s.oldestStaged die fun b => Config.mscSet b == k with
  | some (u, line) =>
    if s.logUsed die + 256 ≤ Config.versionLogBytes then
      .next ((s.modUnit u fun r => { r with spilled := r.spilled ++ [line], logWait := false }).moveReqs 5 (s.reqTotal * 64 + 64)
        (s.setWaiters die k))
    else .next (s.modUnit u fun r => { r with logWait := true })
  | none => .next s

/-- Bytes of a die's memory-side cache that pinned windows and staged lines hold (R170). -/
def State.mscUsed (s : State) (d : Nat) : Nat :=
  s.job.units.foldl (fun n (_, r) => if r.version.isSome && r.versionDie == d then n + 256 * r.residentLines.length else n)
    ((s.die d).pins.foldl (fun n p => n + segsLen p.segs) 0)

/-- The cache holds more than it has room for: a line is to be spilled, unless its unit waits for the log already (R16, R260). -/
def State.mustSpill (s : State) (d : Nat) : Bool :=
  Config.mscBytes < s.mscUsed d
  && (match s.oldestStaged d fun _ => true with
    | some (u, _) => (s.unit? u).any fun r => !r.logWait
    | none => false)

/-- The oldest staged line of a die is spilled. -/
def spillOldest (d : Nat) (s : State) : Host.Outcome State Fault Refusal :=
  match s.oldestStaged d fun _ => true with
  | some (_, b) => execVersionSpillComplete d (256 * b) s
  | none => .next s

/-- The youngest unit of a list by age (R230). -/
def youngest : Tab UnitRec → Option (Nat × UnitRec)
  | [] => none
  | (u, r) :: l => match youngest l with
    | some (v, q) => if q.age.getD 0 < r.age.getD 0 then some (u, r) else some (v, q)
    | none => some (u, r)

def State.logHolders (s : State) (d : Nat) : Tab UnitRec :=
  s.job.units.filter fun (_, r) => r.version.isSome && r.versionDie == d && !r.spilled.isEmpty

/-- The discarded unit is re-queued, whether or not it is bound; the discard does not count as a rollback (R260). -/
def State.discardVersion (s : State) (u : Nat) (r : UnitRec) : State :=
  match r.ctx with
  | some c => s.rollback c false
  | none => s.backToReady u r.die false

/-- VERSION_LOG_DISCARD: every unit that holds log space waits; the youngest is discarded, and the others go on. -/
def execVersionLogDiscard (die : Nat) (s : State) : Host.Outcome State Fault Refusal :=
  let l := s.logHolders die
  if !l.isEmpty && l.all fun (_, r) => r.logWait then
    match youngest l with
    | some (u, r) => .next (l.foldl (fun t (v, _) => t.modUnit v fun q => { q with logWait := false }) (s.discardVersion u r))
    | none => .next s
  else .next s

/-! ## Lines (R311, R320) -/

/-- LINE_FETCH: an instruction line returns to a cursor; one that fails its parity has been fetched again once. A fetch that
faults raises its trap when the engine comes to the line. -/
def execLineFetch (core : Nat) (ctx : Fin 4) (eng : Engine) (s : State) : Host.Outcome State Fault Refusal :=
  let c := 4 * core + ctx.val
  let n := s.eng c eng
  if (s.ctx c).unit.isNone || n.st == .joined then .next s
  else match s.getLine c eng n.cur.line with
    | .ok l _ => .next (s.keepLine c eng n.cur.line l)
    | .fault _ => .next s

/-! ## Missed promises (R183, R184) -/

/-- The event that broke a promise (R182): a request of it moved, a page of it is still under walk, or its staging waits for
the version log. -/
def State.missCause (s : State) (o : Op) : Nat :=
  match o.reqs.find? fun r => r.cause != 0 with
  | some r => r.cause
  | none =>
    if !o.walks.isEmpty then 4
    else match s.unit? o.unit with
      | some r => if r.logWait then 5 else 0
      | none => 0

/-- The token has passed its promise and the miss is not yet counted; one with a parked request misses none. -/
def State.missReady (s : State) (c k : Nat) : Bool :=
  let x := s.ctx c
  let t := x.tok k
  x.unit.isSome && !t.done && t.promise != 0 && t.promise < s.cycle && !t.missed
  && (match s.op? t.op with
    | some o => o.parked.isNone
    | none => true)

/-- PROMISE_MISS: PROMMISS counts the miss, and PROMISE is delivered where the trap mask enables it. -/
def execPromiseMiss (ctx tok : Nat) (s : State) : Host.Outcome State Fault Refusal :=
  if !s.missReady ctx tok then .next s
  else
    let x := s.ctx ctx
    let cause := match s.op? (x.tok tok).op with
      | some o => s.missCause o
      | none => 0
    let p := x.sprs.prommiss
    let w : Word := BitVec.ofNat 64 (cause % 256 * 2 ^ 48 + tok % 32 * 2 ^ 40 + min (fld p 0 32 + 1) 0xFFFFFFFF)
    let s1 := s.modCtx ctx fun y => (y.modTok tok fun t => { t with missed := true }).setSprs { y.sprs with prommiss := w }
    .next (if x.sprs.trapctl.getLsbD 0 then
        s1.deliver ctx { code := tPromise, sub := cause, eng := .c, async := true, token := tok }
      else s1)

/-! ## DEADLOCK (R48) -/

/-- A source port has rows in flight: more of its walk is fetched or decoded without a further pop. -/
def Port.inFlight (p : Port) : Bool :=
  !p.isSink && !p.finished && p.broken.isNone && !(p.rows.any fun r => r.fault.isSome) && p.rows.length < 3

/-- Every engine is sync-blocked, joined or waiting at a control RDV, one at least sync-blocked, and nothing is in flight. -/
def State.deadlocked (s : State) (c : Nat) : Bool :=
  let x := s.ctx c
  x.unit.isSome && !x.inHandler && x.saving.isNone
  && allEngines.all (fun e => (x.eng e).st == .syncBlocked || (x.eng e).st == .joined
      || (e == .c && x.c.st == .waiting && x.c.hold == .rdv))
  && allEngines.any (fun e => (x.eng e).st == .syncBlocked)
  && !s.asyncLeft (s.unitNo c)
  && !(x.ports.any fun p => p.2.inFlight)

def deadlockFirst : Nat := 2048

/-- The sync-blocked engine whose held instruction is oldest (R48). -/
def Ctx.oldestBlocked (x : Ctx) (now : Nat) : Option Engine :=
  (allEngines.filter fun e => (x.eng e).st == .syncBlocked).foldl (fun b e => match b with
    | none => some e
    | some d => if (x.eng e).age.getD now < (x.eng d).age.getD now then some e else some d) none

/-- DEADLOCK: the conditions have held for 2,048 cc at least; the trap is raised in the oldest sync-blocked engine. -/
def execDeadlock (ctx : Nat) (s : State) : Host.Outcome State Fault Refusal :=
  let x := s.ctx ctx
  match x.deadSince, x.oldestBlocked s.cycle with
  | some t, some e =>
    if s.deadlocked ctx && t + deadlockFirst ≤ s.cycle then
      let n := x.eng e
      let tr : Trap := { code := tDeadlock, eng := e, pos := n.cur, op := (n.held.map fun i => i.major).getD 0
                         fn := (n.held.map fun i => i.fnField).getD 0, detailA := s.cycle - t, age := n.age.getD s.cycle }
      .next (((s.modCtx ctx fun y => { y with deadSince := none }).post ctx tr).settle ctx)
    else .next s
  | _, _ => .next s

/-! ## Entry (R246 to R248, R610) -/

/-- TRAP_ENTRY: the engines stop; once all have, the first pending trap is taken. -/
def execTrapEntry (ctx : Nat) (s : State) : Host.Outcome State Fault Refusal := .next (s.settle ctx)

/-- DELIVERED_FAULT: a fault of a joined engine's request is taken at the control engine's boundary; a wait is abandoned
(R610). -/
def execDeliveredFault (ctx : Nat) (s : State) : Host.Outcome State Fault Refusal :=
  match firstTrap (s.ctx ctx).takable with
  | some t =>
    if t.async && ((s.eng ctx t.eng).st == .joined || (s.eng ctx t.eng).before == .joined) then .next (s.settle ctx) else .next s
  | none => .next s

/-! ## Residue errors (R252 to R254) -/

/-- The engine has an instruction that a residue error can strike. -/
def State.strikes (s : State) (c : Nat) (e : Engine) : Bool :=
  let x := s.ctx c
  x.unit.isSome && (x.eng e).st != .joined && (x.eng e).st != .stopped

/-- A residue check that fails: two residues that differ (R109, R252). -/
def residuesDiffer (h : ResidueHit) : Bool := h.exp < 7 && h.act < 7 && h.exp != h.act

/-- The record of a residue error: the instruction at the engine's cursor, and what was struck (R250). -/
def State.residueTrap (s : State) (c : Nat) (e : Engine) (sub : Nat) (h : ResidueHit) : Trap :=
  let n := s.eng c e
  let t : Trap := { code := tMcheck, sub := sub, eng := e, pos := n.cur, lane := h.lane, gran := h.gran, exp := h.exp
                    act := h.act, age := n.age.getD s.cycle }
  match s.fetch c e with
  | .ok _ p _ i => { t with pos := p, op := i.major, fn := i.fnField }
  | _ => t

/-- RESIDUE_ERROR_LOGIC: the instruction is re-executed once; a second mismatch fences the core, and the unit is rolled back
or takes MCHECK (R253). -/
def execResidueErrorLogic (ctx : Nat) (eng : Engine) (hit : ResidueHit) (persists : Bool) (s : State) :
    Host.Outcome State Fault Refusal :=
  if !s.strikes ctx eng || !residuesDiffer hit then .next s
  else if !persists then .next (s.countRetry (coreOf ctx))
  else .next (s.machineCheck ctx (s.residueTrap ctx eng 0 hit) true)

/-- RESIDUE_ERROR_STORAGE: no retry and no fence (R253). -/
def execResidueErrorStorage (ctx : Nat) (eng : Engine) (hit : ResidueHit) (s : State) : Host.Outcome State Fault Refusal :=
  if !s.strikes ctx eng || !residuesDiffer hit then .next s
  else .next (s.machineCheck ctx (s.residueTrap ctx eng 1 hit) false)

/-! ## Uncorrectable errors (R258) -/

/-- UNCORRECTABLE_ERROR: the 256-byte block is poisoned; the access that finds it raises MCHECK with SUB 3. -/
def execUncorrectableError (addr : Nat) (s : State) : Host.Outcome State Fault Refusal :=
  if s.levelOf addr == .none then .next s else .next { s with poison := insertNew s.poison (addr / 256) }

end Sys2Proof.Machine
end

