-- ==== Sys2Proof/Machine/Lantern.lean ====
section
/-! DEFINITION. The Lantern rewrite stage: its window, its rule table, the decision at the window's head, and the issue of a
group (11_rewrite.md R269 to R290; 16_ref_d_l.md R454 to R456). -/
namespace Sys2Proof.Machine

/-! ## Matrix instructions as the Lantern sees them (R270) -/

/-- The instruction with other fields. -/
def withFields (i : Instr) (g : MF) : Instr :=
  match i with
  | .mma _ => .mma g
  | .mbld _ t => .mbld g t
  | .mwb _ => .mwb g
  | .mwbMem _ t => .mwbMem g t
  | .mscl _ => .mscl g
  | .msclReg _ => .msclReg g
  | .mtrn _ => .mtrn g
  | .mxmov _ => .mxmov g
  | .mzero _ => .mzero g
  | j => j

/-- The flags field [11:4] (R331). -/
def flagsOf (f : MF) : BitVec 8 := BitVec.ofBool f.lu ++ BitVec.ofBool f.pa ++ f.sa ++ f.mf

/-- The fields with other flags. -/
def withFlags (f : MF) (w : BitVec 8) : MF :=
  { f with lu := w.getLsbD 7, pa := w.getLsbD 6, sa := w.extractLsb' 4 2, mf := w.extractLsb' 0 4 }

/-- Tile views that an instruction names. -/
def tilesNamed (op : Nat) (f : MF) : List Nat :=
  (if op = opMma || op = opMbld || op = opMwb || op = opMtrn || op = opMxmov then [f.fb.toNat] else [])
  ++ (if (op = opMma || op = opMtrn || op = opMxmov) && !f.pa then [f.fa.toNat] else [])

/-- An instruction is a flush point, given the tile views consumed so far (R274). -/
def isFlush (consumed : List Nat) (i : Instr) : Bool :=
  match lanternForm i with
  | none => true
  | some (op, f, t) =>
    f.sa != 0 || (t.elim false fun t => !(afts t).isEmpty) || (tilesNamed op f).any fun n => consumed.contains n

/-! ## Rule entries (R276) -/

def ruleV (e : BitVec 128) : Bool := e.getLsbD 127
def ruleNp (e : BitVec 128) : Nat := (e.extractLsb' 125 2).toNat
def ruleNr (e : BitVec 128) : Nat := (e.extractLsb' 123 2).toNat
def ruleCodes (e : BitVec 128) : List Nat := [119, 115, 111].map fun k => (e.extractLsb' k 4).toNat
def slotLow (j : Nat) : Nat := 89 - 22 * j
def ruleSop (e : BitVec 128) (j : Nat) : Nat := (e.extractLsb' (slotLow j + 16) 6).toNat
def ruleFmask (e : BitVec 128) (j : Nat) : BitVec 8 := e.extractLsb' (slotLow j + 8) 8
def ruleFval (e : BitVec 128) (j : Nat) : BitVec 8 := e.extractLsb' (slotLow j) 8
def ruleEq (e : BitVec 128) : BitVec 8 := e.extractLsb' 37 8
def ruleDead (e : BitVec 128) : BitVec 3 := e.extractLsb' 34 3
def ruleWop (e : BitVec 128) (n : Nat) : Nat := (e.extractLsb' (26 - 16 * n) 6).toNat
def ruleWbase (e : BitVec 128) (n : Nat) : Nat := (e.extractLsb' (24 - 16 * n) 2).toNat
def ruleWflip (e : BitVec 128) (n : Nat) : BitVec 8 := e.extractLsb' (16 - 16 * n) 8

/-- An operand field of a slot. -/
inductive FieldName where
  | fa | fb | fc
  deriving DecidableEq, Repr

abbrev FieldRef := Nat × FieldName

/-- The equalities of R277, by bit. -/
def eqTable : List (FieldRef × FieldRef) :=
  [((1, .fa), (0, .fa)), ((1, .fa), (0, .fb)), ((1, .fb), (0, .fa)), ((1, .fc), (0, .fc)), ((2, .fa), (1, .fb)),
   ((2, .fc), (1, .fc)), ((2, .fc), (0, .fc)), ((2, .fa), (0, .fa))]

/-- The EQ bit of an equality. -/
def eqBit (a b : FieldRef) : Option Nat :=
  (List.range 8).find? fun k => match (eqTable.drop k).head? with
    | some p => p == (a, b) || p == (b, a)
    | none => false

/-! ## Composition of primitives (R279, R280) -/

/-- An instruction of a pattern as the primitives have rewritten it: the slot it descends from, where its FA comes from, its
flag inversions, and its derived state by slots. -/
structure Item where
  op : Nat
  slot : Nat
  fa : FieldRef
  ta : Bool := false
  za : Bool := false
  ea : List Nat := []
  factor : Option Nat := none
  pr : Bool := false
  prTile : Option FieldRef := none
  joined : List Nat := []
  accA : Option FieldRef := none
  also : List Nat := []
  deriving DecidableEq, Repr

def Item.fb (x : Item) : FieldRef := (x.slot, .fb)
def Item.fc (x : Item) : FieldRef := (x.slot, .fc)

/-- The derived state of an instruction that a group eliminates stays with the group. -/
def Item.keep (x : Item) (gone : Item) : Item :=
  { x with
    ea := gone.ea ++ x.ea, factor := x.factor.orElse fun _ => gone.factor, pr := x.pr || gone.pr
    prTile := x.prTile.orElse fun _ => gone.prTile, joined := gone.joined ++ x.joined
    accA := x.accA.orElse fun _ => gone.accA, also := gone.also ++ x.also }

/-- Conditions that a primitive's row implies, beyond equalities (R279, R281). -/
inductive RCond where
  /-- The views of two fields have rows and columns exchanged, and one type. -/
  | transposed (x y : FieldRef)
  /-- A is a tile view. -/
  | tileA (slot : Nat)
  | notTransposed (slot : Nat)
  /-- The context's routing matrix, or the resident B of a slot, is a permutation. -/
  | permutes (b : Option FieldRef)
  | identity
  | exponentForm (slot : Nat)
  | registerForm (slot : Nat)
  | registerWriteback (slot : Nat)
  | zaSet (x : Item)
  /-- The K range of an MMA joins that of those merged before it. -/
  | joins (as : List Nat) (b : Nat)
  /-- The MMA reads the rows that the MWB writes; `same` where the type is the accumulator's. -/
  | readsRows (mwb mma : Nat) (same : Bool)
  | sameSource (a b : Nat)
  deriving DecidableEq, Repr

/-- A composition: what is left, and what it requires. -/
structure Compose where
  items : List Item
  eqs : List (FieldRef × FieldRef) := []
  dead : List Nat := []
  conds : List RCond := []
  zaFree : List Nat := []
  deriving DecidableEq, Repr

/-- Applies one primitive to the leading instructions of a pattern. -/
def applyPrim (code : Nat) (p : Compose) : Option Compose :=
  match code, p.items with
  | 1, x :: y :: l =>
    if x.op = opMtrn && y.op = opMtrn then
      some { p with
        items := l, eqs := p.eqs ++ [(y.fa, x.fb), (y.fb, x.fa)], dead := p.dead ++ [x.slot]
        conds := p.conds ++ [.transposed x.fb x.fa] }
    else none
  | 2, x :: w :: l =>
    if x.op = opMtrn && w.op = opMma then
      some { p with
        items := ({ w with fa := x.fa, ta := true } : Item).keep x :: l, eqs := p.eqs ++ [(w.fa, x.fb)]
        dead := p.dead ++ [x.slot], conds := p.conds ++ [.transposed x.fb x.fa, .tileA w.slot] }
    else none
  | 3, x :: w :: l =>
    if x.op = opMxmov && w.op = opMma then
      some { p with
        items := ({ w with fa := x.fa, pr := true } : Item).keep x :: l, eqs := p.eqs ++ [(w.fa, x.fb)]
        dead := p.dead ++ [x.slot], conds := p.conds ++ [.permutes none, .tileA w.slot, .notTransposed w.slot] }
    else none
  | 4, x :: w :: l =>
    if x.op = opMma && w.op = opMscl then
      some { p with
        items := { x with ea := x.ea ++ [w.slot] } :: l, eqs := p.eqs ++ [(w.fc, x.fc)], dead := p.dead ++ [x.slot]
        conds := p.conds ++ [.exponentForm w.slot] }
    else if x.op = opMscl && w.op = opMwb then
      some { p with
        items := ({ w with ea := w.ea ++ [x.slot] } : Item).keep x :: l, eqs := p.eqs ++ [(w.fc, x.fc)]
        dead := p.dead ++ [x.slot], conds := p.conds ++ [.exponentForm x.slot] }
    else none
  | 5, x :: w :: l =>
    if x.op = opMscl && w.op = opMwb then
      some { p with
        items := ({ w with factor := some x.slot } : Item).keep x :: l, eqs := p.eqs ++ [(w.fc, x.fc)]
        dead := p.dead ++ [x.slot], conds := p.conds ++ [.registerForm x.slot] }
    else none
  | 6, x :: w :: l =>
    if x.op = opMzero && w.op = opMma then
      some { p with
        items := ({ w with za := true } : Item).keep x :: l, eqs := p.eqs ++ [(w.fc, x.fc)], zaFree := p.zaFree ++ [w.slot] }
    else none
  | 7, x :: w :: l =>
    if x.op = opMxmov && (w.op = opMma || w.op = opMtrn || w.op = opMxmov) then
      some { p with
        items := ({ w with fa := x.fa } : Item).keep x :: l, eqs := p.eqs ++ [(w.fa, x.fb)], dead := p.dead ++ [x.slot]
        conds := p.conds ++ [.identity, .tileA w.slot] }
    else none
  | 8, x :: w :: l =>
    if x.op = opMma && w.op = opMma then
      some { p with
        items := { x with joined := x.joined ++ [w.slot] } :: l, eqs := p.eqs ++ [(w.fc, x.fc)]
        conds := p.conds ++ [.joins (x.slot :: x.joined) w.slot, .tileA x.slot, .tileA w.slot] }
    else none
  | 9, x :: w :: l =>
    if x.op = opMwb && w.op = opMma then
      some { p with
        items := ({ w with accA := some x.fc } : Item).keep x :: l, dead := p.dead ++ [x.slot]
        conds := p.conds ++ [.readsRows x.slot w.slot true, .tileA w.slot, .notTransposed w.slot] }
    else none
  | 10, x :: w :: l =>
    if x.op = opMbld && w.op = opMbld then
      some { p with items := { x with also := x.also ++ [w.slot] } :: l, conds := p.conds ++ [.sameSource x.slot w.slot] }
    else none
  | 11, x :: w :: l =>
    if x.op = opMma && w.op = opMscl then
      some { p with
        items := { x with factor := some w.slot } :: l, eqs := p.eqs ++ [(w.fc, x.fc)], dead := p.dead ++ [x.slot]
        conds := p.conds ++ [.registerForm w.slot, .zaSet x] }
    else none
  | 12, x :: b :: w :: l =>
    if x.op = opMma && b.op = opMwb && w.op = opMma then
      some { p with
        items := ({ w with fa := x.fa, pr := true, prTile := some x.fb } : Item).keep x :: l, eqs := p.eqs ++ [(b.fc, x.fc)]
        dead := p.dead ++ [b.slot]
        conds := p.conds ++ [.zaSet x, .permutes (some x.fb), .readsRows b.slot w.slot false, .tileA x.slot,
          .notTransposed x.slot, .tileA w.slot, .notTransposed w.slot] }
    else none
  | _, _ => none

/-- The pattern of an entry with its primitives applied in order. -/
def ruleCompose (e : BitVec 128) : Option Compose :=
  ((ruleCodes e).filter (· != 0)).foldl (fun p c => p.bind (applyPrim c))
    (some { items := (List.range (ruleNp e)).map fun j => { op := ruleSop e j, slot := j, fa := (j, .fa) } })

/-- WFLIP of a replacement: TA is flags bit 1, ZA flags bit 0. -/
def Item.flip (x : Item) : BitVec 8 := (if x.ta then 2 else 0) ||| (if x.za then 1 else 0)

/-- The entry's replacement is the composition's, and EQ, DEAD and the masks hold what it requires; a transposition cancelled
leaves no replacement (R278, R280). -/
def ruleConforms (e : BitVec 128) : Bool :=
  match ruleCompose e with
  | none => false
  | some p =>
    p.items.length == ruleNr e && (!(ruleCodes e).contains 1 || ruleNr e == 0)
    && ((List.zip (List.range p.items.length) p.items).all fun (n, x) =>
      x.op == ruleWop e n && x.slot == ruleWbase e n && x.flip == ruleWflip e n)
    && (p.eqs.all fun (a, b) => a == b || (match eqBit a b with
      | some k => (ruleEq e).getLsbD k
      | none => false))
    && (p.dead.all fun j => (ruleDead e).getLsbD j)
    && p.zaFree.all fun j => (ruleFmask e j).getLsbD 0 && !(ruleFval e j).getLsbD 0

/-- No nonzero code follows a zero code, and none exceeds 12. -/
def codesOk (l : List Nat) : Bool :=
  l.headD 0 != 0 && l.all (· ≤ 12) && (List.range l.length).all fun k => nth l k 0 != 0 || (l.drop k).all (· == 0)

/-- An entry is valid (R278). -/
def ruleValid (e : BitVec 128) : Bool :=
  if !ruleV e then e == 0
  else
    let np := ruleNp e
    let nr := ruleNr e
    1 ≤ np && nr ≤ 2 && codesOk (ruleCodes e) && e.extractLsb' 32 2 == 0
    && ([0, 1, 2].all fun j =>
      if j < np then eligibleOps.contains (ruleSop e j)
      else ruleSop e j == 0 && ruleFmask e j == 0 && ruleFval e j == 0 && !(ruleDead e).getLsbD j)
    && ([0, 1].all fun n =>
      if n < nr then eligibleOps.contains (ruleWop e n)
      else ruleWop e n == 0 && ruleWbase e n == 0 && ruleWflip e n == 0)
    && ((List.zip (List.range 8) eqTable).all fun (k, a, b) => !(ruleEq e).getLsbD k || (a.1 < np && b.1 < np))
    && ruleConforms e

/-- The class of a primitive: 0 E, 1 S, 2 X, 3 Q (R279). -/
def primClass (code : Nat) : Nat := nth [0, 0, 0, 0, 2, 3, 1, 0, 3, 0, 0, 3, 3] code 0
/-- The class of an entry (R282). -/
def ruleClass (e : BitVec 128) : Nat := (ruleCodes e).foldl (fun n c => max n (primClass c)) 0

/-! ## LRULE (R454 to R456) -/

/-- Entries named by a mask. -/
def maskedRules (msk : Word) : List Nat := (List.range 32).filter fun n => msk.getLsbD n

/-- Entry n of some bytes, which begin at entry `lo`. -/
def imageRule (bs : List Byte) (lo n : Nat) : BitVec 128 := BitVec.ofNat 128 (natOfBytes ((bs.drop (16 * (n - lo))).take 16))

/-- Loads entries: their counts are cleared, and every context of the core meets a flush point (R455, R274). -/
def State.loadRules (s : State) (core : Nat) (l : List (Nat × BitVec 128)) : State :=
  let s1 := s.modCore core fun k =>
    { k with rules := l.foldl (fun t (n, e) => tset t n e) k.rules, rwlog := l.foldl (fun t (n, _) => tset t n 0) k.rwlog }
  (ctxsOf core).foldl (fun t c => t.modCtx c fun x => { x with lantern := { x.lantern with flush := true } }) s1

def execLrule (f : C3) (s : State) : Host.Outcome State Fault Refusal :=
  let c := s.focus
  let x := s.ctx c
  let i : Instr := .lrule f
  let va := (x.sr f.a.toNat).toNat
  let msk := x.sr f.b.toNat
  let ns := maskedRules msk
  finish i s (s.sHold [f.a.toNat, f.b.toNat]
    (if !x.atLeast .handler then .trap s (trapOf tPriv)
     else if s.versioned c then .trap s (trapOf tOrder)
     else if msk = 0 then .done s
     else if va % 64 != 0 then .trap s (trapAt tAlign va)
     else if fld msk 32 32 != 0 then .trap s (trapOf tTable)
     else s.onRead (s.recordsRead i (ns.map fun n => (va + 16 * n, 16))) fun s1 bs =>
       let l := (List.zip ns (List.range ns.length)).map fun (n, k) => (n, imageRule bs 0 k)
       if l.all fun p => ruleValid p.2 then .done (s1.loadRules (coreOf c) l) else .trap s (trapOf tTable)))

/-! ## The window (R269, R271) -/

/-- What filling the window gives: the trap of its head, or a search that goes on. -/
inductive Filled where
  | ok (s : State)
  | far (s : State) (p : Pos)
  | fault (s : State) (t : Trap)

/-- A flush point stands in the window. -/
def Lantern.flushes (g : Lantern) : Bool :=
  (g.win.foldl (fun (st : Bool × List Nat) e => (st.1 || isFlush st.2 e.ins, consumedAfter st.2 e.ins)) (false, g.consumed)).1

/-- Groups may be formed at all (R272, R290). -/
def Ctx.groupsAllowed (x : Ctx) : Bool :=
  x.sprs.rwctl.getLsbD 0 && fld x.sprs.trapctl 8 4 == 0 && !x.sprs.rwsup.getLsbD 8 && fld x.sprs.rwsup 0 8 == 0 && !x.m.displaced

/-- The head may be decided: three stand in the window, or a flush point does (R271). -/
def windowReady (g : Lantern) : Bool := 3 ≤ g.win.length || g.flushes

/-- The search for the instruction behind the window's last goes on from a position. -/
def Lantern.searchFrom (g : Lantern) (p : Pos) : Lantern :=
  match g.win.getLast? with
  | some e => { g with win := g.win.dropLast ++ [{ e with next := p }] }
  | none => g

/-- Instructions enter the window, eight at most, and none behind a flush point (R269). An entry behind the head that cannot be
fetched or decoded joins no group, and is met again at the head. Where groups may be formed, the head is not decided before the
search for those behind it has ended; a search longer than 64 lines goes on in the next step. Once the head may be decided, entries
are taken from the line at hand and the next alone. -/
def State.fillWindow (s : State) (c : Nat) : Nat → Filled
  | 0 => .ok s
  | n + 1 =>
    let x := s.ctx c
    let ready := windowReady x.lantern || (!x.lantern.win.isEmpty && !x.groupsAllowed)
    if 8 ≤ x.lantern.win.length || x.lantern.flushes then .ok s
    else
      let p := match x.lantern.win.getLast? with
        | some e => e.next
        | none => x.m.cur
      match s.seek c .m p (if ready then 2 else 64) p with
      | .ok s1 pos next i =>
        (s1.modCtx c fun y => { y with lantern := { y.lantern with win := y.lantern.win ++ [{ pos := pos, next := next, ins := i }] } })
          |>.fillWindow c n
      | .far s1 q =>
        if x.lantern.win.isEmpty then .far s1 q
        else if ready then .ok s
        else .far (s1.modCtx c fun y => { y with lantern := y.lantern.searchFrom q }) x.m.cur
      | .fault s1 t => if x.lantern.win.isEmpty then .fault s1 t else .ok s

/-- The window as it is decided: a flush of another engine empties it first (R274). -/
def State.window (s : State) (c : Nat) : Filled :=
  let s1 := s.modCtx c fun x =>
    { x with
      m := x.m.dropLines
      lantern := if x.lantern.flush then { x.lantern with win := [], flush := false } else x.lantern }
  s1.fillWindow c 8

/-! ## Matching (R272, R281) -/

/-- The instructions from the head that a pattern may take: those before the first flush point. -/
def patternOf (consumed : List Nat) : List WinEntry → List (Nat × MF × Option Tok × WinEntry)
  | [] => []
  | e :: l =>
    if isFlush consumed e.ins then []
    else match eligibleForm e.ins with
      | some (op, f, t) => (op, f, t, e) :: patternOf (consumedAfter consumed e.ins) l
      | none => []

def fieldOf (f : MF) : FieldName → Nat
  | .fa => f.fa.toNat
  | .fb => f.fb.toNat
  | .fc => f.fc.toNat

/-- A pattern of matched instructions. -/
abbrev Pat := List (Nat × MF × Option Tok × WinEntry)

def patField (p : Pat) (r : FieldRef) : Nat :=
  match (p.drop r.1).head? with
  | some (_, f, _) => fieldOf f r.2
  | none => 0

def patMf (p : Pat) (j : Nat) : MF :=
  match (p.drop j).head? with
  | some (_, f, _) => f
  | none => { fa := 0, fc := 0, fb := 0, lu := false, pa := false, sa := 0, mf := 0, iss := 0 }

/-- Bit ranges of the register space that an instruction of a pattern writes. -/
def Ctx.slotWrites (x : Ctx) (op : Nat) (f : MF) : List (Nat × Nat) :=
  let t : TileView := x.tileView f.fb.toNat
  let a : AccView := x.accView f.fc.toNat
  if op = opMtrn || op = opMxmov || (op = opMwb && !f.mf.getLsbD 0) then t.ranges
  else if op = opMma then a.ranges t.cols
  else if op = opMscl || op = opMzero then a.ranges a.cols
  else []

/-- Bit ranges that it reads: tiles with their side entries, and accumulators (R281). -/
def Ctx.slotReads (x : Ctx) (op : Nat) (f : MF) : List (Nat × Nat) :=
  let tile (n : Nat) : List (Nat × Nat) := (x.tileView n).ranges ++ (x.tileView n).sideRanges
  let a : AccView := x.accView f.fc.toNat
  (if (op = opMma || op = opMtrn || op = opMxmov) && !f.pa then tile f.fa.toNat else [])
  ++ (if op = opMbld then (if f.pa then (x.tileView f.fb.toNat).sideRanges else tile f.fb.toNat) else [])
  ++ (if op = opMma && !f.mf.getLsbD 0 then a.ranges (x.tileView f.fb.toNat).cols else [])
  ++ (if op = opMscl then a.ranges a.cols else if op = opMwb then a.ranges (x.tileView f.fb.toNat).cols else [])

/-- A DEAD requirement: the result of slot j is read in the pattern only under LU (R276, R281). -/
def Ctx.slotDead (x : Ctx) (p : Pat) (j : Nat) : Bool :=
  match p.drop j with
  | (op, f, _) :: l => l.all fun (o, g, _) => g.lu || !rangesMeet (x.slotWrites op f) (x.slotReads o g)
  | [] => true

/-- A resident element is exactly 1, or exactly 0. -/
def Resid.isOne (r : Resid) (k j : Nat) : Bool :=
  let v := nth r.elems (k * r.cols + j) 0
  if r.pass then v != 0
  else if isOb r.fmt then v == 1 && nth r.scales (k * ceilDiv r.cols 32 + j / 32) 0 == 127
  else v == (oneCode r.fmt : Int)
def Resid.isZero (r : Resid) (k j : Nat) : Bool := nth r.elems (k * r.cols + j) 0 == 0

/-- Exactly one 1 in every row and every column, and zeros elsewhere. -/
def Resid.permutation (r : Resid) : Bool :=
  r.rows == r.cols
  && ((List.range r.rows).all fun k => (List.range r.cols).all fun j => r.isOne k j || r.isZero k j)
  && ((List.range r.rows).all fun k => ((List.range r.cols).filter fun j => r.isOne k j).length == 1)
  && (List.range r.cols).all fun j => ((List.range r.rows).filter fun k => r.isOne k j).length == 1

def Resid.identity (r : Resid) : Bool := r.permutation && (List.range r.rows).all fun k => r.isOne k k

/-- The truth of a condition: yes, no, or not known while a residency's source is still to be read. -/
inductive Verdict where
  | yes | no | wait
  deriving DecidableEq, Repr

def verdict (b : Bool) : Verdict := if b then .yes else .no

def residVerdict (r : Option Resid) (f : Resid → Bool) : Verdict :=
  match r with
  | none => .no
  | some q => if q.loading.isSome && q.elems.isEmpty then .wait else verdict (f q)

/-- The K range of an MMA joins those merged before it: one accumulator type and mode, one shape of B, slots adjacent to
theirs on either side, together within a K-block (R279). -/
def State.joinable (s : State) (c : Nat) (fs : List MF) (g : MF) : Bool :=
  let rs := fs.filterMap fun f => s.resident c f.fb.toNat
  match rs, s.resident c g.fb.toNat with
  | r :: l, some b =>
    rs.length == fs.length && !g.mf.getLsbD 0 && (fs.all fun f => f.mf.toNat / 4 == g.mf.toNat / 4)
    && (rs.all fun a => a.fmt == b.fmt && a.cols == b.cols)
    && (let lo := l.foldl (fun n a => min n a.slot) r.slot
        let hi := l.foldl (fun n a => max n (a.slot + a.slots)) (r.slot + r.slots)
        hi == b.slot || b.slot + b.slots == lo)
    && (match macFmt b.fmt with
      | some (_, k, _) => rs.foldl (fun n a => n + a.rows) b.rows ≤ k
      | none => false)
  | _, _ => false

/-- The view of an MMA's A is the rows of an MWB's destination. -/
def Ctx.readsRows (x : Ctx) (mwb mma : MF) (same : Bool) : Bool :=
  let r := x.tileView mwb.fb.toNat
  let v := x.tileView mma.fa.toNat
  !mwb.mf.getLsbD 0 && r.rows != 0 && r.base == v.base && r.rows == v.rows && r.cols == v.cols && r.ty == v.ty
  && (r.rows == 1 || r.stride == v.stride) && (!same || r.ty == (x.accView mwb.fc.toNat).ty)

def State.condHolds (s : State) (c : Nat) (p : Pat) : RCond → Verdict
  | .transposed a b =>
    let x := s.ctx c
    let u := x.tileView (patField p a)
    let v := x.tileView (patField p b)
    verdict (u.rows != 0 && u.rows == v.cols && u.cols == v.rows && u.ty == v.ty)
  | .tileA j => verdict (!(patMf p j).pa)
  | .notTransposed j => verdict (!(patMf p j).mf.getLsbD 1)
  | .permutes none => residVerdict (s.routing c) Resid.permutation
  | .permutes (some b) => residVerdict (s.resident c (patField p b)) Resid.permutation
  | .identity => residVerdict (s.routing c) Resid.identity
  | .exponentForm j => verdict (!(patMf p j).mf.getLsbD 0)
  | .registerForm j => verdict ((patMf p j).mf.getLsbD 0)
  | .registerWriteback j => verdict (!(patMf p j).mf.getLsbD 0)
  | .zaSet x => verdict ((patMf p x.slot).mf.getLsbD 0 != x.za)
  | .joins l b => verdict (s.joinable c (l.map (patMf p)) (patMf p b))
  | .readsRows a b same => verdict ((s.ctx c).readsRows (patMf p a) (patMf p b) same)
  | .sameSource a b =>
    let f := patMf p a
    let g := patMf p b
    verdict (!f.pa && !g.pa && f.fb == g.fb && f.sa == g.sa && f.mf == g.mf)

/-- The first verdict that is not yes. -/
def allHold (s : State) (c : Nat) (p : Pat) : List RCond → Verdict
  | [] => .yes
  | k :: l => match s.condHolds c p k with
    | .yes => allHold s c p l
    | v => v

/-- The entry's pattern stands at the head (R272). -/
def State.matchesRule (s : State) (c : Nat) (e : BitVec 128) (k : Compose) (p : Pat) : Verdict :=
  if p.length < ruleNp e then .no
  else if !((List.zip (List.range (ruleNp e)) p).all fun (j, op, f, _) =>
    op == ruleSop e j && flagsOf f &&& ruleFmask e j == ruleFval e j) then .no
  else if !((List.zip (List.range 8) eqTable).all fun (b, x, y) => !(ruleEq e).getLsbD b || patField p x == patField p y) then .no
  else if !((List.range (ruleNp e)).all fun j => !(ruleDead e).getLsbD j || (s.ctx c).slotDead (p.take (ruleNp e)) j) then .no
  else allHold s c p k.conds

/-- A replacement of a group (R280). -/
def replOf (p : Pat) (x : Item) : Repl :=
  let base := (p.drop x.slot).head?
  let f := patMf p x.slot
  let g := withFlags { f with fa := BitVec.ofNat 5 (patField p x.fa) } (flagsOf f ^^^ x.flip)
  let i : Instr := match base with
    | some (_, _, _, e) => e.ins
    | none => .mnestStep
  { ins := withFields i g
    prTile := x.prTile.map (patField p), prRouting := x.pr && x.prTile.isNone
    ea := x.ea.foldl (fun n j => n + msclExp (patMf p j)) 0
    factor := x.factor.map fun j => (patMf p j).fa.toNat
    joined := x.joined.filterMap fun j => ((p.drop j).head?).map fun (_, _, _, e) => e.ins
    accA := x.accA.map (patField p)
    alsoToks := x.also.filterMap fun j => match (p.drop j).head? with
      | some (_, _, some t, _) => some t.make.toNat
      | _ => none }

/-- The accumulator view that a group's class is judged by. -/
def groupAcc (x : Ctx) (l : List Repl) : Option Fmt :=
  firstSome (fun r => match lanternForm r.ins with
    | some (op, f, _) => if op = opMtrn || op = opMxmov || op = opMbld then none else some (x.accView f.fc.toNat).ty
    | none => none) l

def permBit : Fmt → Option Nat
  | .fp32 => some 0
  | .fp64 => some 1
  | .bf16 => some 2
  | .i32 => some 3
  | _ => none

/-- The class may be formed (R282). -/
def State.classEnabled (s : State) (c cls : Nat) (l : List Repl) : Bool :=
  let x := s.ctx c
  cls ≤ fld x.sprs.rwctl 1 2 && (cls < 3 || (match (groupAcc x l).bind permBit with
    | some b => (s.core (coreOf c)).rwperm.getLsbD b
    | none => false))

/-- What the decision gives. -/
inductive Decision where
  | alone
  | group (g : Group)
  | wait

/-- The first matching enabled rule, in ascending order (R272). -/
def State.firstRule (s : State) (c : Nat) (p : Pat) : List Nat → Decision
  | [] => .alone
  | r :: l =>
    let e := tgetD (s.core (coreOf c)).rules r 0
    if !ruleV e then s.firstRule c p l
    else match ruleCompose e with
      | none => s.firstRule c p l
      | some k => match s.matchesRule c e k p with
        | .no => s.firstRule c p l
        | .wait => .wait
        | .yes =>
          let rs := k.items.map (replOf p)
          if s.classEnabled c (ruleClass e) rs then
            match p.head?, (p.drop (ruleNp e - 1)).head? with
            | some (op, _, _, h), some (_, _, _, z) =>
              .group { rule := r, pos := h.pos, next := z.next, covers := ruleNp e, firstOp := op, repls := rs }
            | _, _ => .alone
          else s.firstRule c p l

/-- The decision for the head of a filled window. -/
def State.decision (s : State) (c : Nat) : Decision :=
  let x := s.ctx c
  if x.groupsAllowed then s.firstRule c (patternOf x.lantern.consumed x.lantern.win) (List.range 32) else .alone

/-- The matrix engine holds with the head of its window. -/
def State.holdHead (s : State) (c : Nat) (st : EngState) (h : Hold) : State :=
  match (s.ctx c).lantern.win.head? with
  | some e => s.waitOn c .m st h e.ins
  | none => s

/-- LANTERN_DECISION: the head of the window is decided (R271, R272). -/
def execLanternDecision (ctx : Nat) (s : State) : Host.Outcome State Fault Refusal :=
  let x := s.ctx ctx
  if x.unit.isNone || x.m.st == .joined || x.m.st == .stopped || x.lantern.alone || x.lantern.group.isSome then .next s
  else match s.window ctx with
    | .ok s1 =>
      if (s1.ctx ctx).lantern.win.isEmpty then .next s1
      else match s1.decision ctx with
        | .alone => .next ((s1.modCtx ctx fun y => { y with lantern := { y.lantern with alone := true } }))
        | .group g => .next (s1.modCtx ctx fun y => { y with lantern := { y.lantern with group := some g } })
        | .wait => .next (s1.holdHead ctx .syncBlocked .residency)
    | .far s1 _ => .next s1
    | .fault s1 _ => .next s1

/-! ## Issue of a group (R287, R288) -/

/-- The plan of a replacement. -/
def State.replPlan (s : State) (c : Nat) (fw : Fwd) (early : Bool) (r : Repl) : MRes :=
  let x := s.ctx c
  let t : State := { s with focus := c }
  let av (f : MF) : Word := tgetD x.captured.a f.fc.toNat 0
  let tv (n : BitVec 5) : Word := tgetD x.captured.t n.toNat tUnset
  match r.ins with
  | .mma f => t.mmaPlan fw early (mmaSpec x f r)
  | .mscl f => t.msclPlan fw early (av f) (f.mf.toNat / 4) (msclExp f) none
  | .msclReg f => t.msclPlan fw early (av f) (f.mf.toNat / 4) 0 (some (x.sr f.fa.toNat))
  | .mzero f => t.mzeroPlan early (av f)
  | .mtrn f => t.mtrnPlan fw early (tv f.fa) (tv f.fb) f.sa.toNat
  | .mxmov f => t.mxmovPlan fw early (tv f.fa) (tv f.fb) f.sa.toNat
  | .mwb f =>
    t.mwbPlan fw early (av f) (tv f.fb) (f.mf.toNat / 4) (f.mf.getLsbD 1) r.ea (x.factor r.factor) f.sa.toNat none fun _ u _ => u
  | .mwbMem f k =>
    if t.tokensReady c k then t.mwbMemPlan fw early r.ins f k r else .hold .waiting .other
  | .mbld f k =>
    if t.tokensReady c k && (r.alsoToks.all fun n => t.tokReady c n) then
      t.loadPlan fw early r.ins f k (tv f.fb) r.alsoToks
    else .hold .waiting .other
  | _ => .ready { occ := 0 }

/-- What a plan still has to land, as the next replacement meets it (R459). -/
def MPlan.forwards (p : MPlan) : Fwd :=
  let gs := p.writes.foldl (fun l q => unionNat l (gransOf q.1 q.2)) []
  let run : Fwd := match p.run with
    | some r => gs.map fun g => (g, (match r.kind with
      | .mwb => (tileOf r.dst).ty
      | _ => (accOf r.acc).ty), p.full)
    | none => []
  run ++ p.fixed.flatMap fun q => q.2.1.map fun y => (y.g, q.2.2, p.full)

/-- The state in which a second replacement's operands are read: the first one's results have landed, and a B that it loads
is resident. Only the plan is taken from it. -/
def State.afterFirst (s : State) (c : Nat) (p : MPlan) : State :=
  ((s.commitPlans c [p]).landAll c).modCore (coreOf c) fun k =>
    { k with resid := k.resid.map fun r => if r.ctx == c then { r with loading := none, ready := 0 } else r }

/-- The s register whose value is a replacement's factor. -/
def Repl.factorReg (r : Repl) : Option Nat :=
  match r.ins with
  | .msclReg f => some f.fa.toNat
  | _ => r.factor

/-- A plan whose factor is read at its own issue (R287). -/
def MPlan.late (p : MPlan) (r : Repl) : MPlan := { p with run := p.run.map fun m => { m with factorReg := r.factorReg } }

/-- The plans of a group, or the replacement that holds or faults. -/
inductive GroupRes where
  | ready (l : List MPlan)
  | hold (st : EngState) (h : Hold)
  | trap (s : State) (n : Nat) (r : Repl) (t : Trap)

def State.groupPlans (s : State) (c : Nat) (l : List Repl) : GroupRes :=
  let fw := (s.ctx c).forwarded
  match l with
  | [] => .ready []
  | r :: more => match s.replPlan c fw true r with
    | .trap t tr => .trap t 0 r tr
    | .hold st h => .hold st h
    | .ready p => match more with
      | [] => .ready [p]
      | q :: _ => match (s.afterFirst c p).replPlan c (fw ++ p.forwards) false q with
        | .trap _ tr => .trap s 1 q tr
        | .hold st h => .hold st h
        | .ready p2 => .ready [p, p2.late q]

/-- A trap of a group (R288). -/
def Trap.ofGroup (t : Trap) (s : State) (c : Nat) (g : Group) (n : Nat) (r : Repl) : Trap :=
  { t with
    eng := .m, pos := g.pos, op := g.firstOp, fn := 0, group := some g.rule, age := (s.eng c .m).age.getD s.cycle
    rop := r.ins.major, rfn := 2 ^ g.covers - 1 + 8 * n }

/-- What INJECT does to the replacements (R253, R256). -/
def groupPlant (w : Word) : Nat → List (Repl × MPlan) → Word × Option (Nat × Repl × Planted)
  | _, [] => (w, none)
  | n, (r, p) :: l =>
    match plant w r.ins p.chk with
    | .none => groupPlant w (n + 1) l
    | .skip => groupPlant (w - (1#64 <<< 16)) (n + 1) l
    | k => (w, some (n, r, k))

/-- The engine after a group; one without replacements takes no issue cycle. -/
def Eng.commitGroup (n : Eng) (now : Nat) (g : Group) : Eng :=
  match g.repls.getLast? with
  | some r => n.commit now g.next (r.ins.iss.extractLsb' 0 3).toNat false
  | none =>
    { n with
      st := if n.st = .joined || n.st = .stopped then n.st else .ready
      cur := g.next, age := none, hold := .none, held := none, candSince := none, resumed := false }

/-- The group has committed: the cursor passes its originals and RWLOG counts it (R286, R287). -/
def State.groupDone (s : State) (c : Nat) (g : Group) : State :=
  let s1 := s.modCtx c fun x =>
    { x.modEng .m fun n => n.commitGroup s.cycle g with
      lantern := { x.lantern with win := x.lantern.win.drop g.covers, group := none } }
  let s2 := s1.modCore (coreOf c) fun k =>
    { k with
      rwlog := tmod k.rwlog g.rule 0 fun n => min (n + 1) 0xFFFFFFFF
      busy := if g.repls.isEmpty then k.busy else tset k.busy 2 ((s1.eng c .m).lastEnd + 1) }
  let s3 := s2.switchAway c .m (g.repls.getLast?.any fun r => r.ins.iss.getLsbD 3)
  s3.settle c

/-- GROUP_ISSUE: the group decided at the head holds as a whole, traps as one, or issues (R287, R288). -/
def execGroupIssue (ctx : Nat) (s : State) : Host.Outcome State Fault Refusal :=
  let x := s.ctx ctx
  match x.lantern.group with
  | none => .next s
  | some g =>
    if x.unit.isNone || x.m.st == .joined || x.m.st == .stopped then .next s
    else match s.groupPlans ctx g.repls with
      | .hold st h => .next (s.holdHead ctx st h)
      | .trap t n r tr =>
        let tr1 := tr.ofGroup s ctx g n r
        .next (if tr1.code = tMcheck then t.machineCheck ctx tr1 false else t.raise ctx tr1)
      | .ready ps =>
        match groupPlant x.sprs.inject 0 (List.zip g.repls ps) with
        | (w, none) => .next (((s.commitPlans ctx ps).setInject ctx w).groupDone ctx g)
        | (w, some (_, _, .retried)) =>
          .next ((((s.commitPlans ctx ps).setInject ctx (disarm w)).countRetry (coreOf ctx)).groupDone ctx g)
        | (w, some (n, r, .failed l gr e a)) =>
          .next ((s.setInject ctx (disarm w)).machineCheck ctx
            (({ code := tMcheck, inj := true, lane := l, gran := gr, exp := e, act := a } : Trap).ofGroup s ctx g n r) false)
        | (_, some _) => .next (((s.commitPlans ctx ps)).groupDone ctx g)

/-! ## The matrix engine's turn -/

/-- What the matrix engine of a context issues next. -/
inductive MIssue where
  | run (s : State) (pos next : Pos) (i : Instr)
  | group (s : State)
  | wait (s : State)
  | far (s : State) (p : Pos)
  | fault (s : State) (t : Trap)

/-- The matrix engine issues the step of a nest, a group, or the head of its window alone (R269, R271, R477). -/
def State.issueM (s : State) (c : Nat) : MIssue :=
  let x := s.ctx c
  if (x.nest.any fun n => n.pos == x.m.cur) then .run s x.m.cur x.m.next .mnestStep
  else if x.lantern.group.isSome then .group s
  else match (if x.lantern.alone then Filled.ok s else s.window c) with
    | .far s1 p => .far s1 p
    | .fault s1 tr => .fault s1 tr
    | .ok s1 =>
      match (s1.ctx c).lantern.win.head? with
      | none => .far s1 x.m.cur
      | some h =>
        if (s1.ctx c).lantern.alone then .run s1 h.pos h.next h.ins
        else match s1.decision c with
          | .alone => .run (s1.modCtx c fun y => { y with lantern := { y.lantern with alone := true } }) h.pos h.next h.ins
          | .group g => .group (s1.modCtx c fun y => { y with lantern := { y.lantern with group := some g } })
          | .wait => .wait (s1.holdHead c .syncBlocked .residency)

end Sys2Proof.Machine
end

