-- ==== Sys2Proof/Machine/SysReg.lean ====
section
/-! DEFINITION. System registers (14_opcode_map.md R356, R357; 18_ref_r_t.md R524 to R527) and the registers' own rules:
R14, R15, R23, R40, R70, R99 to R101, R110, R183, R185, R200, R247, R250, R251, R255, R256, R267, R283 to R286. -/
namespace Sys2Proof.Machine

/-! ## Reading -/

/-- UNITID of the unit bound to a context (R40, R225). -/
def State.unitIdWord (s : State) (c : Nat) : Word :=
  match s.unitOf c with
  | some r => match s.launch? r.launch with
    | some l =>
      BitVec.ofNat 64 ((if l.versioned then 2 ^ 56 else 0) + (if l.mesh then 2 ^ 57 else 0) + l.prio * 2 ^ 48
        + r.j / (l.nx * l.ny) * 2 ^ 32 + r.j / l.nx % l.ny * 2 ^ 16 + r.j % l.nx)
    | none => 0
  | none => 0

/-- LAUNCHID: the handle of the running unit's launch, 0x3F00_0000 outside a unit (R23). -/
def State.launchIdWord (s : State) (c : Nat) : Word :=
  match s.unitOf c with
  | some r => handle 0 r.launch
  | none => 0x3F000000

/-- MESHPOS with the physical index of the die, which reads correctly from reset (R14). -/
def meshposWord (d : Nat) (w : Word) : Word := w &&& ~~~(0x3F#64 <<< 53) ||| (BitVec.ofNat 64 (d % 64) <<< 53)

def countOf (t : Tab Nat) (n : Nat) : Nat := tgetD t n 0

/-- BANKLOSS (R70). -/
def banklossWord (k : Core) : Word :=
  let n := if k.bankSel < 48 then countOf k.bankLoss k.bankSel else k.bankLoss.foldl (fun a p => a + p.2) 0
  BitVec.ofNat 64 (k.bankSel % 64 * 2 ^ 32 + min n 0xFFFFFFFF)

/-- RWLOG (R286). -/
def rwlogWord (k : Core) : Word := BitVec.ofNat 64 (k.rwlogSel % 32 * 2 ^ 32 + min (countOf k.rwlog k.rwlogSel) 0xFFFFFFFF)

/-- MCSTAT (R255). -/
def mcstatWord (k : Core) : Word := BitVec.ofNat 64 ((if k.fenced then 2 ^ 63 else 0) + k.retries % 2 ^ 32)

def TrapRec.word (t : TrapRec) (n : Nat) : Word :=
  match n with
  | 0 => t.w0 | 1 => t.w1 | 2 => t.w2 | 3 => t.w3 | 4 => t.w4 | 5 => t.w5 | _ => 0

/-- The value of a system register in a context (R356). -/
def State.sysreg (s : State) (c n : Nat) : Word :=
  let x := s.ctx c
  let k := s.core (coreOf c)
  let d := s.die (dieOfCtx c)
  match n with
  | 0x000 => BitVec.ofNat 64 s.cycle
  | 0x001 => s.unitIdWord c
  | 0x002 => s.launchIdWord c
  | 0x003 => meshposWord (dieOfCtx c) d.meshpos
  | 0x004 => d.meshshape
  | 0x008 => x.sprs.dphase
  | 0x009 => x.sprs.arstat
  | 0x00A => x.sprs.ordmask
  | 0x00B => x.sprs.prommiss
  | 0x00C => x.sprs.trapbase
  | 0x00D => x.sprs.trapctl
  | 0x00E => x.sprs.rwctl
  | 0x00F => x.sprs.rwsup
  | 0x010 => x.sprs.inject
  | 0x011 => x.sprs.displaced
  | 0x020 => banklossWord k
  | 0x021 => rwlogWord k
  | 0x022 => k.rwperm
  | 0x023 => mcstatWord k
  | 0x024 => k.ksig
  | 0x030 => d.tdtab
  | 0x031 => d.ptroot
  | _ => x.sprs.trapRec.word (n - 0x18)

/-- The lowest mode that may read a register (R525). -/
def readMode (n : Nat) : Mode := if n = 0x010 ∨ n = 0x011 ∨ (0x018 ≤ n ∧ n ≤ 0x01F) then .handler else .unit

/-- SYSR (R526): the value in the cycle of issue, written two cycles on. -/
def execSysr (f : CI) (s : State) : Host.Outcome State Fault Refusal :=
  let c := s.focus
  finish (.sysr f) s
    (if !(s.ctx c).atLeast (readMode f.imm.toNat) then .trap s (trapOf tPriv)
     else s.sHold [f.d.toNat] (.done (s.putS c f.d.toNat 2 (s.sysreg c f.imm.toNat))))

/-! ## Writing -/

/-- A write below its register's mode raises PRIV; a rejected value raises its fault; otherwise the register is written
(R526). -/
def sysWrite (i : Instr) (f : CI) (s : State) (m : Mode) (bad : Word → Option Nat) (set : State → Nat → Word → State) :
    Host.Outcome State Fault Refusal :=
  let c := s.focus
  let v := (s.ctx c).sr f.a.toNat
  finish i s
    (if !(s.ctx c).atLeast m then .trap s (trapOf tPriv)
     else s.sHold [f.a.toNat]
       (match bad v with
        | some code => .trap s (trapOf code)
        | none => .done (set s c v)))

def never (_ : Word) : Option Nat := none
def State.modSprs (s : State) (c : Nat) (f : Sprs → Sprs) : State := s.modCtx c fun x => { x with sprs := f x.sprs }

/-- Bits of a word under a mask of its non-reserved fields (R6). -/
def keep (mask : Nat) (v : Word) : Word := v &&& BitVec.ofNat 64 mask

/-- The fields that are not reserved of DPHASE, ARSTAT, ORDMASK, PROMMISS, a code pointer, TRAPCTL, RWCTL, RWSUP, INJECT,
DISPLACED, PTROOT, TDTAB and MESHSHAPE. -/
def mDphase : Nat := 0x1F
def mArstat : Nat := 0x3F3F
def mOrdmask : Nat := 0xFFFFFFFF
def mPrommiss : Nat := 0x00FF1F00FFFFFFFF
def mCode : Nat := 0x00FFFFFFFFFFFFE7
def mTrapctl : Nat := 0xF01
def mRwctl : Nat := 7
def mRwsup : Nat := 0x1FF
def mInject : Nat := 0xF8FFFFFFFFFF0007
def mDisplaced : Nat := 0x80000003FFFFFFFF
def mPtroot : Nat := 0x000FFFFFFFFE0001
def mTdtab : Nat := 0x1FFFFFFFFFFFFF80
def mMeshshape : Nat := 0x0000FFFFFFFFFFFF

/-- SYSW to a register without a row of its own: TDTAB, PTROOT, RWPERM; the words of TRAPREC that ignore writes; the
read-only registers, which raise PRIV in every mode (R525). -/
def execSysw (f : CI) (s : State) : Host.Outcome State Fault Refusal :=
  let n := f.imm.toNat
  if n = 0x030 then
    sysWrite (.sysw f) f s .management never fun t c v =>
      t.modDie (dieOfCtx c) fun d => { d with tdtab := keep mTdtab v }
  else if n = 0x031 then
    sysWrite (.sysw f) f s .management never fun t c v =>
      t.modDie (dieOfCtx c) fun d => { d with ptroot := keep mPtroot v }
  else if n = 0x022 then
    sysWrite (.sysw f) f s .management never fun t c v => t.modCore (coreOf c) fun k => { k with rwperm := keep 0xF v }
  else if 0x018 ≤ n ∧ n ≤ 0x01F then sysWrite (.sysw f) f s .handler never fun t _ _ => t
  else finish (.sysw f) s (.trap s (trapOf tPriv))

/-- Dies that the job holds: those of its modules that are in service. -/
def State.jobDies (s : State) : Nat := ((List.range s.dieCount).filter fun d => !(s.die d).out).length

/-- MESHSHAPE breaks R15. -/
def State.shapeBad (s : State) (v : Word) : Bool :=
  let x := fld v 0 12
  let y := fld v 12 12
  let z := fld v 24 12
  let w := fld v 36 12
  x == 0 || y == 0 || z == 0 || w == 0 || 64 < x * y * z || w % s.modules != 0 || 64 < x * y * z * (w / s.modules)
  || s.jobDies < x * y * z * w

def execWriteMeshshape (f : CI) (s : State) : Host.Outcome State Fault Refusal :=
  sysWrite (.writeMeshshape f) f s .management (fun v => if s.shapeBad v then some tMesh else none) fun t c v =>
    t.modDie (dieOfCtx c) fun d => { d with meshshape := keep mMeshshape v }

def posBad (shape v : Word) : Bool :=
  fld shape 0 12 ≤ fld v 0 12 || fld shape 12 12 ≤ fld v 12 12 || fld shape 24 12 ≤ fld v 24 12
  || fld shape 36 12 ≤ fld v 36 12

def execWriteMeshpos (f : CI) (s : State) : Host.Outcome State Fault Refusal :=
  sysWrite (.writeMeshpos f) f s .management
    (fun v => if posBad (s.die (dieOfCtx s.focus)).meshshape v then some tMesh else none) fun t c v =>
    t.modDie (dieOfCtx c) fun d => { d with meshpos := keep 0xF800FFFFFFFFFFFF v }

/-- WRITE_BANKLOSS (R70). -/
def execWriteBankloss (f : CI) (s : State) : Host.Outcome State Fault Refusal :=
  sysWrite (.writeBankloss f) f s .handler never fun t c v =>
    t.modCore (coreOf c) fun k =>
      { k with bankSel := fld v 32 6, bankLoss := if fld v 32 6 < 48 then tset k.bankLoss (fld v 32 6) 0 else k.bankLoss }

/-- WRITE_DPHASE (R99): the boundary of the vector engine at which it takes effect is left open; here it is the next one. -/
def execWriteDphase (f : CI) (s : State) : Host.Outcome State Fault Refusal :=
  sysWrite (.writeDphase f) f s .unit never fun t c v => t.modSprs c fun p => { p with dphase := keep mDphase v }

/-- WRITE_ARSTAT (R101): flags raised in the same cycle are ORed in after it. -/
def execWriteArstat (f : CI) (s : State) : Host.Outcome State Fault Refusal :=
  sysWrite (.writeArstat f) f s .unit never fun t c v => t.modCtx c fun x =>
    let w := orFlags (keep mArstat v) (if x.flagCycle = s.cycle then x.flagBits else 0)
    { x with sprs := { x.sprs with arstat := w } }

def execWriteOrdmask (f : CI) (s : State) : Host.Outcome State Fault Refusal :=
  sysWrite (.writeOrdmask f) f s .unit never fun t c v => t.modSprs c fun p => { p with ordmask := keep mOrdmask v }

def execWritePrommiss (f : CI) (s : State) : Host.Outcome State Fault Refusal :=
  sysWrite (.writePrommiss f) f s .unit never fun t c v =>
    t.modSprs c fun p => { p with prommiss := keep mPrommiss v }

/-- WRITE_TRAPBASE (R247). -/
def execWriteTrapbase (f : CI) (s : State) : Host.Outcome State Fault Refusal :=
  sysWrite (.writeTrapbase f) f s .unit (fun v => if fld v 5 51 != 0 && fld v 0 3 == 0 then some tTable else none)
    fun t c v => (t.modSprs c fun p => { p with trapbase := keep mCode v }).modCtx c Ctx.dropUnraised

/-- WRITE_TRAPCTL (R251): the bits written hold for later instructions, so that the SYSW itself is stepped as the bits before
it say (R526, R268). -/
def execWriteTrapctl (f : CI) (s : State) : Host.Outcome State Fault Refusal :=
  let c := s.focus
  let i : Instr := .writeTrapctl f
  let v := (s.ctx c).sr f.a.toNat
  let put (t : State) : State :=
    if (t.ctx c).unit == (s.ctx c).unit then t.modSprs c fun p => { p with trapctl := keep mTrapctl v } else t
  finish i s (s.sHold [f.a.toNat] (.gone (put (s.retire i (s.eng c .c).next))))

/-- A flush point of the Lantern (R274). -/
def State.flushLantern (s : State) (c : Nat) : State := s.modCtx c fun x => { x with lantern := { x.lantern with flush := true } }

def execWriteRwctl (f : CI) (s : State) : Host.Outcome State Fault Refusal :=
  sysWrite (.writeRwctl f) f s .unit never fun t c v => (t.modSprs c fun p => { p with rwctl := keep mRwctl v }).flushLantern c

def execWriteRwsup (f : CI) (s : State) : Host.Outcome State Fault Refusal :=
  sysWrite (.writeRwsup f) f s .unit never fun t c v => (t.modSprs c fun p => { p with rwsup := keep mRwsup v }).flushLantern c

/-- WRITE_RWLOG (R286). -/
def execWriteRwlog (f : CI) (s : State) : Host.Outcome State Fault Refusal :=
  sysWrite (.writeRwlog f) f s .handler never fun t c v =>
    t.modCore (coreOf c) fun k => { k with rwlogSel := fld v 32 5, rwlog := tset k.rwlog (fld v 32 5) 0 }

/-- An armed value with an invalid field (R256). -/
def injectBad (v : Word) : Bool :=
  v.getLsbD 63 && (fld v 61 2 == 3 || fld v 59 2 == 0 || fld v 59 2 == 3 || fld v 0 3 == 0 || fld v 0 3 == 7)

def execWriteInject (f : CI) (s : State) : Host.Outcome State Fault Refusal :=
  sysWrite (.writeInject f) f s .handler (fun v => if injectBad v then some tTable else none) fun t c v =>
    t.modSprs c fun p => { p with inject := keep mInject v }

/-- WRITE_MCSTAT (R255): FENCED = 0 returns the core to service. -/
def execWriteMcstat (f : CI) (s : State) : Host.Outcome State Fault Refusal :=
  sysWrite (.writeMcstat f) f s .management never fun t c v =>
    t.modCore (coreOf c) fun k => { k with fenced := v.getLsbD 63, retries := fld v 0 32 }

/-- WRITE_TRAPREC_WORD1: the resume point of ERET (R250). -/
def execWriteTraprecWord1 (f : CI) (s : State) : Host.Outcome State Fault Refusal :=
  sysWrite (.writeTraprecWord1 f) f s .handler never fun t c v =>
    t.modSprs c fun p => { p with trapRec := { p.trapRec with w1 := keep mCode v } }

def execWriteDisplaced (f : CI) (s : State) : Host.Outcome State Fault Refusal :=
  sysWrite (.writeDisplaced f) f s .handler never fun t c v =>
    t.modSprs c fun p => { p with displaced := keep mDisplaced v }

end Sys2Proof.Machine
end

