-- ==== Sys2Proof/Machine/Save.lean ====
section
/-! DEFINITION. Saving and resuming a context (10_faults.md R222, R254, R263 to R265; 13_encoding.md R319). What the layout of
R264 leaves open stands in logs 21 and 22. -/
namespace Sys2Proof.Machine

/-! ## When a save may be made (R222, R263) -/

/-- An asynchronous operation that writes registers, the register space or the macros: it is drained. -/
def toRegisters (o : Op) : Bool :=
  match o.ins with
  | .ycopy _ _ | .yfill _ _ | .ygath _ _ | .yfpr _ _ | .ycmp _ _ => yIsReg o.v1
  | .rsplan _ _ _ => yIsReg o.v2
  | .xatom _ _ _ => yIsReg o.v3
  | .mbld _ _ | .mkat _ _ | .dtld _ _ => true
  | _ => false

/-- The save waits for the operation: every access but the writes of copies to memory and the rows of sinks, so the reads of
copies too, XSTF, XATOM and the pieces of a matched collective (R222, R263). A parked request stays with the context. -/
def saveHolds (o : Op) : Bool :=
  o.parked.isNone && match o.kind with
    | .async => toRegisters o || (o.reads && !o.sampled) || o.coll.any (fun k => k.matched && !k.lost)
      || (match o.ins with
        | .xstf _ _ | .xatom _ _ _ => true
        | _ => false)
    | .port => false
    | _ => true

/-- Copies of a unit that is to be saved read their sources, where they may (R201, R222). -/
def State.readNow (s : State) (u : Nat) : State :=
  s.ops.foldl (fun t (n, o) => if o.unit == u then t.sampleOp n else t) s

def State.saveReady (s : State) (c area : Nat) : Bool :=
  let x := s.ctx c
  x.unit.isSome && (x.saving.isSome || s.job.stopping) && area % 4096 == 0 && (s.die (dieOfCtx c)).fwNext.isNone
  && s.levelOf area != .none && s.levelOf (area + 0x2D000 + 4096 * x.foot - 1) != .none
  && x.matrixMayStop && allEngines.all (fun e => (x.eng e).lastEnd ≤ s.cycle)
  && !((s.readNow (s.unitNo c)).ops.any fun (_, o) => o.unit == s.unitNo c && saveHolds o)

/-! ## The layout (R264) -/

/-- A piece of the save area: its offset and its bytes. -/
abbrev Piece := Nat × List Byte

def w8 (off : Nat) (w : Word) : Piece := (off, bytesOfNat 8 w.toNat)

/-- Words of a sparse table at consecutive places. -/
def tabWords (off : Nat) (t : Tab Word) : List Piece := t.map fun (k, w) => w8 (off + 8 * k) w

/-- STATE of the cursor word (R319). -/
def engState : EngState → Nat
  | .joined => 0
  | .ready => 1
  | .syncBlocked => 2
  | .waiting => 3
  | .stopped => 4

def cursorWord (n : Eng) (p : Pos) : Word := p.word ||| BitVec.ofNat 64 (engState n.st * 2 ^ 61)

/-- Codes of the pending-trap region, in its order. -/
def savedCodes : List Nat := [tMesh, tTranslate, tFabric, tMcheck, tDeadlock, tPromise, tCancel]

def pendingOf (l : List Trap) (code : Nat) : Option Trap := l.find? fun t => t.code == code

def flagBit (b : Bool) (n : Nat) : Nat := if b then 2 ^ n else 0

def headerPieces (s : State) (c : Nat) (x : Ctx) (macros : Bool) : List Piece :=
  let version := match s.unitOf c with
    | some r => r.version.getD 0
    | none => 0
  [(0, bytesOfNat 8 (x.foot % 256 * 2 ^ 56 + flagBit (s.versioned c) 48 + flagBit x.inHandler 49 + flagBit macros 50
      + flagBit (pendingOf x.pend tPromise).isSome 51 + flagBit (pendingOf x.pend tCancel).isSome 52 + version % 4096)),
   w8 8 (cursorWord x.c (s.cursorAt c .c x.c)), w8 16 (cursorWord x.v (s.cursorAt c .v x.v)),
   w8 24 (cursorWord x.m (s.cursorAt c .m x.m)), w8 32 (cursorWord x.y (s.cursorAt c .y x.y)), w8 40 x.depth]

def recPieces (off : Nat) (r : TrapRec) : List Piece :=
  [w8 off r.w0, w8 (off + 8) r.w1, w8 (off + 16) r.w2, w8 (off + 24) r.w3, w8 (off + 32) r.w4, w8 (off + 40) r.w5]

def sprPieces (g : Sprs) : List Piece :=
  [w8 0x100 g.dphase, w8 0x108 g.arstat, w8 0x110 g.ordmask, w8 0x118 g.prommiss, w8 0x120 g.trapbase, w8 0x128 g.trapctl,
   w8 0x130 g.inject, w8 0x138 g.displaced, w8 0x140 g.rwctl, w8 0x148 g.rwsup] ++ recPieces 0x150 g.trapRec

/-- A token: the completion flag in bytes 0 to 3, the promise in bytes 4 to 11, the scope in bytes 12 to 15 (log 22). -/
def tokenPiece (k : Nat) (t : Token) : Piece :=
  (0x700 + 16 * k, bytesOfNat 4 (if t.done then 1 else 0) ++ bytesOfNat 8 t.promise ++ bytesOfNat 4 t.scope)

def regPieces (x : Ctx) : List Piece :=
  tabWords 0x200 x.regs.s ++ tabWords 0x400 x.regs.b ++ ((List.range 32).map fun k => w8 (0x500 + 8 * k) (tgetD x.views.t k tUnset)) ++ tabWords 0x600 x.views.a
  ++ [w8 0x680 x.views.vt] ++ ((List.range 32).map fun k => tokenPiece k (x.tok k))
  ++ (x.regs.sm.map fun (k, w) => (0x900 + 64 * k, bytesOfNat 64 w.toNat))
  ++ (x.regs.h.map fun (k, w) => w8 (0xB00 + 8 * (k - 56)) w)
  ++ ((List.range 16).map fun k => (0x2800 + 512 * k, bytesOfNat 512 (x.mr k).toNat))

/-- A port: its record, then the walk step of the first undelivered row, the rows pushed, the generation and the reserved
FIFO bytes, eight bytes each (log 22). -/
def portPiece (k : Nat) (p : Port) : Piece :=
  (0xC00 + 192 * k, bytesOfNat 128 p.record.toNat ++ bytesOfNat 8 p.at_.step ++ bytesOfNat 8 p.pushes ++ bytesOfNat 8 p.gen
    ++ bytesOfNat 8 p.fifo)

def granPieces (t : Tab Gran) : List Piece :=
  t.flatMap fun (g, v) => [(0x2D000 + 256 * g, bytesOfNat 256 v.bytes.toNat), (0x1800 + g, bytesOfNat 1 v.tag.code)]

def fullPiece (t : Tab Gran) : Piece :=
  (0x2400, bytesOfNat 384 (t.foldl (fun n (g, v) => if v.full then n + 2 ^ g else n) 0))

/-- A shadow of the nest table, with the progress of a stopped MNEST at bytes 112 to 127 (R479). -/
def shadowPiece (x : Ctx) (k : Nat) : Piece :=
  let w := if k = 0 then x.shadow0 else x.shadow1
  let prog := match x.nest with
    | some n => if n.shadow == k then (n.idx.map (bytesOfNat 2)).flatten ++ bytesOfNat 4 (flagBit n.val 31) else []
    | none => []
  let bs := bytesOfNat 256 w.toNat
  (0x2600 + 256 * k, if prog.isEmpty then bs else bs.take 112 ++ prog ++ bs.drop 128)

/-- The 16-bit slots of a residency: element by element, low half first (log 22). -/
def residSlots (r : Resid) : List Nat :=
  r.elems.flatMap fun v => (List.range (slotsOf r.fmt)).map fun k => wrapOf (16 * slotsOf r.fmt) v / 2 ^ (16 * k) % 2 ^ 16

def slotPieces (r : Resid) : List Piece :=
  let l := residSlots r
  [(0x6800 + 2 * r.slot, (l.map (bytesOfNat 2)).flatten)]

/-- The residues of every slot (R252), 24 bits for eight slots. -/
def residuePieces (l : List Resid) : List Piece :=
  let t := l.foldl (fun (a : Tab Nat) r =>
    (List.zip (rangeFrom r.slot (residSlots r).length) (residSlots r)).foldl (fun a p =>
      tmod a (p.1 / 8) 0 fun n => n + residue7 p.2 * 2 ^ (3 * (p.1 % 8))) a) []
  t.map fun (k, v) => (0x26800 + 3 * k, bytesOfNat 3 v)

/-- A residency record. -/
def residPiece (route : Option Nat) (r : Resid) : Piece :=
  (0x2C800 + 16 * r.tile, bytesOfNat 16 (1 + flagBit r.pass 1 + flagBit (route == some r.tile) 2 + r.fmt.code * 2 ^ 3
    + r.rows % 2 ^ 11 * 2 ^ 8 + r.cols % 2 ^ 13 * 2 ^ 19 + r.slot % 2 ^ 16 * 2 ^ 32))

/-- The routing matrix of a context: its latest residency in pass mode (R461). -/
def routeTile (l : List Resid) : Option Nat := ((l.filter Resid.pass).getLast?).map Resid.tile

def pendingPieces (c : Nat) (l : List Trap) : List Piece :=
  let bits := savedCodes.foldl (fun n k => if (pendingOf l k).isSome then n + 2 ^ k else n) 0
  (0x2CA00, bytesOfNat 8 bits) :: (List.zip (List.range 7) savedCodes).flatMap fun p =>
    match pendingOf l p.2 with
    | some t => recPieces (0x2CA40 + 64 * p.1) (trapRecord c t)
    | none => []

/-- Everything that a save writes over zeros. -/
def State.savePieces (s : State) (c : Nat) (x : Ctx) : List Piece :=
  let all := (s.core (coreOf c)).resid
  let mine := all.filter fun r => r.ctx == c
  headerPieces s c x (!mine.isEmpty) ++ sprPieces x.sprs ++ regPieces x ++ x.ports.map (fun (k, p) => portPiece k p)
  ++ [fullPiece x.gran, shadowPiece x 0, shadowPiece x 1]
  ++ (List.range 8192).map (fun k => (0x4800 + k, [Config.blobByte (s.freshN + k)]))
  ++ (if mine.isEmpty then [] else all.flatMap slotPieces ++ residuePieces all ++ mine.map (residPiece (routeTile mine)))
  ++ pendingPieces c x.pend ++ granPieces x.gran

def State.writePieces (s : State) (area : Nat) (l : List Piece) : State :=
  l.foldl (fun t p => t.writePhys (area + p.1) p.2) s

/-! ## CONTEXT_SAVE -/

/-- A source port keeps its walk position of the first undelivered row; a sink is kept as it stands (R263). -/
def Port.rewind (p : Port) : Port :=
  match p.rows with
  | r :: _ => { p with at_ := r.mark, rows := [] }
  | [] => p

/-- CONTEXT_SAVE: the context is written to its area and released; its unit is Ready with its age, and keeps its version id.
The last save of a STOP holds the job. -/
def execContextSave (ctx : Nat) (area : Nat) (s : State) : Host.Outcome State Fault Refusal :=
  if !s.saveReady ctx area then .next s
  else
    let s1 := ((s.readNow (s.unitNo ctx)).landAll ctx).leaveGangs ctx
    let x0 := s1.ctx ctx
    let u := s1.unitNo ctx
    let x := { x0 with
      lantern := { consumed := [] }
      ports := x0.ports.map fun (k, p) => (k, if p.isSink then p else p.rewind) }
    let s2 := (s1.zeroRange area (0x2D000 + 4096 * x.foot)).writePieces area (s1.savePieces ctx x)
    let k := coreOf ctx
    let mine := (s2.core k).resid.filter fun r => r.ctx == ctx
    let s3 := s2.modCore k fun y => { y with resid := y.resid.filter fun r => r.ctx != ctx }
    let s4 := s3.modUnit u fun r =>
      { r with
        st := .ready, ctx := none, saved := some area, savedRest := some x, savedResid := mine, savedDone := [], savedPieces := [], savedFlags := 0, savedPend := []
        savedPorts := x.ports.filter fun p => p.2.isSink
        die := if s.inMesh u then r.die else dieOfCtx ctx
        inPool := false, ahead := true }
    let s5 := s4.fillPool (((s4.unit? u).map UnitRec.die).getD 0)
    .next ({ s5 with freshN := s5.freshN + 8192 }.setCtx ctx {}).stopCheck

/-! ## RESUME (R265) -/

def rdWord (mem : List Host.Cell) (a : Nat) : Word := memWord mem a

/-- Words at consecutive places as a table, those that differ from the value that an unlisted key reads. -/
def wordsTab (mem : List Host.Cell) (a first n : Nat) (d : Word) : Tab Word :=
  (rangeFrom first n).filterMap fun k =>
    let w := rdWord mem (a + 8 * (k - first))
    if w = d then none else some (k, w)

def natAt (mem : List Host.Cell) (a n : Nat) : Nat := natOfBytes (memBytes mem a n)

/-- TRAPREC from a record; its reserved bits read 0 (R6, R250). -/
def readRec (mem : List Host.Cell) (a : Nat) : TrapRec where
  w0 := keep 0xFFFFFF1F0000FFC0 (rdWord mem a)
  w1 := keep mCode (rdWord mem (a + 8))
  w2 := keep 0x80FFFFFFFFFFFFFF (rdWord mem (a + 16))
  w3 := keep 0xFCFE0FFF0FFF0077 (rdWord mem (a + 24))
  w4 := rdWord mem (a + 32)
  w5 := keep 0xFFC0 (rdWord mem (a + 40))

/-- The special registers; their reserved bits read 0 (R6). -/
def readSprs (mem : List Host.Cell) (a : Nat) : Sprs where
  dphase := keep mDphase (rdWord mem (a + 0x100))
  arstat := keep mArstat (rdWord mem (a + 0x108))
  ordmask := keep mOrdmask (rdWord mem (a + 0x110))
  prommiss := keep mPrommiss (rdWord mem (a + 0x118))
  trapbase := keep mCode (rdWord mem (a + 0x120))
  trapctl := keep mTrapctl (rdWord mem (a + 0x128))
  inject := keep mInject (rdWord mem (a + 0x130))
  displaced := keep mDisplaced (rdWord mem (a + 0x138))
  rwctl := keep mRwctl (rdWord mem (a + 0x140))
  rwsup := keep mRwsup (rdWord mem (a + 0x148))
  trapRec := readRec mem (a + 0x150)

/-- A token as saved, with what the model keeps beside it: a recorded completion is applied, and an incomplete token whose
promise has passed has its promise set to 0 (R263, R265). -/
def readToken (mem : List Host.Cell) (a now : Nat) (done : List Nat) (k : Nat) (t : Token) : Token :=
  let b := a + 0x700 + 16 * k
  let fin := natAt mem b 4 % 2 == 1 || done.contains k
  let p := natAt mem (b + 4) 8
  { t with done := fin, promise := if !fin && p < now then 0 else p, scope := natAt mem (b + 12) 4 % 8 }

def readTokens (mem : List Host.Cell) (a now : Nat) (done : List Nat) (x : Ctx) : Tab Token :=
  (rangeFrom 1 31).map fun k => (k, readToken mem a now done k (x.tok k))

def readWide (mem : List Host.Cell) (a n bytes : Nat) : Tab Nat :=
  (List.range n).filterMap fun k =>
    let v := natAt mem (a + bytes * k) bytes
    if v = 0 then none else some (k, v)

def readRegs (mem : List Host.Cell) (a now : Nat) (done : List Nat) (x : Ctx) : Regs where
  s := (wordsTab mem (a + 0x200) 0 64 0).filter fun p => p.1 != 0
  h := wordsTab mem (a + 0xB00) 56 8 0
  b := wordsTab mem (a + 0x400) 0 16 0
  m := (readWide mem (a + 0x2800) 16 512).filterMap fun p => if p.1 = 0 then none else some (p.1, BitVec.ofNat 4096 p.2)
  k := readTokens mem a now done x
  sm := (readWide mem (a + 0x900) 8 64).map fun p => (p.1, BitVec.ofNat 512 p.2)

def readViews (mem : List Host.Cell) (a : Nat) : Views where
  t := wordsTab mem (a + 0x500) 0 32 tUnset
  a := wordsTab mem (a + 0x600) 0 16 0
  vt := rdWord mem (a + 0x680)

/-- The granules of a saved footprint: each listed byte of the rows in its place, with the tags and full bits. -/
def readGrans (mem : List Host.Cell) (a foot : Nat) : Tab Gran :=
  let rows := (mem.filter fun q => a + 0x2D000 ≤ q.1 && q.1 < a + 0x2D000 + 4096 * foot).foldl (fun (t : Tab Nat) q =>
    let off := q.1 - (a + 0x2D000)
    tmod t (off / 256) 0 fun n => n + q.2.toNat * 2 ^ (8 * (off % 256))) []
  let full := natAt mem (a + 0x2400) 384
  (List.range (16 * foot)).filterMap fun g =>
    let tag := (fmtOf (natAt mem (a + 0x1800 + g) 1 % 32)).getD .raw
    let v := tgetD rows g 0
    let f := full.testBit g
    if v = 0 && tag == .raw && !f then none else some (g, { bytes := BitVec.ofNat 2048 v, tag := tag, full := f, wasFull := f })

/-- A source port resumes at its saved walk position; a sink as its rows have gone on meanwhile. -/
def readPort (mem : List Host.Cell) (a : Nat) (sinks : Tab Port) (k : Nat) (p : Port) : Port :=
  let b := a + 0xC00 + 192 * k
  let q := (tget sinks k).getD p
  { q with
    record := BitVec.ofNat 1024 (natAt mem b 128), gen := natAt mem (b + 144) 8, fifo := natAt mem (b + 152) 8
    pushes := natAt mem (b + 136) 8, at_ := { q.at_ with step := natAt mem (b + 128) 8 } }

/-- The engine from its cursor word: what it held is decoded again and waits again (R319). -/
def readEng (mem : List Host.Cell) (a now : Nat) (n : Eng) : Eng :=
  let w := rdWord mem a
  { n with
    st := match fld w 61 3 with
      | 0 => .joined
      | 4 => .stopped
      | _ => .ready
    cur := posOfWord w, lines := [], age := none, hold := .none, held := none, gapEnd := now + 1, candSince := none, lastEnd := 0 }

def readNest (mem : List Host.Cell) (a : Nat) (n : Nest) : Nest :=
  let b := a + 0x2600 + 256 * n.shadow + 112
  { n with idx := (List.range 6).map fun k => natAt mem (b + 2 * k) 2, val := (natAt mem (b + 12) 4).testBit 31 }

/-- The first untaken fault of each code has its record from the area (R265). -/
def readPending (mem : List Host.Cell) (a : Nat) (l : List Trap) : List Trap :=
  (List.zip (List.range 7) savedCodes).foldl (fun r p =>
    match pendingOf r p.2 with
    | some t => r.replace t { t with saved := some (readRec mem (a + 0x2CA40 + 64 * p.1)) }
    | none => r) l

/-- A shadow; the progress of the nest that runs over it is the nest's. -/
def readShadow (mem : List Host.Cell) (a : Nat) (x : Ctx) (k : Nat) : BitVec 2048 :=
  let w : BitVec 2048 := BitVec.ofNat 2048 (natAt mem (a + 0x2600 + 256 * k) 256)
  if x.nest.any fun n => n.shadow == k then clearProgress w else w

/-- The context restored from its area, on a footprint base (R265). -/
def State.restored (s : State) (a u base : Nat) (r : UnitRec) (x : Ctx) : Ctx :=
  let m := s.mem
  let hdr := rdWord m a
  let y := { x with
    unit := some u, base := base, foot := fld hdr 56 8, depth := rdWord m (a + 40)
    mode := if hdr.getLsbD 49 then .handler else .unit
    regs := readRegs m a s.cycle r.savedDone x, sprs := readSprs m a, views := readViews m a, gran := readGrans m a (fld hdr 56 8)
    ports := x.ports.map fun (k, p) => (k, readPort m a r.savedPorts k p)
    c := readEng m (a + 8) s.cycle x.c, v := readEng m (a + 16) s.cycle x.v, m := readEng m (a + 24) s.cycle x.m
    y := readEng m (a + 32) s.cycle x.y
    shadow0 := readShadow m a x 0, shadow1 := readShadow m a x 1, nest := x.nest.map (readNest m a)
    pend := readPending m a (x.pend ++ r.savedPend) }
  { (r.savedPieces.foldl (fun z p => z.modTok p.1 fun t => { t with pieces := p.2 }) y).raiseFlags s.cycle r.savedFlags with
    saving := none, deadSince := none, lantern := { consumed := [] }, lands := [], mats := [] }

/-- Elements of a residency from its saved slots. -/
def readElems16 (mem : List Host.Cell) (a : Nat) (r : Resid) : List Int :=
  let w := slotsOf r.fmt
  (List.range (r.rows * r.cols)).map fun k =>
    let v := natAt mem (a + 0x6800 + 2 * (r.slot + k * w)) (2 * w)
    if r.fmt == .ob8 || r.fmt == .ob4 then sgnOf 16 v else (v : Int)

/-- The saved residue of a slot (R264). -/
def savedResidue (mem : List Host.Cell) (a slot : Nat) : Nat := natAt mem (a + 0x26800 + 3 * (slot / 8)) 3 / 2 ^ (3 * (slot % 8)) % 8

/-- The first of some slots whose saved residue is not that of its saved value (R252). -/
def slotUpset (mem : List Host.Cell) (a : Nat) (slots : List Nat) : Option (Nat × Nat) :=
  firstSome (fun k =>
    let e := savedResidue mem a k
    let r := residue7 (natAt mem (a + 0x6800 + 2 * k) 2)
    if e = r then none else some (e, r)) slots

/-- A recorded residency: its shape and slot from the record (R264, R461). -/
def readResid (mem : List Host.Cell) (a c : Nat) (r : Resid) : Option Resid :=
  let w := natAt mem (a + 0x2C800 + 16 * r.tile) 16
  if w % 2 = 0 then none
  else
    let q : Resid := { r with
      ctx := c, pass := w.testBit 1, fmt := (fmtOf (bitsOf w 3 5)).getD r.fmt, rows := bitsOf w 8 11, cols := bitsOf w 19 13
      slot := bitsOf w 32 16, loading := none }
    some { q with elems := readElems16 mem a q, upset := slotUpset mem a (rangeFrom q.slot q.slots) }

def residsMeet (a b : Resid) : Bool := a.slot < b.slot + b.slots && b.slot < a.slot + a.slots

/-- The residencies return to their slots; those of other contexts that overlap are dropped; the routing matrix is the one
its record flags (R461). -/
def State.placeResids (s : State) (k : Nat) (route : Option Nat) (l : List Resid) : State :=
  let l1 := (l.filter fun r => route != some r.tile) ++ l.filter fun r => route == some r.tile
  s.modCore k fun x =>
    { x with
      resid := (x.resid.filter fun r => !l1.any (residsMeet r))
        ++ (List.zip (List.range l1.length) l1).map fun (j, r) => { r with order := x.residNext + j }
      residNext := x.residNext + l1.length }

/-- Work in flight of a unit follows it to its new context. -/
def State.followUnit (s : State) (u c : Nat) : State :=
  let t : State := { s with ops := s.ops.map fun (n, o) => (n, if o.unit == u then { o with ctx := c, core := coreOf c } else o) }
  t.modJob fun j =>
    { j with
      effects := j.effects.map fun (n, f) => (n, if f.unit == u && !f.committed then { f with ctx := c } else f)
      contributions := j.contributions.map fun (n, f) => (n, if f.unit == u && !f.atCommit then { f with ctx := c } else f)
      arrivals := j.arrivals.map fun (n, f) => (n, if f.unit == u then { f with ctx := c } else f) }

def State.resumeReady (s : State) (u : Nat) : Bool :=
  match s.unit? u, s.placeFor u with
  | some r, some (c, _) => r.saved.isSome && r.savedRest.isSome && s.placedFirst u r c
  | _, _ => false

/-- RESUME: the saved unit is bound, its area restored and the recorded completions applied before any engine issues. -/
def execResume (unit : Nat) (s : State) : Host.Outcome State Fault Refusal :=
  if !s.resumeReady unit then .next s
  else match s.unit? unit, s.placeFor unit with
    | some r, some (c, b) =>
      match s.launch? r.launch, r.saved, r.savedRest with
      | some l, some a, some x =>
        let s1 := (((s.loseTo unit r c).takePlace unit c l).setCtx c (s.restored a unit b r x)).followUnit unit c
        let macros := (rdWord s.mem a).getLsbD 50
        let flagged := r.savedResid.find? fun q => (natAt s.mem (a + 0x2C800 + 16 * q.tile) 16).testBit 2
        let s2 := if macros then
            s1.placeResids (coreOf c) (flagged.map Resid.tile) (r.savedResid.filterMap (readResid s.mem a c))
          else s1
        .next ((s2.modUnit unit fun q =>
          { q with saved := none, savedRest := none, savedResid := [], savedPend := [], savedPorts := [], savedDone := [], savedPieces := [], savedFlags := 0 }).fillPool
            r.die)
      | _, _, _ => .next s
    | _, _ => .next s

end Sys2Proof.Machine
end

