-- ==== Sys2Proof/Machine/System.lean ====
section
/-! DEFINITION. The host and the module's firmware: links (12_system.md R291 to R296), the job window (R297 to R300),
attestation (R301 to R303), service and debug (R304, R305), refresh (R306, R307). Readings of this chapter stand in
log 34. -/
namespace Sys2Proof.Machine

/-! ## Errors and commands (R298) -/

/-- ERR is set; vector 1 signals it, and the log records it. -/
def State.setErr (s : State) (code : Nat) : State :=
  ((s.modHost fun h => { h with err := code }).logEntry (.err code)).msi 1

/-- Every die is parked (R305). -/
def State.asleep (s : State) : Bool := (List.range s.dieCount).all fun d => (s.die d).out

/-- The power state of a die (R305). -/
def State.power (s : State) (d : Nat) : Power :=
  if s.asleep then .sleep else if (s.die d).out then .parked else if s.boundOn d then .active else .idle

/-- START leaves module-sleep: every die with verified firmware and a route runs again. -/
def State.wake (s : State) : State :=
  if s.asleep then
    { s with dies := s.dies.map fun (d, x) => (d, { x with out := !(x.fwOk && s.routed d) }) }
  else s

/-- START: the image is to be checked, or the stopped job goes on. -/
def execStart (s : State) : Host.Outcome State Fault Refusal :=
  match s.job.st with
  | .idle | .done | .faulted | .aborted =>
    .next { s.wake with job := { st := .loading, unitNext := s.job.unitNext } }
  | .stopped => .next (s.modJob fun j => { j with st := .running })
  | .loading | .running => .next (s.setErr 3)

/-- The save of every context is requested (R263). -/
def State.saveAll (s : State) : State :=
  { s with ctxs := s.ctxs.map fun (c, x) => (c, if x.unit.isSome then { x with saving := some 0 } else x) }

/-- STOP: the job is held once every context is saved. -/
def execStop (s : State) : Host.Outcome State Fault Refusal :=
  match s.job.st with
  | .running => .next ((s.saveAll.modJob fun j => { j with stopping := true }).stopCheck)
  | _ => .next (s.setErr 3)

/-- Every unit is removed or stopped as by CANCEL, without its handler. -/
def State.abortUnits (s : State) : State :=
  let s1 := (s.job.units.map Prod.fst).foldl (fun t u => t.removeUnit u) s
  (s1.ctxs.filterMap fun (c, x) => if x.unit.isSome then some c else none).foldl (fun t c => t.endStream c .cancelled) s1

/-- ABORT ends the job. -/
def execAbort (s : State) : Host.Outcome State Fault Refusal :=
  match s.job.st with
  | .running | .stopped => .next (s.abortUnits.jobEnd .aborted)
  | _ => .next (s.setErr 3)

/-- JWINVAL: the range is to be invalidated; one that runs past the virtual space sets ERR to 4 (R300). -/
def execJwinval (v : Word) (s : State) : Host.Outcome State Fault Refusal :=
  let base := fld v 18 38 * 2 ^ 18
  let len := fld v 0 18 * 2 ^ 18
  match s.job.st with
  | .running | .stopped =>
    if 2 ^ 56 < base + len then .next (s.setErr 4)
    else .next (s.modHost fun h => { h with inval := h.inval ++ [(base, len)] })
  | _ => .next s

/-- HOST_REGISTER_WRITE: a write of a job-window register (R297). -/
def execHostRegisterWrite (off : Nat) (v : Word) (s : State) : Host.Outcome State Fault Refusal :=
  if off = 0x008 then .next (s.modHost fun h => { h with jwimage := keep 0x000FFFFFFFFFF000 v })
  else if off = 0x010 then
    match fld v 0 3 with
    | 0 => .next s
    | 1 => execStart s
    | 2 => execStop s
    | 4 => execAbort s
    | _ => .next (s.setErr 3)
  else if off = 0x028 then .next (s.modHost fun h => { h with jwaper := keep 0x000FFFF000000000 v })
  else if off = 0x030 then execJwinval v s
  else .next s

def jobCode : JobState → Nat
  | .idle => 0
  | .loading => 1
  | .running => 2
  | .stopped => 3
  | .done => 4
  | .faulted => 5
  | .aborted => 6

/-- A part of the module is out of service. -/
def State.reduced (s : State) : Bool :=
  (s.dies.any fun (_, d) => d.out || !d.stacksOut.isEmpty || !d.channelsOut.isEmpty) || !(failedLinks s).isEmpty

def State.jwstat (s : State) : Word :=
  BitVec.ofNat 64 (s.host.err % 2 ^ 16 * 2 ^ 32 + flagBit (!s.host.inval.isEmpty) 26 + flagBit s.reduced 25
    + flagBit s.host.degraded 24 + jobCode s.job.st)

def jwid : Word := BitVec.ofNat 64 (0x484A * 2 ^ 32 + 0x0064 * 2 ^ 16 + Config.siliconRevision.toNat)

/-- What a host read of a job-window register returns (R297). -/
def State.jwRead (s : State) (off : Nat) : Word :=
  match off with
  | 0x000 => jwid
  | 0x008 => s.host.jwimage
  | 0x018 => s.jwstat
  | 0x020 => s.job.ctr.word
  | 0x028 => s.host.jwaper
  | _ => 0

/-! ## Invalidation (R300) -/

def TlbEnt.inRange (t : TlbEnt) (r : Nat × Nat) : Bool := t.base < r.1 + r.2 && r.1 < t.base + 2 ^ t.bits

def dropRanges (rs : List (Nat × Nat)) (l : List TlbEnt) : List TlbEnt := l.filter fun t => !rs.any t.inRange

def State.invalReady (s : State) : Bool := !s.host.inval.isEmpty && s.dies.all fun (_, d) => d.fwNext.isNone

/-- INVALIDATION_COMPLETE: no TLB keeps an entry of the ranges, and INVB clears. It waits while a die's management services
pause (R303). -/
def execInvalidationComplete (s : State) : Host.Outcome State Fault Refusal :=
  if s.invalReady then
    let rs := s.host.inval
    let s1 : State := { s with
      cores := s.cores.map fun (k, x) => (k, { x with tlb := dropRanges rs x.tlb })
      dies := s.dies.map fun (d, x) => (d, { x with tlb := dropRanges rs x.tlb, seen := dropRanges rs x.seen }) }
    .next (s1.modHost fun h => { h with inval := [] })
  else .next s

/-! ## The image (R299) -/

/-- The header of a job image. -/
structure Header where
  magic : Nat
  size : Nat
  mesh : Word
  tdtab : Word
  ptroot : Word
  rwperm : Word
  entry : Nat
  rules : Word
  cal : Nat
  reservedZero : Bool
  deriving DecidableEq, Repr

def readHeader (mem : List Host.Cell) (a : Nat) : Header :=
  let w (off : Nat) : Word := memWord mem (a + off)
  { magic := (w 0).toNat, size := (w 8).toNat, mesh := w 16, tdtab := w 24, ptroot := w 32, rwperm := w 40
    entry := (w 48).toNat, rules := w 56, cal := (w 64).toNat
    reservedZero := fld (w 56) 56 2 == 0 && (memBytes mem (a + 72) 56).all (· == 0) }

def Header.shapeOk (h : Header) : Bool :=
  h.magic == 0x4E47414A4F420001 && 4096 ≤ h.size && h.size ≤ 2 ^ 36 && h.reservedZero

/-- The dies of a mesh (R12). -/
def shapeDies (shape : Word) : Nat := fld shape 0 12 * fld shape 12 12 * fld shape 24 12 * fld shape 36 12

/-- The mesh dies: of each module those in service, in rising order, one for each rank (R12, R13; log 34). -/
def State.assign (s : State) (shape : Word) : List Nat :=
  (List.range s.modules).flatMap fun m =>
    (((List.range Config.dies).map fun d => m * 64 + d).filter fun d => !(s.die d).out).take (shapeDies shape / s.modules)

/-- The coordinates of a rank (R13). -/
def posOf (shape : Word) (r : Nat) : Word :=
  let x := fld shape 0 12
  let y := fld shape 12 12
  let z := fld shape 24 12
  BitVec.ofNat 64 (r % x + r / x % y * 2 ^ 12 + r / (x * y) % z * 2 ^ 24 + r / (x * y * z) * 2 ^ 36)

/-- The registers that the management firmware writes on every die at job start (R14, R110, R185, R300); no translation of an
earlier job remains, and code is fetched as it stands now (R218). On a die outside the job's mesh MESHSHAPE reads the job's shape
and the coordinates in MESHPOS read 0 (DESIGN CHOICE: R14 does not say; log 40). -/
def State.loadDies (s : State) (h : Header) (ds : List Nat) : State :=
  (List.range s.dieCount).foldl (fun t d =>
    let r := ds.findIdx (· == d)
    t.modDie d fun x => { x with
      meshshape := keep mMeshshape h.mesh, tdtab := keep mTdtab h.tdtab, ptroot := keep mPtroot h.ptroot
      placed := r < ds.length
      meshpos := (if r < ds.length then posOf h.mesh r else 0) ||| (BitVec.ofNat 64 (moduleOf d) <<< 59)
      calendar := [], tlb := [], walks := [], seen := [], pins := [], reserved := [] })
    { s with
      undo := [], codeBase := s.seqNext, codeSeen := []
      cores := s.cores.map fun (k, x) => (k, { x with tlb := [] }) }

/-- What a core holds at job start (R80, R275, R284, R286, R456). -/
def Core.start (k : Core) (perm : Word) (rules : Tab (BitVec 128)) : Core :=
  { k with rwperm := keep 0xF perm, rules := rules, rwlog := [], ksig := 0, tlb := [], icache := [], snaps := [] }

/-- The cores of the job's dies take the rule image and RWPERM; other cores hold neither. -/
def State.loadCores (s : State) (perm : Word) (rules : Tab (BitVec 128)) (ds : List Nat) : State :=
  let old := s.cores.map fun (k, x) => (k, x.start 0 [])
  if perm = 0 && rules.isEmpty then { s with cores := old }
  else
    let mine (k : Nat) : Bool := ds.contains (dieOf k)
    { s with cores := (List.range (s.dieCount * 128)).filterMap fun k =>
        let x := (s.core k).start (if mine k then perm else 0) (if mine k then rules else [])
        if x == {} then none else some (k, x) }

/-- No barrier object and no gang remains, and every way group is cache again (R168). -/
def State.clearClusters (s : State) : State :=
  { s with clusters := s.clusters.map fun (g, x) => (g, { x with bars := [], gangs := [], ways := [] }) }

/-- Bytes of the job's virtual space, as a core of the first mesh die reads them. -/
def State.readVa (s : State) (core va n : Nat) : Option (List Byte) :=
  match s.range core .read va n with
  | .ok segs => if (s.poisonIn segs).isSome then none else some (bytesOfSegs s.mem segs)
  | .error _ => none

/-- The rule image: its entries; none where one of them fails R278. -/
def State.readRules (s : State) (core : Nat) (w : Word) : Option (Tab (BitVec 128)) :=
  let n := fld w 58 6
  if n = 0 then some []
  else if 32 < n then none
  else match s.readVa core (fld w 0 56) (16 * n) with
    | some bs =>
      let l := (List.range n).map fun k => (k, imageRule bs 0 k)
      if l.all fun p => ruleValid p.2 then some l else none
    | none => none

/-- A slot table is valid (R173). -/
def tableOk (t : List Byte) : Bool :=
  t.all (fun b => b.toNat ≤ 0x81 || b.toNat == 0xFF) && t.contains 0x80 && t.contains 0x81

/-- A channel's table is loaded, or the channel is taken out of service (R173, R304). -/
def State.loadTable (s : State) (d ch : Nat) (t : List Byte) : State :=
  if tableOk t then s.modDie d fun x => { x with calendar := tset x.calendar ch t }
  else if (s.die d).channelsOut.contains ch then s
  else (s.modDie d fun x => { x with channelsOut := insertNew x.channelsOut ch }).reducedBy (.channel d ch)

def State.loadCalendars (s : State) (bs : List Byte) : List Nat → State
  | [] => s
  | d :: l =>
    ((List.range 128).foldl (fun t ch => t.loadTable d ch ((bs.drop (64 * ch)).take 64)) s).loadCalendars (bs.drop 8192) l

/-- The image is rejected (R298). -/
def State.reject (s : State) (code : Nat) : State := (s.modJob fun j => { j with st := .idle }).setErr code

/-- The entry launch: launch 0 of graph 0, which is sealed (R21, R23). -/
def State.createEntry (s : State) (die : Nat) (r : BitVec 1024) : State :=
  let (s1, n) := s.takeIndex
  let s2 := s1.createLaunch n die r (recWord r 8) []
  s2.modJob fun j => { (j.seal false).1 with st := .running }

def manyUnits (r : BitVec 1024) : Bool := fld (recWord r 64) 0 48 != 0

/-- A valid image is loaded, and the job runs. What ERR 1 names is checked before what ERR 2 names (R299; log 34). -/
def State.loadImage (s : State) (h : Header) : State :=
  if !h.shapeOk then s.reject 1
  else
    let ds := s.assign h.mesh
    let d := ds.headD 0
    let core := d * 128
    let s1 := s.loadDies h ds
    match s1.readVa core h.entry 128 with
    | none => s.reject 1
    | some bs =>
      let r := recordOf bs
      if recBad r || manyUnits r || h.entry % 64 != 0 then s.reject 1
      else if s.shapeBad h.mesh || ds.length < shapeDies h.mesh then s.reject 2
      else match s1.readRules core h.rules with
        | none => s.reject 2
        | some rules =>
          let s2 := (s1.loadCores h.rwperm rules ds).clearClusters
          let s3 := s2.modJob fun j => { j with image := Config.digest (memBytes s.mem s.host.jwimage.toNat h.size) }
          if h.cal = 0 then s3.createEntry d r
          else match s1.readVa core h.cal (8192 * ds.length) with
            | some t => (s3.loadCalendars t ds).createEntry d r
            | none => s.reject 1

/-- IMAGE_CHECK: the management firmware finishes checking and loading the image. -/
def execImageCheck (s : State) : Host.Outcome State Fault Refusal :=
  if s.job.st == .loading then .next (s.loadImage (readHeader s.mem s.host.jwimage.toNat)) else .next s

/-! ## BAR2 (R297, R305) -/

def State.backed (s : State) (pa n : Nat) : Bool :=
  (List.range (n / 4096 + 1)).all (fun k => s.levelOf (pa + 4096 * k) != .none) && s.levelOf (pa + n - 1) != .none

/-- The bytes lie in a context's save area. -/
def State.inSaveArea (s : State) (pa n : Nat) : Bool :=
  s.job.units.any fun (_, r) => match r.saved, s.launch? r.launch with
    | some a, some l => pa < a + 0x2D000 + 4096 * l.foot && a < pa + n
    | _, _ => false

/-- HOST_BAR2_ACCESS: the host reads or writes module memory at SYS scope, in one instant. Without debug access save areas
are closed to it. -/
def execHostBar2Access (write : Bool) (off : Nat) (data : List Byte) (s : State) : Host.Outcome State Fault Refusal :=
  let pa := s.host.jwaper.toNat + off
  let n := data.length
  if n = 0 || 2 ^ 36 < off + n then .next s
  else if s.backed pa n && (s.host.debug != .locked || !s.inSaveArea pa n) then
    .next (if write then s.writePhys pa data else s.modHost fun h => { h with readData := memBytes s.mem pa n })
  else if write then .next s
  else
    let (k, s1) := s.fresh
    .next (s1.modHost fun h => { h with readData := bytesOfNat n (Config.freeWord k).toNat })

/-! ## Boot, firmware and attestation (R301 to R303) -/

/-- The posture becomes degraded: vector 2 signals it (R298). -/
def State.degrade (s : State) : State :=
  if s.host.degraded then s else ((s.modHost fun h => { h with degraded := true }).logEntry (.posture true)).msi 2

/-- POWER_ON: the module starts from reset; the trusted firmware and each die's management firmware are verified. A die whose
firmware fails stays parked. Keys and posture survive, and so does memory outside the module (log 16). -/
def execPowerOn (trustedOk : Bool) (diesOk : BitVec 64) (s : State) : Host.Outcome State Fault Refusal :=
  let ok (d : Nat) : Bool := trustedOk && diesOk.getLsbD (d % 64)
  let s1 : State := { State.reset with
    agenda := s.agenda, modules := s.modules, mem := s.mem.filter fun q => inSysAperture q.1
    host := { trustedOk := trustedOk, degraded := s.host.degraded, keyPresent := s.host.keyPresent }
    dies := (List.range s.dieCount).map fun d =>
      (d, { fwOk := ok d, out := !ok d, fwImage := if ok d then (s.die d).fwImage else 0 }) }
  .next (if (List.range Config.dies).all ok then s1 else s1.degrade)

/-- Cycles that the management services of a die pause at most: 50 ms (R303, R16). -/
def pauseCycles : Nat := 120000000

/-- The fault-log copies that waited for the new image are made (R249, R303). -/
def State.copyFaults (s : State) (d : Nat) : State :=
  (s.die d).flogWait.foldl (fun t r => t.logFault d r) (s.modDie d fun x => { x with flogWait := [] })

/-- FIRMWARE_REPLACE: the services of the die pause while the image is verified; a second one ends the pause, and the image
that was verified runs. -/
def execFirmwareReplace (die : Nat) (image : Nat) (ok : Bool) (s : State) : Host.Outcome State Fault Refusal :=
  match (s.die die).fwNext with
  | some (im, good, _) => .next ((s.modDie die fun d => { d with fwNext := none, fwImage := if good then im else d.fwImage }).copyFaults die)
  | none =>
    if s.dieCount ≤ die || (s.die die).out then .next s
    else .next (s.modDie die fun d => { d with fwNext := some (image, ok, s.cycle) })

/-- DEBUG_MODE_CHANGE: a signed request changes the mode; vendor-debug erases the attestation key and degrades the posture
(R305). -/
def execDebugModeChange (mode : DebugMode) (signedOk : Bool) (s : State) : Host.Outcome State Fault Refusal :=
  if !signedOk then .next s
  else
    let s1 := s.modHost fun h => { h with debug := mode }
    .next (match mode with
      | .vendorDebug => (s1.modHost fun h => { h with keyPresent := false }).degrade
      | .locked | .userDebug => s1)

def debugCode : DebugMode → Nat
  | .locked => 0
  | .userDebug => 1
  | .vendorDebug => 2

def digestBytes (d : BitVec 256) : List Byte := bytesOfNat 32 d.toNat

/-- What a quote is a digest of (R302), in the order of its list. -/
def State.quoteMessage (s : State) (nonce : BitVec 256) : List Byte :=
  digestBytes nonce ++ bytesOfNat 8 jwid.toNat ++ digestBytes Config.trustedDigest
  ++ (List.range Config.dies).flatMap (fun d => digestBytes (Config.digest (bytesOfNat 65536 (s.die d).fwImage)))
  ++ digestBytes s.job.image ++ [if s.host.degraded then 1 else 0, BitVec.ofNat 8 (debugCode s.host.debug)]

/-- QUOTE: the digest, signed; unsigned in degraded posture or without a key (R302). -/
def execQuote (nonce : BitVec 256) (s : State) : Host.Outcome State Fault Refusal :=
  let d := Config.digest (s.quoteMessage nonce)
  let q : Quote := { digest := d, signature := if s.host.degraded || !s.host.keyPresent then none else some (Config.quoteSignature d) }
  .next (s.modHost fun h => { h with quotes := h.quotes ++ [q] })

/-- KEY_PROVISIONING: the keys are provisioned again; the posture is verified (R301). -/
def execKeyProvisioning (s : State) : Host.Outcome State Fault Refusal :=
  let s1 := s.modHost fun h => { h with keyPresent := true, degraded := false }
  .next (if s.host.degraded then (s1.logEntry (.posture false)).msi 2 else s1)

/-! ## Links (R291 to R296) -/

def State.link (s : State) (l : Nat) : Link := tgetD s.links l {}
def State.setLink (s : State) (l : Nat) (k : Link) : State := { s with links := tset s.links l k }

/-- The header is valid: a channel of 0 to 5, and reserved bits of zero (R291). -/
def flitValid (header : Word) : Bool := fld header 61 3 < 6 && fld header 0 33 == 0

/-- Flits in the receive buffer that hold a credit of the pool. -/
def Link.poolSpent (k : Link) : Nat := k.held.countP fun p => p.1.getLsbD 60
/-- Flits in the receive buffer that hold a reserve credit of a channel. -/
def Link.reserveSpent (k : Link) (vc : Nat) : Nat := k.held.countP fun p => !p.1.getLsbD 60 && fld p.1 61 3 == vc

/-- The credit that a flit names is free (R292). -/
def Link.credit (k : Link) (header : Word) : Bool :=
  if header.getLsbD 60 then k.poolSpent < k.pool else k.reserveSpent (fld header 61 3) < nth k.reserve (fld header 61 3) 0

/-- FLIT_RECEIVE: an invalid flit is counted and discarded; the flit next in sequence enters the buffer, where the credit that it
spent is free, without which none is sent (R292); any other is discarded, as a duplicate or as one that a replay will bring
again (R293). -/
def execFlitReceive (link : Nat) (header : Word) (payload : BitVec 512) (s : State) : Host.Outcome State Fault Refusal :=
  let k := s.link link
  if k.st == .failed then .next s
  else if !flitValid header then .next (s.setLink link { k with errors := k.errors + 1 })
  else if fld header 48 12 = k.seq.toNat && k.credit header then
    .next (s.setLink link { k with seq := k.seq + 1, held := k.held ++ [(header, payload)] })
  else .next s

/-- The oldest buffered flit of a channel is delivered, and its credit returned: flits of one channel are delivered in order
(R292, R293). -/
def Link.deliverOf (k : Link) (vc : Nat) : Link :=
  match k.held.find? fun p => fld p.1 61 3 == vc with
  | some p => { k with held := k.held.erase p, received := k.received ++ [p] }
  | none => k

/-- Every buffered flit is delivered (R295). -/
def Link.deliverAll (k : Link) : Link := { k with held := [], received := k.received ++ k.held }

def State.freeFlit (s : State) (link vc : Nat) : State := s.setLink link ((s.link link).deliverOf vc)

/-- Links deliver what their buffers hold. -/
def State.freeFlits (s : State) : State := { s with links := s.links.map fun (l, k) => (l, k.deliverAll) }

/-- Usable capacity in flits (R294). -/
def Link.capacity (k : Link) : Nat := 4 * k.good

/-- The order in which a restricted link gives out flits: response, flag/atomic, flagged data, management, request, collective
(R295). -/
def giveOrder : List Nat := [1, 3, 2, 5, 0, 4]

/-- The reserves of a restricted link with capacity c, by channel (R295). -/
def restrictedReserves (c : Nat) : List Nat :=
  (List.range 6).map fun v => 2 + (c - 12) / 6 + (if giveOrder.findIdx (· == v) < (c - 12) % 6 then 1 else 0)

/-- The buffer allotment of a link for its capacity; a link that was restricted stays so, and what its buffer holds when the
allotment is made anew is delivered first (R294, R295). -/
def Link.allot (k : Link) : Link :=
  if k.capacity < 12 then { k with st := .failed, reserve := [0, 0, 0, 0, 0, 0], pool := 0 }
  else if k.capacity < 76 || k.st == .restricted then
    { k.deliverAll with st := .restricted, reserve := restrictedReserves k.capacity, pool := 0 }
  else { k.deliverAll with reserve := [2, 2, 2, 2, 2, 2], pool := min 256 (k.capacity - 12) }

/-- The groups of plans that run, by the operation that leads each. -/
def State.runningPlans (s : State) : List (List Nat) :=
  s.ops.filterMap fun (n, o) => match o.coll with
    | some k => if k.matched && !k.lost && k.group.head? == some n then some k.group else none
    | none => none

/-- A participant of a plan whose piece was lost takes FABRIC: the step and the die's counter are recorded (R155), the last step
where the die has finished. One whose unit is saved takes it at its resume (R263); one whose unit has ended takes nothing, and its
unit ends faulted. -/
def State.fabricOp (s : State) (n : Nat) : State :=
  match s.op? n with
  | some o => match o.coll with
    | some k =>
      let t : Trap := { code := tFabric, eng := o.eng, async := true, op := o.ins.major, fn := o.ins.fnField, token := o.tok
                        detailB := k.counter, detailA := min k.step (k.plan.steps.length - 1), opId := some n }
      let s1 := s.setOp n { o with coll := some { k with lost := true, matched := false } }
      if s.opLive o then s1.deliver o.ctx t
      else if (s.unit? o.unit).any fun r => r.saved.isSome then
        s1.modUnit o.unit fun q => { q with savedPend := q.savedPend ++ [{ t with async := true }] }
      else (s.delOp n).modUnit o.unit fun q => { q with ending := if q.ending = .done then .faulted else q.ending }
    | none => s
  | none => s

/-- A link that fails may have carried a piece of each plan that runs: which one, the specification leaves open (log 34). -/
def State.loseFlits (s : State) (group : List Nat) : State :=
  let (n, s1) := s.fresh
  if Config.choice n then group.foldl State.fabricOp s1 else s1

/-- A drain of a die begins: its contexts are to be saved (R263, R304). -/
def State.beginDrain (s : State) (d : Nat) : State :=
  if (s.die d).out || (s.die d).draining then s
  else
    let s1 : State := { s with ctxs := s.ctxs.map fun (c, x) =>
      (c, if x.unit.isSome && dieOfCtx c == d then { x with saving := some 0 } else x) }
    (s1.modDie d fun x => { x with draining := true }).drainCheck

/-- What follows when a link has come to its failed state (R296, R298). -/
def State.linkFailed (s : State) (l : Nat) : State :=
  let s1 := (s.runningPlans.foldl State.loseFlits ((s.logEntry (.linkState l .failed)).msi 2))
  (List.range s.dieCount).foldl (fun t d => if s.routed d then t else t.beginDrain d) s1

/-- A link fails. -/
def State.failLink (s : State) (l : Nat) : State :=
  let k := s.link l
  if k.st == .failed then s
  else (s.setLink l { k with st := .failed, reserve := [0, 0, 0, 0, 0, 0], pool := 0 }).linkFailed l

/-- LINK_FAILURE (R294, R296). -/
def execLinkFailure (link : Nat) (s : State) : Host.Outcome State Fault Refusal := .next (s.failLink link)

/-- BUFFER_BANK_RETIRE: the spare replaces the bank while one remains; the link's state follows its capacity (R294). -/
def execBufferBankRetire (link : Nat) (s : State) : Host.Outcome State Fault Refusal :=
  let k := s.link link
  if k.st == .failed then .next s
  else if k.spare then .next (s.setLink link { k with spare := false })
  else
    let k1 := ({ k with good := k.good - 1 } : Link).allot
    let s1 := s.setLink link k1
    .next (if k1.st == k.st then s1
      else if k1.st == .failed then s1.linkFailed link
      else (s1.logEntry (.linkState link k1.st)).msi 2)

/-- LINK_LANE_LOSS: at least half of the lanes train; the link runs on at reduced bandwidth (R294). -/
def execLinkLaneLoss (link lanes : Nat) (s : State) : Host.Outcome State Fault Refusal :=
  let k := s.link link
  if k.st == .failed then .next s else .next (s.setLink link { k with lanesLost := k.lanesLost + lanes })

/-- LINK_REINITIALISATION: a restricted link with a capacity of at least 76 is normal again (R295). -/
def execLinkReinitialisation (link : Nat) (s : State) : Host.Outcome State Fault Refusal :=
  let k := s.link link
  if k.st == .restricted && 76 ≤ k.capacity then .next (s.setLink link ({ k with st := .normal } : Link).allot) else .next s

/-! ## Service (R304) -/

/-- The die belongs to the mesh of a job that runs or is stopped. -/
def State.inJobMesh (s : State) (d : Nat) : Bool :=
  (s.job.st == .running || s.job.st == .stopped) && s.meshDies.contains d

/-- DRAIN: a part is taken out of service. -/
def execDrain (part : ServicePart) (s : State) : Host.Outcome State Fault Refusal :=
  match part with
  | .die d =>
    if s.dieCount ≤ d || (s.inJobMesh d && s.job.st != .stopped && s.routed d) then .next s
    else .next (s.beginDrain d)
  | .stack d k =>
    if 4 ≤ k || (s.die d).stacksOut.contains k then .next s
    else .next ((s.modDie d fun x => { x with stacksOut := x.stacksOut ++ [k] }).reducedBy part)
  | .channel d c =>
    if 128 ≤ c || (s.die d).channelsOut.contains c then .next s
    else .next ((s.modDie d fun x => { x with channelsOut := x.channelsOut ++ [c] }).reducedBy part)
  | .link l => if (s.link l).st == .failed then .next s else .next ((s.failLink l).reducedBy part)

/-! ## Refresh (R306, R307) -/

def tREFI : Nat := 9360

def State.refreshOf (s : State) (d k : Nat) : Refresh := tgetD (s.die d).refresh k {}
def State.setRefresh (s : State) (d k : Nat) (r : Refresh) : State :=
  s.modDie d fun x => { x with refresh := tset x.refresh k r }

/-- HEARTBEAT: OWED is 0 to 8; one that arrives after takeover is logged and ignored. -/
def execHeartbeat (die stack : Nat) (owed : Nat) (s : State) : Host.Outcome State Fault Refusal :=
  let r := s.refreshOf die stack
  if 4 ≤ stack || 8 < owed then .next s
  else if r.takenOver then .next (s.logEntry (.lateHeartbeat die stack))
  else .next (s.setRefresh die stack { r with lastBeat := s.cycle, owed := owed, missed := 0 })

/-- The requests bound to a slot taken in a rotation move one rotation, with code 1 (R307, R178). -/
def State.takeSlot (s : State) (d ch m : Nat) : State :=
  let owner := s.slotOwner d ch (m % 64)
  if owner < 128 then
    s.moveReqs 1 (s.reqTotal * 64 + 64) ((s.boundTo (d * 128 + owner) ch [m] (0, 0)).map fun (n, j) => (n, j, 1))
  else s

/-- The slots that the catch-up of a channel takes, rotation by rotation. -/
def State.catchUp (s : State) (d : Nat) (r : Refresh) (ch : Nat) : State :=
  (List.range (s.takenRotations d ch r)).foldl (fun t i => t.takeSlot d ch (r.firstMc + 64 * i + s.takenSlot d ch)) s

def State.beatMissed (s : State) (r : Refresh) : Bool := !r.takenOver && r.lastBeat + tREFI * (r.missed + 1) ≤ s.cycle

/-- HEARTBEAT_MISSED: with the second one missed the controller takes ownership, and clears N = OWED + 2 obligations. -/
def execHeartbeatMissed (die stack : Nat) (s : State) : Host.Outcome State Fault Refusal :=
  let r := s.refreshOf die stack
  if 4 ≤ stack || !s.beatMissed r then .next s
  else if r.missed = 0 then .next (s.setRefresh die stack { r with missed := 1 })
  else
    let r1 : Refresh := { r with missed := r.missed + 1, takenOver := true, takeover := s.cycle }
    .next ((List.range 32).foldl (fun t k => t.catchUp die r1 (32 * stack + k)) (s.setRefresh die stack r1))

/-- BASE_DIE_REINITIALISATION: ownership of the refresh returns to the base die (R307). -/
def execBaseDieReinitialisation (die stack : Nat) (s : State) : Host.Outcome State Fault Refusal :=
  if 4 ≤ stack then .next s
  else .next (s.setRefresh die stack { lastBeat := s.cycle })

end Sys2Proof.Machine
end

