-- ==== Sys2Proof/Machine/VecMem.lean ====
section
/-! DEFINITION. Memory accesses of the vector engine: VLD, VST, VLDX, VSTX, and the completion of long-latency producers
(19_ref_v.md R561 to R565, 02_execution.md R45). -/
namespace Sys2Proof.Machine

/-- The tag named by the C field. -/
def VX.tag (f : VX) : Fmt := (fmtOf (VOp.num f.c)).getD .raw

/-- VLD (R562): 64 entries without a promise; the destination's code applies at issue and at completion. -/
def execVld (f : VX) (s : State) : Host.Outcome State Fault Refusal :=
  let c := s.focus
  let core := coreOf c
  let x := s.ctx c
  let row := VOp.num f.d
  let gs := rowGrans row
  let sy := f.syd.toNat
  let va := (VOp.scalar f.a x).toNat
  let i : Instr := .vld f
  finish i s
    (if x.foot ≤ row then .trap s (trapOf tView)
     else if s.writeWaits c sy gs then .wait s .syncBlocked .bits
     else match s.writeEmpty c sy gs with
       | some g => .trap s (trapGran tEmpty g)
       | none =>
         match s.access core va 4096 256 .read (fun _ => false) with
         | .error t => .trap s t
         | .miss l => s.walkFor core l
         | .ok segs =>
           if Config.freeEntries < s.freeUsed core + 64 then .wait s .waiting .entries
           else
             let (s0, reqs, ok) := ((s.trimBound core).fillRange core segs).bindSegs
               { core := core, unit := s.unitNo c, promised := false } s.cycle segs
             let s1 := s0.markEmpty c sy gs
             let o : Op := { s1.newOp .v i .vload with
               reads := true, va := va, segs := segs, grans := gs, tag := VX.tag f, reqs := reqs, limit := limitOf ok reqs 2
               entries := 64, fwd := s1.forwards (s.unitNo c) (s.cycle + 1) segs }
             .done ((s1.launchOp o none).1.occupy c .v 4))

/-- Issues the store of a vector instruction whose pieces and bytes are given; its requests bind slots (R175). -/
def State.vecStore (s : State) (i : Instr) (va : Nat) (segs : List Seg) (data : List Byte) (lanes : List Nat) :
    State × Option Nat :=
  let (keep, hurt) := s.dropPoisoned segs data
  let core := coreOf s.focus
  let (s1, reqs, ok) := (s.trimBound core).bindSegs { core := core, unit := s.unitNo s.focus, promised := false, rd := false }
    s.cycle (keep.map Prod.fst)
  let o : Op := { s1.newOp .v i .vstore with
    writes := true, va := va, segs := keep.map Prod.fst, data := (keep.map Prod.snd).foldr (· ++ ·) [], lanes := lanes
    reqs := reqs, limit := limitOf ok reqs 0, entries := s.takeEntries core (segsLen (keep.map Prod.fst) / 64 + 1) }
  if keep.isEmpty then (s, hurt) else ((s1.launchOp o none).1, hurt)

/-- The end of a vector store: a poisoned block delivers MCHECK at the next boundary. -/
def vecStoreEnd (i : Instr) (s t : State) (hurt : Option Nat) : Host.Outcome State Fault Refusal :=
  match hurt with
  | none => finish i s (.done t)
  | some b =>
    let c := s.focus
    .next ((t.retire i (s.eng c .v).next).machineCheck c
      { (trapPoison b).of s i with async := true, pos := (s.eng c .v).next } false)

/-- The bytes of a row value. -/
def VVal.bytes (v : VVal) : List Byte :=
  match v with
  | .row gs => (gs.map fun g => bytesOfNat 256 g.1.toNat).foldr (· ++ ·) []
  | .all _ => []

/-- A vector instruction that reads rows and stores: its checks, and the values of its rows. -/
def vecStoreIssue (i : Instr) (s : State) (srcs : List VSrc) (k : List VVal → Reach (Nat × List Seg × List Byte × List Nat)) :
    Host.Outcome State Fault Refusal :=
  let c := s.focus
  let core := coreOf c
  let x := s.ctx c
  if srcs.any (fun v => v.badView x) then finish i s (.trap s (trapOf tView))
  else if s.vecWaits c srcs [] [] then finish i s (.wait s .syncBlocked .bits)
  else
    let rd := s.vread c 4 srcs
    let vals := (List.zip (List.range srcs.length) srcs).map fun (m, v) => s.vvalue c rd m v none
    match s.vecData c srcs [] [] vals with
    | some t => finish i s (.trap s t)
    | none =>
      match k vals with
      | .error t => finish i s (.trap s t)
      | .miss l => finish i s (s.walkFor core l)
      | .ok (va, segs, data, lanes) =>
        if s.entriesFull core then finish i s (.wait s .waiting .entries)
        else
          let s1 := ((srcs.foldl (fun t v => t.addHist c .v (s.handoffs c v.sync v.rowGrans)) s).bankCommit c rd.arb).fillRange core segs
          let (s2, hurt) := s1.vecStore i va segs data lanes
          vecStoreEnd i s ((s2.vecConsume c rd 0 srcs).occupy c .v (4 + rd.arb.delay)) hurt

/-- VST (R562). -/
def execVst (f : VX) (s : State) : Host.Outcome State Fault Refusal :=
  let c := s.focus
  let va := (VOp.scalar f.a (s.ctx c)).toNat
  vecStoreIssue (.vst f) s [.raw f.d f.syd] fun vals =>
    match s.access (coreOf c) va 4096 256 .write (fun sys => sys && s.versioned c) with
    | .error t => .error t
    | .miss l => .miss l
    | .ok segs => .ok (va, segs, (nth vals 0 (.all 0)).bytes, [])

/-! ## Gathers and scatters (R563) -/

/-- An index row's granules carry I32 or N32. -/
def idxTag (t : Fmt) : Bool := t == .i32 || t == .n32

/-- The lane's address: the index is signed for an I32 tag. -/
def laneAddr (base : Nat) (e : Nat) (w : VVal) (idx : Nat) (l : Nat) : Nat :=
  let v : Int := if w.tagAt .n32 (l / 64) == .i32 then sgnOf 32 idx else (idx : Int)
  (((base : Int) + v * e) % (2 ^ 64 : Nat)).toNat

/-- The addresses of the enabled lanes below n. -/
def laneAddrs (base e n : Nat) (w : VVal) (mask : List Bool) : List (Nat × Nat) :=
  ((List.zip (List.range n) (List.zip (mask.take n) (w.lanes 32 n))).filter fun p => p.2.1).map
    fun p => (p.1, laneAddr base e w p.2.2 p.1)

/-- The pieces of the enabled lanes, after ORDER, ALIGN and TRANSLATE (R246, R564). -/
def State.lanePieces (s : State) (core e : Nat) (n : Need) (order : Bool) (l : List (Nat × Nat)) : Reach (List Seg) :=
  if order && l.any (fun p => s.isSys core p.2) then .error (trapOf tOrder)
  else match l.find? fun p => p.2 % e != 0 with
    | some p => .error (trapAt tAlign p.2)
    | none =>
      let pages := s.toWalk core (l.map fun p => (p.2, e))
      if !pages.isEmpty then .miss pages
      else l.foldr (fun p acc =>
        match s.range core n p.2 e with
        | .error (cause, a) => .error (trapXlate cause a)
        | .ok segs => match acc with
          | .ok r => .ok (segs ++ r)
          | r => r) (.ok [])

/-- VLDX (R563): granules with a loaded lane fill as their last lane lands; granules of zero lanes fill at issue + 2. -/
def execVldx (f : VX) (s : State) : Host.Outcome State Fault Refusal :=
  let c := s.focus
  let core := coreOf c
  let x := s.ctx c
  let t := VX.tag f
  let e := t.bits / 8
  let total := 4096 / e
  let n := min total 1024
  let row := VOp.num f.d
  let sy := f.syd.toNat
  let mask := x.maskList f total
  let loaded := (maskGrans t.bits (mask.take n)).map fun j => 16 * row + j
  let zeros := rowParts t.bits row (List.replicate total 0) (List.replicate n false ++ mask.drop n) 16 0
  let gs := loaded ++ zeros.map fun p => p.g
  let idx : VSrc := { op := f.b, sync := f.syb.toNat, ok := idxTag }
  let i : Instr := .vldx f
  let dst : VDst := .row row sy gs
  if x.foot ≤ row || idx.badView x then finish i s (.trap s (trapOf tView))
  else if s.vecWaits c [idx] [] [dst] then finish i s (.wait s .syncBlocked .bits)
  else
    let rd := s.vread c 4 [idx]
    let w := s.vvalue c rd 0 idx none
    match s.vecData c [idx] [] [dst] [w] with
    | some tr => finish i s (.trap s tr)
    | none =>
      let l := laneAddrs (VOp.scalar f.a x).toNat e n w mask
      match s.lanePieces core e .read false l with
      | .error tr => finish i s (.trap s tr)
      | .miss pages => finish i s (s.walkFor core pages)
      | .ok segs =>
        if s.entriesFull core then finish i s (.wait s .waiting .entries)
        else
          let (s0, reqs, ok) := ((((s.addHist c .v (s.handoffs c idx.sync idx.rowGrans)).bankCommit c rd.arb).trimBound core).fillRange
            core segs).bindSegs { core := core, unit := s.unitNo c, promised := false } s.cycle segs
          let s1 := s0.markEmpty c sy gs
          let o : Op := { s1.newOp .v i .vload with
            reads := true, va := (VOp.scalar f.a x).toNat, segs := segs, grans := loaded, lanes := l.map Prod.fst, tag := t
            reqs := reqs, limit := limitOf ok reqs 0, entries := s.takeEntries core l.length
            fwd := s1.forwards (s.unitNo c) (s.cycle + 1) segs }
          let s2 := if l.isEmpty then s1 else (s1.launchOp o none).1
          let s3 := s2.landTagged c .v 2 (zeros.map fun p => (p, t, sy))
          finish i s (.done ((s3.vecConsume c rd 0 [idx]).occupy c .v (4 + rd.arb.delay)))

/-- VSTX (R563): the highest-numbered lane prevails where lanes name one address. -/
def execVstx (f : VX) (s : State) : Host.Outcome State Fault Refusal :=
  let c := s.focus
  let x := s.ctx c
  let t := x.vt
  let e := t.bits / 8
  let n := min t.lanes 1024
  let mask := x.maskList f t.lanes
  vecStoreIssue (.vstx f) s [.typed f.d f.syd t, { op := f.b, sync := f.syb.toNat, ok := idxTag }] fun vals =>
    let l := laneAddrs (VOp.scalar f.a x).toNat e n (nth vals 1 (.all 0)) mask
    match s.lanePieces (coreOf c) e .write (s.versioned c) l with
    | .error tr => .error tr
    | .miss pages => .miss pages
    | .ok segs =>
      let data := (nth vals 0 (.all 0)).lanes t.bits t.lanes
      .ok ((VOp.scalar f.a x).toNat, segs, (l.map fun p => bytesOfNat e (nth data p.1 0)).foldr (· ++ ·) [], l.map Prod.fst)

/-! ## Completion (R45, R562) -/

/-- The sync code of a load's destination. -/
def loadSync : Instr → Nat
  | .vld f | .vldx f => f.syd.toNat
  | _ => 0

/-- A piece that lies in a poisoned block. -/
def State.pieceHurt (s : State) (l : List Seg) : Option Nat := s.poisonIn l

/-- The bytes of a VLD from an offset. -/
def State.loadedBytes (s : State) (o : Op) : List Byte := mergeFwd o.fwd (s.unitRead o.unit o.segs)

/-- The part of a granule that a load fills, and the pieces that it reads. -/
def State.loadPart (s : State) (o : Op) (g : Nat) : GranPart × List Seg :=
  let bs := s.loadedBytes o
  if o.lanes.isEmpty then
    let off := 256 * (g % 16)
    (bytePartOf g (natOfBytes ((bs.drop off).take 256)), segsFrom o.segs off 256)
  else
    let e := o.tag.bits / 8
    let mine := (List.zip (List.range o.lanes.length) o.lanes).filter fun p => p.2 * e / 256 == g % 16
    let parts := mine.map fun (k, l) =>
      ({ g := g, data := BitVec.ofNat 2048 (natOfBytes ((bs.drop (k * e)).take e) * 2 ^ (8 * (l * e % 256)))
         sel := BitVec.ofNat 2048 ((2 ^ (8 * e) - 1) * 2 ^ (8 * (l * e % 256))) } : GranPart)
    ((mergeParts parts).headD { g := g, data := 0, sel := 0 },
      (mine.map fun p => segsFrom o.segs (p.1 * e) e).foldr (· ++ ·) [])
where
  /-- A whole granule. -/
  bytePartOf (g v : Nat) : GranPart := { g := g, data := BitVec.ofNat 2048 v, sel := BitVec.allOnes 2048 }
  /-- The pieces of a run of bytes of a range. -/
  segsFrom : List Seg → Nat → Nat → List Seg
    | [], _, _ => []
    | q :: l, off, n =>
      if n = 0 then []
      else if q.len ≤ off then segsFrom l (off - q.len) n
      else
        let k := min n (q.len - off)
        { va := q.va + off, pa := q.pa + off, len := k } :: segsFrom l 0 (n - k)

/-- The granule of a load in flight that fills next. -/
def State.granuleFirst (s : State) (op g : Nat) : State :=
  s.modOp op fun o => if o.kind == .vload && o.grans.contains g then { o with grans := g :: o.grans.erase g } else o

/-- The cycle by which the next granule of a load must fill: of a VLD, the first by which the four requests of a granule that is
still empty have returned, and two more (R562). -/
def Op.limitNow (o : Op) : Nat :=
  if o.kind == .vload && o.lanes.isEmpty && o.limit != 0 then
    (o.grans.map fun g => limitOf true ((o.reqs.drop (4 * (g % 16))).take 4) 2).foldl min o.limit
  else o.limit

/-- LONG_LATENCY_COMPLETE: the next granule of a VLD or VLDX fills; one struck by an uncorrectable error stays empty and MCHECK
is delivered (R45, R46, R562, R563). -/
def execLongLatencyComplete (op : Nat) (s : State) : Host.Outcome State Fault Refusal :=
  match s.op? op with
  | some o =>
    if o.kind == .vload && s.opReady o then
      match o.grans with
      | [] => .next (s.delOp op)
      | g :: rest =>
        let (p, segs) := s.loadPart o g
        let s1 := if rest.isEmpty then (s.touchPins o.segs).delOp op else s.modOp op fun o => { o with grans := rest }
        if !s.opLive o then .next s1
        else match s.pieceHurt segs with
          | some b =>
            .next (s1.poisonFound o b)
          | none => .next (s1.fillParts o (loadSync o.ins) o.tag (s1.prune o.hist) [p])
    else .next s
  | none => .next s

end Sys2Proof.Machine
end

