-- ==== Sys2Proof/Machine/Auto.lean ====
section
/-! DEFINITION. Events that happen unasked: what is due in this cycle, in a fixed order (log 5). Each answers the state after
its first event, or none where it has none to make. -/
namespace Sys2Proof.Machine

/-- The state after an event. -/
def happened (o : Host.Outcome State Fault Refusal) : Option State :=
  match o with
  | .next t => some t
  | _ => none

/-- The contexts that hold a unit. -/
def State.boundCtxs (s : State) : List Nat := s.ctxs.filterMap fun (c, x) => if x.unit.isSome then some c else none

/-- The events of keys that are ready: the first of them. -/
def State.firstEvent (s : State) (keys : List Nat) (ready : Nat → Bool) (e : Nat → State → Host.Outcome State Fault Refusal) :
    Option State :=
  match keys.find? ready with
  | some k => happened (e k s)
  | none => none

/-! ## Results, traps and ports -/

def State.landsDue (s : State) (c : Nat) : Bool := (s.ctx c).lands.any fun l => l.due ≤ s.cycle

/-- Some engine still has to stop for the trap, or all have stopped (R244, R246). -/
def State.trapReady (s : State) (c : Nat) : Bool :=
  let x := s.ctx c
  x.unit.isSome && !x.inHandler && !x.takable.isEmpty && !s.raising c
  && (x.stopAll.allStopped s.cycle || x.c.st != .stopped || x.v.st != .stopped || x.y.st != .stopped
      || (x.matrixMayStop && x.m.st != .stopped))

/-- An MBLD of the context still pops rows of a port. -/
def State.loadPops (s : State) (c : Nat) : Bool :=
  s.ops.any fun (_, o) => o.ctx == c && s.opLive o && o.v3 != 0 && match o.ins with
    | .mbld _ _ => true
    | _ => false

/-- Rows that are formed ahead of their pops: three, or as many as a held instruction may need (R75; log 28). -/
def State.rowsAhead (s : State) (c : Nat) : Nat :=
  if (s.ctx c).m.held.isSome || s.loadPops c then 1024 else 3

/-- A source port of the context whose next row may be formed. -/
def State.portDue (s : State) (c : Nat) : Option (Fin 16) :=
  (List.finRange 16).find? fun (n : Fin 16) => match (s.ctx c).port? n.val with
    | some p => s.rowMayForm c p && p.rows.length < s.rowsAhead c
    | none => false

def State.autoCtx (s : State) : Option State :=
  (s.firstEvent s.boundCtxs s.landsDue execResultWrite).orElse fun _ =>
  (s.firstEvent s.boundCtxs s.trapReady execTrapEntry).orElse fun _ =>
  firstSome (fun c => match s.portDue c with
    | some p => happened (execPortRowReady c p s)
    | none => none) s.boundCtxs

/-! ## Operations in flight -/

def State.sinkDue (s : State) (n : Nat) (o : Op) : Bool :=
  s.opReady { o with writes := true } && (s.headPush o.ctx o.v1.toNat).any fun q => q.1 == n

/-- The rows that an MBLD waits for stand. -/
def State.popsReady (s : State) (o : Op) (f : MF) : Bool :=
  o.v3 == 1 || match (s.ctx o.ctx).port? (f.fa.toNat % 16) with
    | none => true
    | some p => match p.take (tileOf o.v1).rows 0 with
      | .notYet => false
      | _ => true

def State.loadDue (s : State) (o : Op) (f : MF) : Bool :=
  o.parked.isNone && (if o.v3 != 0 then s.popsReady o f
    else o.gang.isNone || match s.matched o with
      | some l => l.all fun (_, q) => q.parked.isNone && q.v3 == 0
      | none => false)

/-- An MWB to memory has all of its rows. -/
def State.rowsDone (s : State) (o : Op) : Bool :=
  !s.opLive o || (tileOf o.v1).cols * (tileOf o.v1).ty.bits / 8 * o.v2.toNat ≤ o.data.length

/-- The first piece of a plan that a fabric engine may complete. -/
def State.nextPiece (s : State) (o : Op) (k : Coll) : Option Nat :=
  (rangeFrom k.counter (k.landed.length + k.parkedPieces.length + 1)).find? fun p => s.pieceReady o k p

def State.collNow (s : State) (n : Nat) (o : Op) (k : Coll) : Option State :=
  if s.collState n o k != .wait then happened (execCollectiveMatch n s)
  else match s.nextPiece o k with
    | some p => happened (execCollectivePiece n p s)
    | none => if o.parked.isNone && s.planReady o k then happened (execPlanComplete n s) else none

/-- What an asynchronous operation does now. -/
def State.asyncNow (s : State) (n : Nat) (o : Op) : Option State :=
  match o.ins with
  | .dtld _ _ => if s.opReady o then happened (execDtldComplete n s) else none
  | .ypin _ _ => if s.opReady o then happened (execPinFillComplete n s) else none
  | .xstf _ _ =>
    if !s.opReady o then none
    else if o.sampled then happened (execFlagIncrement n s) else happened (execTokenComplete n s)
  | .mbld f _ => if s.loadDue o f then happened (execResidencyLoaded n s) else none
  | .mkat _ _ => match (s.core o.core).kat with
    | some (m, k) => if m = n ∧ 4096 ≤ k then happened (execMkatComplete n s) else none
    | none => none
  | .ccvt _ =>
    if (maskGroups o.v1).any fun j => s.wayInUse n (clusterOf o.core) j then none else happened (execCcvtComplete n s)
  | .icbc _ => happened (execIcbcAckComplete n s)
  | .mnest _ _ => if s.opReady o && o.sampled then happened (execTokenComplete n s) else none
  | .mwbMem _ _ => if s.opReady o && s.rowsDone o then happened (execTokenComplete n s) else none
  | .ycopy _ _ | .yfill _ _ | .ygath _ _ | .yscat _ _ | .yfpr _ _ | .ycmp _ _ | .ypref _ _ | .xatom _ _ _ | .rsplan _ _ _ =>
    if s.opReady o then happened (execTokenComplete n s) else none
  | _ => none

/-- The cycle from which the model performs an operation: of a gang's matched loads, the latest of all (R19, R466). -/
def State.dueOf (s : State) (o : Op) : Nat :=
  ((s.matched o).getD []).foldl (fun n p => max n p.2.due) o.due

/-- What an operation in flight does next, where it may. -/
def State.opDoes (s : State) (n : Nat) (o : Op) : Option State :=
  match o.coll with
  | some k => s.collNow n o k
  | none => match o.kind with
    | .load => if s.opReady o then happened (execLoadReturn n 0 s) else none
    | .atom => if s.opReady o then happened (execAtomReturn n s) else none
    | .store | .vstore => if s.opReady o then happened (execStorePerformed n s) else none
    | .vload => if s.opReady o then happened (execLongLatencyComplete n s) else none
    | .port =>
      if o.v3 != 0 then (if s.opReady o then happened (execStorePerformed n s) else none)
      else if s.sinkDue n o then happened (execSinkRowAccepted o.ctx (Fin.ofNat 16 o.v1.toNat) s) else none
    | .async => s.asyncNow n o

def State.opNow (s : State) (n : Nat) (o : Op) : Option State := if s.cycle < s.dueOf o then none else s.opDoes n o

/-- An operation is brought to its end: it, or first an access that it waits for, since a return may always come early (R17,
R158). -/
def State.hurry (s : State) : Nat → Nat → Option State
  | 0, _ => none
  | f + 1, n => match s.op? n with
    | some o => (s.opDoes n o).orElse fun _ => firstSome (fun a => if s.pending a then s.hurry f a.op else none) o.waits
    | none => none

/-- An operation whose requests all have a class, the last of which has run out: it is late only by an event of R182 (R17). -/
def State.overdue (s : State) : Option State :=
  firstSome (fun (n, o) => if o.limit != 0 && o.limitNow ≤ s.cycle then s.hurry 8 n else none) s.ops

def State.autoOps (s : State) : Option State :=
  (firstSome (fun (n, o) => s.opNow n o) s.ops).orElse fun _ => s.overdue

/-! ## Walks and windows -/

def State.autoMemory (s : State) : Option State :=
  (firstSome (fun (_, x) => match x.walks with
    | (k, p) :: _ => happened (execWalkComplete k p s)
    | [] => none) s.dies).orElse fun _ =>
  firstSome (fun (d, x) => match x.pins.find? fun p => p.fades s.cycle with
    | some p => happened (execFadeDecrement d p.base s)
    | none => none) s.dies

/-! ## The graph state and the pools -/

/-- A promoted unit that fits nowhere is still to reserve a core (R233). -/
def State.mustReserve (s : State) (u : Nat) : Bool :=
  match s.unit? u with
  | some r => match s.launch? r.launch with
    | some l => r.promoted && r.st == .ready && r.inPool && (s.placeFor u).isNone
        && (tget (s.die (dieOf (s.startCore r l))).reserved (s.startCore r l)).isNone
        && !(s.dies.any fun p => p.2.reserved.any fun q => q.2 == u)
    | none => false
  | none => false

def State.mustPromote (s : State) (u : Nat) : Bool :=
  match s.unit? u with
  | some r => r.st == .ready && !r.promoted && r.age.getD s.cycle + 2 ^ 20 ≤ s.cycle
  | none => false

/-- The counters that can become FINAL now, as levels and indices. -/
def State.finals (s : State) : Option (Fin 4 × Nat) :=
  let at_ (l : Fin 4) (keys : List Nat) : Option (Fin 4 × Nat) := (keys.find? (s.finalReady l.val)).map fun n => (l, n)
  (at_ 0 (s.job.launches.map Prod.fst)).orElse fun _ => (at_ 1 (s.job.graphs.map Prod.fst)).orElse fun _ =>
  (at_ 2 (s.job.phases.map Prod.fst)).orElse fun _ => at_ 3 [0]

def State.autoUnits (s : State) : Option State :=
  let us := s.job.units.map Prod.fst
  (s.firstEvent us s.unitReadyNow execUnitReady).orElse fun _ =>
  (s.firstEvent us s.unitDoneReady execUnitDone).orElse fun _ =>
  (s.firstEvent us s.mustPromote execAgePromotion).orElse fun _ =>
  (s.firstEvent us s.placementReady execPlacement).orElse fun _ =>
  (s.firstEvent us s.resumeReady execResume).orElse fun _ =>
  match us.find? s.mustReserve with
  | some u => some (s.reserveFor u)
  | none => none

def State.autoJob (s : State) : Option State :=
  (s.firstEvent (s.job.arrivals.map Prod.fst) s.arrivalReady execBarrierArrival).orElse fun _ =>
  (s.firstEvent (s.job.contributions.map Prod.fst) s.meshReady execMeshLaunchMatch).orElse fun _ =>
  (if s.nextEffect.isSome then happened (execGraphStateEffect s) else none).orElse fun _ =>
  (match s.finals with
    | some (l, n) => happened (execCounterFinal l n s)
    | none => none).orElse fun _ =>
  (match (List.finRange 8).find? fun (q : Fin 8) => (s.releaseHead q.val).isSome with
    | some q => happened (execLaunchRelease q s)
    | none => none).orElse fun _ =>
  s.autoUnits.orElse fun _ =>
  if s.jobIdle then happened (execJobSeal s) else none

/-! ## The module -/

/-- Every holder of version-log space of a die waits (R260). -/
def State.logStuck (s : State) (d : Nat) : Bool := !(s.logHolders d).isEmpty && (s.logHolders d).all fun (_, r) => r.logWait

/-- A pause of a die's management services has lasted its 50 ms (R303). -/
def State.pauseOver (s : State) (d : Nat) : Bool :=
  match (s.die d).fwNext with
  | some (_, _, t) => t + pauseCycles ≤ s.cycle
  | none => false

def State.autoModule (s : State) : Option State :=
  (if s.job.st == .loading then happened (execImageCheck s) else none).orElse fun _ =>
  (if s.invalReady then happened (execInvalidationComplete s) else none).orElse fun _ =>
  (s.firstEvent (s.dies.map Prod.fst) s.mustSpill spillOldest).orElse fun _ =>
  (s.firstEvent (s.dies.map Prod.fst) s.logStuck execVersionLogDiscard).orElse fun _ =>
  s.firstEvent (s.dies.map Prod.fst) s.pauseOver fun d t => execFirmwareReplace d 0 false t

/-- The first event that is due. -/
def State.auto (s : State) : Option State :=
  s.autoCtx.orElse fun _ => s.autoOps.orElse fun _ => s.autoMemory.orElse fun _ => s.autoJob.orElse fun _ => s.autoModule

/-! ## Before the clock advances -/

def State.deadlockDue (s : State) (c : Nat) : Bool :=
  match (s.ctx c).deadSince with
  | some t => s.deadlocked c && t + deadlockFirst ≤ s.cycle
  | none => false

/-- What must have happened before the clock advances, whoever moves: results in flight land in their cycle (R47), and accesses
whose class has run out are performed (R17). -/
def State.mustNow (s : State) : Option State :=
  (s.firstEvent s.boundCtxs s.landsDue execResultWrite).orElse fun _ => s.overdue

/-- Missed promises and deadlocks are judged once every engine has had its turn. -/
def State.autoLate (s : State) : Option State :=
  (firstSome (fun c => match (List.range 32).find? fun k => s.missReady c k with
    | some k => happened (execPromiseMiss c k s)
    | none => none) s.boundCtxs).orElse fun _ =>
  s.firstEvent s.boundCtxs s.deadlockDue execDeadlock

end Sys2Proof.Machine
end

