-- ==== Sys2Proof/Machine/Branch.lean ====
section
/-! DEFINITION. Control flow (15_ref_a_c.md R381 to R388; 16_ref_d_l.md R415 to R417, R422 to R425, R432 to R434, R452,
R453; 17_ref_m_p.md R492; 18_ref_r_t.md R499, R500, R506 to R508, R534, R535). -/
namespace Sys2Proof.Machine

/-- NOP changes no state other than issue selection (R492). -/
def execNop (f : C3) (s : State) : Host.Outcome State Fault Refusal := finish (.nop f) s (.done s)

/-! ## Branches -/

/-- The target of a branch: LOFF lines from the branch's line, at LANE (R324, R386). -/
def branchTarget (f : CB) (p : Pos) : Pos :=
  { line := wrapOf 56 ((p.line : Int) + 32 * f.loff.toInt), lane := f.lane.toNat }

/-- The conditions of BRC (R324). -/
def condHolds (k : BitVec 3) (a : Word) : Bool :=
  match k.toNat with
  | 0 => a == 0
  | 1 => a != 0
  | 2 => a.msb
  | 3 => !a.msb
  | 4 => !a.msb && a != 0
  | 5 => a.msb || a == 0
  | 6 => a.getLsbD 0
  | _ => !a.getLsbD 0

def execBr (f : CB) (s : State) : Host.Outcome State Fault Refusal :=
  finish (.br f) s (.jump s (branchTarget f (s.eng s.focus .c).cur))

def execBrc (f : CB) (s : State) : Host.Outcome State Fault Refusal :=
  finish (.brc f) s (s.sHold [f.a.toNat]
    (if condHolds f.cond ((s.ctx s.focus).sr f.a.toNat) then .jump s (branchTarget f (s.eng s.focus .c).cur) else .done s))

/-- CALL: s63 takes the position after the CALL; the call depth counts in unit mode only (R386). -/
def execCall (f : CB) (s : State) : Host.Outcome State Fault Refusal :=
  let c := s.focus
  let p := (s.eng c .c).cur
  let s1 := s.putS c 63 1 (after p).word
  let s2 := if (s.ctx c).mode = .unit then s1.modCtx c fun x => { x with depth := x.depth + 1 } else s1
  finish (.call f) s (s.sHold [63] (.jump s2 (branchTarget f p)))

/-- LOOP (R453). -/
def execLoop (f : CB) (s : State) : Host.Outcome State Fault Refusal :=
  let c := s.focus
  let v := (s.ctx c).sr f.a.toNat - 1
  let s1 := s.putS c f.a.toNat 1 v
  finish (.loop f) s (s.sHold [f.a.toNat] (if v != 0 then .jump s1 (branchTarget f (s.eng c .c).cur) else .done s1))

/-- A jump to a code pointer, which may not be 0 (R434): `t` is the state once it is taken. -/
def jumpTo (s t : State) (w : Word) : Res :=
  if w = 0 || badPointer w then .trap s (trapOf tTable) else .jump t (posOfWord w)

def execJmp (f : C3) (s : State) : Host.Outcome State Fault Refusal :=
  finish (.jmp f) s (s.sHold [f.a.toNat] (jumpTo s s ((s.ctx s.focus).sr f.a.toNat)))

/-! ## FORK, RDV, RET -/

/-- V, M and Y are all joined. -/
def Ctx.allJoined (x : Ctx) : Bool := x.v.st == .joined && x.m.st == .joined && x.y.st == .joined

/-- An engine as FORK starts it: it is Ready from the next cycle (R42, R202). -/
def startEng (n : Eng) (p : Word) (now : Nat) (h : List Acc) : Eng :=
  if p = 0 then n
  else { n with st := .ready, cur := posOfWord p, lines := [], age := none, hold := .none, held := none
                gapEnd := now + 1, candSince := none, displaced := false, hist := joinAcc n.hist h }

/-- FORK captures the view set and starts the engines (R423). The matrix cursor starts with an empty window (R425). -/
def Ctx.fork (x : Ctx) (pv pm py : Word) (now : Nat) (h : List Acc) : Ctx :=
  { x with
    captured := x.views
    v := startEng x.v pv now h, m := startEng x.m pm now h, y := startEng x.y py now h
    lantern := if pm = 0 then x.lantern else {} }

def execFork (f : C3) (s : State) : Host.Outcome State Fault Refusal :=
  let c := s.focus
  let x := s.ctx c
  let pv := x.sr f.d.toNat
  let pm := x.sr f.a.toNat
  let py := x.sr f.b.toNat
  finish (.fork f) s (s.sHold [f.d.toNat, f.a.toNat, f.b.toNat]
    (if x.mode = .handler || !x.allJoined then .trap s (trapOf tOrder)
     else if badPointer pv || badPointer pm || badPointer py then .trap s (trapOf tTable)
     else .done (s.setCtx c (x.fork pv pm py s.cycle (s.histOf c .c)))))

/-- The RDV edges of R202: the control engine's accesses follow those of every joined engine. -/
def Ctx.joinHist (x : Ctx) : Ctx :=
  { x with c := { x.c with hist := joinAcc (joinAcc (joinAcc x.c.hist x.v.hist) x.m.hist) x.y.hist } }

def execRdv (f : C3) (s : State) : Host.Outcome State Fault Refusal :=
  let x := s.ctx s.focus
  finish (.rdv f) s
    (if x.mode = .handler then .trap s (trapOf tOrder)
     else if x.allJoined then .done (s.setCtx s.focus x.joinHist)
     else .wait s .waiting .rdv)

/-- RDV of V, M or Y: the engine becomes Joined (R500). -/
def joinEngine (i : Instr) (s : State) : Host.Outcome State Fault Refusal :=
  finishWith i s (fun _ => none) (.done (s.modEng s.focus (Instr.eng i) fun n => { n with st := .joined }))

def execVRdv (f : VX) (s : State) : Host.Outcome State Fault Refusal := joinEngine (.vRdv f) s
def execMRdv (f : MF) (s : State) : Host.Outcome State Fault Refusal := joinEngine (.mRdv f) s
def execYRdv (f : YF) (t : Tok) (s : State) : Host.Outcome State Fault Refusal := joinEngine (.yRdv f t) s

/-- The unit owes arrivals in an active object (R378). -/
def State.owesArrival (s : State) (u : Nat) : Bool :=
  s.clusters.any fun (_, g) => g.bars.any fun (_, b) =>
    b.st == .active && b.enrol.any fun e => e.unit == u && e.made < e.owe

/-- RET (R507). -/
def execRet (f : C3) (s : State) : Host.Outcome State Fault Refusal :=
  let c := s.focus
  let x := s.ctx c
  finish (.ret f) s
    (if x.mode = .handler then .gone (s.endStream c .faulted)
     else if x.depth != 0 then
       s.sHold [63]
         (jumpTo s (s.modCtx c fun y => { y with depth := y.depth - 1 }) (x.sr 63))
     else if s.owesArrival (s.unitNo c) then .trap s (trapOf tOrder)
     else if x.allJoined then .gone (((s.landAll c).endStream c .done).issuedNow c .c)
     else .wait s .waiting .rdv)

/-! ## ISYNC, ERET, TRAP, BKPT -/

/-- A cursor refetches every line that it enters from now on; the line it has entered runs as fetched (R218, R219). -/
def Eng.refetch (n : Eng) : Eng := { n with lines := n.lines.filter fun (a, _) => a == n.cur.line }

def Ctx.isync (x : Ctx) : Ctx := { x with c := x.c.refetch, v := x.v.refetch, m := x.m.refetch, y := x.y.refetch }

def execIsync (f : C3) (s : State) : Host.Outcome State Fault Refusal :=
  finish (.isync f) s (.done (s.modCtx s.focus Ctx.isync))

/-- ERET's own GAP and SW mark act in the control engine that it resumes (R237, R238). -/
def State.eretIssued (s : State) (c : Nat) (i : Instr) : State :=
  let gap := (i.iss.extractLsb' 0 3).toNat
  let s1 := s.issuedNow c .c
  if (s1.ctx c).unit.isNone then s1
  else (s1.modEng c .c fun n => { n with gapEnd := max n.gapEnd (s.cycle + 1 + gap), lastEnd := max n.lastEnd s.cycle }).switchAway c .c
    (i.iss.getLsbD 3)

/-- ERET (R416): PRIV outside handler mode; TABLE on a bad resume point or a displaced word of another engine. -/
def execEret (f : C3) (s : State) : Host.Outcome State Fault Refusal :=
  let c := s.focus
  let x := s.ctx c
  finish (.eret f) s
    (if x.mode != .handler then .trap s (trapOf tPriv)
     else if badPointer x.sprs.trapRec.w1
         || (x.sprs.displaced.getLsbD 63 && fld x.sprs.displaced 32 2 != fld x.sprs.trapRec.w0 50 2) then
       .trap s (trapOf tTable)
     else .gone ((s.returnFromTrap c).eretIssued c (.eret f)))

/-- TRAP counts as executed: the record names the boundary after it (R535). -/
def execTrap (f : CI) (s : State) : Host.Outcome State Fault Refusal :=
  let c := s.focus
  let p := (s.eng c .c).next
  let q := (s.nextFirst c .c 64 p).getD p
  let t : Trap := { (trapOf tTrap).of s (.trap f) with detailA := (f.imm.signExtend 32).toNat, pos := q }
  finish (.trap f) s (.gone (if (s.ctx c).inHandler then s.raise c t else (s.post c t).retire (.trap f) p))

/-- BKPT raises BKPT with SUB 0 in its engine and commits nothing (R382). -/
def execBkpt (f : BK) (s : State) : Host.Outcome State Fault Refusal :=
  finishWith (.bkpt f) s (fun _ => none) (.trap s (trapOf tBkpt))

end Sys2Proof.Machine
end

