-- ==== Sys2Proof/Machine/Scalar.lean ====
section
/-! DEFINITION. Scalar integer instructions of the control engine (15_ref_a_c.md R360 to R363, R396 to R399,
17_ref_m_p.md R463, R482, 18_ref_r_t.md R511). -/
namespace Sys2Proof.Machine

/-! ## Shared operations -/

/-- A result computed from s[A] and s[B], written a latency after issue (R362). -/
def scalarC3 (i : Instr) (f : C3) (s : State) (lat : Nat) (g : Word → Word → Word) : Host.Outcome State Fault Refusal :=
  let x := s.ctx s.focus
  finish i s (s.sHold [f.d.toNat, f.a.toNat, f.b.toNat]
    (.done (s.putS s.focus f.d.toNat lat (g (x.sr f.a.toNat) (x.sr f.b.toNat)))))

/-- The same with an immediate in place of s[B] (R360). -/
def scalarCI (i : Instr) (f : CI) (s : State) (b : Word) (lat : Nat) (g : Word → Word → Word) :
    Host.Outcome State Fault Refusal :=
  finish i s (s.sHold [f.d.toNat, f.a.toNat]
    (.done (s.putS s.focus f.d.toNat lat (g ((s.ctx s.focus).sr f.a.toNat) b))))

def immS (f : CI) : Word := f.imm.signExtend 64
def immZ (f : CI) : Word := f.imm.zeroExtend 64

/-- The shift and rotate amount of R92. -/
def shiftBy (g : Nat → Nat → Nat → Nat) (a b : Word) : Word := BitVec.ofNat 64 (g 64 (fld b 0 8) a.toNat)

/-- DIV and REM: a division by zero sets DZ, or traps where its enable is set (R362, R101). -/
def scalarDiv (i : Instr) (f : C3) (s : State) (signed : Bool) (pick : Nat × Nat → Nat) :
    Host.Outcome State Fault Refusal :=
  let c := s.focus
  let x := s.ctx c
  let a := x.sr f.a.toNat
  let b := x.sr f.b.toNat
  let setDz (t : State) : State := t.modCtx c fun y => y.raiseFlags s.cycle fDZ
  let out := s.putS c f.d.toNat 20 (BitVec.ofNat 64 (pick (divInt signed 64 a.toNat b.toNat)))
  finish i s (s.sHold [f.d.toNat, f.a.toNat, f.b.toNat]
    (if b != 0 then .done out
     else match enabledFlag x.sprs.arstat fDZ with
       | some n => .trap (setDz s) { code := tTrap, sub := 1, detailA := n }
       | none => .done (setDz out)))

def smin (a b : Word) : Word := if a.slt b then a else b
def smax (a b : Word) : Word := if a.slt b then b else a
def umin (a b : Word) : Word := if a < b then a else b
def umax (a b : Word) : Word := if a < b then b else a

def leadZeros (a : Word) : Nat := 64 - bitLen a.toNat
def trailGo (v : Nat) : Nat → Nat → Nat
  | 0, n => n
  | f + 1, n => if v.testBit n then n else trailGo v f (n + 1)
def trailZeros (a : Word) : Nat := trailGo a.toNat 64 0
def popCount (a : Word) : Nat := (List.range 64).foldl (fun n k => if a.getLsbD k then n + 1 else n) 0

def truth (b : Bool) : Word := if b then 1 else 0

/-! ## Register forms of ALU-A (R360) -/

def execAdd (f : C3) (s : State) : Host.Outcome State Fault Refusal := scalarC3 (.add f) f s 1 (· + ·)
def execSub (f : C3) (s : State) : Host.Outcome State Fault Refusal := scalarC3 (.sub f) f s 1 (· - ·)
def execAnd (f : C3) (s : State) : Host.Outcome State Fault Refusal := scalarC3 (.and f) f s 1 (· &&& ·)
def execOr (f : C3) (s : State) : Host.Outcome State Fault Refusal := scalarC3 (.or f) f s 1 (· ||| ·)
def execXor (f : C3) (s : State) : Host.Outcome State Fault Refusal := scalarC3 (.xor f) f s 1 (· ^^^ ·)
def execShl (f : C3) (s : State) : Host.Outcome State Fault Refusal := scalarC3 (.shl f) f s 1 (shiftBy shlN)
def execShr (f : C3) (s : State) : Host.Outcome State Fault Refusal := scalarC3 (.shr f) f s 1 (shiftBy shrN)
def execSar (f : C3) (s : State) : Host.Outcome State Fault Refusal := scalarC3 (.sar f) f s 1 (shiftBy sarN)
def execRol (f : C3) (s : State) : Host.Outcome State Fault Refusal := scalarC3 (.rol f) f s 1 (shiftBy rolN)
def execMul (f : C3) (s : State) : Host.Outcome State Fault Refusal := scalarC3 (.mul f) f s 4 (· * ·)
/-- Bits 127:64 of the signed product. -/
def execMulh (f : C3) (s : State) : Host.Outcome State Fault Refusal :=
  scalarC3 (.mulh f) f s 4 fun a b => BitVec.ofInt 64 (a.toInt * b.toInt / 2 ^ 64)
/-- Bits 127:64 of the unsigned product. -/
def execMulhU (f : C3) (s : State) : Host.Outcome State Fault Refusal :=
  scalarC3 (.mulhU f) f s 4 fun a b => BitVec.ofNat 64 (a.toNat * b.toNat / 2 ^ 64)
def execDiv (f : C3) (s : State) : Host.Outcome State Fault Refusal := scalarDiv (.div f) f s true Prod.fst
def execDivU (f : C3) (s : State) : Host.Outcome State Fault Refusal := scalarDiv (.divU f) f s false Prod.fst
def execRem (f : C3) (s : State) : Host.Outcome State Fault Refusal := scalarDiv (.rem f) f s true Prod.snd
def execRemU (f : C3) (s : State) : Host.Outcome State Fault Refusal := scalarDiv (.remU f) f s false Prod.snd

/-! ## Minimum, maximum and bit counts (R463, R397) -/

def execMin (f : C3) (s : State) : Host.Outcome State Fault Refusal := scalarC3 (.min f) f s 1 smin
def execMinU (f : C3) (s : State) : Host.Outcome State Fault Refusal := scalarC3 (.minU f) f s 1 umin
def execMax (f : C3) (s : State) : Host.Outcome State Fault Refusal := scalarC3 (.max f) f s 1 smax
def execMaxU (f : C3) (s : State) : Host.Outcome State Fault Refusal := scalarC3 (.maxU f) f s 1 umax
def execClz (f : C3) (s : State) : Host.Outcome State Fault Refusal :=
  scalarC3 (.clz f) f s 1 fun a _ => BitVec.ofNat 64 (leadZeros a)
def execCtz (f : C3) (s : State) : Host.Outcome State Fault Refusal :=
  scalarC3 (.ctz f) f s 1 fun a _ => BitVec.ofNat 64 (trailZeros a)
def execPopc (f : C3) (s : State) : Host.Outcome State Fault Refusal :=
  scalarC3 (.popc f) f s 1 fun a _ => BitVec.ofNat 64 (popCount a)

/-! ## Selection, comparison and moves (R511, R399, R482) -/

/-- SEL: s[D] is both the condition and the destination (R511). -/
def execSel (f : C3) (s : State) : Host.Outcome State Fault Refusal :=
  scalarC3 (.sel f) f s 1 fun a b => if (s.ctx s.focus).sr f.d.toNat != 0 then a else b

def execCmpEq (f : C3) (s : State) : Host.Outcome State Fault Refusal := scalarC3 (.cmpEq f) f s 1 fun a b => truth (a == b)
def execCmpNe (f : C3) (s : State) : Host.Outcome State Fault Refusal := scalarC3 (.cmpNe f) f s 1 fun a b => truth (a != b)
def execCmpLt (f : C3) (s : State) : Host.Outcome State Fault Refusal := scalarC3 (.cmpLt f) f s 1 fun a b => truth (a.slt b)
def execCmpGe (f : C3) (s : State) : Host.Outcome State Fault Refusal := scalarC3 (.cmpGe f) f s 1 fun a b => truth (!a.slt b)
def execCmpLtu (f : C3) (s : State) : Host.Outcome State Fault Refusal := scalarC3 (.cmpLtu f) f s 1 fun a b => truth (a.ult b)
def execCmpGeu (f : C3) (s : State) : Host.Outcome State Fault Refusal := scalarC3 (.cmpGeu f) f s 1 fun a b => truth (!a.ult b)

def execMov (f : C3) (s : State) : Host.Outcome State Fault Refusal := scalarC3 (.mov f) f s 1 fun a _ => a
def execMovI (f : CI) (s : State) : Host.Outcome State Fault Refusal := scalarCI (.movI f) f s (immS f) 1 fun _ b => b

/-- The value of a literal (R325). -/
def litValue : Lit → Word
  | .w32 w => w.signExtend 64
  | .w64 w => w

def execMovL (f : CL) (s : State) : Host.Outcome State Fault Refusal :=
  finish (.movL f) s (s.sHold [f.d.toNat] (.done (s.putS s.focus f.d.toNat 1 (litValue f.lit))))

/-! ## Immediate forms (R360) -/

def execAddI (f : CI) (s : State) : Host.Outcome State Fault Refusal := scalarCI (.addI f) f s (immS f) 1 (· + ·)
def execAndI (f : CI) (s : State) : Host.Outcome State Fault Refusal := scalarCI (.andI f) f s (immZ f) 1 (· &&& ·)
def execOrI (f : CI) (s : State) : Host.Outcome State Fault Refusal := scalarCI (.orI f) f s (immZ f) 1 (· ||| ·)
def execXorI (f : CI) (s : State) : Host.Outcome State Fault Refusal := scalarCI (.xorI f) f s (immZ f) 1 (· ^^^ ·)
def execShlI (f : CI) (s : State) : Host.Outcome State Fault Refusal := scalarCI (.shlI f) f s (immZ f) 1 (shiftBy shlN)
def execShrI (f : CI) (s : State) : Host.Outcome State Fault Refusal := scalarCI (.shrI f) f s (immZ f) 1 (shiftBy shrN)
def execSarI (f : CI) (s : State) : Host.Outcome State Fault Refusal := scalarCI (.sarI f) f s (immZ f) 1 (shiftBy sarN)
def execRolI (f : CI) (s : State) : Host.Outcome State Fault Refusal := scalarCI (.rolI f) f s (immZ f) 1 (shiftBy rolN)
def execMulI (f : CI) (s : State) : Host.Outcome State Fault Refusal := scalarCI (.mulI f) f s (immS f) 4 (· * ·)

end Sys2Proof.Machine
end

