-- ==== Sys2Proof/Machine/VecMove.lean ====
section
/-! DEFINITION. Moves of the vector engine: VMOV, VSEL, VBC, VEXT, VINS, VSLIDE (19_ref_v.md R553, R554, R566, R567), and the
view instruction VSET (R570, R571). -/
namespace Sys2Proof.Machine

/-- VMOV: granule j takes the tag of source granule j (R567). -/
def execVmov (f : VX) (s : State) : Host.Outcome State Fault Refusal :=
  let x := s.ctx s.focus
  let t := x.vt
  let mask := x.maskList f t.lanes
  let dst := dstOf f.d f.syd t.bits mask
  vecIssue (.vmov f) f s [.raw f.a f.sya] [dst] true 6 4 fun vals =>
    let a := nth vals 0 (.all 0)
    .ok (laneOut dst t.bits none (a.tagAt t) mask (mapLanes (fun _ v _ _ => (v, 0)) 0 mask (a.lanes t.bits t.lanes) [] []))

/-- The mask selects some lane of granule j. -/
def anyLane (b j : Nat) (mask : List Bool) : Bool := ((mask.drop (j * (2048 / b))).take (2048 / b)).any id

/-- VSEL writes every lane (R567). -/
def execVsel (f : VX) (s : State) : Host.Outcome State Fault Refusal :=
  let x := s.ctx s.focus
  let t := x.vt
  let mask := x.maskList f t.lanes
  let all := List.replicate t.lanes true
  let dst := dstOf f.d f.syd t.bits all
  vecIssue (.vsel f) f s [.raw f.a f.sya, .raw f.b f.syb] [dst] true 6 4 fun vals =>
    let a := nth vals 0 (.all 0)
    let b := nth vals 1 (.all 0)
    .ok (laneOut dst t.bits none (fun j => if anyLane t.bits j mask then a.tagAt t j else b.tagAt t j) all
      (mapLanes (fun _ m v w => (if m = 1 then v else w, 0)) 0 all (mask.map fun m => if m then 1 else 0)
        (a.lanes t.bits t.lanes) (b.lanes t.bits t.lanes)))

/-- The lowest lane of granule j with a set mask bit. -/
def lowLane (b j : Nat) (mask : List Bool) : Option Nat :=
  (rangeFrom (j * (2048 / b)) (2048 / b)).find? fun l => nth mask l false

/-- VBC: one lane to every enabled lane; every written granule takes the tag of that lane's granule (R554). -/
def execVbc (f : VX) (s : State) : Host.Outcome State Fault Refusal :=
  let x := s.ctx s.focus
  let t := x.vt
  let mask := x.maskList f t.lanes
  let dst := dstOf f.d f.syd t.bits mask
  let q := (VOp.scalar f.b x).toNat
  vecIssue (.vbc f) f s [.raw f.a f.sya] [dst] true 6 4 fun vals =>
    let a := nth vals 0 (.all 0)
    if t.lanes ≤ q then .error (trapOf tBounds)
    else
      let v := nth (a.lanes t.bits t.lanes) q 0
      .ok (laneOut dst t.bits none (fun _ => a.tagAt t (q * t.bits / 2048)) mask
        (mapLanes (fun _ _ _ _ => (v, 0)) 0 mask [] [] []))

/-- VEXT: one lane into a b register (R554). -/
def execVext (f : VX) (s : State) : Host.Outcome State Fault Refusal :=
  let x := s.ctx s.focus
  let t := x.vt
  let q := (VOp.scalar f.b x).toNat
  vecIssue (.vext f) f s [.raw f.a f.sya] [.reg] true 6 1 fun vals =>
    if t.lanes ≤ q then .error (trapOf tBounds)
    else
      let w : Word := extendTo64 t.isSigned t.bits (nth ((nth vals 0 (.all 0)).lanes t.bits t.lanes) q 0)
      .ok { reg := some (.breg (VOp.num f.d) w), chk := fun l => if l = 0 then some (0, residue7 w.toNat) else none }

/-- VINS: a b register into one lane, whose granule takes tag T (R554); every granule of its row is read in the issue cycle
(R52). -/
def execVins (f : VX) (s : State) : Host.Outcome State Fault Refusal :=
  let x := s.ctx s.focus
  let t := x.vt
  let q := (VOp.scalar f.b x).toNat
  let only := (List.range t.lanes).map fun l => l == q && (x.mr f.mask.toNat).getLsbD l
  let dst := dstOf f.d f.syd t.bits only
  let v := (VOp.scalar f.a x).toNat % 2 ^ t.bits
  let row : List VSrc := match f.d with
    | .row _ => [{ op := f.d, sync := syncPlain }]
    | _ => []
  vecIssue (.vins f) f s row [dst] true 6 1 fun _ =>
    if t.lanes ≤ q then .error (trapOf tBounds)
    else .ok (laneOut dst t.bits none (fun _ => t) only (mapLanes (fun _ _ _ _ => (v, 0)) 0 only [] [] []))

/-- VSLIDE: lane l takes lane l + q, or the fill (R554). -/
def execVslide (f : VX) (s : State) : Host.Outcome State Fault Refusal :=
  let x := s.ctx s.focus
  let t := x.vt
  let mask := x.maskList f t.lanes
  let dst := dstOf f.d f.syd t.bits mask
  let q := (VOp.scalar f.b x).toInt
  let fill := (VOp.word f.c x).toNat % 2 ^ t.bits
  let from_ (l : Nat) : Option Nat := if 0 ≤ (l : Int) + q ∧ (l : Int) + q < t.lanes then some ((l : Int) + q).toNat else none
  vecIssue (.vslide f) f s [.raw f.a f.sya] [dst] true 6 4 fun vals =>
    let a := nth vals 0 (.all 0)
    -- the source lanes moved into place: q lanes dropped, or |q| fills before them
    let src := a.lanes t.bits t.lanes
    let moved := if 0 ≤ q then src.drop q.toNat else List.replicate (min t.lanes q.natAbs) fill ++ src
    .ok (laneOut dst t.bits none
      (fun j => match lowLane t.bits j mask with
        | some l => match from_ l with
          | some k => a.tagAt t (k * t.bits / 2048)
          | none => t
        | none => t) mask
      (mapLanes (fun l v _ _ => (if (from_ l).isSome then v else fill, 0)) 0 mask moved [] []))

/-! ## VSET (R570, R571) -/

/-- The views of a context after VSET. -/
def Views.set (v : Views) (code : Nat) (d : Word) : Views :=
  if code < 32 then { v with t := tset v.t code d }
  else if code < 48 then { v with a := tset v.a (code - 32) d }
  else { v with vt := d }

/-- The descriptor is refused (R59, R61, R62). -/
def viewBad (code : Nat) (d : Word) (foot : Nat) : Bool :=
  if code < 32 then tileBad d foot else if code < 48 then accBad d foot else vtBad d

/-- V, M and Y are all joined (R42). -/
def Ctx.othersJoined (x : Ctx) : Bool := x.v.st == .joined && x.m.st == .joined && x.y.st == .joined

def execVset (f : C3) (s : State) : Host.Outcome State Fault Refusal :=
  let c := s.focus
  let x := s.ctx c
  let d := x.sr f.a.toNat
  finish (.vset f) s
    (if !x.othersJoined || x.inHandler then .trap s (trapOf tView)
     else s.sHold [f.a.toNat]
       (if viewBad f.d.toNat d x.foot then .trap s (trapOf tView)
        else .done (s.modCtx c fun y => { y with views := y.views.set f.d.toNat d })))

end Sys2Proof.Machine
end

