-- ==== Sys2Proof/Machine/Waits.lean ====
section
/-! DEFINITION. Waiting instructions of the control engine (16_ref_d_l.md R418 to R421, R435 to R437; 18_ref_r_t.md R512,
R513, R533, R536 to R538; 08_ordering.md R203 to R205). -/
namespace Sys2Proof.Machine

/-! ## TWAIT and TPROM -/

/-- A token that TWAIT named, with the operation that had claimed it, is complete (R537). -/
def Ctx.claimDone (x : Ctx) (p : Nat × Nat) : Bool := (x.tok p.1).done || (x.tok p.1).op != p.2

/-- The tokens named by three fields. -/
def tokFields (f : C3) : List Nat := [f.d.toNat % 32, f.a.toNat % 32, f.b.toNat % 32]

/-- TWAIT waits for the operations that had claimed its tokens when it was issued; it acquires them (R537, R538). -/
def execTwait (f : C3) (s : State) : Host.Outcome State Fault Refusal :=
  let c := s.focus
  let x := s.ctx c
  let named := match x.c.hold with
    | .tokens l => l
    | _ => (tokFields f).map fun k => (k, (x.tok k).op)
  finish (.twait f) s
    (if named.all fun p => x.claimDone p then
       .done (s.addHist c .c ((tokFields f).foldl (fun a k => joinAcc a (s.tokHist c k)) []))
     else .wait s .waiting (.tokens named))

def execTprom (f : C3) (s : State) : Host.Outcome State Fault Refusal :=
  let c := s.focus
  finish (.tprom f) s (s.sHold [f.d.toNat]
    (.done (s.putS c f.d.toNat 1 (BitVec.ofNat 64 ((s.ctx c).tok (f.a.toNat % 32)).promise))))

/-! ## SLEEP -/

/-- SLEEP waits until CYCLE reaches the value read at issue; the engine switches away (R513, R238). -/
def sleepRes (f : C3) (s : State) : Res :=
  let c := s.focus
  let x := s.ctx c
  let wake := match x.c.hold with
    | .sleep n => n
    | _ => (x.sr f.a.toNat).toNat
  if wake ≤ s.cycle then .done (s.switchAway c .c true) else .wait s .waiting (.sleep wake)

def execSleep (f : C3) (s : State) : Host.Outcome State Fault Refusal :=
  finish (.sleep f) s (match (s.eng s.focus .c).hold with
    | .sleep _ => sleepRes f s
    | _ => s.sHold [f.a.toNat] (sleepRes f s))

/-- SLEEP_WAKE: CYCLE has reached the wake value and SLEEP retires (R513). -/
def execSleepWake (ctx : Nat) (s : State) : Host.Outcome State Fault Refusal :=
  let t : State := { s with focus := ctx }
  match (s.eng ctx .c).st, (s.eng ctx .c).held, (s.eng ctx .c).hold with
  | .waiting, some (.sleep f), .sleep _ => finish (.sleep f) t (sleepRes f t)
  | _, _, _ => .next s

/-! ## KCHK -/

/-- An MKAT of the context is incomplete. -/
def State.katRuns (s : State) (c : Nat) : Bool := s.ops.any fun (_, o) => o.ctx == c && s.opLive o && match o.ins with
  | .mkat _ _ => true
  | _ => false

def litWord : Lit → Word
  | .w32 w => w.signExtend 64
  | .w64 w => w

/-- KCHK (R436): a mismatch is a machine check with SUB 2, which fences the core. -/
def execKchk (f : CL) (s : State) : Host.Outcome State Fault Refusal :=
  let c := s.focus
  finish (.kchk f) s
    (if s.katRuns c then .wait s .waiting .other
     else if (s.core (coreOf c)).ksig != litWord f.lit then .trap s { code := tMcheck, sub := 2 }
     else .done s)

/-! ## FENCE -/

def fenceKind (f : CL) : Nat := match f.lit with
  | .w32 w => (w.extractLsb' 16 2).toNat
  | .w64 _ => 0
def fenceMask (f : CL) : BitVec 16 := match f.lit with
  | .w32 w => w.extractLsb' 0 16
  | .w64 _ => 0

/-- The accesses that any engine of the context issued in an earlier cycle: those before the fence point of a FENCE that
issues now (R202); of an asynchronous operation, its reads. -/
def State.issuedBefore (s : State) (c issued : Nat) : List Acc :=
  s.prune (s.ops.filterMap fun (n, o) =>
    if o.ctx == c && s.opLive o && o.issued < issued then some { op := n, whole := o.kind != .async } else none)

def fenceScope (f : CL) : Nat := match f.lit with
  | .w32 w => (w.extractLsb' 18 3).toNat
  | .w64 _ => 0

/-- What a FENCE waits for: the masked loads before it for ACQ, the masked accesses for REL and AR, as far as they are not
performed at its scope (R203, R193). -/
def State.fenceSet (s : State) (c : Nat) (f : CL) : List Acc :=
  (joinAcc (s.histOf c .c) (s.issuedBefore c s.cycle)).filter fun a => match s.op? a.op with
    | some o => (fenceMask f).getLsbD o.cls && (fenceKind f != 0 || o.reads) && !o.performedAt (fenceScope f)
    | none => false

/-- For ACQ, only the reads of an operation count. -/
def fenceAcc (f : CL) (a : Acc) : Acc := if fenceKind f = 0 then { a with whole := false } else a

/-- The fence point: every engine's later accesses follow those issued before the FENCE (R202). -/
def State.fencePoint (s : State) (c issued : Nat) : State :=
  allEngines.foldl (fun t e => t.addHist c e (s.issuedBefore c issued)) s

/-- A FENCE of kind ACQ or AR over class 15 narrows the constant path (R217). -/
def State.narrow (s : State) (c : Nat) (f : CL) : State :=
  if (fenceMask f).getLsbD 15 && fenceKind f != 1 then
    s.modUnit (s.unitNo c) fun r => { r with constFloor := s.seqNext }
  else s

/-- The condition of R203 is met. A load still pending holds an ACQ fence whether it is an asynchronous read or not. -/
def fenceRes (f : CL) (s : State) : Res :=
  let c := s.focus
  let (issued, accs) := match (s.eng c .c).hold with
    | .fence n l => (n, l)
    | _ => (s.cycle, (s.fenceSet c f).map (fenceAcc f))
  if accs.any fun a => s.pending a then .wait s .waiting (.fence issued accs)
  else .done ((s.fencePoint c issued).narrow c f)

/-- FENCE (R420): a flush point of the Lantern. -/
def execFence (f : CL) (s : State) : Host.Outcome State Fault Refusal :=
  finish (.fence f) s (fenceRes f (s.modCtx s.focus fun x => { x with lantern := { x.lantern with flush := true } }))

/-- FENCE_COMPLETE: a waiting FENCE's condition is met and it retires (R203). -/
def execFenceComplete (ctx : Nat) (s : State) : Host.Outcome State Fault Refusal :=
  let t : State := { s with focus := ctx }
  match (s.eng ctx .c).st, (s.eng ctx .c).held with
  | .waiting, some (.fence f) => finish (.fence f) t (fenceRes f t)
  | _, _ => .next s

end Sys2Proof.Machine
end

