-- ==== Sys2Proof/Machine/Dispatch.lean ====
section
/-! DEFINITION. The dispatch: one arm per instruction and event. -/
namespace Sys2Proof.Machine

def exec (i : Instr) (s : State) : Host.Outcome State Fault Refusal :=
  match i with
  | .nop f => Sys2Proof.Machine.execNop f s
  | .ret f => Sys2Proof.Machine.execRet f s
  | .rdv f => Sys2Proof.Machine.execRdv f s
  | .fork f => Sys2Proof.Machine.execFork f s
  | .add f => Sys2Proof.Machine.execAdd f s
  | .sub f => Sys2Proof.Machine.execSub f s
  | .and f => Sys2Proof.Machine.execAnd f s
  | .or f => Sys2Proof.Machine.execOr f s
  | .xor f => Sys2Proof.Machine.execXor f s
  | .shl f => Sys2Proof.Machine.execShl f s
  | .shr f => Sys2Proof.Machine.execShr f s
  | .sar f => Sys2Proof.Machine.execSar f s
  | .rol f => Sys2Proof.Machine.execRol f s
  | .mul f => Sys2Proof.Machine.execMul f s
  | .mulh f => Sys2Proof.Machine.execMulh f s
  | .mulhU f => Sys2Proof.Machine.execMulhU f s
  | .div f => Sys2Proof.Machine.execDiv f s
  | .divU f => Sys2Proof.Machine.execDivU f s
  | .rem f => Sys2Proof.Machine.execRem f s
  | .remU f => Sys2Proof.Machine.execRemU f s
  | .min f => Sys2Proof.Machine.execMin f s
  | .minU f => Sys2Proof.Machine.execMinU f s
  | .max f => Sys2Proof.Machine.execMax f s
  | .maxU f => Sys2Proof.Machine.execMaxU f s
  | .clz f => Sys2Proof.Machine.execClz f s
  | .ctz f => Sys2Proof.Machine.execCtz f s
  | .popc f => Sys2Proof.Machine.execPopc f s
  | .sel f => Sys2Proof.Machine.execSel f s
  | .cmpEq f => Sys2Proof.Machine.execCmpEq f s
  | .cmpNe f => Sys2Proof.Machine.execCmpNe f s
  | .cmpLt f => Sys2Proof.Machine.execCmpLt f s
  | .cmpGe f => Sys2Proof.Machine.execCmpGe f s
  | .cmpLtu f => Sys2Proof.Machine.execCmpLtu f s
  | .cmpGeu f => Sys2Proof.Machine.execCmpGeu f s
  | .jmp f => Sys2Proof.Machine.execJmp f s
  | .mov f => Sys2Proof.Machine.execMov f s
  | .br f => Sys2Proof.Machine.execBr f s
  | .brc f => Sys2Proof.Machine.execBrc f s
  | .call f => Sys2Proof.Machine.execCall f s
  | .loop f => Sys2Proof.Machine.execLoop f s
  | .twait f => Sys2Proof.Machine.execTwait f s
  | .tprom f => Sys2Proof.Machine.execTprom f s
  | .sleep f => Sys2Proof.Machine.execSleep f s
  | .isync f => Sys2Proof.Machine.execIsync f s
  | .eret f => Sys2Proof.Machine.execEret f s
  | .launch f => Sys2Proof.Machine.execLaunch f s
  | .edgeOne f => Sys2Proof.Machine.execEdgeOne f s
  | .edgeAll f => Sys2Proof.Machine.execEdgeAll f s
  | .edgeTree f => Sys2Proof.Machine.execEdgeTree f s
  | .edgeStencil f => Sys2Proof.Machine.execEdgeStencil f s
  | .gseal f => Sys2Proof.Machine.execGseal f s
  | .gsealPh f => Sys2Proof.Machine.execGsealPh f s
  | .cancel f => Sys2Proof.Machine.execCancel f s
  | .cancelOwn f => Sys2Proof.Machine.execCancelOwn f s
  | .spawn f => Sys2Proof.Machine.execSpawn f s
  | .ctrwait f => Sys2Proof.Machine.execCtrwait f s
  | .bari f => Sys2Proof.Machine.execBari f s
  | .bara f => Sys2Proof.Machine.execBara f s
  | .barw f => Sys2Proof.Machine.execBarw f s
  | .ccvt f => Sys2Proof.Machine.execCcvt f s
  | .icbc f => Sys2Proof.Machine.execIcbc f s
  | .lrule f => Sys2Proof.Machine.execLrule f s
  | .nset f => Sys2Proof.Machine.execNset f s
  | .pbind f => Sys2Proof.Machine.execPbind f s
  | .punb f => Sys2Proof.Machine.execPunb f s
  | .smap f => Sys2Proof.Machine.execSmap f s
  | .tdld f => Sys2Proof.Machine.execTdld f s
  | .tdset f => Sys2Proof.Machine.execTdset f s
  | .vset f => Sys2Proof.Machine.execVset f s
  | .addI f => Sys2Proof.Machine.execAddI f s
  | .andI f => Sys2Proof.Machine.execAndI f s
  | .orI f => Sys2Proof.Machine.execOrI f s
  | .xorI f => Sys2Proof.Machine.execXorI f s
  | .shlI f => Sys2Proof.Machine.execShlI f s
  | .shrI f => Sys2Proof.Machine.execShrI f s
  | .sarI f => Sys2Proof.Machine.execSarI f s
  | .rolI f => Sys2Proof.Machine.execRolI f s
  | .mulI f => Sys2Proof.Machine.execMulI f s
  | .movI f => Sys2Proof.Machine.execMovI f s
  | .trap f => Sys2Proof.Machine.execTrap f s
  | .sysr f => Sys2Proof.Machine.execSysr f s
  | .sysw f => Sys2Proof.Machine.execSysw f s
  | .movL f => Sys2Proof.Machine.execMovL f s
  | .fence f => Sys2Proof.Machine.execFence f s
  | .kchk f => Sys2Proof.Machine.execKchk f s
  | .ld f => Sys2Proof.Machine.execLd f s
  | .st f => Sys2Proof.Machine.execSt f s
  | .atomAdd f => Sys2Proof.Machine.execAtomAdd f s
  | .atomAnd f => Sys2Proof.Machine.execAtomAnd f s
  | .atomOr f => Sys2Proof.Machine.execAtomOr f s
  | .atomXor f => Sys2Proof.Machine.execAtomXor f s
  | .atomMin f => Sys2Proof.Machine.execAtomMin f s
  | .atomMax f => Sys2Proof.Machine.execAtomMax f s
  | .atomMinu f => Sys2Proof.Machine.execAtomMinu f s
  | .atomMaxu f => Sys2Proof.Machine.execAtomMaxu f s
  | .atomSwap f => Sys2Proof.Machine.execAtomSwap f s
  | .atomCas f => Sys2Proof.Machine.execAtomCas f s
  | .ldc f => Sys2Proof.Machine.execLdc f s
  | .bkpt f => Sys2Proof.Machine.execBkpt f s
  | .vRdv f => Sys2Proof.Machine.execVRdv f s
  | .vadd f => Sys2Proof.Machine.execVadd f s
  | .vsub f => Sys2Proof.Machine.execVsub f s
  | .vmul f => Sys2Proof.Machine.execVmul f s
  | .vfma f => Sys2Proof.Machine.execVfma f s
  | .vmin f => Sys2Proof.Machine.execVmin f s
  | .vmax f => Sys2Proof.Machine.execVmax f s
  | .vdiv f => Sys2Proof.Machine.execVdiv f s
  | .vabs f => Sys2Proof.Machine.execVabs f s
  | .vneg f => Sys2Proof.Machine.execVneg f s
  | .vsqrt f => Sys2Proof.Machine.execVsqrt f s
  | .vrcp f => Sys2Proof.Machine.execVrcp f s
  | .vrsq f => Sys2Proof.Machine.execVrsq f s
  | .vexp2 f => Sys2Proof.Machine.execVexp2 f s
  | .vlog2 f => Sys2Proof.Machine.execVlog2 f s
  | .vscl f => Sys2Proof.Machine.execVscl f s
  | .vand f => Sys2Proof.Machine.execVand f s
  | .vor f => Sys2Proof.Machine.execVor f s
  | .vxor f => Sys2Proof.Machine.execVxor f s
  | .vnot f => Sys2Proof.Machine.execVnot f s
  | .vshl f => Sys2Proof.Machine.execVshl f s
  | .vshr f => Sys2Proof.Machine.execVshr f s
  | .vsar f => Sys2Proof.Machine.execVsar f s
  | .vrol f => Sys2Proof.Machine.execVrol f s
  | .vmov f => Sys2Proof.Machine.execVmov f s
  | .vsel f => Sys2Proof.Machine.execVsel f s
  | .vcmpEq f => Sys2Proof.Machine.execVcmpEq f s
  | .vcmpNe f => Sys2Proof.Machine.execVcmpNe f s
  | .vcmpLt f => Sys2Proof.Machine.execVcmpLt f s
  | .vcmpLe f => Sys2Proof.Machine.execVcmpLe f s
  | .vcmpGt f => Sys2Proof.Machine.execVcmpGt f s
  | .vcmpGe f => Sys2Proof.Machine.execVcmpGe f s
  | .vbc f => Sys2Proof.Machine.execVbc f s
  | .vext f => Sys2Proof.Machine.execVext f s
  | .vins f => Sys2Proof.Machine.execVins f s
  | .vslide f => Sys2Proof.Machine.execVslide f s
  | .vredAdd f => Sys2Proof.Machine.execVredAdd f s
  | .vredMin f => Sys2Proof.Machine.execVredMin f s
  | .vredMax f => Sys2Proof.Machine.execVredMax f s
  | .vcvt f => Sys2Proof.Machine.execVcvt f s
  | .vqnt f => Sys2Proof.Machine.execVqnt f s
  | .vdqnt f => Sys2Proof.Machine.execVdqnt f s
  | .vld f => Sys2Proof.Machine.execVld f s
  | .vst f => Sys2Proof.Machine.execVst f s
  | .vldx f => Sys2Proof.Machine.execVldx f s
  | .vstx f => Sys2Proof.Machine.execVstx f s
  | .mRdv f => Sys2Proof.Machine.execMRdv f s
  | .mma f => Sys2Proof.Machine.execMma f s
  | .mnest f t => Sys2Proof.Machine.execMnest f t s
  | .mnestStep => Sys2Proof.Machine.execMnestStep s
  | .mbld f t => Sys2Proof.Machine.execMbld f t s
  | .mwb f => Sys2Proof.Machine.execMwb f s
  | .mwbMem f t => Sys2Proof.Machine.execMwbMem f t s
  | .mscl f => Sys2Proof.Machine.execMscl f s
  | .msclReg f => Sys2Proof.Machine.execMsclReg f s
  | .mtrn f => Sys2Proof.Machine.execMtrn f s
  | .mxmov f => Sys2Proof.Machine.execMxmov f s
  | .mzero f => Sys2Proof.Machine.execMzero f s
  | .mgang f => Sys2Proof.Machine.execMgang f s
  | .mgangLeave f => Sys2Proof.Machine.execMgangLeave f s
  | .mkat f t => Sys2Proof.Machine.execMkat f t s
  | .yRdv f t => Sys2Proof.Machine.execYRdv f t s
  | .ycopy f t => Sys2Proof.Machine.execYcopy f t s
  | .yfill f t => Sys2Proof.Machine.execYfill f t s
  | .ygath f t => Sys2Proof.Machine.execYgath f t s
  | .yscat f t => Sys2Proof.Machine.execYscat f t s
  | .ypref f t => Sys2Proof.Machine.execYpref f t s
  | .yfpr f t => Sys2Proof.Machine.execYfpr f t s
  | .ycmp f t => Sys2Proof.Machine.execYcmp f t s
  | .dtld f t => Sys2Proof.Machine.execDtld f t s
  | .ypin f t => Sys2Proof.Machine.execYpin f t s
  | .yunpin f t => Sys2Proof.Machine.execYunpin f t s
  | .reshard f t x => Sys2Proof.Machine.execReshard f t x s
  | .rsplan f t x => Sys2Proof.Machine.execRsplan f t x s
  | .xag f t x => Sys2Proof.Machine.execXag f t x s
  | .xrs f t x => Sys2Proof.Machine.execXrs f t x s
  | .xa2a f t x => Sys2Proof.Machine.execXa2a f t x s
  | .xprm f t x => Sys2Proof.Machine.execXprm f t x s
  | .xhalo f t => Sys2Proof.Machine.execXhalo f t s
  | .xstf f t => Sys2Proof.Machine.execXstf f t s
  | .xatom f t x => Sys2Proof.Machine.execXatom f t x s
  | .writeMeshshape f => Sys2Proof.Machine.execWriteMeshshape f s
  | .writeMeshpos f => Sys2Proof.Machine.execWriteMeshpos f s
  | .writeBankloss f => Sys2Proof.Machine.execWriteBankloss f s
  | .writeDphase f => Sys2Proof.Machine.execWriteDphase f s
  | .writeArstat f => Sys2Proof.Machine.execWriteArstat f s
  | .writeOrdmask f => Sys2Proof.Machine.execWriteOrdmask f s
  | .writePrommiss f => Sys2Proof.Machine.execWritePrommiss f s
  | .writeTrapbase f => Sys2Proof.Machine.execWriteTrapbase f s
  | .writeTrapctl f => Sys2Proof.Machine.execWriteTrapctl f s
  | .writeRwctl f => Sys2Proof.Machine.execWriteRwctl f s
  | .writeRwsup f => Sys2Proof.Machine.execWriteRwsup f s
  | .writeRwlog f => Sys2Proof.Machine.execWriteRwlog f s
  | .writeInject f => Sys2Proof.Machine.execWriteInject f s
  | .writeMcstat f => Sys2Proof.Machine.execWriteMcstat f s
  | .writeTraprecWord1 f => Sys2Proof.Machine.execWriteTraprecWord1 f s
  | .writeDisplaced f => Sys2Proof.Machine.execWriteDisplaced f s
  | .start => Sys2Proof.Machine.execStart s
  | .stop => Sys2Proof.Machine.execStop s
  | .abort => Sys2Proof.Machine.execAbort s
  | .jwinval v => Sys2Proof.Machine.execJwinval v s
  | .hostRegisterWrite off v => Sys2Proof.Machine.execHostRegisterWrite off v s
  | .invalidationComplete => Sys2Proof.Machine.execInvalidationComplete s
  | .imageCheck => Sys2Proof.Machine.execImageCheck s
  | .hostBar2Access write off data => Sys2Proof.Machine.execHostBar2Access write off data s
  | .powerOn trustedOk diesOk => Sys2Proof.Machine.execPowerOn trustedOk diesOk s
  | .firmwareReplace die image ok => Sys2Proof.Machine.execFirmwareReplace die image ok s
  | .debugModeChange mode signedOk => Sys2Proof.Machine.execDebugModeChange mode signedOk s
  | .quote nonce => Sys2Proof.Machine.execQuote nonce s
  | .drain part => Sys2Proof.Machine.execDrain part s
  | .contextSave ctx area => Sys2Proof.Machine.execContextSave ctx area s
  | .resume unit => Sys2Proof.Machine.execResume unit s
  | .flitReceive link header payload => Sys2Proof.Machine.execFlitReceive link header payload s
  | .bufferBankRetire link => Sys2Proof.Machine.execBufferBankRetire link s
  | .linkFailure link => Sys2Proof.Machine.execLinkFailure link s
  | .heartbeat die stack owed => Sys2Proof.Machine.execHeartbeat die stack owed s
  | .heartbeatMissed die stack => Sys2Proof.Machine.execHeartbeatMissed die stack s
  | .eccCorrectionReplay op req => Sys2Proof.Machine.execEccCorrectionReplay op req s
  | .farChainLinkRetry op req => Sys2Proof.Machine.execFarChainLinkRetry op req s
  | .fadeDecrement die base => Sys2Proof.Machine.execFadeDecrement die base s
  | .walkComplete core page => Sys2Proof.Machine.execWalkComplete core page s
  | .lineFetch core ctx eng => Sys2Proof.Machine.execLineFetch core ctx eng s
  | .promiseMiss ctx tok => Sys2Proof.Machine.execPromiseMiss ctx tok s
  | .deadlock ctx => Sys2Proof.Machine.execDeadlock ctx s
  | .agePromotion unit => Sys2Proof.Machine.execAgePromotion unit s
  | .candidateWaitExpiry core eng ctx => Sys2Proof.Machine.execCandidateWaitExpiry core eng ctx s
  | .trapEntry ctx => Sys2Proof.Machine.execTrapEntry ctx s
  | .residueErrorLogic ctx eng hit persists => Sys2Proof.Machine.execResidueErrorLogic ctx eng hit persists s
  | .residueErrorStorage ctx eng hit => Sys2Proof.Machine.execResidueErrorStorage ctx eng hit s
  | .uncorrectableError addr => Sys2Proof.Machine.execUncorrectableError addr s
  | .versionLogDiscard die => Sys2Proof.Machine.execVersionLogDiscard die s
  | .launchRelease queue => Sys2Proof.Machine.execLaunchRelease queue s
  | .graphStateEffect => Sys2Proof.Machine.execGraphStateEffect s
  | .counterFinal level index => Sys2Proof.Machine.execCounterFinal level index s
  | .jobSeal => Sys2Proof.Machine.execJobSeal s
  | .unitReady unit => Sys2Proof.Machine.execUnitReady unit s
  | .placement unit => Sys2Proof.Machine.execPlacement unit s
  | .unitDone unit => Sys2Proof.Machine.execUnitDone unit s
  | .barrierArrival arrival => Sys2Proof.Machine.execBarrierArrival arrival s
  | .meshLaunchMatch contribution => Sys2Proof.Machine.execMeshLaunchMatch contribution s
  | .collectiveMatch op => Sys2Proof.Machine.execCollectiveMatch op s
  | .collectivePiece op piece => Sys2Proof.Machine.execCollectivePiece op piece s
  | .planComplete op => Sys2Proof.Machine.execPlanComplete op s
  | .resultWrite ctx => Sys2Proof.Machine.execResultWrite ctx s
  | .longLatencyComplete op => Sys2Proof.Machine.execLongLatencyComplete op s
  | .loadReturn op pick => Sys2Proof.Machine.execLoadReturn op pick s
  | .atomReturn op => Sys2Proof.Machine.execAtomReturn op s
  | .tokenComplete op => Sys2Proof.Machine.execTokenComplete op s
  | .dtldComplete op => Sys2Proof.Machine.execDtldComplete op s
  | .ccvtComplete op => Sys2Proof.Machine.execCcvtComplete op s
  | .residencyLoaded op => Sys2Proof.Machine.execResidencyLoaded op s
  | .mkatComplete op => Sys2Proof.Machine.execMkatComplete op s
  | .pinFillComplete op => Sys2Proof.Machine.execPinFillComplete op s
  | .flagIncrement op => Sys2Proof.Machine.execFlagIncrement op s
  | .icbcAckComplete op => Sys2Proof.Machine.execIcbcAckComplete op s
  | .portRowReady ctx port => Sys2Proof.Machine.execPortRowReady ctx port s
  | .sinkRowAccepted ctx port => Sys2Proof.Machine.execSinkRowAccepted ctx port s
  | .fenceComplete ctx => Sys2Proof.Machine.execFenceComplete ctx s
  | .ctrwaitCondition ctx => Sys2Proof.Machine.execCtrwaitCondition ctx s
  | .sleepWake ctx => Sys2Proof.Machine.execSleepWake ctx s
  | .lanternDecision ctx => Sys2Proof.Machine.execLanternDecision ctx s
  | .groupIssue ctx => Sys2Proof.Machine.execGroupIssue ctx s
  | .deliveredFault ctx => Sys2Proof.Machine.execDeliveredFault ctx s
  | .storePerformed op => Sys2Proof.Machine.execStorePerformed op s
  | .versionSpillComplete die addr => Sys2Proof.Machine.execVersionSpillComplete die addr s
  | .linkLaneLoss link lanes => Sys2Proof.Machine.execLinkLaneLoss link lanes s
  | .linkReinitialisation link => Sys2Proof.Machine.execLinkReinitialisation link s
  | .baseDieReinitialisation die stack => Sys2Proof.Machine.execBaseDieReinitialisation die stack s
  | .keyProvisioning => Sys2Proof.Machine.execKeyProvisioning s

end Sys2Proof.Machine
end

