-- ==== Sys2Proof/Machine/Turns.lean ====
section
/-! DEFINITION. Which agent moves: the turns of a cycle, the clock, and the placing of one instruction (02_execution.md
R41, R48; 09_scheduling.md R236 to R240; logs 4 and 5). -/
namespace Sys2Proof.Machine

abbrev Out := Host.Outcome State Fault Refusal

/-! ## One engine of a core -/

/-- The engine is held at issue. -/
def Eng.isHeld (n : Eng) : Bool := n.st == .waiting || n.st == .syncBlocked

def ageOf (n : Eng) (now : Nat) : Nat := n.age.getD now

/-- A trap found on the way to an instruction (R320). -/
def State.fetchTrapped (s : State) (c : Nat) (e : Engine) (t : Trap) : State :=
  let t1 : Trap := { t with age := ageOf (s.eng c e) s.cycle }
  if t1.code = tMcheck then s.machineCheck c t1 false else s.raise c t1

/-- The matrix engine issues through the Lantern (R269); a group without replacements takes no issue cycle (R287). -/
def State.issueMatrix (s : State) (c : Nat) : Out :=
  match s.issueM c with
  | .run s1 pos next i => exec i (s1.at_ c .m pos next)
  | .group s1 =>
    let free := (s1.ctx c).lantern.group.any fun g => g.repls.isEmpty
    execGroupIssue c (if free then { s1 with turns := (coreOf c, .m) :: s1.turns } else s1)
  | .wait s1 => .next s1
  | .far s1 p => .next (s1.modEng c .m fun n => { n with cur := p })
  | .fault s1 t => .next (s1.fetchTrapped c .m t)

/-- The engine fetches and issues its next instruction (R317, R320). -/
def State.issue (s : State) (c : Nat) (e : Engine) : Out :=
  if e = .m then s.issueMatrix c
  else match s.fetch c e with
    | .ok s1 pos next i => exec i (s1.at_ c e pos next)
    | .far s1 p => .next (s1.modEng c e fun n => { n with cur := p })
    | .fault s1 t => .next (s1.fetchTrapped c e t)

/-- What a held engine does when its instruction is judged again. -/
def State.retryHeld (s : State) (c : Nat) (e : Engine) (i : Instr) : Out :=
  let t : State := { s with focus := c }
  if e = .m then t.issueMatrix c else exec i t

/-- What held the engine is over: the context is Ready, and a candidate of this cycle unless its GAP runs (R44, R239). -/
def State.freed (s : State) (c : Nat) (e : Engine) : State :=
  s.modEng c e fun n => { n with st := .ready, candSince := if n.gapEnd ≤ s.cycle then some s.cycle else none }

/-- A held instruction is judged again: it stays held, or its engine is Ready and competes for issue (R44, R236). A DTLD that
waited for a generation loads at once (R82). -/
def State.probe (s : State) (c : Nat) (e : Engine) : State :=
  let n := s.eng c e
  match n.isHeld, n.held with
  | true, some i =>
    match s.retryHeld c e i, n.hold with
    | .next u, .slot _ => u
    | .next u, _ => if (u.eng c e).isHeld then u else s.freed c e
    | _, _ => s.freed c e
  | _, _ => s

/-- Inserts by a measure, smallest first, keeping the order of equals. -/
def insertBy {α : Type} (f : α → Nat) (a : α) : List α → List α
  | [] => [a]
  | b :: l => if f b ≤ f a then b :: insertBy f a l else a :: b :: l
def sortBy {α : Type} (f : α → Nat) (l : List α) : List α := l.foldl (fun acc a => insertBy f a acc) []

/-- The contexts of a core whose engine is held, oldest instruction first. -/
def State.heldOf (s : State) (k : Nat) (e : Engine) : List Nat :=
  sortBy (fun c => ageOf (s.eng c e) s.cycle) ((ctxsOf k).filter fun c => (s.ctx c).mayIssue e && (s.eng c e).isHeld)

/-- The turn of an engine of a core in a cycle: held instructions are judged (R48), then one context issues unless the engine is
still issuing (R236). -/
def State.engineTurn (s : State) (k : Nat) (e : Engine) : Out :=
  let s1 := (s.heldOf k e).foldl (fun t c => t.probe c e) s
  if s1.engineBusy k e then .next s1
  else
    match s1.selectCtx k e with
    | (s2, some c) => s2.issue c e
    | (s2, none) => .next s2

/-! ## The clock -/

/-- Two engines of a context are held by granules' bits: which of them takes a granule is a matter of issue age (R65). -/
def State.contended (s : State) (k : Nat) : Bool :=
  (ctxsOf k).any fun c => 1 < (allEngines.filter fun e => (s.eng c e).st == .syncBlocked).length

/-- The engines of a core in the order C, V, M, Y, in which those that present their reads in one cycle are granted (R69); where
engines contend for granules, in the order of their oldest instruction first (R65, log 19). -/
def State.engineOrder (s : State) (k : Nat) : List Engine :=
  if s.contended k then
    sortBy (fun e => (ctxsOf k).foldl (fun n c => Nat.min n (ageOf (s.eng c e) s.cycle)) s.cycle) allEngines
  else allEngines

/-- Cores that hold a bound context. -/
def State.liveCores (s : State) : List Nat :=
  s.ctxs.foldl (fun l (c, x) => if x.unit.isSome then insertNew l (coreOf c) else l) []

def State.turnsOf (s : State) : List (Nat × Engine) :=
  s.liveCores.foldl (fun l k => l ++ (s.engineOrder k).map fun e => (k, e)) []

/-- A candidate counts its wait from the cycle in which it became one (R239). -/
def State.markCandidate (s : State) (c : Nat) (n : Eng) (e : Engine) : Eng :=
  { n with candSince := if s.candidate c e then some (n.candSince.getD s.cycle) else none }

/-- Of a context in a new cycle: its candidates, and since when the conditions of DEADLOCK hold (R239, R48). -/
def State.tickCtx (s : State) (c : Nat) (x : Ctx) : Ctx :=
  { x with c := s.markCandidate c x.c .c, v := s.markCandidate c x.v .v, m := s.markCandidate c x.m .m
           y := s.markCandidate c x.y .y
           deadSince := if s.deadlocked c then some (x.deadSince.getD s.cycle) else none }

/-- An MKAT counts a cycle in which its engine has streamed no bit-plane (R473). -/
def tickCore (now : Nat) (k : Core) : Core :=
  match k.kat with
  | some (n, i) => if k.stream ≤ now then { k with kat := some (n, i + 1) } else k
  | none => k

/-- The clock advances: every engine of a core with a bound context has a turn in the new cycle. -/
def State.tick (s : State) : State :=
  let t : State := { s with cycle := s.cycle + 1, cores := s.cores.map fun (k, x) => (k, tickCore s.cycle x) }
  let u : State := { t with ctxs := t.ctxs.map fun (c, x) => (c, t.tickCtx c x) }
  { u with turns := u.turnsOf }

/-! ## Chosen moves (log 5) -/

/-- What is dropped from a cache: nothing that a program can tell (log 24). -/
def State.dropTlb (s : State) (k base : Nat) : State :=
  s.modCore k fun x => { x with tlb := x.tlb.filter fun t => t.base != base }
/-- An entry that a TLB of the die has held and that no completed invalidation has removed is used again (R188). -/
def State.staleTlb (s : State) (k : Nat) (e : TlbEnt) : State :=
  if (s.die (dieOf k)).seen.contains e then
    s.modCore k fun x => { x with tlb := pushCap Config.tlbEntries (x.tlb.filter fun t => !(t.hits e.base || e.hits t.base)) e }
  else s
def State.dropDieTlb (s : State) (d base : Nat) : State :=
  s.modDie d fun x => { x with tlb := x.tlb.filter fun t => t.base != base }
def State.dropLine (s : State) (k line : Nat) : State := s.modCore k fun x => { x with icache := tdel x.icache line }
def State.dropSnapshot (s : State) (k a : Nat) : State :=
  s.modCore k fun x => { x with snaps := x.snaps.filter fun p => p.addr != a }

/-- Modules are joined while no job holds them (R9, R11). -/
def State.join (s : State) (n : Nat) : State :=
  match s.job.st with
  | .loading | .running | .stopped => s
  | .idle | .done | .faulted | .aborted => if 1 ≤ n ∧ n ≤ 32 then { s with modules := n } else s

/-- Firmware reads and writes special registers. -/
def firmwareForm : Instr → Bool
  | .sysr _ | .sysw _ | .writeMeshshape _ | .writeMeshpos _ | .writeBankloss _ | .writeRwlog _ | .writeMcstat _ => true
  | _ => false

/-- The mode of a core that runs firmware: management, or secure (R3, R10). -/
def firmwareMode (core : Nat) : Option Mode :=
  if core < 2 ^ 18 then none else if core < 2 ^ 19 then some .management else if core < 2 ^ 19 + 32 then some .secure else none

/-- A management or secure core executes an instruction in its mode. What firmware does about a trap is its own: such an
instruction leaves nothing behind. -/
def State.firmware (s : State) (core : Nat) (i : Instr) (regs : Tab Word) : Out :=
  match firmwareMode core with
  | none => .next s
  | some m =>
    if !firmwareForm i || s.dieCount ≤ dieOf core then .next s
    else
      let c := 4 * core
      let t := { s with focus := c }.modCtx c fun x => { x with mode := m, regs := { x.regs with s := regs } }
      match exec i t with
      | .next u =>
        let logs (x : State) : List TrapRec := (x.die (dieOf core)).flog ++ (x.die (dieOf core)).flogWait
        .next (if logs u == logs s then u else s)
      | r => r

/-- A move that the schedule has chosen. Instructions of a stream issue by the turn of their engine alone; the clock waits for
what must come before it. -/
def State.chosen (s : State) (t : Turn) : Out :=
  match t with
  | .event i => if i.engine.isNone then exec i s else .next s
  | .engine k e => s.engineTurn k e
  | .tick => match (s.mustNow).orElse fun _ => s.autoLate with
    | some t => .next { t with agenda := .tick :: t.agenda }
    | none => .next s.tick
  | .sample n => .next (s.sampleOp n)
  | .sampleElem n p e => .next (s.sampleElem n p e)
  | .evictTlb k b => .next (s.dropTlb k b)
  | .staleTlb k e => .next (s.staleTlb k e)
  | .evictDieTlb d b => .next (s.dropDieTlb d b)
  | .evictLine k l => .next (s.dropLine k l)
  | .evictSnapshot k a => .next (s.dropSnapshot k a)
  | .granule n g => .next (s.granuleFirst n g)
  | .freeFlit l v => .next (s.freeFlit l v)
  | .join n => .next (s.join n)
  | .firmware k i r => s.firmware k i r

/-- The move that comes where none has been chosen: an event that is due, the next turn of this cycle, or the clock, with which
links deliver what they hold. -/
def State.unasked (s : State) : Out :=
  match s.auto with
  | some t => .next t
  | none => match s.turns with
    | (k, e) :: l => State.engineTurn { s with turns := l } k e
    | [] => match s.autoLate with
      | some t => .next t
      | none => .next s.freeFlits.tick

/-! ## Placing one instruction (log 4) -/

/-- The nibbles of n lanes that hold words k, k + 1, … of one instruction (R310). -/
def laneNibbles (e : Engine) : Nat → Nat → Nat
  | 0, _ => 0
  | n + 1, k => (if k = 0 then 1 + engNo e else 9 + engNo e) + 16 * laneNibbles e n (k + 1)

/-- Words in lanes, the first lowest. -/
def laneWords : List W32 → Nat
  | [] => 0
  | w :: l => w.toNat + 2 ^ 32 * laneWords l

/-- A line whose lanes from 1 on hold words k, k + 1, … of an instruction, with its parity nibble (R309, R311). -/
def placeLine (e : Engine) (ws : List W32) (k : Nat) : BitVec 256 :=
  let l := BitVec.ofNat 256 (laneNibbles e ws.length k + 2 ^ 32 * laneWords ws)
  l ||| ((nibbleXor l).zeroExtend 256 <<< 28)

/-- The engine whose decoder accepts the words, asked as decodeTableWord asks (log 6), and the words it takes. -/
def placeEngine (ws : List W32) : Engine × List W32 :=
  match firstSome (fun e => match decode e ws with
      | .ok (_, rest) => some (e, ws.take (ws.length - rest.length))
      | .error _ => none) [Engine.c, .m, .v, .y] with
  | some r => r
  | none => (.c, ws.take 1)

/-- Page tables that map the first 1 GiB of the virtual space, readable, writable and executable, to physical 0; and the
line at 64 KiB. -/
def placeMem (m : List Host.Cell) (e : Engine) (ws : List W32) : List Host.Cell :=
  let line := memStore m 0x10000 (bytesOfNat 32 (placeLine e (ws.take 7) 0).toNat)
  let more := if ws.length ≤ 7 then line else memStore line 0x10020 (bytesOfNat 32 (placeLine e (ws.drop 7) 7).toNat)
  let root := memStore more 0x100000 (bytesOfNat 8 (0x120000 + 1))
  memStore root 0x120000 (bytesOfNat 8 0xF)

def placeUnit (s : State) : Job :=
  { s.job with
    st := .running
    launches := tset s.job.launches 0 { record := 0, args := 0, graph := 0, released := true, started := true, units := [0],
                                         ctr := { pending := 1, sealed := true } }
    units := tset s.job.units 0 { launch := 0, die := 0, j := 0, st := .resident, ctx := some 0 } }

def placeCtx (e : Engine) : Ctx :=
  let at0 : Eng := { st := .ready, cur := { line := 0x10000, lane := 1 } }
  ({ unit := some 0, foot := 192 } : Ctx).setEng e at0

/-- The instruction of some words, where context 0 of core 0, alone on its core, issues next; the job holds die 0. -/
def State.place (s : State) (ws : List W32) : State :=
  let (e, is) := placeEngine ws
  let d : Die :=
    { s.die 0 with
      ptroot := 0x100001, tlb := [], placed := true, meshpos := 0, meshshape := 0x1001001001
      out := false, stacksOut := [], channelsOut := [] }
  let x := if e = .c then placeCtx .c else { placeCtx e with c := { st := .waiting, hold := .rdv } }
  { s with
    agenda := [.engine 0 e], turns := [], focus := 0
    mem := placeMem s.mem e is
    job := placeUnit s
    cores := tset s.cores 0 {}
    dies := tset s.dies 0 d
    ctxs := tset (tdel (tdel (tdel s.ctxs 1) 2) 3) 0 x }

end Sys2Proof.Machine
end

