-- ==== Sys2Proof/Machine/Step.lean ====
section
/-! DEFINITION. One step of the machine. -/
namespace Sys2Proof.Machine

/-- One step: the move that the schedule has chosen, or the one that comes unasked (log 5). -/
def step (s : State) : Host.Outcome State Fault Refusal :=
  match s.agenda with
  | t :: l => State.chosen { s with agenda := l } t
  | [] => s.unasked

/-- The instruction of a table word stored where the next step fetches (log 4). -/
def State.withFetchWord (s : State) (nbits w : Nat) : State := s.place (tableWords nbits w)

end Sys2Proof.Machine
end

