-- ==== Sys2Proof/Safety.lean ====
section
/-! DEFINITION. What counts as a safe run, in the terms that statements use: the invariants that a step keeps, the ways in
which an instruction can end, and what it may leave changed. -/
namespace Sys2Proof
open Sys2Proof.Machine

/-- Memory keeps its canonical form. -/
def SafeMem (s : State) : Prop := Memory.wf s.mem = true

/-- A step answered a next state. -/
def Stepped (o : Host.Outcome State Fault Refusal) : Prop := ∃ t, o = .next t

/-! ## Premises -/

/-- The context that runs. -/
abbrev here (s : State) : Ctx := s.ctx s.focus

/-- An s register of the context that runs (R66, R248). -/
abbrev reg (s : State) (r : BitVec 6) : Word := (here s).sr r.toNat

/-- INJECT is not armed, so no residue error is planted (R256). -/
abbrev Unplanted (s : State) : Prop := (here s).sprs.inject.getLsbD 63 = false

/-- No load or atomic in flight has still to write one of the registers (R367). -/
abbrev Settled (s : State) (rs : List (BitVec 6)) : Prop := ∀ r ∈ rs, s.sPending s.focus r.toNat = false

/-- No trap waits to be taken, the engine does not single-step, and no residue error is planted: nothing but the
instruction itself acts (R246, R251, R256). -/
structure Calm (s : State) (i : Instr) : Prop where
  pend : (here s).pend = []
  step : s.steps s.focus (Instr.eng i) = false
  unplanted : Unplanted s

/-! ## How an instruction ends -/

/-- The position after the instruction's words (R315). -/
abbrev fallThrough (s : State) (i : Instr) : Pos := (s.eng s.focus (Instr.eng i)).next

/-- The instruction commits with the effect that turned s into t, and its cursor moves to p. -/
abbrev Commits (i : Instr) (s t : State) (p : Pos) : Prop := exec i s = .next (t.retire i p)

/-- The instruction commits nothing and raises the trap, whose record names it (R244, R250). -/
abbrev Raises (i : Instr) (s : State) (t : Trap) : Prop := exec i s = .next (s.raise s.focus (t.of s i))

/-- The instruction is held at issue: its engine waits, and nothing else changes (R41, R44). -/
abbrev Holds (i : Instr) (s : State) (st : EngState) (h : Hold) : Prop :=
  exec i s = .next (s.waitOn s.focus (Instr.eng i) st h i)

/-! ## What stays as it was -/

/-- Every byte of memory reads as before. -/
abbrev SameMemory (s t : State) : Prop := ∀ a, memRead t.mem a = memRead s.mem a

/-- Every byte of memory outside the bytes of some pieces reads as before. -/
abbrev SameOutside (segs : List Seg) (s t : State) : Prop :=
  ∀ a, (∀ g ∈ segs, a < g.pa ∨ g.pa + g.len ≤ a) → memRead t.mem a = memRead s.mem a

/-- Nothing outside the contexts and the cores' issue selection differs, but for the count of scheduled results; no other
context differs, and the core of the context only in how long its engines are busy. -/
structure OnlyHere (s t : State) : Prop where
  outside : t = { s with ctxs := t.ctxs, cores := t.cores, seqNext := t.seqNext }
  others : ∀ c, c ≠ s.focus → t.ctx c = s.ctx c
  cores : ∀ k, t.core k = { s.core k with busy := (t.core k).busy }

/-- DISPLACED as it was, or with V cleared because the displaced word has run (R267). -/
def DisplacedKept (old new : Word) : Prop := new = old ∨ new = old &&& ~~~(1#64 <<< 63)

/-- What a context holds beside its engines: its registers, its register space, its ports, its views, its mode, its call
depth, the results in flight, and its special registers; DISPLACED's V is cleared once the word that it held has run. -/
structure KeepsCtx (x y : Ctx) : Prop where
  unit : y.unit = x.unit
  mode : y.mode = x.mode
  depth : y.depth = x.depth
  regs : y.regs = x.regs
  gran : y.gran = x.gran
  ports : y.ports = x.ports
  views : y.views = x.views
  captured : y.captured = x.captured
  lands : y.lands = x.lands
  sprs : y.sprs = { x.sprs with displaced := y.sprs.displaced }
  displaced : DisplacedKept x.sprs.displaced y.sprs.displaced

/-- Nothing of the context that runs changes beside its engines, no other context, no byte of memory, and nothing of the job,
the clusters, the links and the host interface. -/
structure Quiet (s t : State) : Prop where
  focus : t.focus = s.focus
  cycle : t.cycle = s.cycle
  mine : KeepsCtx (here s) (here t)
  others : ∀ c, c ≠ s.focus → t.ctx c = s.ctx c
  memory : t.mem = s.mem
  job : t.job = s.job
  clusters : t.clusters = s.clusters
  links : t.links = s.links
  host : t.host = s.host

/-- The instruction completes at issue with operation o in flight, the next one in number, and its cursor behind its words;
every other operation in flight is as it was. -/
structure Sends (i : Instr) (s t : State) (o : Op) : Prop where
  runs : exec i s = .next t
  cursor : (t.eng s.focus (Instr.eng i)).cur = fallThrough s i
  sent : t.op? s.opNext = some o
  count : t.opNext = s.opNext + 1
  ops : ∀ n, n ≠ s.opNext → t.op? n = s.op? n

end Sys2Proof
end

