-- ==== Sys2Proof/Certificates/Slice0/Obligations.lean ====
section
/-! DEFINITION. The statements about the model that are to be proved, at the end, over parts named before. Each is taken from the rules of spec/ that its docstring
names; what is the model's own choice is said there, with its log entry. -/
namespace Sys2Proof
open Sys2Proof.Machine

/-! ## Scalar instructions of the control engine -/

/-- Shift and rotate amount: bits 7:0 of the operand (R92). -/
def amount (b : Word) : Nat := b.toNat % 256

/-- Register forms of ALU-A whose result is a function of two registers: constructor, latency, result (R360, R362, R92). -/
def aluRows : List ((C3 → Instr) × Nat × (Word → Word → Word)) :=
  [ (.add, 1, fun a b => a + b), (.sub, 1, fun a b => a - b), (.and, 1, fun a b => a &&& b), (.or, 1, fun a b => a ||| b)
  , (.xor, 1, fun a b => a ^^^ b)
  , (.shl, 1, fun a b => if amount b < 64 then a <<< amount b else 0)
  , (.shr, 1, fun a b => if amount b < 64 then a >>> amount b else 0)
  , (.sar, 1, fun a b => a.sshiftRight (amount b))
  , (.rol, 1, fun a b => a.rotateLeft (amount b % 64))
  , (.mul, 4, fun a b => a * b)
  , (.mulh, 4, fun a b => (a.signExtend 128 * b.signExtend 128).extractLsb' 64 64)
  , (.mulhU, 4, fun a b => (a.zeroExtend 128 * b.zeroExtend 128).extractLsb' 64 64) ]

/-- Immediate forms: constructor, latency, whether IMM is sign-extended, result (R360, R362, R482). -/
def immRows : List ((CI → Instr) × Nat × Bool × (Word → Word → Word)) :=
  [ (.addI, 1, true, fun a b => a + b), (.andI, 1, false, fun a b => a &&& b), (.orI, 1, false, fun a b => a ||| b)
  , (.xorI, 1, false, fun a b => a ^^^ b)
  , (.shlI, 1, false, fun a b => if amount b < 64 then a <<< amount b else 0)
  , (.shrI, 1, false, fun a b => if amount b < 64 then a >>> amount b else 0)
  , (.sarI, 1, false, fun a b => a.sshiftRight (amount b))
  , (.rolI, 1, false, fun a b => a.rotateLeft (amount b % 64))
  , (.mulI, 4, true, fun a b => a * b)
  , (.movI, 1, true, fun _ b => b) ]

/-- IMM extended as its row says (R323). -/
def immOf (signed : Bool) (f : CI) : Word := if signed then f.imm.signExtend 64 else f.imm.zeroExtend 64

/-- Once no load or atomic has still to write a register that it names, a register form of ALU-A commits: the result stands
in flight for s[D], which takes it a latency after issue; s0 discards it (R360, R362, R47, R66, R367). -/
def AluRegisterForms : Prop :=
  ∀ row ∈ aluRows, ∀ (f : C3) (s : State), Unplanted s → Settled s [f.d, f.a, f.b] →
    Commits (row.1 f) s (s.putS s.focus f.d.toNat row.2.1 (row.2.2 (reg s f.a) (reg s f.b))) (fallThrough s (row.1 f))

/-- The immediate forms of ALU-A, and MOV of an immediate, a literal or a register (R360, R362, R323, R482). -/
def AluImmediateForms : Prop :=
  (∀ row ∈ immRows, ∀ (f : CI) (s : State), Unplanted s → Settled s [f.d, f.a] →
    Commits (row.1 f) s (s.putS s.focus f.d.toNat row.2.1 (row.2.2.2 (reg s f.a) (immOf row.2.2.1 f))) (fallThrough s (row.1 f)))
  ∧ (∀ (f : C3) (s : State), Unplanted s → Settled s [f.d, f.a, f.b] →
    Commits (.mov f) s (s.putS s.focus f.d.toNat 1 (reg s f.a)) (fallThrough s (.mov f)))
  ∧ (∀ (f : CL) (w : W32) (s : State), Unplanted s → Settled s [f.d] → f.lit = .w32 w →
    Commits (.movL f) s (s.putS s.focus f.d.toNat 1 (w.signExtend 64)) (fallThrough s (.movL f)))
  ∧ (∀ (f : CL) (w : Word) (s : State), Unplanted s → Settled s [f.d] → f.lit = .w64 w →
    Commits (.movL f) s (s.putS s.focus f.d.toNat 1 w) (fallThrough s (.movL f)))

/-- n zero bits stand above the most significant 1 of w: 64 where there is none. -/
def ZerosAbove (w : Word) (n : Nat) : Prop :=
  n ≤ 64 ∧ (∀ k, k < n → w.getLsbD (63 - k) = false) ∧ (n < 64 → w.getLsbD (63 - n) = true)

/-- n zero bits stand below the least significant 1 of w: 64 where there is none. -/
def ZerosBelow (w : Word) (n : Nat) : Prop :=
  n ≤ 64 ∧ (∀ k, k < n → w.getLsbD k = false) ∧ (n < 64 → w.getLsbD n = true)

/-- Signed and unsigned division: constructor, quotient or remainder of a and a nonzero b (R362, R93). -/
def divRows : List ((C3 → Instr) × (Word → Word → Word) × (Word → Word)) :=
  [ (.div, fun a b => BitVec.ofInt 64 (a.toInt.tdiv b.toInt), fun _ => 0)
  , (.divU, fun a b => BitVec.ofNat 64 (a.toNat / b.toNat), fun _ => 0)
  , (.rem, fun a b => BitVec.ofInt 64 (a.toInt.tmod b.toInt), fun a => a)
  , (.remU, fun a b => BitVec.ofNat 64 (a.toNat % b.toNat), fun a => a) ]

/-- DZ is set in ARSTAT, with what a SYSW of this cycle must still see (R101). -/
abbrev dzSet (s : State) : State := s.modCtx s.focus fun x => x.raiseFlags s.cycle fDZ

/-- DIV and REM (R362, R93): latency 20; a zero divisor gives quotient 0 and the dividend as remainder and sets DZ, or, with
the enable of DZ set, raises TRAP with SUB 1 and DETAILA 1 and commits nothing but DZ (R101). -/
def DivisionResults : Prop :=
  ∀ row ∈ divRows, ∀ (f : C3) (s : State), Unplanted s → Settled s [f.d, f.a, f.b] →
    let i := row.1 f
    (reg s f.b ≠ 0 →
      Commits i s (s.putS s.focus f.d.toNat 20 (row.2.1 (reg s f.a) (reg s f.b))) (fallThrough s i))
    ∧ (reg s f.b = 0 → (here s).sprs.arstat.getLsbD 9 = false →
      Commits i s (dzSet (s.putS s.focus f.d.toNat 20 (row.2.2 (reg s f.a)))) (fallThrough s i))
    ∧ (reg s f.b = 0 → (here s).sprs.arstat.getLsbD 9 = true →
      exec i s = .next ((dzSet s).raise s.focus (({ code := 0x10, sub := 1, detailA := 1 } : Trap).of s i)))

/-! ### Frames -/

/-- The register that a control instruction of one result writes, 0 where it writes none; `none` for every other
instruction. -/
def oneResult : Instr → Option Nat
  | .nop _ | .br _ | .brc _ => some 0
  | .add f | .sub f | .and f | .or f | .xor f | .shl f | .shr f | .sar f | .rol f | .mul f | .mulh f | .mulhU f
  | .min f | .minU f | .max f | .maxU f | .clz f | .ctz f | .popc f | .sel f | .cmpEq f | .cmpNe f | .cmpLt f | .cmpGe f
  | .cmpLtu f | .cmpGeu f | .mov f | .tprom f => some f.d.toNat
  | .addI f | .andI f | .orI f | .xorI f | .shlI f | .shrI f | .sarI f | .rolI f | .mulI f | .movI f => some f.d.toNat
  | .movL f => some f.d.toNat
  | .loop f => some f.a.toNat
  | _ => none

/-- One result for s register d of the mode's copy is added to those in flight, or none where d is s0. -/
def OneLanding (d : Nat) (old new : List Landing) : Prop :=
  new = old ∨ d ≠ 0 ∧ ∃ l h v, new = old ++ [l] ∧ l.eng = .c ∧ l.act = .sreg d h v

/-- FRAME of DIV and REM that raise no trap: as the other scalar instructions; of the flags only DZ may change, and ARSTAT's
other bits stay (R362). -/
def DivisionFrame : Prop :=
  ∀ row ∈ divRows, ∀ (f : C3) (s t : State), Calm s (row.1 f) →
    (reg s f.b ≠ 0 ∨ (here s).sprs.arstat.getLsbD 9 = false) → exec (row.1 f) s = .next t →
    OnlyHere s t ∧ SameMemory s t
    ∧ ∃ c lands disp ar fc fb,
      here t = { here s with c := c, lands := lands, flagCycle := fc, flagBits := fb,
                             sprs := { (here s).sprs with displaced := disp, arstat := ar } }
      ∧ OneLanding f.d.toNat (here s).lands lands ∧ DisplacedKept (here s).sprs.displaced disp
      ∧ (ar = (here s).sprs.arstat ∨ reg s f.b = 0 ∧ ar = (here s).sprs.arstat ||| 2#64)

/-- A control instruction that names a register which a load or an atomic in flight has still to write holds at issue, its
engine Waiting, with nothing else changed (R367, R41). -/
def RegisterHold : Prop :=
  ∀ (s : State), Unplanted s →
    (∀ row ∈ aluRows, ∀ f : C3, ¬ Settled s [f.d, f.a, f.b] → Holds (row.1 f) s .waiting .sreg)
    ∧ (∀ row ∈ divRows, ∀ f : C3, ¬ Settled s [f.d, f.a, f.b] → Holds (row.1 f) s .waiting .sreg)
    ∧ (∀ row ∈ immRows, ∀ f : CI, ¬ Settled s [f.d, f.a] → Holds (row.1 f) s .waiting .sreg)
    ∧ (∀ f : CM, ¬ Settled s [f.d, f.base] → Holds (.ld f) s .waiting .sreg ∧ Holds (.ldc f) s .waiting .sreg
        ∧ Holds (.st f) s .waiting .sreg)
    ∧ (∀ f : CM, ¬ Settled s [f.d, f.base, f.e] → Holds (.atomAdd f) s .waiting .sreg ∧ Holds (.atomCas f) s .waiting .sreg)

/-! ### Results land (R47) -/

/-- No granule of the context has been written in this cycle yet. -/
def Unlaid (s : State) (c : Nat) : Prop := (s.ctx c).laidAt = s.cycle → (s.ctx c).laid = []

/-- RESULT_WRITE with one result due: it leaves the list of results in flight and takes effect in the context: an s register of
the copy of the mode in which it issued, a b register, a mask, the selected bytes of a granule with their tag and, for a
filling write, the full bit, a consumed granule's empty bit, or flags (R44, R45, R46, R47, R55, R101, R248). Nothing else of
the context changes and nothing outside it; a granule's write is kept as one of its cycle. -/
def ResultLands : Prop :=
  ∀ (s : State) (c : Nat) (l : Landing), ((s.ctx c).lands.filter fun q => q.due ≤ s.cycle) = [l] →
    let x : Ctx := { s.ctx c with lands := (s.ctx c).lands.filter fun q => s.cycle < q.due }
    let gives (y : Ctx) : Prop := ∃ t, exec (.resultWrite c) s = .next t ∧ t = { s with ctxs := t.ctxs } ∧ t.ctx c = y
      ∧ ∀ d, d ≠ c → t.ctx d = s.ctx d
    let put (g : Nat) (v : Gran) : Ctx := { x with gran := tset x.gran g v }
    let laid (g : Nat) (v : Gran) (d m : GranBits) (ty : Fmt) : Ctx :=
      { put g v with laidAt := s.cycle, laid := [{ g := g, eng := engNo l.eng, seq := l.seq, data := d, sel := m, tag := ty }] }
    (∀ r h v, l.act = .sreg r h v → r ≠ 0 → (h = false ∨ r < 56) → gives { x with regs := { x.regs with s := tset x.regs.s r v } })
    ∧ (∀ r v, l.act = .sreg r true v → 56 ≤ r → gives { x with regs := { x.regs with h := tset x.regs.h r v } })
    ∧ (∀ h v, l.act = .sreg 0 h v → gives x)
    ∧ (∀ r v, l.act = .breg r v → gives { x with regs := { x.regs with b := tset x.regs.b r v } })
    ∧ (∀ r v, l.act = .mask r v → r ≠ 0 → gives { x with regs := { x.regs with m := tset x.regs.m r v } })
    ∧ (∀ v, l.act = .mask 0 v → gives x) ∧ (∀ f, l.act = .flags f → gives (x.raiseFlags s.cycle f))
    ∧ (∀ g d m ty, Unlaid s c → l.act = .gran g d m ty true → gives (laid g
        { bytes := ((x.granAt g).bytes &&& ~~~m) ||| (d &&& m), tag := ty, full := true, flipped := s.cycle,
          wasFull := (x.granAt g).judged s.cycle, handoff := l.hist } d m ty))
    ∧ (∀ g d m ty, Unlaid s c → l.act = .gran g d m ty false → gives (laid g
        { x.granAt g with bytes := ((x.granAt g).bytes &&& ~~~m) ||| (d &&& m), tag := ty } d m ty))
    ∧ (∀ g, l.act = .empty g → gives (put g
        { x.granAt g with full := false, flipped := s.cycle, wasFull := (x.granAt g).judged s.cycle }))

/-- Two results that land on one s register, or as whole granules on one granule, in one cycle leave the value of the engine
later in the order C, V, M, Y, and of one engine the value of the later-issued (R47); so do a result that lands and a write that
the granule has taken before it in the cycle. -/
def LaterResultPrevails : Prop :=
  (∀ (s : State) (c : Nat) (a : Landing) (q : Laid) (d : GranBits) (ty : Fmt) (f : Bool),
    ((s.ctx c).lands.filter fun p => p.due ≤ s.cycle) = [a] → a.act = .gran q.g d (BitVec.allOnes 2048) ty f →
    (s.ctx c).laidAt = s.cycle → (s.ctx c).laid = [q] → q.sel = BitVec.allOnes 2048 →
    (engNo a.eng < q.eng ∨ engNo a.eng = q.eng ∧ a.seq < q.seq) →
    ∃ t, exec (.resultWrite c) s = .next t ∧ ((t.ctx c).granAt q.g).bytes = q.data ∧ ((t.ctx c).granAt q.g).tag = q.tag)
  ∧ ∀ (s : State) (c : Nat) (a b : Landing), ((s.ctx c).lands.filter fun q => q.due ≤ s.cycle) = [a, b] → a.due = b.due →
    (engNo a.eng < engNo b.eng ∨ engNo a.eng = engNo b.eng ∧ a.seq < b.seq) →
    ∃ t, exec (.resultWrite c) s = .next t
    ∧ (∀ r v w, r ≠ 0 → a.act = .sreg r false v → b.act = .sreg r false w → tget (t.ctx c).regs.s r = some w)
    ∧ (∀ g d e ty u f h, Unlaid s c → a.act = .gran g d (BitVec.allOnes 2048) ty f → b.act = .gran g e (BitVec.allOnes 2048) u h →
        ((t.ctx c).granAt g).bytes = e ∧ ((t.ctx c).granAt g).tag = u)

/-- An s register that no result in flight concerns reads what was last written to it; s0 reads 0; in a handler s56 to s63
read the handler's copies, and m0 reads all ones (R66, R248). -/
def RegisterReads : Prop :=
  ∀ (x : Ctx) (r q : Nat) (h : Bool) (v : Word) (m : LaneMask),
    let y : Ctx := { x with regs := x.regs.setS r h v }
    let z : Ctx := { x with regs := x.regs.setM r m }
    y.sr 0 = 0 ∧ z.mr 0 = BitVec.allOnes 4096
    ∧ (r ≠ 0 → h = x.inHandler → y.sr r = v) ∧ (r ≠ 0 → r < 56 → y.sr r = v)
    ∧ (r ≠ 0 → 56 ≤ r → h = !x.inHandler → y.sr r = x.sr r)
    ∧ (q ≠ r → y.sr q = x.sr q) ∧ (r ≠ 0 → z.mr r = m) ∧ (q ≠ r → z.mr q = x.mr q)
    ∧ (r = 0 → y.regs = x.regs ∧ z.regs = x.regs)

/-! ## Control flow -/

/-- The code pointer of the position after a lane (R316, R386). -/
def pointerAfter (p : Pos) : Word :=
  (if p.lane < 7 then { line := p.line, lane := p.lane + 1 } else { line := (p.line + 32) % 2 ^ 56, lane := 1 } : Pos).word

/-- The target of a branch at p: 32 · LOFF bytes from its line, at LANE (R324, R386). -/
def targetOf (f : CB) (p : Pos) : Pos :=
  { line := (((p.line : Int) + 32 * f.loff.toInt) % 2 ^ 56).toNat, lane := f.lane.toNat }

/-- The conditions of BRC by code (R324). -/
def Taken (k : Nat) (v : Int) : Prop :=
  match k with
  | 0 => v = 0
  | 1 => v ≠ 0
  | 2 => v < 0
  | 3 => 0 ≤ v
  | 4 => 0 < v
  | 5 => v ≤ 0
  | 6 => v % 2 = 1
  | _ => v % 2 = 0

/-- The position of the instruction that the control engine runs. -/
abbrev pcOf (s : State) : Pos := (s.eng s.focus .c).cur

/-- NOP, BR, BRC, CALL and LOOP (R386, R324, R453, R492): where the control cursor goes, and CALL's return pointer in s63 with
the call depth, which counts in unit mode only. -/
def BranchTargets : Prop :=
  ∀ (s : State), Unplanted s →
    (∀ f, Commits (.nop f) s s (fallThrough s (.nop f)))
    ∧ (∀ f, Commits (.br f) s s (targetOf f (pcOf s)))
    ∧ (∀ f, Settled s [f.a] → Taken f.cond.toNat (reg s f.a).toInt → Commits (.brc f) s s (targetOf f (pcOf s)))
    ∧ (∀ f, Settled s [f.a] → ¬ Taken f.cond.toNat (reg s f.a).toInt → Commits (.brc f) s s (fallThrough s (.brc f)))
    ∧ (∀ f, Settled s [63] → (here s).mode = .unit →
        Commits (.call f) s ((s.putS s.focus 63 1 (pointerAfter (pcOf s))).modCtx s.focus fun x => { x with depth := x.depth + 1 })
          (targetOf f (pcOf s)))
    ∧ (∀ f, Settled s [63] → (here s).mode ≠ .unit →
        Commits (.call f) s (s.putS s.focus 63 1 (pointerAfter (pcOf s))) (targetOf f (pcOf s)))
    ∧ (∀ f, Settled s [f.a] →
        Commits (.loop f) s (s.putS s.focus f.a.toNat 1 (reg s f.a - 1))
          (if reg s f.a = 1 then fallThrough s (.loop f) else targetOf f (pcOf s)))

/-- A nonzero code pointer that keeps R316: LANE is not 0 and every reserved field is. -/
def GoodPointer (w : Word) : Prop :=
  w ≠ 0 ∧ w.extractLsb' 0 3 ≠ 0 ∧ w.extractLsb' 3 2 = 0 ∧ w.extractLsb' 56 8 = 0

/-- JMP moves the control cursor to s[A]; it raises TABLE if s[A] is 0 or breaks R316, and commits nothing then (R434). -/
def JumpTarget : Prop :=
  ∀ (f : C3) (s : State), Unplanted s → Settled s [f.a] →
    (GoodPointer (reg s f.a) → Commits (.jmp f) s s (posOfWord (reg s f.a)))
    ∧ (¬ GoodPointer (reg s f.a) → Raises (.jmp f) s (trapOf 0x08))

/-- V, M and Y are Joined. -/
abbrev AllJoined (s : State) : Prop := (here s).v.st = .joined ∧ (here s).m.st = .joined ∧ (here s).y.st = .joined

/-- RDV (R500): in V, M or Y the engine becomes Joined at issue; in C, ORDER in a handler, a wait while an engine is not
Joined, and else the control engine's accesses follow those of the others. -/
def RendezvousOf : Prop :=
  ∀ (s : State), Unplanted s →
    (∀ f, Commits (.vRdv f) s (s.modEng s.focus .v fun n => { n with st := .joined }) (fallThrough s (.vRdv f)))
    ∧ (∀ f, Commits (.mRdv f) s (s.modEng s.focus .m fun n => { n with st := .joined }) (fallThrough s (.mRdv f)))
    ∧ (∀ f t, Commits (.yRdv f t) s (s.modEng s.focus .y fun n => { n with st := .joined }) (fallThrough s (.yRdv f t)))
    ∧ (∀ f, (here s).mode = .handler → Raises (.rdv f) s (trapOf 0x06))
    ∧ (∀ f, (here s).mode ≠ .handler → ¬ AllJoined s → Holds (.rdv f) s .waiting .rdv)
    ∧ (∀ f, (here s).mode ≠ .handler → AllJoined s →
        Commits (.rdv f) s (s.setCtx s.focus (here s).joinHist) (fallThrough s (.rdv f)))

/-- An engine that FORK starts at a pointer: Ready there from the next cycle; one whose pointer is 0 stays as it was. -/
def Started (w : Word) (now : Nat) (before after : Eng) : Prop :=
  if w = 0 then after = before
  else after.st = .ready ∧ after.cur = posOfWord w ∧ after.gapEnd = now + 1 ∧ after.hold = .none ∧ after.displaced = false

/-- FORK (R423): ORDER in a handler or while an engine is not joined, TABLE on a bad pointer, each with nothing started; else
the views are captured and every engine with a nonzero pointer starts. -/
def ForkOf : Prop :=
  ∀ (f : C3) (s : State), Unplanted s → Settled s [f.d, f.a, f.b] →
    ((here s).mode = .handler ∨ ¬ AllJoined s → Raises (.fork f) s (trapOf 0x06))
    ∧ ((here s).mode ≠ .handler → AllJoined s →
        (∃ w ∈ [reg s f.d, reg s f.a, reg s f.b], w ≠ 0 ∧ ¬ GoodPointer w) → Raises (.fork f) s (trapOf 0x08))
    ∧ ((here s).mode ≠ .handler → AllJoined s → (∀ w ∈ [reg s f.d, reg s f.a, reg s f.b], w = 0 ∨ GoodPointer w) →
        ∃ x, Commits (.fork f) s (s.setCtx s.focus x) (fallThrough s (.fork f)) ∧ x.captured = (here s).views
          ∧ Started (reg s f.d) s.cycle (here s).v x.v ∧ Started (reg s f.a) s.cycle (here s).m x.m
          ∧ Started (reg s f.b) s.cycle (here s).y x.y ∧ x.regs = (here s).regs ∧ x.gran = (here s).gran ∧ x.c = (here s).c)

/-- RET (R507): in a handler the unit ends faulted; at a nonzero depth it returns to s63 with the depth lowered, or raises
TABLE; at depth 0 it raises ORDER while the unit owes barrier arrivals, waits until V, M and Y are Joined, and then every
result lands and the stream ends. ISYNC (R432) drops every line that a cursor has not entered. -/
def ReturnAndIsync : Prop :=
  ∀ (f : C3) (s : State), Unplanted s →
    let i : Instr := .ret f
    ((here s).mode = .handler → exec i s = .next (s.endStream s.focus .faulted))
    ∧ ((here s).mode ≠ .handler → (here s).depth ≠ 0 → Settled s [63] → GoodPointer ((here s).sr 63) →
        Commits i s (s.modCtx s.focus fun x => { x with depth := x.depth - 1 }) (posOfWord ((here s).sr 63)))
    ∧ ((here s).mode ≠ .handler → (here s).depth ≠ 0 → Settled s [63] → ¬ GoodPointer ((here s).sr 63) → Raises i s (trapOf 0x08))
    ∧ ((here s).mode ≠ .handler → (here s).depth = 0 → s.owesArrival (s.unitNo s.focus) = true → Raises i s (trapOf 0x06))
    ∧ ((here s).mode ≠ .handler → (here s).depth = 0 → s.owesArrival (s.unitNo s.focus) = false → ¬ AllJoined s →
        Holds i s .waiting .rdv)
    ∧ ((here s).mode ≠ .handler → (here s).depth = 0 → s.owesArrival (s.unitNo s.focus) = false → AllJoined s →
        exec i s = .next (((s.landAll s.focus).endStream s.focus .done).issuedNow s.focus .c))
    ∧ (∃ x, Commits (.isync f) s (s.setCtx s.focus x) (fallThrough s (.isync f)) ∧ x.regs = (here s).regs
        ∧ ∀ e, ∀ p ∈ (x.eng e).lines, p.1 = (x.eng e).cur.line ∧ p ∈ ((here s).eng e).lines)

/-- A unit's stream ends (R36, R37): its context holds no unit and the unit is Completing, with the state that it will end in. -/
def StreamEnds : Prop :=
  ∀ (s : State) (c u : Nat) (r : UnitRec) (st : UnitState), (s.ctx c).unit = some u → s.unit? u = some r →
    ∃ q, (s.endStream c st).unit? u = some q ∧ q.st = .completing ∧ q.ending = st ∧ q.ctx = none
      ∧ (s.endStream c st).ctx c = {}

/-! ## System registers -/

/-- Lowest modes of reading (R525): handler for INJECT, DISPLACED and TRAPREC, unit for every other register. -/
def readRank (n : Nat) : Nat := if n = 0x010 ∨ n = 0x011 ∨ (0x018 ≤ n ∧ n ≤ 0x01F) then 1 else 0

/-- SYSW by register: its row, its number, the rank of the lowest mode that may write it, the bits that it stores, and the
values that it refuses with their trap (R525, R526, R6, and the registers' own rules R14, R15, R99, R110, R183, R185, R200,
R247, R250, R251, R255, R256, R267, R275, R283, R285). -/
structure SysRow where
  ins : CI → Instr
  num : BitVec 10
  rank : Nat
  mask : Nat
  refused : State → Word → Option Nat := fun _ _ => none

/-- A size field or a coordinate of MESHSHAPE and MESHPOS (R14). -/
def axis4 (w : Word) (k : Nat) : Nat := (w.toNat >>> (12 * k)) % 2 ^ 12

/-- Dies that the job holds: those in service of its modules (R15; log 26). -/
def heldDies (s : State) : Nat := ((List.range (64 * s.modules)).filter fun d => !(s.die d).out).length

/-- R15: MESH for MESHSHAPE. -/
def shapeRefused (s : State) (v : Word) : Option Nat :=
  if axis4 v 0 * axis4 v 1 * axis4 v 2 * axis4 v 3 = 0 ∨ 64 < axis4 v 0 * axis4 v 1 * axis4 v 2
    ∨ axis4 v 3 % s.modules ≠ 0 ∨ 64 < axis4 v 0 * axis4 v 1 * axis4 v 2 * (axis4 v 3 / s.modules)
    ∨ heldDies s < axis4 v 0 * axis4 v 1 * axis4 v 2 * axis4 v 3
  then some 0x09 else none

/-- R15: MESH for MESHPOS. -/
def posRefused (s : State) (v : Word) : Option Nat :=
  if [0, 1, 2, 3].any fun k => decide (axis4 (s.die (dieOfCtx s.focus)).meshshape k ≤ axis4 v k) then some 0x09 else none

/-- R247: TABLE where LINE is nonzero and LANE is 0. -/
def baseRefused (_ : State) (v : Word) : Option Nat :=
  if v.extractLsb' 5 51 ≠ 0 ∧ v.extractLsb' 0 3 = 0 then some 0x08 else none

/-- R256: TABLE where ARM is 1 and ENG, REP or DELTA is invalid. -/
def injectRefused (_ : State) (v : Word) : Option Nat :=
  if v.getLsbD 63 = true ∧ (v.extractLsb' 61 2 = 3 ∨ v.extractLsb' 59 2 = 0 ∨ v.extractLsb' 59 2 = 3 ∨ v.extractLsb' 0 3 = 0
    ∨ v.extractLsb' 0 3 = 7) then some 0x08 else none

def sysRows : List SysRow :=
  [ { ins := .sysw, num := 0x030, rank := 2, mask := 0x1FFFFFFFFFFFFF80 }
  , { ins := .sysw, num := 0x031, rank := 2, mask := 0x000FFFFFFFFE0001 }
  , { ins := .sysw, num := 0x022, rank := 2, mask := 0xF }
  , { ins := .writeMeshshape, num := 0x004, rank := 2, mask := 0x0000FFFFFFFFFFFF, refused := shapeRefused }
  , { ins := .writeDphase, num := 0x008, rank := 0, mask := 0x1F }
  , { ins := .writeOrdmask, num := 0x00A, rank := 0, mask := 0xFFFFFFFF }
  , { ins := .writePrommiss, num := 0x00B, rank := 0, mask := 0x00FF1F00FFFFFFFF }
  , { ins := .writeTrapbase, num := 0x00C, rank := 0, mask := 0x00FFFFFFFFFFFFE7, refused := baseRefused }
  , { ins := .writeTrapctl, num := 0x00D, rank := 0, mask := 0xF01 }
  , { ins := .writeRwctl, num := 0x00E, rank := 0, mask := 7 }
  , { ins := .writeRwsup, num := 0x00F, rank := 0, mask := 0x1FF }
  , { ins := .writeInject, num := 0x010, rank := 1, mask := 0xF8FFFFFFFFFF0007, refused := injectRefused }
  , { ins := .writeDisplaced, num := 0x011, rank := 1, mask := 0x80000003FFFFFFFF }
  , { ins := .writeTraprecWord1, num := 0x019, rank := 1, mask := 0x00FFFFFFFFFFFFE7 }
  , { ins := .writeMcstat, num := 0x023, rank := 2, mask := 0x80000000FFFFFFFF } ]

/-- SYSW to the rows that have a rule of their own for what reads back. -/
def otherSysRows : List SysRow :=
  [ { ins := .writeMeshpos, num := 0x003, rank := 2, mask := 0, refused := posRefused }
  , { ins := .writeArstat, num := 0x009, rank := 0, mask := 0 }
  , { ins := .writeBankloss, num := 0x020, rank := 1, mask := 0 }
  , { ins := .writeRwlog, num := 0x021, rank := 1, mask := 0 } ]

/-- The words of TRAPREC whose writes are ignored (R250). -/
def ignoredWords : List (BitVec 10) := [0x018, 0x01A, 0x01B, 0x01C, 0x01D, 0x01E, 0x01F]

/-- Registers that no mode may write (R525). -/
def readOnly : List (BitVec 10) := [0x000, 0x001, 0x002, 0x024]

/-- A SYSW that commits: what is read back is the value written with its reserved bits 0; the registers of the context, its
register space, its ports, its other engines and memory stay as they were, and so does every other system register of the
context (R526, R6, R525). No displaced word runs (R267). -/
def SyswStores : Prop :=
  ∀ row ∈ sysRows, ∀ (f : CI) (s : State), f.imm = row.num → Calm s (row.ins f) → (s.eng s.focus .c).displaced = false →
    row.rank ≤ modeRank (here s).mode → Settled s [f.a] → row.refused s (reg s f.a) = none →
    ∃ t, exec (row.ins f) s = .next t ∧ t.focus = s.focus
      ∧ t.sysreg s.focus row.num.toNat = reg s f.a &&& BitVec.ofNat 64 row.mask
      ∧ (∀ other ∈ sysRows ++ otherSysRows, other.num ≠ row.num →
          t.sysreg s.focus other.num.toNat = s.sysreg s.focus other.num.toNat)
      ∧ (here t).regs = (here s).regs ∧ (here t).gran = (here s).gran ∧ (here t).ports = (here s).ports
      ∧ (here t).v = (here s).v ∧ (here t).m = (here s).m ∧ (here t).y = (here s).y ∧ (here t).mode = (here s).mode
      ∧ (here t).lands = (here s).lands ∧ t.ops = s.ops ∧ t.job = s.job ∧ SameMemory s t

/-- SYSW to ARSTAT, BANKLOSS, RWLOG and MESHPOS (R101, R70, R286, R15): flags raised earlier in the same cycle are ORed into
the value written; BANKLOSS and RWLOG clear the count that SEL names and store SEL; MESHPOS ignores its DIE field. -/
def SyswSpecialRows : Prop :=
  ∀ (f : CI) (s : State), Unplanted s → Settled s [f.a] → (here s).pend = [] → s.steps s.focus .c = false →
    (∃ t, exec (.writeArstat f) s = .next t
      ∧ (here t).sprs.arstat = (reg s f.a &&& 0x3F3F#64)
          ||| (if (here s).flagCycle = s.cycle then (here s).flagBits.zeroExtend 64 else 0))
    ∧ (1 ≤ modeRank (here s).mode → ∃ t, exec (.writeBankloss f) s = .next t
      ∧ (t.core (coreOf s.focus)).bankSel = ((reg s f.a).extractLsb' 32 6).toNat
      ∧ (((reg s f.a).extractLsb' 32 6).toNat < 48 →
          tgetD (t.core (coreOf s.focus)).bankLoss ((reg s f.a).extractLsb' 32 6).toNat 0 = 0)
      ∧ ∀ b, b ≠ ((reg s f.a).extractLsb' 32 6).toNat →
          tget (t.core (coreOf s.focus)).bankLoss b = tget (s.core (coreOf s.focus)).bankLoss b)
    ∧ (1 ≤ modeRank (here s).mode → ∃ t, exec (.writeRwlog f) s = .next t
      ∧ (t.core (coreOf s.focus)).rwlogSel = ((reg s f.a).extractLsb' 32 5).toNat
      ∧ tgetD (t.core (coreOf s.focus)).rwlog ((reg s f.a).extractLsb' 32 5).toNat 0 = 0
      ∧ ∀ b, b ≠ ((reg s f.a).extractLsb' 32 5).toNat →
          tget (t.core (coreOf s.focus)).rwlog b = tget (s.core (coreOf s.focus)).rwlog b)
    ∧ (2 ≤ modeRank (here s).mode → posRefused s (reg s f.a) = none → ∃ t, exec (.writeMeshpos f) s = .next t
      ∧ ∀ b, b < 64 → (t.sysreg s.focus 0x003).getLsbD b =
          if 53 ≤ b ∧ b < 59 then (dieOfCtx s.focus).testBit (b - 53)
          else if b < 48 ∨ 59 ≤ b then (reg s f.a).getLsbD b else false)

/-- SYSW of a value that its register's rule refuses raises the trap of that rule and commits nothing (R15, R247, R256). -/
def SyswRefusals : Prop :=
  ∀ row ∈ sysRows ++ otherSysRows, ∀ (f : CI) (s : State), f.imm = row.num → Unplanted s →
    row.rank ≤ modeRank (here s).mode → Settled s [f.a] → ∀ code, row.refused s (reg s f.a) = some code →
    Raises (row.ins f) s (trapOf code)

/-! ## Traps -/

/-- Every engine of the context can stop now: none is still issuing, and the matrix engine stands at a retirement point
(R244). -/
structure CanStop (s : State) (c : Nat) : Prop where
  /-- Every engine of the core has had its turn in the cycle (R245). -/
  turns : ∀ p ∈ s.turns, p.1 ≠ coreOf c
  mat : (s.ctx c).matrixMayStop = true
  ends : ∀ e, (s.eng c e).lastEnd ≤ s.cycle

/-- The context stands in its handler, entered for t from x (R247, R248, R250): TRAPREC is written, the control engine is Ready
at TRAPBASE, V, M and Y are stopped where they stood, s56 to s63 read 0 and every other register is the unit's. -/
structure Handles (s : State) (c : Nat) (t : Trap) (x : Ctx) : Prop where
  mode : (s.ctx c).mode = .handler
  trap : (s.ctx c).handling = some t
  record : (s.ctx c).sprs.trapRec = trapRecord c t
  ready : (s.ctx c).c.st = .ready
  entry : (s.ctx c).c.cur = posOfWord x.sprs.trapbase
  stopped : ∀ e, e ≠ .c → (s.eng c e).st = .stopped ∧ (s.eng c e).cur = (x.eng e).cur
  own : ∀ r, 56 ≤ r → (s.ctx c).sr r = 0
  shared : ∀ r, r < 56 → (s.ctx c).sr r = tgetD x.regs.s r 0 ∨ r = 0
  kept : (s.ctx c).regs.s = x.regs.s
  space : (s.ctx c).gran = x.gran

/-- TRAP_ENTRY (R248), and DELIVERED_FAULT for a fault of a joined engine (R610): with every engine able to stop, the first
pending trap that may be taken (R246) is taken, its handler entered where TRAPBASE names one; a delivered one records the
boundary at which its engine has stopped (R249). Without a handler the unit ends faulted, or cancelled
for CANCEL (R248). -/
def TrapTaken : Prop :=
  ∀ (s : State) (c u : Nat) (t : Trap), (s.ctx c).mode = .unit → (s.ctx c).unit = some u →
    firstTrap (s.ctx c).takable = some t → CanStop s c →
    ((s.ctx c).sprs.trapbase ≠ 0 → ¬ (t.code = 0x15 ∧ s.versioned c = true) →
      ∃ s', exec (.trapEntry c) s = .next s' ∧ Handles s' c ((s.setCtx c (s.ctx c).stopAll).atBoundary c t) (s.ctx c) ∧ SameMemory s s'
        ∧ (t.async = true → (s.eng c t.eng).st = .joined → exec (.deliveredFault c) s = .next s'))
    ∧ (∀ r, (s.ctx c).sprs.trapbase = 0 → t.code ≠ 0x13 → (t.code = 0x16 → s.versioned c = false) → s.unit? u = some r →
      ∃ s' q, exec (.trapEntry c) s = .next s' ∧ (s'.ctx c).unit = none ∧ s'.unit? u = some q ∧ q.st = .completing
        ∧ q.ending = if t.code = 0x15 then .cancelled else .faulted)

/-- The fields of TRAPREC, of a trap whose record no save has kept (R250). -/
def TrapRecordFields : Prop :=
  ∀ (c : Nat) (t : Trap), t.saved = none →
    let r := trapRecord c t
    r.w0.extractLsb' 59 5 = BitVec.ofNat 5 t.code ∧ r.w0.extractLsb' 52 7 = BitVec.ofNat 7 t.sub
    ∧ r.w0.extractLsb' 50 2 = BitVec.ofNat 2 (engNo t.eng) ∧ r.w0.extractLsb' 48 2 = BitVec.ofNat 2 (ctxNo c)
    ∧ r.w0.getLsbD 47 = t.async ∧ r.w0.getLsbD 46 = t.group.isSome ∧ r.w0.getLsbD 45 = t.inj
    ∧ r.w0.extractLsb' 40 5 = BitVec.ofNat 5 t.token ∧ r.w0.extractLsb' 37 3 = 0
    ∧ r.w0.extractLsb' 32 5 = BitVec.ofNat 5 (t.group.getD 0) ∧ r.w0.extractLsb' 16 16 = 0
    ∧ r.w0.extractLsb' 10 6 = BitVec.ofNat 6 t.op ∧ r.w0.extractLsb' 6 4 = BitVec.ofNat 4 t.fn ∧ r.w0.extractLsb' 0 6 = 0
    ∧ r.w1 = t.pos.word ∧ r.w2.getLsbD 63 = t.phys ∧ r.w2.extractLsb' 0 56 = BitVec.ofNat 56 (if t.phys then t.addr % 2 ^ 52 else t.addr)
    ∧ r.w3.extractLsb' 58 6 = BitVec.ofNat 6 (dieOfCtx c) ∧ r.w3.extractLsb' 49 7 = BitVec.ofNat 7 (coreIdx (coreOf c))
    ∧ r.w3.extractLsb' 32 12 = BitVec.ofNat 12 t.lane ∧ r.w3.extractLsb' 16 12 = BitVec.ofNat 12 t.gran
    ∧ r.w3.extractLsb' 4 3 = BitVec.ofNat 3 t.exp ∧ r.w3.extractLsb' 0 3 = BitVec.ofNat 3 t.act
    ∧ r.w4.extractLsb' 32 32 = BitVec.ofNat 32 t.detailB ∧ r.w4.extractLsb' 0 32 = BitVec.ofNat 32 t.detailA
    ∧ r.w5.extractLsb' 10 6 = BitVec.ofNat 6 t.rop ∧ r.w5.extractLsb' 6 4 = BitVec.ofNat 4 t.rfn

/-- An engine after ERET (R249): where TRAPREC word 1 says, if the trap was its own; Joined if it was, else Ready from the next
cycle. -/
def Resumed (s : State) (before after : Eng) (mine : Bool) : Prop :=
  after.st = (if before.before = .joined then .joined else .ready) ∧ s.cycle < after.gapEnd
  ∧ after.cur = if mine = true ∧ before.before ≠ .joined ∧ (here s).sprs.trapRec.w1 ≠ 0
      then posOfWord (here s).sprs.trapRec.w1 else before.cur

/-! ## Memory -/

/-- The address of a load, a store or an atomic: s[BASE] and the sign-extended offset (R326). -/
abbrev addressOf (s : State) (f : CM) : Nat := (reg s f.base + f.off.signExtend 64).toNat

/-- Its bytes (R326). -/
abbrev bytesAccessed (f : CM) : Nat := 2 ^ f.size.toNat

/-- The operation is an access of the context that runs, by the instruction. -/
structure AccessOf (s : State) (i : Instr) (f : CM) (segs : List Seg) (o : Op) : Prop where
  ctx : o.ctx = s.focus
  unit : o.unit = s.unitNo s.focus
  eng : o.eng = .c
  ins : o.ins = i
  cls : o.cls = f.cls.toNat
  scope : o.scope = f.scope.toNat
  va : o.va = addressOf s f
  segs : o.segs = segs
  mode : o.handler = decide ((here s).mode ≠ .unit)

/-- The core's TLB holds the pages of some ranges, or their walks have ended: no walk holds the access up (R188). -/
abbrev PagesFound (s : State) (l : List (Nat × Nat)) : Prop := s.toWalk (coreOf s.focus) l = []

/-- LD and LDC by constructor, with what makes one an acquire (R445, R450). -/
def loadRows : List ((CM → Instr) × (CM → Bool)) := [(.ld, fun f => f.order.getLsbD 0), (.ldc, fun _ => false)]

/-- LD and LDC (R445, R450): an aligned load whose page may be read, on no poisoned block, puts a load in flight for sD, at
once where a request-table entry is free, with nothing else of the context or of memory changed. Where the TLB lacks the page the
engine waits, and the page is under walk if the core has a walk left (R188). -/
def LoadIssue : Prop :=
  (∀ row ∈ loadRows, ∀ (f : CM) (s : State), Calm s (row.1 f) → Settled s [f.d, f.base] →
    let core := coreOf s.focus
    let missing := s.toWalk core [(addressOf s f, bytesAccessed f)]
    addressOf s f % bytesAccessed f = 0 → missing ≠ [] →
    ∃ t, exec (row.1 f) s = .next t ∧ (t.eng s.focus .c).st = .waiting ∧ t.mem = s.mem ∧ t.ops = s.ops
      ∧ ((s.walksOf core).length + missing.length ≤ 32 → ∀ p ∈ missing, p ∈ t.walksOf core))
  ∧ ∀ row ∈ loadRows, ∀ (f : CM) (s : State) (segs : List Seg), Calm s (row.1 f) → Settled s [f.d, f.base] →
    PagesFound s [(addressOf s f, bytesAccessed f)] →
    addressOf s f % bytesAccessed f = 0 → s.range (coreOf s.focus) .read (addressOf s f) (bytesAccessed f) = .ok segs →
    s.poisonIn segs = none → s.entriesFull (coreOf s.focus) = false →
    ∃ t o, Sends (row.1 f) s t o ∧ Quiet s t ∧ AccessOf s (row.1 f) f segs o ∧ o.kind = .load ∧ o.dst = f.d.toNat
      ∧ o.reads = true ∧ o.writes = false ∧ o.v1 = 0 ∧ o.v2 = BitVec.ofNat 64 (8 * bytesAccessed f) ∧ o.v3 = 0
      ∧ o.acquire = if row.2 f then some ((here s).sprs.ordmask.extractLsb' 16 16) else none

/-- ST (R520): an aligned store whose page may be written puts a store of the low bytes of sD in flight; memory is unchanged
until it is performed (R521). -/
def StoreIssue : Prop :=
  ∀ (f : CM) (s : State) (segs : List Seg), Calm s (.st f) → Settled s [f.d, f.base] →
    PagesFound s [(addressOf s f, bytesAccessed f)] →
    (s.isSys (coreOf s.focus) (addressOf s f) && s.versioned s.focus) = false →
    addressOf s f % bytesAccessed f = 0 → s.range (coreOf s.focus) .write (addressOf s f) (bytesAccessed f) = .ok segs →
    s.poisonHurt segs = none → s.entriesFull (coreOf s.focus) = false →
    ∃ t o, Sends (.st f) s t o ∧ Quiet s t ∧ AccessOf s (.st f) f segs o ∧ o.kind = .store ∧ o.reads = false
      ∧ o.writes = true ∧ o.acquire = none
      ∧ o.data = (List.range (bytesAccessed f)).map fun k => (reg s f.d).extractLsb' (8 * k) 8

/-- The atomic operations: constructor, and the new value of a location of w bits that holds `old`, for the operand x and the
expected value e; none where nothing is written (R366). -/
def atomRows : List ((CM → Instr) × (Nat → Nat → Nat → Nat → Option Nat)) :=
  [ (.atomAdd, fun w old x _ => some ((old + x) % 2 ^ w))
  , (.atomAnd, fun _ old x _ => some (old &&& x))
  , (.atomOr, fun _ old x _ => some (old ||| x))
  , (.atomXor, fun _ old x _ => some (old ^^^ x))
  , (.atomMin, fun w old x _ => some (if (BitVec.ofNat w x).toInt < (BitVec.ofNat w old).toInt then x else old))
  , (.atomMax, fun w old x _ => some (if (BitVec.ofNat w old).toInt < (BitVec.ofNat w x).toInt then x else old))
  , (.atomMinu, fun _ old x _ => some (min old x))
  , (.atomMaxu, fun _ old x _ => some (max old x))
  , (.atomSwap, fun _ _ x _ => some x)
  , (.atomCas, fun _ old x e => if old = e then some x else none) ]

/-- ATOM (R366, R368): outside a versioned unit, an aligned atomic whose page may be written, on no poisoned block, puts an
atomic in flight with the low bytes of sE as operand and those of sD as expected value. -/
def AtomicIssue : Prop :=
  ∀ row ∈ atomRows, ∀ (f : CM) (s : State) (segs : List Seg), Calm s (row.1 f) → Settled s [f.d, f.base, f.e] →
    PagesFound s [(addressOf s f, bytesAccessed f)] → s.versioned s.focus = false → addressOf s f % bytesAccessed f = 0 →
    s.range (coreOf s.focus) .write (addressOf s f) (bytesAccessed f) = .ok segs → s.poisonIn segs = none →
    s.entriesFull (coreOf s.focus) = false →
    ∃ t o, Sends (row.1 f) s t o ∧ Quiet s t ∧ AccessOf s (row.1 f) f segs o ∧ o.kind = .atom ∧ o.dst = f.d.toNat
      ∧ o.reads = true ∧ o.writes = true
      ∧ o.v1.toNat = (reg s f.e).toNat % 2 ^ (8 * bytesAccessed f) ∧ o.v2.toNat = 8 * bytesAccessed f
      ∧ o.v3.toNat = (reg s f.d).toNat % 2 ^ (8 * bytesAccessed f)
      ∧ o.acquire = if f.order.getLsbD 0 then some ((here s).sprs.ordmask.extractLsb' 16 16) else none

/-- The 8-byte table entry of a level for a virtual address, in the table at a physical address (R186). -/
def entryAt (mem : List Host.Cell) (table lo len va : Nat) : Word := memWord mem (table + 8 * (va / 2 ^ lo % 2 ^ len))

/-- An entry that keeps the form of R186, of a leaf or of a table. -/
def GoodEntry (e : Word) (leaf : Bool) : Prop :=
  e.getLsbD 0 = true ∧ e.getLsbD 1 = leaf ∧ e.extractLsb' 52 12 = 0 ∧ e.extractLsb' 5 7 = 0

/-- The physical address that an entry holds (R186). -/
def entryBase (e : Word) : Nat := (e.extractLsb' 12 40).toNat * 4096

/-- An access in flight before another, which must be performed before it (R197, R198, R204): of its engine in its class or
overlapping it, an acquire whose mask or class covers it, or, for a release, one in its mask or class. A synchronous access is
performed at CTX scope as it issues, so that an acquire of that scope, and a release of that scope, wait for none (R193, R201). -/
def Ordered (p o : Op) (release : Option (BitVec 16)) : Prop :=
  (p.ctx = o.ctx ∧ p.eng = o.eng ∧ p.unit = o.unit ∧ (p.cls = o.cls ∨ segsOverlap (p.segs ++ p.src) (o.segs ++ o.src) = true))
  ∨ ((p.scope ≠ 0 ∨ p.kind = .async) ∧ ∃ k, p.acquire = some k ∧ (k.getLsbD o.cls = true ∨ p.cls = o.cls))
  ∨ ((o.scope ≠ 0 ∨ p.kind = .async) ∧ ∃ k, release = some k ∧ (k.getLsbD p.cls = true ∨ p.cls = o.cls))

/-- The number that a piece of memory holds, little-endian (R4). -/
abbrev numberAt (s : State) (g : Seg) : Nat := natOfBytes (memBytes s.mem g.pa g.len)

/-- A number of w bits in an s register: sign-extended where the instruction has SX, else zero-extended. -/
def extended (sx : Bool) (w n : Nat) : Word := if sx then (BitVec.ofNat w n).signExtend 64 else BitVec.ofNat 64 n

/-- The s register of an access takes a value in the copy of the mode in which it issued; nothing else of the context changes,
and no other context (R248, R367, R446). -/
def Returned (s t : State) (o : Op) (v : Word) : Prop :=
  t.ctx o.ctx = { s.ctx o.ctx with regs := (s.ctx o.ctx).regs.setS o.dst o.handler v } ∧ ∀ c, c ≠ o.ctx → t.ctx c = s.ctx c

/-- The operation is about to be performed in state s, in a context in which no residue error is planted. -/
structure Performs (s : State) (n : Nat) (o : Op) : Prop where
  here : s.op? n = some o
  ready : s.opReady o = true
  live : s.opLive o = true
  unplanted : (s.ctx o.ctx).sprs.inject.getLsbD 63 = false

/-- LOAD_RETURN (R446): a load of LD that may be performed writes to sD the bytes of its piece of memory, extended to 64 bits,
and leaves the operations in flight; memory is unchanged. On a poisoned block MCHECK is delivered and sD is not written (R258). -/
def LoadReturns : Prop :=
  ∀ (s : State) (n pick : Nat) (o : Op) (f : CM) (g : Seg), Performs s n o → o.kind = .load →
    o.ins = .ld f → o.segs = [g] → o.fwd = [] → (∀ r, s.unit? o.unit = some r → r.staged = []) →
    o.v1 = 0 → o.v2.toNat = 8 * g.len → o.v3 = 0 → 0 < g.len → g.len ≤ 8 →
    (∀ b, s.poisonIn [g] = some b → exec (.loadReturn n pick) s = .next ((s.delOp n).poisonFound o b))
    ∧ (s.poisonIn [g] = none → ∃ t, exec (.loadReturn n pick) s = .next t ∧ t.op? n = none ∧ (∀ m, m ≠ n → t.op? m = s.op? m) ∧ t.mem = s.mem
      ∧ Returned s t o (extended f.sx (8 * g.len) (numberAt s g)))

/-- The bytes of a piece of memory after a store of a number there. -/
def Stored (t : State) (g : Seg) (v : Nat) : Prop :=
  ∀ k, k < g.len → memRead t.mem (g.pa + k) = BitVec.ofNat 8 (v / 2 ^ (8 * k))

/-- ATOM_RETURN (R366, R367), on no poisoned block: the location takes the operation's new value in one step, sD the old one, extended; bytes outside
the location, and all of memory where ATOM.CAS finds another value, are unchanged. -/
def AtomicReturns : Prop :=
  ∀ row ∈ atomRows, ∀ (s : State) (n : Nat) (o : Op) (f : CM) (g : Seg), Performs s n o → o.kind = .atom →
    s.poisonIn [g] = none → o.ins = row.1 f → o.segs = [g] → o.v2.toNat = 8 * g.len → 0 < g.len → g.len ≤ 8 →
    o.v1.toNat < 2 ^ (8 * g.len) → o.v3.toNat < 2 ^ (8 * g.len) →
    let old := numberAt s g
    ∃ t, exec (.atomReturn n) s = .next t ∧ t.op? n = none ∧ (∀ m, m ≠ n → t.op? m = s.op? m) ∧ SameOutside [g] s t
      ∧ Returned s t o (extended f.sx (8 * g.len) old)
      ∧ (∀ v, row.2 (8 * g.len) old o.v1.toNat o.v3.toNat = some v → Stored t g v)
      ∧ (row.2 (8 * g.len) old o.v1.toNat o.v3.toNat = none → t.mem = s.mem)

/-- STORE_PERFORMED (R521, R32), of a store that leaves no poisoned block covered in part: a store of a unit that is not versioned writes its bytes and nothing outside them; one of a
versioned unit that is not to scratchpad stages them in the version and leaves memory unchanged. It leaves the operations in
flight, and no context changes. -/
def StoresPerformed : Prop :=
  ∀ (s : State) (n : Nat) (o : Op) (g : Seg), s.op? n = some o → o.kind = .store ∨ o.kind = .vstore → s.opReady o = true →
    s.poisonHurt [g] = none → o.segs = [g] → o.data.length = g.len →
    ∃ t, exec (.storePerformed n) s = .next t ∧ t.op? n = none ∧ (∀ m, m ≠ n → t.op? m = s.op? m) ∧ t.ctxs = s.ctxs
      ∧ (s.versionedUnit o.unit = false ∨ inScratch g.pa = true →
          SameOutside [g] s t ∧ ∀ k, k < g.len → some (memRead t.mem (g.pa + k)) = o.data[k]?)
      ∧ (∀ r, s.versionedUnit o.unit = true → inScratch g.pa = false → s.unit? o.unit = some r →
          t.mem = s.mem ∧ ∃ q, t.unit? o.unit = some q ∧ ∀ k, k < g.len → tget q.staged (g.pa + k) = o.data[k]?)

/-! ## Waiting instructions -/

/-- The instruction completes at issue: its cursor stands behind its words, and it may issue again from the next cycle. -/
structure Completes (i : Instr) (s t : State) : Prop where
  runs : exec i s = .next t
  cursor : (t.eng s.focus (Instr.eng i)).cur = fallThrough s i
  state : (s.eng s.focus (Instr.eng i)).st = .ready → (t.eng s.focus (Instr.eng i)).st = .ready

/-- An engine that waited with an instruction has retired it: it is Ready behind its words. -/
def WaitOver (s t : State) (c : Nat) (e : Engine) : Prop :=
  (t.eng c e).st = .ready ∧ (t.eng c e).cur = (s.eng c e).next ∧ (t.eng c e).held = none

/-- A handler stands ready to take a trap at once: it is installed, nothing is pending, and every engine is between
instructions. -/
structure HandlerReady (s : State) (c : Nat) : Prop where
  unit : (s.ctx c).unit.isSome = true
  mode : (s.ctx c).mode = .unit
  installed : (s.ctx c).sprs.trapbase ≠ 0
  pend : (s.ctx c).pend = []
  idle : ∀ e, ((s.ctx c).eng e).lastEnd ≤ s.cycle
  nest : (s.ctx c).nest = none
  /-- Every engine of the core has had its turn in the cycle (R245), and none has been resumed by an ERET without reaching an
  instruction boundary since (R246). -/
  turns : ∀ p ∈ s.turns, p.1 ≠ coreOf c
  boundary : ∀ e, ((s.ctx c).eng e).resumed = false

/-- The trap has been taken: the context runs its handler with its code and sub-code in TRAPREC (R248, R250). -/
def TookTrap (t : State) (c code sub : Nat) : Prop :=
  (t.ctx c).mode = .handler ∧ ((t.ctx c).sprs.trapRec.w0.extractLsb' 59 5).toNat = code
  ∧ ((t.ctx c).sprs.trapRec.w0.extractLsb' 52 7).toNat = sub ∧ (t.ctx c).c.cur = posOfWord (t.ctx c).sprs.trapbase

/-- The tokens that the fields of a TWAIT name. -/
def tokensOf (f : C3) : List Nat := [f.d.toNat % 32, f.a.toNat % 32, f.b.toNat % 32]

/-- TWAIT (R537) completes where its tokens are complete, k0 always being so (R67), and else waits for the operations that had
claimed them; TPROM (R533) writes the promise of its token. -/
def TokenInstructions : Prop :=
  ∀ (f : C3) (s : State),
    (Calm s (.twait f) → (∀ l, (here s).c.hold ≠ .tokens l) → (∀ k ∈ tokensOf f, ((here s).tok k).done = true) →
      ∃ t, Completes (.twait f) s t ∧ Quiet s t ∧ t.ops = s.ops)
    ∧ ((∀ l, (here s).c.hold ≠ .tokens l) → ∀ k ∈ tokensOf f, ((here s).tok k).done = false →
      Holds (.twait f) s .waiting (.tokens ((tokensOf f).map fun k => (k, ((here s).tok k).op))))
    ∧ (∀ l, Calm s (.twait f) → (here s).c.hold = .tokens l →
        (∀ p ∈ l, ((here s).tok p.1).done = true ∨ ((here s).tok p.1).op ≠ p.2) →
        ∃ t, Completes (.twait f) s t ∧ Quiet s t ∧ t.ops = s.ops)
    ∧ ((here s).tok 0).done = true
    ∧ (Unplanted s → Settled s [f.d] →
      Commits (.tprom f) s (s.putS s.focus f.d.toNat 1 (BitVec.ofNat 64 ((here s).tok (f.a.toNat % 32)).promise))
        (fallThrough s (.tprom f)))

/-- SLEEP (R513) completes once CYCLE has reached s[A], and else waits for it; SLEEP_WAKE retires it then. -/
def SleepAndWake : Prop :=
  ∀ (f : C3) (s : State),
    (Calm s (.sleep f) → Settled s [f.a] → (here s).c.hold = .none → (reg s f.a).toNat ≤ s.cycle →
      ∃ t, Completes (.sleep f) s t ∧ Quiet s t ∧ t.ops = s.ops)
    ∧ (Settled s [f.a] → (here s).c.hold = .none → s.cycle < (reg s f.a).toNat →
      Holds (.sleep f) s .waiting (.sleep (reg s f.a).toNat))
    ∧ (∀ c n, Calm { s with focus := c } (.sleep f) → (s.eng c .c).st = .waiting → (s.eng c .c).held = some (.sleep f) →
      (s.eng c .c).hold = .sleep n →
      (n ≤ s.cycle → ∃ t, exec (.sleepWake c) s = .next t ∧ WaitOver s t c .c ∧ t.mem = s.mem ∧ KeepsCtx (s.ctx c) (t.ctx c))
      ∧ (s.cycle < n → ∃ t, exec (.sleepWake c) s = .next t ∧ (t.eng c .c).st = .waiting ∧ (t.eng c .c).cur = (s.eng c .c).cur))

/-- KCHK (R436): while an MKAT of the context runs it waits; KSIG equal to the literal lets it commit, and any other value
is a machine check with SUB 2, which fences the core: every other context bound there is to be saved (R254). In a unit that is
not versioned the handler is entered. -/
def SignatureCheck : Prop :=
  (∀ (f : CL) (s : State), Unplanted s →
    let lit : Word := match f.lit with
      | .w32 w => w.signExtend 64
      | .w64 w => w
    let sig := (s.core (coreOf s.focus)).ksig
    (s.katRuns s.focus = true → Holds (.kchk f) s .waiting .other)
    ∧ (s.katRuns s.focus = false → sig = lit → Commits (.kchk f) s s (fallThrough s (.kchk f)))
    ∧ (s.katRuns s.focus = false → sig ≠ lit →
        exec (.kchk f) s = .next (s.machineCheck s.focus (({ code := 0x16, sub := 2 } : Trap).of s (.kchk f)) true))
    ∧ (s.katRuns s.focus = false → sig ≠ lit → s.versioned s.focus = false → HandlerReady s s.focus →
        ∃ t, exec (.kchk f) s = .next t ∧ TookTrap t s.focus 0x16 2 ∧ (t.core (coreOf s.focus)).fenced = true ∧ t.mem = s.mem
          ∧ ∀ c ∈ ctxsOf (coreOf s.focus), c ≠ s.focus → (s.ctx c).unit.isSome = true → (t.ctx c).saving = some 0))
  ∧ ∀ (s : State) (k keep : Nat), ((s.fenceCore k keep).core k).fenced = true
    ∧ ∀ c ∈ ctxsOf k, c ≠ keep → (s.ctx c).unit.isSome = true → ((s.fenceCore k keep).ctx c).saving = some 0

/-- A FENCE that orders by mask and kind: 0 ACQ, 1 REL, 2 AR (R203, R419). -/
def fenceOf (kind : BitVec 2) (mask : BitVec 16) (scope : BitVec 3) (d : BitVec 6) (iss : BitVec 4) : CL :=
  { d := d, lit := .w32 ((0 : BitVec 11) ++ scope ++ kind ++ mask), iss := iss }

/-! ## Counters (R24, R25, R402) -/

/-- The counter word of R24. -/
def CounterWord (k : Ctr) (w : Word) : Prop :=
  w.getLsbD 63 = k.final ∧ w.getLsbD 62 = k.sealed ∧ w.getLsbD 61 = k.canc ∧ w.getLsbD 60 = k.flt
  ∧ (w.extractLsb' 24 36).toNat = k.pending % 2 ^ 36 ∧ (w.extractLsb' 0 24).toNat = k.failed % 2 ^ 24

/-- The condition of a CTRWAIT at a counter (R401). -/
def ConditionHolds (w : Word) (k : Ctr) : Prop :=
  w.extractLsb' 0 2 = 0 ∨ k.final = true ∨ w.extractLsb' 0 2 = 2 ∧ k.pending ≤ (w.extractLsb' 32 24).toNat

/-- CTRWAIT and CTRWAIT_CONDITION (R401, R402): TABLE for a handle that names nothing or a bad condition word, ORDER for a wait
on an object that contains the unit, and else the counter's word once the condition holds. -/
def CounterWaits : Prop :=
  ∀ (f : C3) (s : State), Unplanted s → Settled s [f.d, f.a, f.b] →
    let h := reg s f.a
    let w := reg s f.b
    let u := s.unitNo s.focus
    let bad : Prop := w.extractLsb' 0 2 = 3 ∨ w.extractLsb' 56 8 ≠ 0 ∨ w.extractLsb' 2 30 ≠ 0
    let own : Prop := (s.unit? u).isSome = true ∧ s.ownIndex u (h.extractLsb' 30 2).toNat = (h.extractLsb' 0 24).toNat
      ∧ (w.extractLsb' 0 2 = 1 ∨ w.extractLsb' 0 2 = 2 ∧ w.extractLsb' 32 24 = 0)
    (s.versioned s.focus = true → s.createdBy u h = true → Raises (.ctrwait f) s (trapOf 0x06))
    ∧ (s.versioned s.focus = false → s.named h = none → Raises (.ctrwait f) s (trapOf 0x08))
    ∧ ∀ k, s.versioned s.focus = false → s.named h = some k →
      (own → Raises (.ctrwait f) s (trapOf 0x06))
      ∧ (¬ own → bad → Raises (.ctrwait f) s (trapOf 0x08))
      ∧ (¬ own → ¬ bad → ConditionHolds w k →
          ∃ v, CounterWord k v ∧ Commits (.ctrwait f) s (s.putS s.focus f.d.toNat 1 v) (fallThrough s (.ctrwait f))
            ∧ ((s.eng s.focus .c).st = .waiting → (s.eng s.focus .c).held = some (.ctrwait f) →
                exec (.ctrwaitCondition s.focus) s = exec (.ctrwait f) s))
      ∧ (¬ own → ¬ bad → ¬ ConditionHolds w k → Holds (.ctrwait f) s .waiting .counter)

/-- COUNTER_FINAL (R25): a sealed counter with no member left becomes FINAL, and its parent counts it, as failed where it ended
faulted or cancelled; the job's own ends the job (R298). JOB_SEAL seals the job's counter. -/
def CountersFinal : Prop :=
  ∀ (s : State),
    (∀ (level : Fin 4) (n : Nat) (k : Ctr), s.finalReady level n = true → s.job.counter level n = some k →
      ∃ t q, exec (.counterFinal level n) s = .next t ∧ t.job.counter level n = some q ∧ q = { k with final := true }
        ∧ (∀ l p m, s.parentOf level n = some (l, p) → s.job.counter l p = some m → ∃ r, t.job.counter l p = some r
            ∧ r.pending = m.pending - 1 ∧ (k.canc = true ∨ k.flt = true → r.flt = true ∧ r.failed = min (m.failed + 1) 0xFFFFFF)
            ∧ (k.canc = false → k.flt = false → r.flt = m.flt ∧ r.failed = m.failed))
        ∧ (s.parentOf level n = none → s.job.st = .running → t.job.st = if k.flt then .faulted else .done))
    ∧ (s.jobIdle = true → ∃ t, exec .jobSeal s = .next t ∧ t.job.ctr.sealed = true ∧ t.job.openPhase = none)

/-! ## Barriers (R370 to R380) -/

/-- The barrier object that a handle names, in the scope of the context that runs (R370, R372). -/
def BarrierHere (s : State) (h : Word) (cl obj : Nat) : Prop := s.barAt h = some (cl, obj)

/-- BARI that initialises a FREE or BROKEN object (R374, R375): TOTAL and SCOPE are the word's, the unit is the only one
enrolled, owing OWE arrivals, and a BROKEN object's generation goes up by one. With ARRIVE its first arrival is made. -/
def BarrierInit : Prop :=
  ∀ (f : C3) (s : State) (cl obj : Nat), Calm s (.bari f) → Settled s [f.a, f.b] → s.versioned s.focus = false →
    BarrierHere s (reg s f.a) cl obj →
    let w := reg s f.b
    let b := s.bar cl obj
    let owe := (w.extractLsb' 24 8).toNat
    let total := (w.extractLsb' 0 24).toNat
    let scope := (w.extractLsb' 32 3).toNat
    b.st ≠ .active → outsideScope (coreOf s.focus) cl scope = false →
    w.extractLsb' 36 28 = 0 → 2 ≤ scope → scope ≤ 4 → owe ≠ 0 → owe ≤ total → s.enrolments cl - b.enrol.length < 2048 →
    ∃ t, Completes (.bari f) s t ∧ KeepsCtx (here s) (here t) ∧ t.mem = s.mem
      ∧ (t.bar cl obj).st = .active ∧ (t.bar cl obj).scope = scope ∧ (t.bar cl obj).total = total ∧ (t.bar cl obj).arr = 0
      ∧ (t.bar cl obj).owed = owe ∧ (t.bar cl obj).gen = (if b.st = .broken then b.gen + 1 else b.gen)
      ∧ (t.bar cl obj).enrol = [{ unit := s.unitNo s.focus, owe := owe, made := if w.getLsbD 35 then 1 else 0 }]
      ∧ (w.getLsbD 35 = false → t.job = s.job)
      ∧ (w.getLsbD 35 = true → ∃ a, tget t.job.arrivals s.job.arrivalNext = some a ∧ a.cluster = cl ∧ a.obj = obj
          ∧ a.unit = s.unitNo s.focus ∧ a.gen = (t.bar cl obj).gen.toNat)

/-- BARI into an ACTIVE object, BARA and BARW (R375, R376), in a unit that is not versioned and in scope of the object. -/
def BarrierUse : Prop :=
  ∀ (f : C3) (s : State) (cl obj : Nat), Unplanted s → Settled s [f.d, f.a, f.b] → s.versioned s.focus = false →
    BarrierHere s (reg s f.a) cl obj → outsideScope (coreOf s.focus) cl (s.bar cl obj).scope = false →
    let w := reg s f.b
    let b := s.bar cl obj
    let owe := (w.extractLsb' 24 8).toNat
    let mine := b.enrolled (s.unitNo s.focus)
    let result (out : Nat) (g : BitVec 16) : Word := (BitVec.ofNat 2 out ++ (0 : BitVec 14) ++ g ++ (0 : BitVec 8) ++ BitVec.ofNat 24 b.total)
    (b.st = .active → mine = none → w.extractLsb' 36 28 = 0 → (w.extractLsb' 0 24).toNat = b.total →
      (w.extractLsb' 32 3).toNat = b.scope → 2 ≤ b.scope → b.scope ≤ 4 → owe ≠ 0 → b.owed + owe ≤ b.total →
      s.enrolments cl < 2048 → w.getLsbD 35 = false →
      Commits (.bari f) s (s.setBar cl obj { b with enrol := b.enrol ++ [{ unit := s.unitNo s.focus, owe := owe, made := 0 }]
                                                    owed := b.owed + owe }) (fallThrough s (.bari f)))
    ∧ (b.st = .free → Raises (.bara f) s (trapOf 0x08) ∧ ((∀ x y z o, (here s).c.hold ≠ .barrier x y z o) → Raises (.barw f) s (trapOf 0x08)))
    ∧ (b.st = .broken → Commits (.bara f) s s (fallThrough s (.bara f)))
    ∧ (b.st = .active → mine = none → Raises (.bara f) s (trapOf 0x06))
    ∧ (∀ e, b.st = .active → mine = some e → e.made = e.owe → Raises (.bara f) s (trapOf 0x06))
    ∧ (∀ e, b.st = .active → mine = some e → e.made ≠ e.owe →
        ∃ t a, Commits (.bara f) s t (fallThrough s (.bara f)) ∧ t.ctxs = s.ctxs ∧ t.mem = s.mem
          ∧ (t.bar cl obj).arr = b.arr
          ∧ (t.bar cl obj).enrol = b.enrol.map (fun q => if q.unit = s.unitNo s.focus then { q with made := q.made + 1 } else q)
          ∧ tget t.job.arrivals s.job.arrivalNext = some a ∧ a.cluster = cl ∧ a.obj = obj ∧ a.gen = b.gen.toNat)
    ∧ ((∀ x y z o, (here s).c.hold ≠ .barrier x y z o) →
        (b.st = .broken → s.arrivalsLeft cl obj b.gen.toNat = false →
          Commits (.barw f) s (s.putS s.focus f.d.toNat 1 (result 2 b.gen)) (fallThrough s (.barw f)))
        ∧ (b.st = .active → mine = none → b.last ≠ 2 ∨ s.arrivalsLeft cl obj (b.gen - 1).toNat = false →
            Commits (.barw f) s (s.putS s.focus f.d.toNat 1 (result b.last (b.gen - 1))) (fallThrough s (.barw f)))
        ∧ (∀ e, b.st = .active → mine = some e → e.made < e.owe → Raises (.barw f) s (trapOf 0x06))
        ∧ (∀ e, b.st = .active → mine = some e → e.owe ≤ e.made →
            Holds (.barw f) s .waiting (.barrier cl obj b.gen.toNat none)))
    ∧ (∀ x y z out, (here s).c.hold = .barrier x y z (some out) → s.arrivalsLeft x y z = false →
        Commits (.barw f) s (s.putS s.focus f.d.toNat 1 out) (fallThrough s (.barw f)))

/-- BARRIER_ARRIVAL (R375, R380): an arrival of the current generation of an ACTIVE object is counted once what it releases is
performed; the one that reaches TOTAL completes the generation: LAST is complete, the enrolments are cleared, ARR is 0, GEN
goes up by one, and every BARW that waited on the generation learns its outcome. -/
def ArrivalsCount : Prop :=
  ∀ (s : State) (n : Nat) (a : Arrival), tget s.job.arrivals n = some a → s.arrivalReady n = true →
    let b := s.bar a.cluster a.obj
    b.st = .active → b.gen.toNat = a.gen →
    ∃ t, exec (.barrierArrival n) s = .next t ∧ tget t.job.arrivals n = none ∧ t.mem = s.mem
      ∧ (b.arr + 1 ≠ b.total → t.bar a.cluster a.obj = { b with arr := b.arr + 1 } ∧ t.ctxs = s.ctxs)
      ∧ (b.arr + 1 = b.total → t.bar a.cluster a.obj = { b with last := 1, enrol := [], arr := 0, owed := 0, gen := b.gen + 1 }
          ∧ ∀ c, (s.ctx c).c.hold = .barrier a.cluster a.obj a.gen none →
            ∃ out, (t.ctx c).c.hold = .barrier a.cluster a.obj a.gen (some out) ∧ out.extractLsb' 62 2 = 1
              ∧ out.extractLsb' 32 16 = b.gen)

/-! ## Work: launches, edges, graphs, cancelling -/

/-- No synchronous access of the unit that runs is in flight. -/
def NoneInFlight (s : State) : Prop := ∀ p ∈ s.ops, p.2.unit = s.unitNo s.focus → p.2.kind = .async

/-- The record at a virtual address, as the control engine reads it now (R614). -/
def RecordAt (s : State) (i : Instr) (va len align : Nat) (bs : List Byte) : Prop :=
  ∃ t, s.recordRead i va len align = .bytes t bs

/-- EDGE by pattern (R27, R412). -/
def edgeRows : List ((C3 → Instr) × Nat) := [(.edgeOne, 1), (.edgeAll, 2), (.edgeTree, 3), (.edgeStencil, 4)]

/-- GSEAL without and with .ph (R427). -/
def sealRows : List ((C3 → Instr) × Bool) := [(.gseal, false), (.gsealPh, true)]

/-- LAUNCH and SPAWN with the registers they name, and where the argument pointer comes from (R439, R517). -/
def launchRows : List ((C3 → Instr) × (C3 → List (BitVec 6)) × (State → C3 → BitVec 1024 → Word)) :=
  [ (.launch, fun f => [f.d, f.a], fun _ _ r => recWord r 8)
  , (.spawn, fun f => [f.d, f.a, f.b], fun s f _ => reg s f.b) ]

/-- The instruction has put a piece of work at the job's graph state, and its engine waits for the answer (R427, R41). -/
def PutsWork (i : Instr) (s : State) (w : Work) : Prop :=
  ∃ t e, exec i s = .next t ∧ tget t.job.effects s.job.effectNext = some e ∧ e.work = w ∧ e.done = false ∧ e.committed = false
    ∧ e.ctx = s.focus ∧ (t.eng s.focus .c).st = .waiting ∧ (t.eng s.focus .c).cur = pcOf s ∧ t.mem = s.mem

/-- EDGE, GSEAL, LAUNCH and SPAWN of a unit that is not versioned put their work at the job's graph state (R412, R427, R439,
R517); a bad handle or record raises TABLE first. -/
def WorkPut : Prop :=
  ∀ (f : C3) (s : State), Unplanted s → s.versioned s.focus = false → s.myEffect = none →
    (∀ row ∈ edgeRows, Settled s [f.a, f.b] →
      (s.namesLaunch (reg s f.a) = true ∧ s.namesLaunch (reg s f.b) = true →
        PutsWork (row.1 f) s (.edge row.2 f.d.toNat (reg s f.a) (reg s f.b)))
      ∧ (s.namesLaunch (reg s f.a) = false ∨ s.namesLaunch (reg s f.b) = false → Raises (row.1 f) s (trapOf 0x08)))
    ∧ (∀ row ∈ sealRows, Settled s [f.d] → PutsWork (row.1 f) s (.seal row.2))
    ∧ ∀ row ∈ launchRows, Settled s (row.2.1 f) → s.myContribution = none → ∀ bs, RecordAt s (row.1 f) (reg s f.a).toNat 128 64 bs →
      let r := recordOf bs
      (recBad r = false → s.job.launchFull r = false → (recMesh r && s.inMesh (s.unitNo s.focus)) = false →
        PutsWork (row.1 f) s (.launch 0 r (row.2.2 s f r)))
      ∧ (recBad r = true ∨ s.job.launchFull r = true → ∃ t : State, exec (row.1 f) s = .next (t.raise s.focus ((trapOf 0x08).of s (row.1 f))))

/-- The answer retires them: the value goes to sD, or the trap is raised (R412, R427, R439, R517). -/
def WorkAnswered : Prop :=
  ∀ (f : C3) (s : State) (n : Nat) (e : Effect), Unplanted s → s.versioned s.focus = false → s.myEffect = some (n, e) →
    e.done = true →
    let answers (i : Instr) (d : Nat) : Prop :=
      (e.trap = none → Commits i s ((s.dropEffect n).putS s.focus d 1 e.val) (fallThrough s i))
      ∧ ∀ t, e.trap = some t → t.code ≠ 0x16 → exec i s = .next ((s.dropEffect n).raise s.focus (t.of s i))
    (∀ row ∈ edgeRows, Settled s [f.a, f.b] → answers (row.1 f) 0)
    ∧ (∀ row ∈ sealRows, Settled s [f.d] → answers (row.1 f) f.d.toNat)
    ∧ ∀ row ∈ launchRows, Settled s (row.2.1 f) → answers (row.1 f) f.d.toNat

/-- In a versioned unit (R35) LAUNCH, SPAWN, EDGE, GSEAL and CANCEL stage their work in the version and complete: a launch
with a fresh handle, GSEAL with 0. The graph state is as before. -/
def WorkStaged : Prop :=
  ∀ (f : C3) (s : State) (u : Nat) (r : UnitRec), Calm s (.gseal f) → s.versioned s.focus = true →
    (here s).unit = some u → s.unit? u = some r → s.myEffect = none →
    let stages (i : Instr) (w : Work) : Prop := ∃ t q, Completes i s t ∧ t.unit? u = some q ∧ q.work = r.work ++ [w]
      ∧ t.job.launches = s.job.launches ∧ t.job.graphs = s.job.graphs ∧ t.job.effects = s.job.effects ∧ t.mem = s.mem
    (∀ row ∈ edgeRows, Settled s [f.a, f.b] → s.namesLaunch (reg s f.a) = true → s.namesLaunch (reg s f.b) = true →
      stages (row.1 f) (.edge row.2 f.d.toNat (reg s f.a) (reg s f.b)))
    ∧ (∀ row ∈ sealRows, Settled s [f.d] → stages (row.1 f) (.seal row.2))
    ∧ (Settled s [f.a] → (s.named (reg s f.a)).isSome = true → handleLevel (reg s f.a) = f.d.toNat →
        stages (.cancel f) (.cancel f.d.toNat (handleIndex (reg s f.a))))
    ∧ stages (.cancelOwn f) (.cancel (f.d.toNat - 4) (s.ownIndex u (f.d.toNat - 4)))
    ∧ ∀ row ∈ launchRows, Settled s (row.2.1 f) → s.myContribution = none → ∀ bs, RecordAt s (row.1 f) (reg s f.a).toNat 128 64 bs →
      recBad (recordOf bs) = false → s.job.launchFull (recordOf bs) = false →
      (recMesh (recordOf bs) && s.inMesh u) = false →
      stages (row.1 f) (.launch s.job.launchNext (recordOf bs) (row.2.2 s f (recordOf bs)))

/-- GRAPH_STATE_EFFECT (R427, R412, R439) of an instruction's work while the job's counter is not sealed: an edge is recorded or
refused, a seal seals the open graph and answers its handle, a launch is created in the open graph with its record, its
units and its counter and answers its handle. -/
def GraphStateEffects : Prop :=
  ∀ (s : State) (n : Nat) (e : Effect), s.nextEffect = some (n, e) → e.committed = false → e.trap = none →
    s.job.ctr.sealed = false →
    let answered (t : State) (v : Word) : Prop := exec .graphStateEffect s = .next t ∧ t.mem = s.mem ∧ t.ctxs = s.ctxs
      ∧ ∃ q, tget t.job.effects n = some q ∧ q.done = true ∧ q.val = v ∧ q.trap = none
    (∀ kind h a b j, e.work = .edge kind h a b → s.job.edge { kind := kind, h := h, a := handleIndex a, b := handleIndex b } = .ok j →
      ∃ t, answered t 0 ∧ t.job.graphs = j.graphs)
    ∧ (∀ kind h a b c, e.work = .edge kind h a b → s.job.edge { kind := kind, h := h, a := handleIndex a, b := handleIndex b } = .error c →
        ∃ t q, exec .graphStateEffect s = .next t ∧ t.job.graphs = s.job.graphs ∧ tget t.job.effects n = some q ∧ q.done = true
          ∧ q.trap = some (trapOf c))
    ∧ (∀ ph g r, e.work = .seal ph → s.job.openGraph = some g → tget s.job.graphs g = some r →
        ∃ t q, answered t (handle 1 g) ∧ t.job.openGraph = none ∧ tget t.job.graphs g = some q ∧ q.ctr = { r.ctr with sealed := true }
          ∧ (ph = true → t.job.openPhase = none))
    ∧ (∀ ph, e.work = .seal ph → s.job.openGraph = none → ∃ t, answered t 0 ∧ t.job.graphs = s.job.graphs)
    ∧ ∀ i r args, e.work = .launch i r args → s.job.launchFull r = false → recMesh r = false →
        ∃ t l g gr, answered t (handle 0 s.job.launchNext) ∧ tget t.job.launches s.job.launchNext = some l ∧ l.record = r
          ∧ l.args = args ∧ l.released = false ∧ l.units.length = l.count ∧ l.ctr = { sealed := true, pending := l.count }
          ∧ t.job.openGraph = some g ∧ l.graph = g ∧ tget t.job.graphs g = some gr ∧ s.job.launchNext ∈ gr.launches
          ∧ (∀ k, s.job.openGraph = some k → g = k)

/-- The rules of EDGE at the graph state (R27, R28, R412). -/
def EdgeRules : Prop :=
  ∀ (j : Job) (p : Pattern) (a b : LaunchRec) (g : Nat) (gr : GraphRec), tget j.launches p.a = some a → tget j.launches p.b = some b →
    j.openGraph = some g → tget j.graphs g = some gr →
    (a.graph ≠ g ∨ b.graph ≠ g ∨ p.b ≤ p.a → j.edge p = .error 0x06)
    ∧ (a.graph = g → b.graph = g → p.a < p.b → gr.patterns.length < 4096 →
        (p.kind = 1 → (j.edge p = .error 0x0A ↔ ¬ (a.nx = b.nx ∧ a.ny = b.ny ∧ a.nz = b.nz)))
        ∧ (p.kind = 3 → (j.edge p = .error 0x0A ↔ b.count ≠ (a.count + 1) / 2))
        ∧ (p.kind = 4 → (j.edge p = .error 0x0A ↔ a.dims ≠ b.dims))
        ∧ (p.kind = 2 → ∃ k q, j.edge p = .ok k ∧ tget k.graphs g = some q ∧ q.patterns = gr.patterns ++ [p]))
    ∧ ∀ i k, (p.kind = 1 → (p.joins a b i k = true ↔ i = k)) ∧ (p.kind = 2 → p.joins a b i k = true)
        ∧ (p.kind = 3 → (p.joins a b i k = true ↔ i = 2 * k ∨ i = 2 * k + 1))

/-! ## The life of a unit (R36 to R40, R227 to R241) -/

/-- LAUNCH_RELEASE (R227): the launch at the head of its queue is released; its units that were held wait for their edges or
are Ready. UNIT_READY (R29): a waiting unit whose edges are satisfied becomes Ready, and one with a failed edge ends
cancelled. -/
def Readiness : Prop :=
  (∀ (s : State) (q : Fin 8) (l : Nat) (r : LaunchRec), s.releaseHead q = some l → s.launch? l = some r →
    ∃ t k, exec (.launchRelease q) s = .next t ∧ t.launch? l = some k ∧ k.released = true ∧ t.mem = s.mem
      ∧ ∀ u ∈ r.units, ∀ x, s.unit? u = some x → ∃ y, t.unit? u = some y
          ∧ (x.st = .held → y.st = .waiting ∨ y.st = .ready) ∧ (x.st ≠ .held → y.st = x.st))
  ∧ ∀ (s : State) (u : Nat) (r : UnitRec), s.unit? u = some r →
    (r.st = .waiting → (s.sources r).all s.satisfied = true → (s.sources r).any s.failed = false →
      ∃ t q, exec (.unitReady u) s = .next t ∧ t.unit? u = some q ∧ q.st = .ready ∧ q.age = some (r.age.getD s.cycle)
        ∧ t.ctxs = s.ctxs ∧ t.mem = s.mem)
    ∧ (r.st = .waiting ∨ r.st = .held → (s.sources r).any s.failed = true →
      ∃ t q, exec (.unitReady u) s = .next t ∧ t.unit? u = some q ∧ q.st = .cancelled)

/-- A unit that has waited 2^20 cc since it became Ready is promoted (R230); an engine switches to a candidate that has waited
1,024 cc (R238, R239). -/
def WaitsEnd : Prop :=
  (∀ (s : State) (u : Nat) (r : UnitRec), s.unit? u = some r → r.st = .ready → r.promoted = false →
    (r.age.getD s.cycle + 2 ^ 20 ≤ s.cycle → ∃ t q, exec (.agePromotion u) s = .next t ∧ t.unit? u = some q ∧ q = { r with promoted := true })
    ∧ (s.cycle < r.age.getD s.cycle + 2 ^ 20 → exec (.agePromotion u) s = .next s))
  ∧ ∀ (s : State) (k : Nat) (e : Engine) (n : Fin 4), s.expired k e = some (4 * k + n.val) →
    ∃ t, exec (.candidateWaitExpiry k e n) s = .next t ∧ t.currentOf k e = 4 * k + n.val ∧ t.ctxs = s.ctxs ∧ t.mem = s.mem

/-- UNIT_DONE (R37, R25): once nothing of the unit is left, it ends done, faulted or cancelled as its stream did and is counted
in its launch; a versioned unit that ended well commits first: every staged byte is performed in one instant, no other byte
changes, and its version is gone (R32, R215, R259), or, where the commit would write a part of a poisoned block, it has no
effect and is a machine check of the unit (R258). -/
def UnitsEnd : Prop :=
  ∀ (s : State) (u : Nat) (r : UnitRec), s.unit? u = some r → s.unitDoneReady u = true →
    (¬ (r.ending = .done ∧ s.versionedUnit u = true ∧ r.uncommitted = true) → ∀ l, s.launch? r.launch = some l →
      ∃ t q m, exec (.unitDone u) s = .next t ∧ t.unit? u = some q ∧ q.st = r.ending ∧ t.launch? r.launch = some m
        ∧ m.ctr.pending = l.ctr.pending - 1 ∧ (r.ending = .done → m.ctr.failed = l.ctr.failed ∧ m.ctr.flt = l.ctr.flt)
        ∧ (r.ending ≠ .done → m.ctr.failed = min (l.ctr.failed + 1) 0xFFFFFF ∧ m.ctr.flt = true) ∧ t.mem = s.mem)
    ∧ (r.ending = .done → s.versionedUnit u = true → r.uncommitted = true → s.commitHurt r = none →
      r.staged.Pairwise (fun a b => a.1 < b.1) → r.work = [] → ∃ t q, exec (.unitDone u) s = .next t ∧ t.unit? u = some q ∧ q.version = none ∧ q.staged = [] ∧ q.st = r.st
        ∧ (∀ a b, tget r.staged a = some b → memRead t.mem a = b)
        ∧ (∀ a, tget r.staged a = none → memRead t.mem a = memRead s.mem a))
    ∧ (r.ending = .done → s.versionedUnit u = true → r.uncommitted = true →
      ∀ b, s.commitHurt r = some b → exec (.unitDone u) s = .next (s.unitCheck u (trapPoison b)))

/-- The version log (R260): a spill moves the oldest resident staged line of an address's set to the log where it has room, and
else makes the unit wait; when every holder of log space of the die waits, the youngest goes back to Ready with its version
discarded, which counts as no rollback. -/
def VersionLogSpills : Prop :=
  (∀ (s : State) (d addr u line : Nat) (r : UnitRec), s.unit? u = some r →
    s.oldestStaged d (fun b => Config.mscSet b == Config.mscSet (addr / 256)) = some (u, line) →
    ∃ t q, exec (.versionSpillComplete d addr) s = .next t ∧ t.unit? u = some q ∧ t.mem = s.mem ∧ q.staged = r.staged
      ∧ (s.logUsed d + 256 ≤ 2 ^ 30 → q.spilled = r.spilled ++ [line] ∧ q.logWait = false)
      ∧ (2 ^ 30 < s.logUsed d + 256 → q.spilled = r.spilled ∧ q.logWait = true))
  ∧ ∀ (s : State) (d u c : Nat) (r : UnitRec), s.logStuck d = true → youngest (s.logHolders d) = some (u, r) →
    s.unit? u = some r → r.ctx = some c → (s.ctx c).unit = some u →
    ∃ t q, exec (.versionLogDiscard d) s = .next t ∧ t.unit? u = some q ∧ q.st = .ready ∧ q.version = none ∧ q.staged = []
      ∧ q.rollbacks = r.rollbacks ∧ (t.ctx c).unit = none

/-! ## Caches, tables, views and ports -/

/-- Token k of the context that runs is the product of operation n, and incomplete (R67). -/
def Claimed (t : State) (c k n : Nat) : Prop := k ≠ 0 → ((t.ctx c).tok k).done = false ∧ ((t.ctx c).tok k).op = n

/-- The operation is gone and its token complete, which it still had claimed in a context that its unit still holds (R67). -/
def TokenCompletes (s t : State) (n : Nat) (o : Op) : Prop :=
  t.op? n = none ∧ (∀ m, m ≠ n → t.op? m = s.op? m)
  ∧ (o.tok ≠ 0 → s.opLive o = true → ((s.ctx o.ctx).tok o.tok).op = n → ((t.ctx o.ctx).tok o.tok).done = true)

/-- The state of a way group of a cluster (R166). -/
abbrev wayOf (s : State) (cl j : Nat) : WayState := tgetD (s.cluster cl).ways j .cache

/-- CCVT (R393, R394): TABLE for a reserved bit; with its token free and no named group converting, the groups that are not yet
in the state asked for start to convert, and where there are none the token is complete at once. CCVT_COMPLETE (R167):
every byte of a converted group reads 0, no other byte changes, and the token completes. -/
def WayConversion : Prop :=
  (∀ (f : C3) (s : State), Calm s (.ccvt f) → Settled s [f.a] →
    let w := reg s f.a
    let cl := clusterOf (coreOf s.focus)
    let k := (f.d.extractLsb' 0 5).toNat
    let back := w.getLsbD 4
    let todo := [0, 1, 2, 3].filter fun j => w.getLsbD j && !wayDone (wayOf s cl j) back
    (w.extractLsb' 5 59 ≠ 0 → Raises (.ccvt f) s (trapOf 0x08))
    ∧ (w.extractLsb' 5 59 = 0 → ((here s).tok k).done = true → (∀ j < 4, w.getLsbD j = true → (wayOf s cl j).converting = false) →
        (todo = [] → ∃ t, Completes (.ccvt f) s t ∧ ((here t).tok k).done = true ∧ t.ops = s.ops ∧ t.clusters = s.clusters
          ∧ t.mem = s.mem)
        ∧ (todo ≠ [] → ∃ t o, Sends (.ccvt f) s t o ∧ Claimed t s.focus k s.opNext ∧ t.mem = s.mem
          ∧ ∀ j < 4, wayOf t cl j = if j ∈ todo then (if back then .toCache s.opNext else .toScratch s.opNext) else wayOf s cl j)))
  ∧ ∀ (s : State) (n j : Nat) (o : Op) (f : C3), s.op? n = some o → o.ins = .ccvt f → maskGroups o.v1 = [j] →
      let cl := clusterOf o.core
      s.wayInUse n cl j = false → wayOf s cl j = .toScratch n ∨ wayOf s cl j = .toCache n →
      ∃ t, exec (.ccvtComplete n) s = .next t ∧ TokenCompletes s t n o
        ∧ wayOf t cl j = (if wayOf s cl j = .toScratch n then .scratch else .cache)
        ∧ (∀ a, wayBase cl j ≤ a → a < wayBase cl j + 2 ^ 21 → memRead t.mem a = 0)
        ∧ (∀ a, a < wayBase cl j ∨ wayBase cl j + 2 ^ 21 ≤ a → memRead t.mem a = memRead s.mem a)

/-- ICBC (R430): TABLE for a range of more than 2^32 bytes or beyond the virtual space; an empty range completes its token at
once; else no instruction cache of the job holds a line of the range, and the token completes with ICBC_ACK_COMPLETE. -/
def LineInvalidation : Prop :=
  (∀ (f : C3) (s : State), Calm s (.icbc f) → Settled s [f.a, f.b] →
    let va := (reg s f.a).toNat
    let n := (reg s f.b).toNat
    let k := (f.d.extractLsb' 0 5).toNat
    (2 ^ 32 < n ∨ 2 ^ 56 < va + n → Raises (.icbc f) s (trapOf 0x08))
    ∧ (n ≤ 2 ^ 32 → va + n ≤ 2 ^ 56 → ((here s).tok k).done = true →
        (n = 0 → ∃ t, Completes (.icbc f) s t ∧ ((here t).tok k).done = true ∧ t.ops = s.ops ∧ t.mem = s.mem)
        ∧ (n ≠ 0 → ∃ t o, Sends (.icbc f) s t o ∧ Claimed t s.focus k s.opNext ∧ t.mem = s.mem
          ∧ ∀ core, ∀ p ∈ (t.core core).icache, ¬ (p.1 < va + n ∧ va < p.1 + 32))))
  ∧ ∀ (s : State) (n : Nat) (o : Op) (f : C3), s.op? n = some o → o.ins = .icbc f →
      ∃ t, exec (.icbcAckComplete n) s = .next t ∧ TokenCompletes s t n o ∧ t.mem = s.mem

/-- VSET refuses a tile view descriptor (R59): its ROWS is not 0, and its type or its columns are outside their range, its stride
is 0, its base is above 24,575, its last byte or a side row of it lies outside the footprint, or SIDE does not go with its type. -/
def TileRefused (d : Word) (foot : Nat) : Prop :=
  let field (lo n : Nat) : Nat := (d.extractLsb' lo n).toNat
  let ty := fmtOf (field 59 5)
  let ob : Prop := ty = some .ob8 ∨ ty = some .ob4
  let rows := field 35 11
  let cols := field 46 13
  let base := field 8 15
  let stride := field 23 12
  let side := field 0 8
  rows ≠ 0
  ∧ (ty ∈ [none, some .raw, some .side] ∨ cols = 0 ∨ 4096 < cols ∨ 1024 < rows ∨ stride = 0 ∨ 24575 < base
    ∨ (∃ e, ty = some e ∧ 4096 * foot < 32 * base + 32 * stride * (rows - 1) + (cols * e.bits + 7) / 8)
    ∨ (ob ∧ (side = 0xFF ∨ foot < side + ((tileOf d).blocks + 2047) / 2048)) ∨ (¬ ob ∧ side ≠ 0xFF))

/-- VSET refuses an accumulator view descriptor (R61): a reserved bit is set, or its COUNT is not 0 and its type is none of FP32,
FP64, BF16 and I32, its count is above 192 (96 for FP64), or its last vector row lies outside the footprint. -/
def AccRefused (d : Word) (foot : Nat) : Prop :=
  let field (lo n : Nat) : Nat := (d.extractLsb' lo n).toNat
  let ty := fmtOf (field 19 5)
  let rows := (if ty = some .fp64 then 2 else 1) * field 8 11
  d.extractLsb' 24 40 ≠ 0
  ∨ (field 8 11 ≠ 0 ∧ (ty ∉ [some .fp32, some .fp64, some .bf16, some .i32] ∨ 192 < rows ∨ foot < field 0 8 + rows))

/-- VSET (R570, R571): VIEW while an engine is not Joined or in a handler, and for a descriptor that R59, R61 or R62 refuses;
else the view takes the descriptor. A VT descriptor is refused exactly where a reserved bit is set or its type is RAW,
OB4, SIDE or reserved (R62). -/
def ViewSetting : Prop :=
  ∀ (f : C3) (s : State), Calm s (.vset f) →
    let d := reg s f.a
    let v := (here s).views
    let gives (w : Views) : Prop := Commits (.vset f) s (s.modCtx s.focus fun x => { x with views := w }) (fallThrough s (.vset f))
    (¬ AllJoined s ∨ (here s).mode ≠ .unit → Raises (.vset f) s (trapOf 0x03))
    ∧ (AllJoined s → (here s).mode = .unit → Settled s [f.a] →
        (f.d.toNat < 32 → ¬ TileRefused d (here s).foot → gives { v with t := tset v.t f.d.toNat d })
        ∧ (f.d.toNat < 32 → TileRefused d (here s).foot → Raises (.vset f) s (trapOf 0x03))
        ∧ (32 ≤ f.d.toNat → f.d.toNat < 48 → ¬ AccRefused d (here s).foot → gives { v with a := tset v.a (f.d.toNat - 32) d })
        ∧ (32 ≤ f.d.toNat → f.d.toNat < 48 → AccRefused d (here s).foot → Raises (.vset f) s (trapOf 0x03))
        ∧ (48 ≤ f.d.toNat → d.extractLsb' 5 59 = 0 → d.extractLsb' 0 5 ∈ [1, 2, 3, 4, 5, 6, 7, 9, 10, 11, 12, 13, 14, 15, 16, 17] →
            gives { v with vt := d })
        ∧ (48 ≤ f.d.toNat → d.extractLsb' 5 59 ≠ 0 ∨ d.extractLsb' 0 5 ∈ [0, 8] ∨ 18 ≤ (d.extractLsb' 0 5).toNat →
            Raises (.vset f) s (trapOf 0x03)))

/-- Entry k of some bytes (R455). -/
def ruleIn (bs : List Byte) (k : Nat) : BitVec 128 := BitVec.ofNat 128 (natOfBytes ((bs.drop (16 * k)).take 16))

/-- SMAP, NSET and LRULE (R455, R494, R515), with the record that they read: a map register, a nest shadow without its
progress, or the named entries of the core's rule table with their counts 0, take it; TABLE for a record that its rule refuses,
and for LRULE PRIV in unit mode, ORDER in a versioned unit, ALIGN off 64 bytes and no effect of an empty mask. -/
def RecordLoads : Prop :=
  ∀ (f : C3) (s : State) (bs : List Byte),
    let va := (reg s f.a).toNat
    (Calm s (.smap f) → Settled s [f.a] → RecordAt s (.smap f) va 16 16 bs →
      (smapBad (natOfBytes (bs.take 8)) (natOfBytes (bs.drop 8)) = false →
        ∃ t, Completes (.smap f) s t ∧ t.mem = s.mem
          ∧ (here t).sm (f.d.toNat % 8) = BitVec.ofNat 512 (natOfBytes (bs.drop 8) * 2 ^ 64 + natOfBytes (bs.take 8))
          ∧ ∀ k, k ≠ f.d.toNat % 8 → (here t).sm k = (here s).sm k)
      ∧ (smapBad (natOfBytes (bs.take 8)) (natOfBytes (bs.drop 8)) = true → Raises (.smap f) s (trapOf 0x08)))
    ∧ (∀ sh, Calm s (.nset f) → Settled s [f.a, f.b] → reg s f.b = BitVec.ofNat 64 sh → sh < 2 → s.nestUses s.focus sh = false →
      RecordAt s (.nset f) va 256 64 bs → shadowBad (BitVec.ofNat 2048 (natOfBytes bs)) = false →
      ∃ t b, Completes (.nset f) s t ∧ t.mem = s.mem ∧ b = (if sh = 0 then (here t).shadow0 else (here t).shadow1)
        ∧ (∀ k, k < 896 → b.getLsbD k = (BitVec.ofNat 2048 (natOfBytes bs)).getLsbD k) ∧ b.extractLsb' 896 128 = 0)
    ∧ (∀ sh, Unplanted s → Settled s [f.a, f.b] → va % 64 = 0 → reg s f.b = BitVec.ofNat 64 sh →
      (2 ≤ sh → sh < 2 ^ 64 → Raises (.nset f) s (trapOf 0x08))
      ∧ (sh < 2 → s.nestUses s.focus sh = true → Holds (.nset f) s .waiting .other)
      ∧ (sh < 2 → s.nestUses s.focus sh = false → RecordAt s (.nset f) va 256 64 bs → shadowBad (BitVec.ofNat 2048 (natOfBytes bs)) = true →
          Raises (.nset f) s (trapOf 0x08)))
    ∧ (Unplanted s → Settled s [f.a, f.b] →
      let msk := reg s f.b
      let raises (code : Nat) : Prop := Raises (.lrule f) s (trapOf code)
      ((here s).mode = .unit → raises 0x02)
      ∧ ((here s).mode ≠ .unit → s.versioned s.focus = true → raises 0x06)
      ∧ ((here s).mode ≠ .unit → s.versioned s.focus = false → msk = 0 → Commits (.lrule f) s s (fallThrough s (.lrule f)))
      ∧ ((here s).mode ≠ .unit → s.versioned s.focus = false → msk ≠ 0 → va % 64 ≠ 0 →
          Raises (.lrule f) s { code := 0x07, addr := va })
      ∧ ((here s).mode ≠ .unit → s.versioned s.focus = false → va % 64 = 0 → msk.extractLsb' 32 32 ≠ 0 → raises 0x08)
      ∧ ∀ ns, (here s).mode ≠ .unit → s.versioned s.focus = false → va % 64 = 0 → msk.extractLsb' 32 32 = 0 → msk ≠ 0 →
          ns = (List.range 32).filter msk.getLsbD →
          (∃ t, s.recordsRead (.lrule f) (ns.map fun n => (va + 16 * n, 16)) = .bytes t bs) →
          ((∃ k < ns.length, ruleValid (ruleIn bs k) = false) → raises 0x08)
          ∧ (Calm s (.lrule f) → (∀ k < ns.length, ruleValid (ruleIn bs k) = true) →
              let core := coreOf s.focus
              ∃ t, Completes (.lrule f) s t ∧ t.mem = s.mem
                ∧ (∀ k n, ns[k]? = some n → tget (t.core core).rules n = some (ruleIn bs k) ∧ tget (t.core core).rwlog n = some 0)
                ∧ ∀ k, msk.getLsbD k = false → tget (t.core core).rules k = tget (s.core core).rules k
                    ∧ tget (t.core core).rwlog k = tget (s.core core).rwlog k))

/-- PBIND and PUNB (R496, R498): a free port is bound to a record that keeps R72 and R74 and whose FIFO fits, with no row delivered,
the generation of its slot that was current when PBIND first stood at issue (R81), and the acquires that its reads come after
(R204); TABLE for any other record and for a port that is bound. PUNB unbinds a source at once, a sink once memory has accepted its
rows, and leaves an unbound port as it is. -/
def PortBinding : Prop :=
  ∀ (f : C3) (s : State) (bs : List Byte),
    let va := (reg s f.a).toNat
    let p : Port := { record := recordOf bs }
    let slot := (s.core (coreOf s.focus)).slot p.slot
    let held := match (here s).c.hold with
      | .gens l _ => nth l p.slot 0
      | _ => slot.current
    let q : Port := { p with gen := held, fifo := p.reserve, waits := s.acquiresFor s.focus .c p.cls }
    let refused : Prop := q.recordBad = true ∨ q.chainBad (slot.table held).ty = true ∨ 65536 < (here s).fifoUsed + q.fifo
    (Calm s (.pbind f) → Settled s [f.a] → va % 64 = 0 → (here s).port? f.d.toNat = none → RecordAt s (.pbind f) va 128 64 bs → ¬ refused →
      ∃ t, Completes (.pbind f) s t ∧ t.mem = s.mem ∧ (here t).port? f.d.toNat = some q
        ∧ ∀ k, k ≠ f.d.toNat → (here t).port? k = (here s).port? k)
    ∧ (Unplanted s → Settled s [f.a] → va % 64 = 0 → (here s).port? f.d.toNat = none → RecordAt s (.pbind f) va 128 64 bs → refused →
        Raises (.pbind f) s (trapOf 0x08))
    ∧ (Unplanted s → Settled s [f.a] → va % 64 = 0 → (here s).port? f.d.toNat ≠ none → Raises (.pbind f) s (trapOf 0x08))
    ∧ (Unplanted s → (here s).port? f.d.toNat = none → Commits (.punb f) s s (fallThrough s (.punb f)))
    ∧ (∀ r, Unplanted s → (here s).port? f.d.toNat = some r → r.isSink = false ∨ s.sinkBusy s.focus f.d.toNat = false →
        Commits (.punb f) s (s.modCtx s.focus fun y => { y with ports := tdel y.ports f.d.toNat }) (fallThrough s (.punb f)))
    ∧ (∀ r, (here s).port? f.d.toNat = some r → r.isSink = true → s.sinkBusy s.focus f.d.toNat = true →
        Holds (.punb f) s .waiting .other)

/-- Byte offset and length of the descriptor fields by selector (R125, R529). -/
def fieldRows : List (Nat × Nat × Nat) :=
  [ (0, 0, 8), (1, 8, 4), (2, 12, 4), (3, 16, 4), (4, 20, 4), (5, 24, 4), (6, 28, 4), (7, 32, 8), (8, 40, 8), (9, 48, 8)
  , (10, 56, 8), (11, 64, 8), (12, 80, 4), (13, 84, 4), (14, 88, 4), (15, 92, 4), (16, 96, 4), (17, 100, 4), (18, 104, 8)
  , (19, 112, 8) ]

/-! ## Vector instructions -/

/-- The floating types of R53 that arithmetic takes, and the integer types (R53, R540). -/
def floats : List Fmt := [.fp64, .fp32, .bf16, .e4m3, .e5m2]
def wides : List Fmt := [.fp64, .fp32, .bf16]
def ints : List Fmt := [.i8, .i16, .i32, .i64, .n8, .n16, .n32, .n64]

/-- A vector instruction: its sources with their sync codes, the types T that it accepts (R540), the tags that a granule of a
source may have (R541), whether its destination is a register, and the operand that names a lane (R554). -/
structure VecRow where
  ins : VX → Instr
  srcs : VX → List (VOp × BitVec 2)
  takes : Fmt → Prop
  tag : Fmt → Fmt → Prop := fun t u => u = t
  rounds : Bool := true
  toReg : Bool := false
  lane : VX → Option VOp := fun _ => none

def one (f : VX) : List (VOp × BitVec 2) := [(f.a, f.sya)]
def two (f : VX) : List (VOp × BitVec 2) := [(f.a, f.sya), (f.b, f.syb)]
def three (f : VX) : List (VOp × BitVec 2) := [(f.a, f.sya), (f.b, f.syb), (f.c, f.syc)]

def arithRow (i : VX → Instr) (k : VX → List (VOp × BitVec 2)) : VecRow := { ins := i, srcs := k, takes := fun t => t ∈ floats ++ ints }
def wideRow (i : VX → Instr) : VecRow := { ins := i, srcs := one, takes := fun t => t ∈ wides }
def divRow : VecRow := { ins := .vdiv, srcs := two, takes := fun t => t ∈ wides ++ ints }
def bitsRow (i : VX → Instr) (k : VX → List (VOp × BitVec 2)) : VecRow :=
  { ins := i, srcs := k, takes := fun t => t ∈ ints, tag := fun t u => u ∈ ints ∧ u.bits = t.bits }
def testRow (i : VX → Instr) (k : VX → List (VOp × BitVec 2)) : VecRow :=
  { ins := i, srcs := k, takes := fun t => t ∈ floats ++ ints, toReg := true }
def moveRow (i : VX → Instr) (k : VX → List (VOp × BitVec 2)) (q : VX → Option VOp) (r : Bool) : VecRow :=
  { ins := i, srcs := k, takes := fun _ => True, tag := fun _ _ => True, rounds := false, toReg := r, lane := q }

def vecRows : List VecRow :=
  [ arithRow .vadd two, arithRow .vsub two, arithRow .vmul two, arithRow .vfma three, arithRow .vmin two, arithRow .vmax two
  , arithRow .vabs one, arithRow .vneg one, divRow, wideRow .vsqrt, wideRow .vrcp, wideRow .vrsq, wideRow .vexp2, wideRow .vlog2
  , wideRow .vscl, bitsRow .vand two, bitsRow .vor two, bitsRow .vxor two, bitsRow .vnot one, bitsRow .vshl two
  , bitsRow .vshr two, bitsRow .vsar two, bitsRow .vrol two, testRow .vcmpEq two, testRow .vcmpNe two, testRow .vcmpLt two
  , testRow .vcmpLe two, testRow .vcmpGt two, testRow .vcmpGe two, testRow .vredAdd one, testRow .vredMin one
  , testRow .vredMax one, moveRow .vmov one (fun _ => none) false, moveRow .vsel two (fun _ => none) false
  , moveRow .vbc one (fun f => some f.b) false, moveRow .vext one (fun f => some f.b) true
  , moveRow .vins (fun _ => []) (fun f => some f.b) false, moveRow .vslide one (fun _ => none) false ]

/-- Granule g of the register space can be read as it stands: full unless it is read plain, not taken by another consuming read
(R65), with no result in flight for it. -/
def GranReady (s : State) (sync : BitVec 2) (g : Nat) : Prop :=
  (sync = 2 ∨ ((here s).granAt g).judged s.cycle = true) ∧ (sync = 1 → s.taken s.focus g = false)
  ∧ ∀ l ∈ (here s).lands, ∀ d m ty fill, l.act ≠ .gran g d m ty fill

/-- Source m of an instruction can be read: the granules of a row in the footprint with tags that are admitted, or a row that
stands at a bound source port of an admitted type, which the earlier sources have not popped; every other form is a value
(R541, R545, R64, R75). -/
def SourceReady (s : State) (tag : Fmt → Prop) (srcs : List (VOp × BitVec 2)) (m : Nat) (o : VOp × BitVec 2) : Prop :=
  match o.1 with
  | .row n => n.toNat < (here s).foot ∧ ∀ j < 16, GranReady s o.2 (16 * n.toNat + j) ∧ tag ((here s).granAt (16 * n.toNat + j)).tag
  | .port p => ∃ q r, (here s).port? p.toNat = some q ∧ q.isSink = false ∧ tag q.ty
      ∧ q.peek ((srcs.take m).countP fun e => e.1 == .port p) = .row r ∧ r.fault = none
  | _ => True

/-- A destination can be written: a row in the footprint, empty where its sync code asks for that, or a bound sink of type T
with room in its walk (R542, R545, R64, R75). -/
def DestReady (s : State) (t : Fmt) (o : VOp) (sync : BitVec 2) : Prop :=
  match o with
  | .row n => n.toNat < (here s).foot
      ∧ (sync = 0 ∨ sync = 2 ∨ ∀ j < 16, ((here s).granAt (16 * n.toNat + j)).judged s.cycle = false)
  | .port p => ∃ q, (here s).port? p.toNat = some q ∧ q.isSink = true ∧ q.ty = t ∧ q.pushEnds = false
  | _ => True

/-- What a vector instruction that commits leaves: at issue no register, no granule and no view of its context changes, no
other context and no byte of memory, but that a port popped into a row empties that row's granules (R45); the flags may be raised,
DPHASE counted, ports popped and pushed; results are put in flight for its destination alone, and consumed granules of its sources
are emptied (R542, R543, R544, R44). -/
structure VectorQuiet (s t : State) (d : VOp) (rows : List VOp) (srcs : List (VOp × BitVec 2)) : Prop where
  focus : t.focus = s.focus
  regs : (here t).regs = (here s).regs
  gran : (∀ o ∈ srcs, ∀ p, o.1 ≠ .port p) → (here t).gran = (here s).gran
  bytes : ∀ g, ((here t).granAt g).bytes = ((here s).granAt g).bytes ∧ ((here t).granAt g).tag = ((here s).granAt g).tag
  rest : ∀ g, (∀ n, .row n ∈ rows → g / 16 ≠ n.toNat) → (here t).granAt g = (here s).granAt g
  views : (here t).views = (here s).views ∧ (here t).captured = (here s).captured
  unit : (here t).unit = (here s).unit ∧ (here t).mode = (here s).mode ∧ (here t).depth = (here s).depth
  arstat : ∀ k, 6 ≤ k → (here t).sprs.arstat.getLsbD k = (here s).sprs.arstat.getLsbD k
  others : ∀ c, c ≠ s.focus → t.ctx c = s.ctx c
  memory : t.mem = s.mem
  job : t.job = s.job
  lands : ∃ new, (here t).lands = (here s).lands ++ new ∧ ∀ l ∈ new, l.eng = .v ∧
    match l.act with
    | .gran g _ _ _ _ => ∃ n, .row n ∈ rows ∧ g / 16 = n.toNat
    | .empty g => ∃ o ∈ srcs, o.2 = 1 ∧ ∃ n, o.1 = .row n ∧ g / 16 = n.toNat
    | .push p _ _ => ∃ q, d = .port q ∧ p = q.toNat
    | .mask r _ | .breg r _ => rows = [] ∧ r = VOp.num d
    | _ => False

/-- Lanes of a row of a type (R62). -/
def lanesOf (t : Fmt) : Nat := 32768 / t.bits

/-- No flag has its enable set (R101). -/
abbrev NoEnables (s : State) : Prop := (here s).sprs.arstat.extractLsb' 8 6 = 0

/-- A vector instruction commits where T is one that it accepts, RND is 0 for an integer T, its sources can be read with tags
that it admits, its destination can be written, and a lane that it names is below LANES (R540 to R545, R554). -/
def VectorCommits : Prop :=
  ∀ row ∈ vecRows, ∀ (f : VX) (s : State), Calm s (row.ins f) → NoEnables s →
    let t := (here s).vt
    let srcs := row.srcs f
    row.takes t → (row.rounds = true → t ∈ ints → f.rnd = 0) →
    (∀ m o, srcs[m]? = some o → SourceReady s (row.tag t) srcs m o) → (row.toReg = false → DestReady s t f.d f.syd) →
    (∀ o, row.lane f = some o → (VOp.scalar o (here s)).toNat < lanesOf t) →
    ∃ u, Completes (row.ins f) s u ∧ VectorQuiet s u f.d (if row.toReg then [] else [f.d]) srcs

/-- VCVT takes a source whose granules have one tag, of any type but RAW, OB8, OB4 and SIDE, to any T but OB8 and E8M0; VQNT
quantises an FP32 row into the first four granules of D and the side row in B, under OB8; VDQNT reads four granules of
codes and one of side entries, under FP32 (R540, R558, R560). -/
def VectorConverts : Prop :=
  ∀ (f : VX) (s : State), NoEnables s →
    let t := (here s).vt
    (∀ u, Calm s (.vcvt f) → t ∉ [Fmt.ob8, .e8m0] → u ∉ [Fmt.raw, .ob8, .ob4, .side] → SourceReady s (fun v => v = u) (one f) 0 (f.a, f.sya) →
      DestReady s t f.d f.syd → ∃ v, Completes (.vcvt f) s v ∧ VectorQuiet s v f.d [f.d] (one f))
    ∧ (∀ n k, Calm s (.vqnt f) → t = .ob8 → f.d = .row n → f.b = .row k → SourceReady s (fun v => v = .fp32) (one f) 0 (f.a, f.sya) →
      DestReady s t f.d f.syd → DestReady s t f.b f.syb → ∃ v, Completes (.vqnt f) s v ∧ VectorQuiet s v f.d [f.d, f.b] (one f))
    ∧ (∀ n k, Calm s (.vdqnt f) → t = .fp32 → f.a = .row n → f.b = .row k → n.toNat < (here s).foot → k.toNat < (here s).foot →
      (∀ j < 4, GranReady s f.sya (16 * n.toNat + j) ∧ ((here s).granAt (16 * n.toNat + j)).tag = .ob8) →
      GranReady s f.syb (16 * k.toNat) → ((here s).granAt (16 * k.toNat)).tag = .side → DestReady s t f.d f.syd →
      ∃ v, Completes (.vdqnt f) s v ∧ VectorQuiet s v f.d [f.d] (two f))

/-! ### Lanes -/

/-- Lane l of source m, elements of b bits (R62, R541). -/
def laneIn (s : State) (srcs : List (VOp × BitVec 2)) (m b l : Nat) : Nat :=
  match srcs[m]? with
  | some (.row n, _) => (((here s).granAt (16 * n.toNat + l * b / 2048)).bytes.extractLsb' (l * b % 2048) b).toNat
  | some (.port p, _) => match (here s).port? p.toNat with
    | some q => match q.peek ((srcs.take m).countP fun e => e.1 == .port p) with
      | .row r => (r.data.extractLsb' (l * b) b).toNat
      | _ => 0
    | none => 0
  | some (.breg r, _) => ((here s).br r.toNat).toNat % 2 ^ b
  | some (.lit32 w, _) => (w.signExtend 64).toNat % 2 ^ b
  | some (.lit64 w, _) => w.toNat % 2 ^ b
  | _ => 0

/-- The results that an instruction put in flight. -/
def landed (s t : State) : List Landing := (here t).lands.drop (here s).lands.length

/-- Lane l of the result, elements of b bits, is v, and lands in a cycle with a tag: in a granule of the destination row, or in
the row that a port takes (R542). -/
def LaneLands (s t : State) (d : VOp) (b l v due : Nat) (tag : Fmt) : Prop :=
  match d with
  | .row n => ∃ q ∈ landed s t, q.due = due ∧ ∃ data sel fill, q.act = .gran (16 * n.toNat + l * b / 2048) data sel tag fill
      ∧ (data.extractLsb' (l * b % 2048) b).toNat = v ∧ sel.extractLsb' (l * b % 2048) b = BitVec.allOnes b
  | .port p => ∃ q ∈ landed s t, q.due = due ∧ ∃ op data, q.act = .push p.toNat op data ∧ (data.extractLsb' (l * b) b).toNat = v
  | _ => True

/-- A lane whose mask bit is 0 keeps its bytes in a row, and is 0 in a pushed row (R542). -/
def LaneKept (s t : State) (d : VOp) (b l : Nat) : Prop :=
  ∀ q ∈ landed s t, (∀ g data sel tag fill, q.act = .gran g data sel tag fill → (∃ n, d = .row n ∧ g = 16 * n.toNat + l * b / 2048) →
      sel.extractLsb' (l * b % 2048) b = 0)
    ∧ ∀ p op data, q.act = .push p op data → data.extractLsb' (l * b) b = 0

/-- The value of a code of an integer type, the low bits of a result, and the result under SAT (R89, R91). -/
def intOf (t : Fmt) (n : Nat) : Int := if t ∈ [Fmt.i8, .i16, .i32, .i64] then (BitVec.ofNat t.bits n).toInt else n
def lowOf (t : Fmt) (r : Int) : Nat := (r % 2 ^ t.bits).toNat
def resultOf (t : Fmt) (sat : Bool) (r : Int) : Nat :=
  let signed := t ∈ [Fmt.i8, .i16, .i32, .i64]
  let lo : Int := if signed then -(2 ^ (t.bits - 1)) else 0
  let hi : Int := if signed then 2 ^ (t.bits - 1) - 1 else 2 ^ t.bits - 1
  lowOf t (if sat then max lo (min hi r) else r)

/-- Integer results lane by lane: the row, its latency, and the result for a type, SAT and the codes of A, B and C (R543, R546,
R548, R552, R92, R93). -/
def laneRows : List (VecRow × Nat × (Fmt → Bool → Nat → Nat → Nat → Nat)) :=
  [ (arithRow .vadd two, 6, fun t sat a b _ => resultOf t sat (intOf t a + intOf t b))
  , (arithRow .vsub two, 6, fun t sat a b _ => resultOf t sat (intOf t a - intOf t b))
  , (arithRow .vmul two, 8, fun t sat a b _ => resultOf t sat (intOf t a * intOf t b))
  , (arithRow .vfma three, 8, fun t sat a b c => resultOf t sat (intOf t a * intOf t b + intOf t c))
  , (arithRow .vmin two, 6, fun t _ a b _ => if intOf t b < intOf t a then b else a)
  , (arithRow .vmax two, 6, fun t _ a b _ => if intOf t a < intOf t b then b else a)
  , (arithRow .vneg one, 6, fun t _ a _ _ => lowOf t (-intOf t a))
  , (arithRow .vabs one, 6, fun t _ a _ _ => lowOf t (intOf t a).natAbs)
  , (divRow, 24, fun t _ a b _ => if b = 0 then 0 else lowOf t ((intOf t a).tdiv (intOf t b)))
  , (bitsRow .vand two, 6, fun _ _ a b _ => a &&& b), (bitsRow .vor two, 6, fun _ _ a b _ => a ||| b)
  , (bitsRow .vxor two, 6, fun _ _ a b _ => a ^^^ b), (bitsRow .vnot one, 6, fun t _ a _ _ => (~~~ BitVec.ofNat t.bits a).toNat)
  , (bitsRow .vshl two, 6, fun t _ a b _ => (BitVec.ofNat t.bits a <<< (b % 256)).toNat)
  , (bitsRow .vshr two, 6, fun t _ a b _ => (BitVec.ofNat t.bits a >>> (b % 256)).toNat)
  , (bitsRow .vsar two, 6, fun t _ a b _ => ((BitVec.ofNat t.bits a).sshiftRight (b % 256)).toNat)
  , (bitsRow .vrol two, 6, fun t _ a b _ => ((BitVec.ofNat t.bits a).rotateLeft (b % 256)).toNat) ]

/-- The mask bit of a lane: m0 reads all ones (R66, R542). -/
def maskOf (s : State) (f : VX) (l : Nat) : Bool := ((here s).mr f.mask.toNat).getLsbD l

/-! ### Vector memory -/

/-- The enabled lanes of a gather or a scatter below n, with their addresses: the base and the lane's index times the element
size, an I32 index signed (R563). -/
def laneAddresses (s : State) (f : VX) (base e n : Nat) : List (Nat × Nat) :=
  ((List.range n).filter (maskOf s f)).map fun l =>
    let v := laneIn s [(f.b, f.syb)] 0 32 l
    let i : Int := match f.b with
      | .row r => if ((here s).granAt (16 * r.toNat + l / 64)).tag = .i32 then (BitVec.ofNat 32 v).toInt else v
      | _ => v
    (l, (((base : Int) + i * e) % 2 ^ 64).toNat)

/-- VLD and VST (R562): a row of 4 KiB at an address that is a multiple of 256. VLD empties its destination's granules, unless
it is plain, and its load is in flight; VST has its store in flight with the bytes of the row. -/
def RowAccess : Prop :=
  ∀ (f : VX) (s : State) (n : BitVec 8), f.d = .row n → n.toNat < (here s).foot →
    let core := coreOf s.focus
    let va := (VOp.scalar f.a (here s)).toNat
    (∀ segs, Calm s (.vld f) → PagesFound s [(va, 4096)] → DestReady s .raw f.d f.syd → va % 256 = 0 → s.range core .read va 4096 = .ok segs →
      s.freeUsed core + 64 ≤ 512 →
      ∃ t o, Sends (.vld f) s t o ∧ o.kind = .vload ∧ o.segs = segs ∧ o.grans = rowGrans n.toNat ∧ o.cls = 0 ∧ o.reads = true
        ∧ (here t).regs = (here s).regs ∧ t.mem = s.mem
        ∧ (∀ j < 16, ((here t).granAt (16 * n.toNat + j)).full = if f.syd = 2 then ((here s).granAt (16 * n.toNat + j)).full else false)
        ∧ (∀ g, ((here t).granAt g).bytes = ((here s).granAt g).bytes ∧ ((here t).granAt g).tag = ((here s).granAt g).tag)
        ∧ ∀ g, g / 16 ≠ n.toNat → (here t).granAt g = (here s).granAt g)
    ∧ (∀ segs, Calm s (.vst f) → PagesFound s [(va, 4096)] → SourceReady s (fun _ => True) [(f.d, f.syd)] 0 (f.d, f.syd) → va % 256 = 0 →
      (s.isSys core va && s.versioned s.focus) = false → s.range core .write va 4096 = .ok segs → s.poison = [] →
      s.entriesFull core = false →
      ∃ t o, Sends (.vst f) s t o ∧ o.kind = .vstore ∧ o.segs = segs ∧ o.writes = true ∧ o.data.length = 4096
        ∧ (∀ k, k < 4096 → o.data[k]? = some (((here s).granAt (16 * n.toNat + k / 256)).bytes.extractLsb' (8 * (k % 256)) 8))
        ∧ (here t).regs = (here s).regs ∧ (here t).gran = (here s).gran ∧ t.mem = s.mem)

/-- VLDX and VSTX (R563): with its index row, and for VSTX its data row, to read, the enabled lanes' pieces are in flight as one
operation, none where no lane is enabled. -/
def LaneAccess : Prop :=
  ∀ (f : VX) (s : State) (segs : List Seg), s.poison = [] →
    let core := coreOf s.focus
    let base := (VOp.scalar f.a (here s)).toNat
    let idx (u : Fmt) : Prop := u = .i32 ∨ u = .n32
    (∀ n k, Calm s (.vldx f) → f.d = .row n → n.toNat < (here s).foot → f.b = .row k →
      SourceReady s idx [(f.b, f.syb)] 0 (f.b, f.syb) → DestReady s .raw f.d f.syd →
      let e := (VX.tag f).bits / 8
      let l := laneAddresses s f base e (min (4096 / e) 1024)
      s.lanePieces core e .read false l = .ok segs → s.entriesFull core = false → e ∈ [1, 2, 4, 8] →
      ∃ t, Completes (.vldx f) s t ∧ (here t).regs = (here s).regs ∧ t.mem = s.mem ∧ (l = [] → t.ops = s.ops)
        ∧ (l ≠ [] → ∃ o, Sends (.vldx f) s t o ∧ o.kind = .vload ∧ o.segs = segs ∧ o.lanes = l.map Prod.fst ∧ o.tag = VX.tag f))
    ∧ (∀ n k, Calm s (.vstx f) → f.d = .row n → f.b = .row k →
      SourceReady s (fun u => u = (here s).vt) [(f.d, f.syd), (f.b, f.syb)] 0 (f.d, f.syd) →
      SourceReady s idx [(f.d, f.syd), (f.b, f.syb)] 1 (f.b, f.syb) →
      let e := (here s).vt.bits / 8
      let l := laneAddresses s f base e (min (lanesOf (here s).vt) 1024)
      s.lanePieces core e .write (s.versioned s.focus) l = .ok segs → s.entriesFull core = false → e ∈ [1, 2, 4, 8] →
      ∃ t, Completes (.vstx f) s t ∧ (here t).regs = (here s).regs ∧ (here t).gran = (here s).gran ∧ t.mem = s.mem
        ∧ (l = [] ∧ segs = [] → t.ops = s.ops)
        ∧ (segs ≠ [] → ∃ o, Sends (.vstx f) s t o ∧ o.kind = .vstore ∧ o.segs = segs ∧ o.lanes = l.map Prod.fst))

/-- LONG_LATENCY_COMPLETE (R45, R562): the next granule of a VLD takes its 256 bytes of memory and its tag, and is full unless
the destination is plain; the last one frees the operation. No other granule changes. -/
def GranuleFills : Prop :=
  ∀ (s : State) (n : Nat) (o : Op) (f : VX) (q : Seg) (g : Nat) (rest : List Nat), s.op? n = some o → o.kind = .vload →
    s.opReady o = true → s.opLive o = true → Unlaid s o.ctx → o.ins = .vld f → o.lanes = [] → o.segs = [q] → q.len = 4096 → o.fwd = [] →
    (∀ r, s.unit? o.unit = some r → r.staged = []) → s.poison = [] → o.grans = g :: rest →
    ∃ t, exec (.longLatencyComplete n) s = .next t ∧ t.mem = s.mem
      ∧ ((t.ctx o.ctx).granAt g).tag = o.tag
      ∧ (∀ k, k < 256 → ((t.ctx o.ctx).granAt g).bytes.extractLsb' (8 * k) 8 = memRead s.mem (q.pa + 256 * (g % 16) + k))
      ∧ (f.syd ≠ 2 → ((t.ctx o.ctx).granAt g).full = true)
      ∧ (∀ h, h ≠ g → (t.ctx o.ctx).granAt h = (s.ctx o.ctx).granAt h) ∧ (t.ctx o.ctx).regs = (s.ctx o.ctx).regs
      ∧ (rest = [] → t.op? n = none) ∧ (rest ≠ [] → ∃ p, t.op? n = some p ∧ p.grans = rest)

/-! ## Matrix instructions -/

/-- The instructions of the matrix engine that write the register space, with the plan that their checks give (R458, R474 to
R491); a plan that is ready passed them and waits for nothing. -/
def matrixRows : List ((MF → Instr) × (State → MF → MRes)) :=
  [ (.mma, fun s f => s.mmaPlan (here s).forwarded true (mmaSpec (here s) f { ins := .mma f }))
  , (.mscl, fun s f => s.msclPlan (here s).forwarded true (tgetD (here s).captured.a f.fc.toNat 0) (f.mf.toNat / 4) (msclExp f) none)
  , (.msclReg, fun s f => s.msclPlan (here s).forwarded true (tgetD (here s).captured.a f.fc.toNat 0) (f.mf.toNat / 4) 0
      (some ((here s).sr f.fa.toNat)))
  , (.mzero, fun s f => s.mzeroPlan true (tgetD (here s).captured.a f.fc.toNat 0))
  , (.mtrn, fun s f => s.mtrnPlan (here s).forwarded true (tgetD (here s).captured.t f.fa.toNat tUnset)
      (tgetD (here s).captured.t f.fb.toNat tUnset) f.sa.toNat)
  , (.mxmov, fun s f => s.mxmovPlan (here s).forwarded true (tgetD (here s).captured.t f.fa.toNat tUnset)
      (tgetD (here s).captured.t f.fb.toNat tUnset) f.sa.toNat)
  , (.mwb, fun s f => s.mwbPlan (here s).forwarded true (tgetD (here s).captured.a f.fc.toNat 0)
      (tgetD (here s).captured.t f.fb.toNat tUnset) (f.mf.toNat / 4) (f.mf.getLsbD 1) 0 none f.sa.toNat none fun _ t _ => t) ]

/-- MMA, MSCL, MZERO, MTRN, MXMOV and MWB complete where their plan is ready, with their results in flight: no register, no byte
of the register space, no other context and no byte of memory has changed yet. -/
def MatrixCommits : Prop :=
  ∀ row ∈ matrixRows, ∀ (f : MF) (s : State) (p : MPlan), Calm s (row.1 f) → row.2 s f = .ready p →
    ∃ t, Completes (row.1 f) s t ∧ (here t).regs = (here s).regs ∧ (here t).views = (here s).views
      ∧ (∀ g, ((here t).granAt g).bytes = ((here s).granAt g).bytes ∧ ((here t).granAt g).tag = ((here s).granAt g).tag)
      ∧ (∃ new, (here t).lands = (here s).lands ++ new ∧ ∀ l ∈ new, l.eng = .m) ∧ t.mem = s.mem ∧ t.job = s.job
      ∧ ∀ c, c ≠ s.focus → t.ctx c = s.ctx c

/-- The instructions with a token: their operation is in flight and has claimed it (R464, R488). A port that MBLD names holds no
row with a fault and no broken block. -/
def MatrixTokens : Prop :=
  ∀ (f : MF) (k : Tok) (s : State) (p : MPlan), s.tokensReady s.focus k = true →
    (Calm s (.mbld f k) → (f.pa = true → ∀ q, (here s).port? (f.fa.toNat % 16) = some q → q.broken = none ∧ ∀ r ∈ q.rows, r.fault = none) →
      s.loadPlan (here s).forwarded true (.mbld f k) f k (tgetD (here s).captured.t f.fb.toNat tUnset) [] = .ready p →
      ∃ t o, Sends (.mbld f k) s t o ∧ o.kind = .async ∧ o.tok = k.make.toNat ∧ Claimed t s.focus k.make.toNat s.opNext ∧ t.mem = s.mem)
    ∧ (Calm s (.mwbMem f k) → s.mwbMemPlan (here s).forwarded true (.mwbMem f k) f k { ins := .mwbMem f k } = .ready p →
      ∃ t o, Sends (.mwbMem f k) s t o ∧ o.kind = .async ∧ o.tok = k.make.toNat ∧ o.va = ((here s).sr f.fa.toNat).toNat
        ∧ Claimed t s.focus k.make.toNat s.opNext ∧ t.mem = s.mem)

/-- VIEW of the matrix instructions: an accumulator that is not set, no residency for the B tile, no routing matrix, or tile
views whose shapes do not agree (R475, R486, R490, R491). -/
def MatrixViews : Prop :=
  ∀ (f : MF) (s : State), Unplanted s →
    let acc := accOf (tgetD (here s).captured.a f.fc.toNat 0)
    let a := tileOf (tgetD (here s).captured.t f.fa.toNat tUnset)
    let b := tileOf (tgetD (here s).captured.t f.fb.toNat tUnset)
    let view (i : Instr) : Prop := Raises i s (trapOf 0x03)
    (acc.count = 0 → view (.mma f) ∧ view (.mscl f) ∧ view (.msclReg f) ∧ view (.mzero f) ∧ view (.mwb f))
    ∧ ((∀ r ∈ (s.core (coreOf s.focus)).resid, r.ctx = s.focus → r.tile ≠ f.fb.toNat) → view (.mma f))
    ∧ ((∀ r ∈ (s.core (coreOf s.focus)).resid, r.ctx = s.focus → r.pass = false) → view (.mxmov f))
    ∧ (b.rows ≠ a.cols ∨ b.cols ≠ a.rows ∨ b.ty ≠ a.ty → view (.mtrn f))
    ∧ (b.rows ≠ acc.count ∨ acc.cols < b.cols → view (.mwb f))

/-- MGANG (R469, R470): a context that is in a gang, or whose core is, raises ORDER; a size that differs, or a gang that is formed,
raises TABLE; a member that is not the last waits; the last forms the gang and completes, and every member that waits with its
MGANG retires it. MGANG.leave breaks the gang of a member, and does nothing for any other. -/
def Gangs : Prop :=
  ∀ (f : MF) (s : State), Unplanted s →
    let cl := clusterOf (coreOf s.focus)
    let id := f.fb.toNat
    let size := f.fa.toNat % 16 + 1
    let gangs := (s.cluster cl).gangs
    let g := tgetD gangs id { size := size }
    let free := (∀ p ∈ gangs, s.focus ∉ p.2.members) ∧ ∀ m ∈ g.members, coreOf m ≠ coreOf s.focus
    g.joining.contains s.focus = false →
    (¬ free → Raises (.mgang f) s (trapOf 0x06))
    ∧ (free → g.size ≠ size ∨ g.formed = true → Raises (.mgang f) s (trapOf 0x08))
    ∧ (free → g.size = size → g.formed = false → g.members.length + 1 < size →
        ∃ t, exec (.mgang f) s = .next t ∧ (t.eng s.focus .m).st = .waiting
          ∧ tget (t.cluster cl).gangs id = some { g with members := g.members ++ [s.focus], joining := g.joining ++ [s.focus] })
    ∧ (free → g.size = size → g.formed = false → size ≤ g.members.length + 1 → Calm s (.mgang f) → g.joining.Nodup →
        (∀ m ∈ g.joining, (s.ctx m).pend = [] ∧ s.steps m .m = false ∧ (s.eng m .m).st = .waiting
          ∧ ∃ h, (s.eng m .m).held = some (.mgang h)) →
        ∃ t, Completes (.mgang f) s t ∧ t.mem = s.mem ∧ (∀ m ∈ g.joining, WaitOver s t m .m)
          ∧ tget (t.cluster cl).gangs id = some { g with members := g.members ++ [s.focus], joining := [], formed := true })
    ∧ (∀ q, tget gangs id = some q → s.focus ∈ q.members → Calm s (.mgangLeave f) → (∀ p ∈ s.ops, p.2.gang = none) →
        ∃ t, Completes (.mgangLeave f) s t ∧ tget (t.cluster cl).gangs id = none)
    ∧ ((∀ q, tget gangs id = some q → s.focus ∉ q.members) → Commits (.mgangLeave f) s s (fallThrough s (.mgangLeave f)))

/-- MKAT and MKAT_COMPLETE (R473): with no MKAT running on its core the known-answer tile starts; after 4,096 idle cycles KSIG
is the signature of a healthy core, and the token completes. -/
def KnownAnswer : Prop :=
  (∀ (f : MF) (k : Tok) (s : State), Calm s (.mkat f k) → s.tokensReady s.focus k = true → (s.core (coreOf s.focus)).kat = none →
    ∃ t o, Sends (.mkat f k) s t o ∧ o.tok = k.make.toNat ∧ Claimed t s.focus k.make.toNat s.opNext
      ∧ (t.core (coreOf s.focus)).kat = some (s.opNext, 0) ∧ t.mem = s.mem)
  ∧ (∀ (f : MF) (k : Tok) (s : State), s.tokensReady s.focus k = false → Holds (.mkat f k) s .waiting .other)
  ∧ ∀ (s : State) (n idle : Nat) (o : Op), s.op? n = some o → (s.core o.core).kat = some (n, idle) →
      (4096 ≤ idle → ∃ t, exec (.mkatComplete n) s = .next t ∧ (t.core o.core).ksig = 0x6B1D30E5A7C49F82 ∧ (t.core o.core).kat = none
        ∧ TokenCompletes s t n o)
      ∧ (idle < 4096 → exec (.mkatComplete n) s = .next s)

/-- RESIDENCY_LOADED (R461, R465, R466): a load of its own that had no fault makes its residency ready with the elements that it
read, and completes its token; one with a fault leaves no residency. A load of a gang whose other members have not issued theirs
stays in flight. -/
def Residencies : Prop :=
  ∀ (s : State) (n : Nat) (o : Op) (f : MF) (k : Tok) (r : Resid), s.op? n = some o → o.ins = .mbld f k → o.parked = none → o.v3 = 0 →
    r ∈ (s.core o.core).resid → r.loading = some n →
    (o.gang = none → o.fault = none → ∃ t, exec (.residencyLoaded n) s = .next t ∧ TokenCompletes s t n o ∧ t.mem = s.mem
      ∧ { r with loading := none, ready := s.cycle } ∈ (t.core o.core).resid)
    ∧ (∀ e, o.gang = none → o.fault = some e →
        ∃ t, exec (.residencyLoaded n) s = .next t ∧ t.op? n = none ∧ ∀ q ∈ (t.core o.core).resid, q.loading ≠ some n)
    ∧ (o.gang ≠ none → s.matched o = none → exec (.residencyLoaded n) s = .next s)

/-- The position of an index tuple in the order of a nest: level 0 runs fastest (R480). -/
def tupleNumber : List Nat → List Nat → Nat
  | i :: is, n :: ns => i + n * tupleNumber is ns
  | _, _ => 0

/-- Every index lies below its count. -/
def TupleBelow : List Nat → List Nat → Prop
  | i :: is, n :: ns => i < n ∧ TupleBelow is ns
  | [], [] => True
  | _, _ => False

/-- MNEST and MNEST_STEP (R477, R480, R481): a nest begins with its operation in flight, its token claimed, and the tuple of the
progress that its shadow holds, or zeros, and makes its first move, which loads B where the nest waits for no pieces; a step makes
the next one, and one whose MMA can issue, in a nest without write-back, goes on to the next tuple, or after the last one retires
the MNEST; and the tuple after each is the next in number, none after the last. -/
def Nests : Prop :=
  (∀ (f : MF) (k : Tok) (s : State), (here s).nest = none → s.tokensReady s.focus k = true →
    let b := (here s).shadow (f.mf.toNat % 2)
    nestBad (here s) f b = false →
    ∃ t m o u, exec (.mnest f k) s = t.nestMove m f ∧ t.nestMove m f = .next u ∧ (here t).nest = some m ∧ m.ins = .mnest f k
      ∧ m.idx = (if hasProgress b then progressOf b else [0, 0, 0, 0, 0, 0]) ∧ t.op? s.opNext = some o ∧ o.tok = k.make.toNat
      ∧ Claimed t s.focus k.make.toNat s.opNext
      ∧ ∀ p, nPtok b = 0 → t.loadPlan (here t).forwarded true (.mbld (nestLoadFields f) nullTok) (nestLoadFields f) nullTok
            ((here t).nestB m f) [] = .ready p →
          (here u).nest = some { m with lastB := some ((here t).nestB m f) } ∧ u.mem = s.mem)
  ∧ (∀ (f : MF) (k : Tok) (s : State), (here s).nest = none → s.tokensReady s.focus k = true → Unplanted s →
      nestBad (here s) f ((here s).shadow (f.mf.toNat % 2)) = true → Raises (.mnest f k) s (trapOf 0x03))
  ∧ (∀ (s : State) (n : Nest) (f : MF) (k : Tok), (here s).nest = some n → n.ins = .mnest f k → (here s).m.st = .ready →
      (here s).m.cur = n.pos → ∃ t, exec .mnestStep s = .next t ∧ exec .mnestStep s = s.nestMove n f)
  ∧ (∀ (s : State) (n : Nest) (f : MF) (k : Tok) (p : MPlan), Calm s (.mnest f k) → (here s).nest = some n → n.ins = .mnest f k →
      (here s).m.st = .ready → (here s).m.cur = n.pos →
      let b := (here s).shadow n.shadow
      n.wb = false → nPtok b = 0 → nWen b = false → n.lastB = some ((here s).nestB n f) → (s.resident s.focus f.fb.toNat).isSome = true →
      s.mmaPlan (here s).forwarded true (s.nestMma n f) = .ready p →
      (∀ l, nestNext n.idx (levels.map (nCount b)) = some l →
        ∃ t q, exec .mnestStep s = .next t ∧ t.mem = s.mem ∧ (here t).nest = some q ∧ q.idx = l ∧ q.ins = n.ins ∧ q.op = n.op)
      ∧ (nestNext n.idx (levels.map (nCount b)) = none →
        ∃ t, exec .mnestStep s = .next t ∧ t.mem = s.mem ∧ (here t).nest = none ∧ (here t).m.cur = n.next))
  ∧ ∀ (idx counts : List Nat), TupleBelow idx counts →
      (∀ next, nestNext idx counts = some next → TupleBelow next counts ∧ tupleNumber next counts = tupleNumber idx counts + 1)
      ∧ (nestNext idx counts = none → tupleNumber idx counts + 1 = counts.foldr (· * ·) 1)

/-- The search for a rule goes on behind entry r (R272): it is not valid, its pattern does not stand at the head, or its class is
not enabled. -/
def PassedOver (s : State) (c : Nat) (p : Pat) (r : Nat) : Prop :=
  let e := tgetD (s.core (coreOf c)).rules r 0
  ruleV e = false ∨ ruleCompose e = none
  ∨ ∃ k, ruleCompose e = some k ∧ (s.matchesRule c e k p = .no
      ∨ s.matchesRule c e k p = .yes ∧ s.classEnabled c (ruleClass e) (k.items.map (replOf p)) = false)

/-- LANTERN_DECISION (R272, R290): where RWCTL disables the Lantern, an engine single-steps, or RWSUP suppresses grouping, the
head of a window issues alone; else the first valid entry, in ascending order, that matches and whose class is enabled forms its
group, and where there is none the head issues alone. GROUP_ISSUE (R286, R287): with all of its
replacements able to issue, a group commits as one, its cursor passes the instructions that it covers, and RWLOG counts it. -/
def Lanterns : Prop :=
  (∀ (s s1 : State) (c u : Nat), (s.ctx c).unit = some u → (s.ctx c).m.st = .ready → (s.ctx c).lantern.alone = false →
    (s.ctx c).lantern.group = none → s.window c = .ok s1 → (s1.ctx c).lantern.win ≠ [] →
    ((s1.ctx c).sprs.rwctl.getLsbD 0 = false ∨ (s1.ctx c).sprs.trapctl.extractLsb' 8 4 ≠ 0 ∨ (s1.ctx c).sprs.rwsup.getLsbD 8 = true
        ∨ (s1.ctx c).sprs.rwsup.extractLsb' 0 8 ≠ 0 →
      ∃ t, exec (.lanternDecision c) s = .next t ∧ (t.ctx c).lantern.alone = true ∧ (t.ctx c).lantern.group = none ∧ t.mem = s1.mem)
    ∧ ((s1.ctx c).groupsAllowed = true →
      let p := patternOf (s1.ctx c).lantern.consumed (s1.ctx c).lantern.win
      ((∀ r < 32, PassedOver s1 c p r) →
        ∃ t, exec (.lanternDecision c) s = .next t ∧ (t.ctx c).lantern.alone = true ∧ (t.ctx c).lantern.group = none ∧ t.mem = s1.mem)
      ∧ ∀ r k, r < 32 → (∀ q < r, PassedOver s1 c p q) →
          let e := tgetD (s1.core (coreOf c)).rules r 0
          ruleV e = true → 0 < ruleNp e → ruleCompose e = some k → s1.matchesRule c e k p = .yes →
          s1.classEnabled c (ruleClass e) (k.items.map (replOf p)) = true →
          ∃ t g, exec (.lanternDecision c) s = .next t ∧ (t.ctx c).lantern.group = some g ∧ g.rule = r ∧ g.covers = ruleNp e
            ∧ g.repls = k.items.map (replOf p) ∧ t.mem = s1.mem))
  ∧ ∀ (s : State) (c u : Nat) (g : Group) (ps : List MPlan), (s.ctx c).unit = some u → (s.ctx c).m.st = .ready → (s.ctx c).pend = [] →
      (s.ctx c).lantern.group = some g → (s.ctx c).sprs.inject.getLsbD 63 = false → s.groupPlans c g.repls = .ready ps →
      (∀ r ∈ g.repls, ∀ f k, r.ins ≠ .mbld f k) →
      ∃ t, exec (.groupIssue c) s = .next t ∧ (t.eng c .m).cur = g.next ∧ (t.ctx c).lantern.group = none
        ∧ (t.ctx c).lantern.win = (s.ctx c).lantern.win.drop g.covers ∧ t.mem = s.mem
        ∧ tget (t.core (coreOf c)).rwlog g.rule = some (min (tgetD (s.core (coreOf c)).rwlog g.rule 0 + 1) 0xFFFFFFFF)

/-! ## The copy engine -/

/-- A range that an instruction of the copy engine names: its address word (R572), its length, the numbers of which its
address and its length must be multiples, whether it may lie in the register space, and whether it is written. -/
structure CopyRange where
  w : Word
  len : Nat
  align : Nat
  lenAlign : Nat
  inRegs : Bool
  written : Bool

/-- It reaches past the footprint of the context: VIEW (R51, R572). -/
def CopyRange.Past (s : State) (r : CopyRange) : Prop :=
  r.inRegs = true ∧ r.w.getLsbD 63 = true ∧ r.w.getLsbD 62 = false ∧ r.w.extractLsb' 20 42 = 0
    ∧ 4096 * (here s).foot < r.w.toNat % 2 ^ 20 + r.len

/-- It is a staged store to a SYS page of a versioned unit: ORDER (R259). -/
def CopyRange.Staged (s : State) (r : CopyRange) : Prop := r.written = true ∧ s.ySys s.focus r.w r.len = true

/-- Its address or its length is no such multiple: ALIGN. -/
def CopyRange.Misaligned (r : CopyRange) : Prop := r.w.toNat % 2 ^ 52 % r.align ≠ 0 ∨ r.len % r.lenAlign ≠ 0

/-- REG and PHYS both set, a bit of a field marked 0 of a REG or PHYS word, or REG where the range must be in memory: TABLE
(R572). -/
def CopyRange.Malformed (r : CopyRange) : Prop :=
  (r.w.getLsbD 63 = true ∧ (r.inRegs = false ∨ r.w.getLsbD 62 = true ∨ r.w.extractLsb' 20 42 ≠ 0))
  ∨ (r.w.getLsbD 63 = false ∧ r.w.getLsbD 62 = true ∧ r.w.extractLsb' 52 10 ≠ 0)

/-- A virtual address with a bit above 55: TRANSLATE with cause INVALID (R572). -/
def CopyRange.Beyond (r : CopyRange) : Prop :=
  r.w.getLsbD 63 = false ∧ r.w.getLsbD 62 = false ∧ r.w.extractLsb' 56 6 ≠ 0

/-- An instruction of the copy engine: the ranges that it names, what else raises ORDER and TABLE, when it completes at issue
for want of anything to move, what it waits for beside its tokens, and the granules that it reads at issue (R573). -/
structure CopyRow where
  ins : YF → Tok → Instr
  ranges : State → YF → Tok → List CopyRange
  order : State → Prop := fun _ => False
  table : State → YF → Tok → Prop := fun _ _ _ => False
  idle : State → YF → Tok → Prop := fun _ _ _ => False
  ready : State → YF → Tok → Prop := fun _ _ _ => True
  grans : State → YF → Tok → List Nat := fun _ _ _ => []

/-- Every granule of the register space that the range names is full (R44, R573). -/
def SourceFull (s : State) (w : Word) (n : Nat) : Prop :=
  w.getLsbD 63 = true → ∀ g, 256 * g < w.toNat % 2 ^ 20 + n → w.toNat % 2 ^ 20 < 256 * g + 256 → s.fullAt s.focus g = true

/-- The header of an index list as the issue of an instruction finds it, where it can be read and keeps R587. -/
abbrev headerOf (s : State) (i : Instr) (l : Word) : Option Nat := (s.peekHeader (s.newOp .y i .async) l).filter fun h => !headerBad h

/-- Element size, count and length of the list that a header gives; 1 element byte, none of them and 8 bytes where the header is
not known at issue (R587). -/
def listShape : Option Nat → Nat × Nat × Nat
  | some h => (2 ^ (h / 2 ^ 32 % 16), h % 2 ^ 32, 8 + 4 * (h % 2 ^ 32))
  | none => (1, 0, 8)

/-- The ranges of YGATH and YSCAT: the contiguous side, the index list and the base. -/
def listRanges (s : State) (i : Instr) (row l base : Word) (scatter : Bool) : List CopyRange :=
  let z := listShape (headerOf s i l)
  [ ⟨row, z.1 * z.2.1, z.1, 1, true, !scatter⟩, ⟨l, z.2.2, 8, 1, true, false⟩, ⟨base, 1, z.1, 1, false, scatter⟩ ]

/-- YCOPY, YFILL, YGATH, YSCAT, YPREF, YFPR, YCMP, DTLD, XSTF and XATOM (R586, R587, R590, R594, R405 to R408, R583, R578). -/
def copyRows (a : At) : List CopyRow :=
  [ { ins := .ycopy
      ranges := fun s f _ => [⟨reg s f.so1, (reg s f.so3).toNat, 32, 32, true, true⟩, ⟨reg s f.so2, (reg s f.so3).toNat, 32, 32, true, false⟩]
      table := fun s f _ => 2 ^ 32 < (reg s f.so3).toNat
      idle := fun s f _ => reg s f.so3 = 0
      ready := fun s f _ => SourceFull s (reg s f.so2) (reg s f.so3).toNat
      grans := fun s f _ => yGrans (reg s f.so2) (reg s f.so3).toNat }
  , { ins := .yfill
      ranges := fun s f _ => [⟨reg s f.so1, (reg s f.so3).toNat, 32, 32, true, true⟩]
      table := fun s f _ => 2 ^ 32 < (reg s f.so3).toNat
      idle := fun s f _ => reg s f.so3 = 0 }
  , { ins := .ygath
      ranges := fun s f t => listRanges s (.ygath f t) (reg s f.so1) (reg s f.so3) (reg s f.so2) false
      ready := fun s f t => SourceFull s (reg s f.so3) (listShape (headerOf s (.ygath f t) (reg s f.so3))).2.2
      grans := fun s f t => yGrans (reg s f.so3) (listShape (headerOf s (.ygath f t) (reg s f.so3))).2.2 }
  , { ins := .yscat
      ranges := fun s f t => listRanges s (.yscat f t) (reg s f.so2) (reg s f.so3) (reg s f.so1) true
      ready := fun s f t =>
        let z := listShape (headerOf s (.yscat f t) (reg s f.so3))
        SourceFull s (reg s f.so3) z.2.2 ∧ (0 < z.2.1 → SourceFull s (reg s f.so2) (z.1 * z.2.1))
      grans := fun s f t =>
        let z := listShape (headerOf s (.yscat f t) (reg s f.so3))
        yGrans (reg s f.so3) z.2.2 ++ yGrans (reg s f.so2) (z.1 * z.2.1) }
  , { ins := .ypref
      ranges := fun s f _ => [⟨reg s f.so1, 0, 1, 1, false, false⟩]
      table := fun s f _ => 2 ^ 32 < (reg s f.so2).toNat
      idle := fun s f t => s.prefetchLines (coreOf s.focus) (reg s f.so1) (reg s f.so2).toNat (t.tf.getLsbD 0) = [] }
  , { ins := .yfpr
      ranges := fun s f _ => [⟨reg s f.so1, 8, 8, 1, true, true⟩, ⟨reg s f.so2, 4096, 4096, 1, true, false⟩]
      ready := fun s f _ => SourceFull s (reg s f.so2) 4096
      grans := fun s f _ => yGrans (reg s f.so2) 4096 }
  , { ins := .ycmp
      ranges := fun s f _ => [⟨reg s f.so1, 8, 8, 1, true, true⟩, ⟨reg s f.so2, 4096, 4096, 1, true, false⟩,
        ⟨reg s f.so3, 4096, 4096, 1, true, false⟩]
      ready := fun s f _ => SourceFull s (reg s f.so2) 4096 ∧ SourceFull s (reg s f.so3) 4096
      grans := fun s f _ => yGrans (reg s f.so2) 4096 ++ yGrans (reg s f.so3) 4096 }
  , { ins := .dtld
      ranges := fun s f _ => [⟨reg s f.so2, 32, 32, 1, true, false⟩]
      table := fun s f _ => 15 < (reg s f.so1).toNat ∨ ((reg s f.so3).toNat ≠ 3 ∧ (reg s f.so3).toNat ≠ 0x0B ∧ (reg s f.so3).toNat ≠ 0x0F)
        ∨ s.ownRefs s.focus (reg s f.so1).toNat = true
      ready := fun s f _ => (∃ g ≤ 1, s.genBusy (coreOf s.focus) (reg s f.so1).toNat g = false) ∧ SourceFull s (reg s f.so2) 32
        ∧ (s.slotAt (coreOf s.focus) (reg s f.so1).toNat).current ≤ 1 ∧ s.slotAhead s.focus (reg s f.so1).toNat = false
      grans := fun s f _ => yGrans (reg s f.so2) 32 }
  , { ins := .xstf
      ranges := fun s f t => [⟨reg s f.so1, 2 ^ (t.tf.toNat % 4), 2 ^ (t.tf.toNat % 4), 1, false, true⟩, ⟨reg s f.so3, 8, 8, 1, false, true⟩]
      order := fun s => s.versioned s.focus = true
      table := fun s f _ => s.diesDiffer (coreOf s.focus) (reg s f.so1) (reg s f.so3) = true }
  , { ins := fun f t => .xatom f t a
      ranges := fun s f _ => ⟨reg s f.so1, 2 ^ a.size.toNat, 2 ^ a.size.toNat, 1, false, true⟩
        :: if reg s f.so3 = 0 then [] else [⟨reg s f.so3, 8, 8, 1, true, true⟩]
      order := fun s => s.versioned s.focus = true
      table := fun s f _ => a.aop = 9 ∧ reg s f.so3 = 0
      ready := fun s f _ => a.aop = 9 → SourceFull s (reg s f.so3) 8
      grans := fun s f _ => if a.aop = 9 then yGrans (reg s f.so3) 8 else [] } ]

/-- No promised entry of the core is taken, an entry without a promise is free, no page of the core is under walk, and at most 32
pages of some ranges are to be walked (R179, R188). -/
def Roomy (s : State) (l : List (Word × Nat)) : Prop :=
  let core := coreOf s.focus
  s.promisedUsed core = 0 ∧ s.entriesFull core = false ∧ s.walksOf core = [] ∧ (l.flatMap fun r => s.yMisses core [r]).length ≤ 32

/-- The crossbar has granted the reads of some granules, or grants them in this cycle (R68, R69, R573). -/
def Granted (s : State) (gs : List Nat) : Prop :=
  (∃ n ≤ s.cycle, (here s).y.hold = .reads n)
  ∨ ((∀ n, (here s).y.hold ≠ .reads n) ∧ ((s.arb s.focus).group s.cycle (gs.map (bankOf (here s).base))).1.delay = 0)

/-- The operation is an asynchronous one of the context that runs, by the instruction with its token word. -/
structure AsyncOf (s : State) (i : Instr) (t : Tok) (o : Op) : Prop where
  ctx : o.ctx = s.focus
  unit : o.unit = s.unitNo s.focus
  eng : o.eng = .y
  kind : o.kind = .async
  ins : o.ins = i
  tok : o.tok = t.make.toNat
  cls : o.cls = t.cls.toNat
  scope : o.scope = t.scope.toNat

/-- No register of the context but token k, no byte of its register space, no other context and no byte of memory changes. -/
structure Untouched (s t : State) (k : Nat) : Prop where
  regs : (here t).regs = { (here s).regs with k := (here t).regs.k }
  tokens : ∀ j, j ≠ k → (here t).tok j = (here s).tok j
  grans : ∀ g, ((here t).granAt g).bytes = ((here s).granAt g).bytes ∧ ((here t).granAt g).tag = ((here s).granAt g).tag
  others : ∀ c, c ≠ s.focus → t.ctx c = s.ctx c
  mem : t.mem = s.mem

/-- The instruction completes at issue with its token complete and nothing in flight. -/
structure AtOnce (i : Instr) (t : Tok) (s u : State) : Prop where
  completes : Completes i s u
  token : ((here u).tok t.make.toNat).done = true
  untouched : Untouched s u t.make.toNat

/-- Issue of an instruction of the copy engine (R572, R573, R586, R594): it waits for the tokens that it consumes and for its
product to be free; then VIEW, ORDER, ALIGN, TABLE and TRANSLATE, in this order, commit nothing; else it completes at once,
or it claims its token with its operation in flight, nothing read or written in memory yet. -/
def CopyEngine : Prop :=
  ∀ (a : At), ∀ row ∈ copyRows a, ∀ (f : YF) (t : Tok) (s : State), Unplanted s →
    let i := row.ins f t
    let rs := row.ranges s f t
    let past := ∃ r ∈ rs, r.Past s
    let open_ := row.order s ∨ ∃ r ∈ rs, r.Staged s
    let skewed := ∃ r ∈ rs, r.Misaligned
    let bad := row.table s f t ∨ ∃ r ∈ rs, r.Malformed
    let beyond := ∃ r ∈ rs, r.Beyond
    (s.tokensReady s.focus t = false → Holds i s .waiting .other)
    ∧ (s.tokensReady s.focus t = true →
      (past → Raises i s (trapOf 0x03)) ∧ (¬ past → open_ → Raises i s (trapOf 0x06))
      ∧ (¬ past → ¬ open_ → skewed → ∃ r ∈ rs, Raises i s { code := 0x07, addr := r.w.toNat % 2 ^ 56 })
      ∧ (¬ past → ¬ open_ → ¬ skewed → bad → Raises i s (trapOf 0x08))
      ∧ (¬ past → ¬ open_ → ¬ skewed → ¬ bad → beyond →
          ∃ r ∈ rs, Raises i s { code := 0x0C, sub := 0, addr := r.w.toNat % 2 ^ 56 })
      ∧ (¬ past → ¬ open_ → ¬ skewed → ¬ bad → ¬ beyond → Calm s i →
          (row.idle s f t → ∃ u, AtOnce i t s u)
          ∧ (¬ row.idle s f t → row.ready s f t → Granted s (row.grans s f t) → Roomy s (rs.map fun r => (r.w, r.len)) →
              ∃ u o, Sends i s u o ∧ AsyncOf s i t o ∧ Claimed u s.focus t.make.toNat s.opNext ∧ Untouched s u t.make.toNat)))

/-- The pin windows of the die of the context that runs. -/
abbrev pinsOf (s : State) : List Pin := (s.die (dieOfCtx s.focus)).pins

/-- YPIN and YUNPIN (R171, R592): TABLE for an address word with REG or PHYS, a size or alignment rule, a FADE of 0, a page
outside the die's HBM, the 65th window, a total past 128 MiB or a partial overlap, each with nothing pinned; an identical window
only takes the new FADE, at once; else the window stands, to be filled. YUNPIN releases at once a window that is filled, waits
for the fill of one that is not, and does nothing where no window starts. -/
def Pinning : Prop :=
  ∀ (f : YF) (t : Tok) (s : State), Unplanted s → s.tokensReady s.focus t = true →
    let core := coreOf s.focus
    let w := reg s f.so1
    let base := w.toNat % 2 ^ 56
    let size := (reg s f.so2).toNat
    let fade := (reg s f.so3).toNat
    let virtual := w.getLsbD 63 = false ∧ w.getLsbD 62 = false
    let ruled := base % 2 ^ 18 = 0 ∧ size % 2 ^ 18 = 0 ∧ 2 ^ 18 ≤ size ∧ size ≤ 2 ^ 27 ∧ 1 ≤ fade ∧ fade ≤ 255
    let same (segs : List Seg) (p : Pin) : Prop := p.base = base ∧ p.size = size ∧ p.segs = segs
    let total := (pinsOf s).foldl (fun n p => n + p.size) 0
    (¬ (virtual ∧ ruled) → Raises (.ypin f t) s (trapOf 0x08))
    ∧ (virtual → ruled → w.extractLsb' 56 6 = 0 → s.pinPieces core base size = none → Raises (.ypin f t) s (trapOf 0x08))
    ∧ (∀ segs, virtual → ruled → w.extractLsb' 56 6 = 0 → s.pinPieces core base size = some segs →
        ((∃ p ∈ pinsOf s, same segs p) → Calm s (.ypin f t) →
          ∃ u, AtOnce (.ypin f t) t s u ∧ (pinsOf u).length = (pinsOf s).length
            ∧ ∀ p ∈ pinsOf u, same segs p → p.fade = fade ∧ p.count = fade ∧ p.since = s.cycle)
        ∧ ((∀ p ∈ pinsOf s, ¬ same segs p) → 64 ≤ (pinsOf s).length ∨ 2 ^ 27 < total + size
            ∨ (∃ p ∈ pinsOf s, segsOverlap p.segs segs = true) → Raises (.ypin f t) s (trapOf 0x08))
        ∧ ((∀ p ∈ pinsOf s, ¬ same segs p) → (pinsOf s).length < 64 → total + size ≤ 2 ^ 27 →
            (∀ p ∈ pinsOf s, segsOverlap p.segs segs = false) → Roomy s [(w, size)] → Calm s (.ypin f t) →
            ∃ u o, Sends (.ypin f t) s u o ∧ AsyncOf s (.ypin f t) t o ∧ Claimed u s.focus t.make.toNat s.opNext ∧ Untouched s u t.make.toNat
              ∧ o.v1 = w ∧ pinsOf u = pinsOf s ++ [{ base := base, size := size, segs := segs, fade := fade }]))
    ∧ (¬ virtual → Raises (.yunpin f t) s (trapOf 0x08))
    ∧ (virtual → w.extractLsb' 56 6 = 0 → (∀ p ∈ pinsOf s, p.base ≠ base) → Calm s (.yunpin f t) →
        ∃ u, AtOnce (.yunpin f t) t s u ∧ pinsOf u = pinsOf s)
    ∧ (∀ p l, virtual → w.extractLsb' 56 6 = 0 → pinsOf s = p :: l → p.base = base → Calm s (.yunpin f t) →
        (p.filled = true → ∃ u, AtOnce (.yunpin f t) t s u ∧ ∀ q, q ∈ pinsOf u ↔ q ∈ pinsOf s ∧ q.base ≠ base)
        ∧ (p.filled = false → Roomy s [] → ∃ u o, Sends (.yunpin f t) s u o ∧ AsyncOf s (.yunpin f t) t o
            ∧ Claimed u s.focus t.make.toNat s.opNext ∧ Untouched s u t.make.toNat ∧ ∃ q m, pinsOf u = q :: m ∧ q = { p with unpin := p.unpin ++ [s.opNext] }))

/-- A piece of memory of an address word, translated as at issue, with no poisoned block (R258). -/
structure PlainPiece (s : State) (o : Op) (n : Need) (w : Word) (g : Seg) : Prop where
  memory : w.getLsbD 63 = false
  piece : (s.asIssued o.issued).yPieces o.core n w g.len = .ok [g]
  read : n = .read → s.poisonIn [g] = none
  write : n = .write → s.poisonHurt [g] = none

/-- An operation of a unit that is not versioned may complete, and no store of the unit before it is pending. -/
structure MayEnd (s : State) (n : Nat) (o : Op) : Prop where
  op : s.op? n = some o
  kind : o.kind = .async
  ready : s.opReady o = true
  plain : s.versionedUnit o.unit = false
  unstaged : ∀ r, s.unit? o.unit = some r → r.staged = []
  stored : ∀ p ∈ s.ops, p.2.forwards o.unit o.issued = false

/-- TOKEN_COMPLETE of YCOPY and YFILL (R57, R586): the bytes of the source, or of the repeated pattern, stand at the destination,
in memory with nothing else changed there, in a whole granule with its tag and the full bit; the token is complete. -/
def CopyMoves : Prop :=
  ∀ (s : State) (n : Nat) (o : Op) (f : YF) (t : Tok), MayEnd s n o → o.sampled = false →
    let ends (u : State) : Prop := exec (.tokenComplete n) s = .next u ∧ TokenCompletes s u n o
    let gran (u : State) (g : Nat) (src : Nat → Byte) : Prop :=
      ((u.ctx o.ctx).granAt g).full = true ∧ ((u.ctx o.ctx).granAt g).tag = (fmtOf t.tf.toNat).getD .raw
      ∧ ∀ k < 256, ((u.ctx o.ctx).granAt g).bytes.extractLsb' (8 * k) 8 = src k
    let toRegs (g : Nat) : Prop := g < 4096 ∧ o.v1 = 0x8000000000000000#64 + BitVec.ofNat 64 (256 * g) ∧ s.opLive o = true
    (∀ a b, o.ins = .ycopy f t → a.len = o.v3.toNat → b.len = o.v3.toNat → PlainPiece s o .read o.v2 a → PlainPiece s o .write o.v1 b →
      segsOverlap [a] [b] = false →
      ∃ u, ends u ∧ SameOutside [b] s u ∧ ∀ k < b.len, memRead u.mem (b.pa + k) = memRead s.mem (a.pa + k))
    ∧ (∀ a g, o.ins = .ycopy f t → a.len = 256 → o.v3 = 256 → PlainPiece s o .read o.v2 a → toRegs g →
      ∃ u, ends u ∧ u.mem = s.mem ∧ gran u g fun k => memRead s.mem (a.pa + k))
    ∧ (∀ b, o.ins = .yfill f t → b.len = o.v3.toNat → b.len % 8 = 0 → PlainPiece s o .write o.v1 b →
      ∃ u, ends u ∧ SameOutside [b] s u ∧ ∀ k < b.len, memRead u.mem (b.pa + k) = o.v2.extractLsb' (8 * (k % 8)) 8)
    ∧ (∀ g, o.ins = .yfill f t → o.v3 = 256 → toRegs g →
      ∃ u, ends u ∧ u.mem = s.mem ∧ gran u g fun k => o.v2.extractLsb' (8 * (k % 8)) 8)

/-- The CRC-64 of R130: bits enter the register from the top of the first byte on; where the bit that enters and the bit that
leaves differ, the generator is added. -/
def crcOf (bs : List Byte) : Word :=
  (bs.flatMap fun b => (List.range 8).map fun k => b.getLsbD (7 - k)).foldl
    (fun r b => (r <<< 1) ^^^ if xor (r.getLsbD 63) b then 0x42F0E1EBA9EA3693 else 0) 0

/-- TOKEN_COMPLETE of YFPR and YCMP (R130, R590): the fingerprint of the block, or 1 where the blocks are equal byte for byte
and else 0, stands in the eight bytes of the result; of YPREF (R594): the token completes and memory is unchanged. -/
def BlockResults : Prop :=
  ∀ (s : State) (n : Nat) (o : Op) (f : YF) (t : Tok), MayEnd s n o → o.sampled = false →
    let ends (u : State) : Prop := exec (.tokenComplete n) s = .next u ∧ TokenCompletes s u n o
    (∀ a b, o.ins = .yfpr f t → a.len = 4096 → b.len = 8 → PlainPiece s o .read o.v2 a → PlainPiece s o .write o.v1 b →
      ∃ u, ends u ∧ SameOutside [b] s u ∧ Stored u b (crcOf (memBytes s.mem a.pa 4096)).toNat)
    ∧ (∀ a c b, o.ins = .ycmp f t → a.len = 4096 → c.len = 4096 → b.len = 8 → PlainPiece s o .read o.v2 a →
      PlainPiece s o .read o.v3 c → PlainPiece s o .write o.v1 b →
      let same := ∀ k < 4096, memRead s.mem (a.pa + k) = memRead s.mem (c.pa + k)
      ∃ u, ends u ∧ SameOutside [b] s u ∧ (same → Stored u b 1) ∧ (¬ same → Stored u b 0))
    ∧ (o.ins = .ypref f t → s.poisonIn o.src = none → ∃ u, ends u ∧ u.mem = s.mem)

/-- The physical place of element `k` of an operation's list over a physical base, in the module of its core (R587, R14). -/
def elementAt (o : Op) (base : Word) (e k : Nat) : Seg := { va := 0, pa := physBase o.core + (base.toNat % 2 ^ 52 + e * k), len := e }

/-- The elements of a list lie in populated memory below 2^52 (R160). -/
def Populated (s : State) (o : Op) (base : Word) (e : Nat) (idx : List Nat) : Prop :=
  base.getLsbD 63 = false ∧ base.getLsbD 62 = true ∧ base.extractLsb' 52 10 = 0
  ∧ ∀ k ∈ idx, base.toNat % 2 ^ 52 + e * k + e ≤ 2 ^ 52
    ∧ (s.asIssued o.issued).physPieces (elementAt o base e k).pa e = .ok [elementAt o base e k]

/-- TOKEN_COMPLETE of YGATH and YSCAT over a physical base (R587): element j of the contiguous side is the element at the base
plus idx[j] times the element size; of a scatter, the highest j prevails where indices meet, and nothing else changes. -/
def ElementMoves : Prop :=
  ∀ (s : State) (n h : Nat) (o : Op) (f : YF) (t : Tok) (idx : List Nat) (b : Seg), MayEnd s n o → s.poison = [] →
    s.readList o = .ok (h, idx) → headerBad h = false → idx.length = headerCount h → b.len = headerSize h * headerCount h →
    let e := headerSize h
    let ends (u : State) : Prop := exec (.tokenComplete n) s = .next u ∧ TokenCompletes s u n o
    (o.ins = .ygath f t → Populated s o o.v2 e idx → (o.v2.toNat % 2 ^ 52) % e = 0 → (o.v1.toNat % 2 ^ 52) % e = 0 →
      PlainPiece s o .write o.v1 b →
      ∃ u, ends u ∧ SameOutside [b] s u ∧ ∀ j k, idx[j]? = some k → ∀ q < e,
        memRead u.mem (b.pa + e * j + q) = memRead s.mem ((elementAt o o.v2 e k).pa + q))
    ∧ (o.ins = .yscat f t → Populated s o o.v1 e idx → (o.v1.toNat % 2 ^ 52) % e = 0 → (o.v2.toNat % 2 ^ 52) % e = 0 →
      PlainPiece s o .read o.v2 b → o.lanes = [h, 0] ∨ o.lanes = [] →
      ∃ u, ends u ∧ SameOutside (idx.map (elementAt o o.v1 e)) s u
        ∧ ∀ j k, idx[j]? = some k → (∀ i > j, idx[i]? ≠ some k) → ∀ q < e,
          memRead u.mem ((elementAt o o.v1 e k).pa + q) = memRead s.mem (b.pa + e * j + q))

/-- TOKEN_COMPLETE of XATOM (R366, R578): the target takes the operation's new value in one step, and the old one, zero-extended,
stands in the eight bytes of the result, if there is one. Of XSTF (R212, R583): the data is stored, and the token is still
incomplete; FLAG_INCREMENT: the flag is one higher, modulo 2^64, and the token completes. -/
def RemoteAccesses : Prop :=
  ∀ (s : State) (n : Nat) (o : Op) (f : YF) (t : Tok), MayEnd s n o →
    (∀ (a : At) (row : (CM → Instr) × (Nat → Nat → Nat → Nat → Option Nat)) (g q : Seg), o.ins = .xatom f t a →
      atomRows[a.aop.toNat]? = some row → PlainPiece s o .write (BitVec.ofNat 64 o.va) g → s.poisonIn [g] = none →
      o.v2.toNat = 8 * g.len → 0 < g.len → g.len ≤ 8 → o.v1.toNat < 2 ^ (8 * g.len) → o.lanes = [1] → o.data.length ≤ 8 →
      let old := numberAt s g
      let new := row.2 (8 * g.len) old o.v1.toNat (natOfBytes o.data % 2 ^ (8 * g.len))
      (o.v3 = 0 → ∃ u, exec (.tokenComplete n) s = .next u ∧ TokenCompletes s u n o ∧ SameOutside [g] s u
        ∧ (∀ v, new = some v → Stored u g v) ∧ (new = none → u.mem = s.mem))
      ∧ (o.v3 ≠ 0 → q.len = 8 → o.v3.getLsbD 62 = true → PlainPiece s o .write o.v3 q → segsOverlap [g] [q] = false →
        ∃ u, exec (.tokenComplete n) s = .next u ∧ TokenCompletes s u n o ∧ SameOutside [g, q] s u ∧ Stored u q old
          ∧ (∀ v, new = some v → Stored u g v) ∧ (new = none → SameOutside [q] s u)))
    ∧ (∀ (g q : Seg), o.ins = .xstf f t → PlainPiece s o .write o.v1 g → PlainPiece s o .write o.v3 q → q.len = 8 →
      g.len = o.data.length → s.poisonIn [q] = none →
      (o.sampled = false → s.diesDiffer o.core o.v1 o.v3 = false →
        ∃ u p, exec (.tokenComplete n) s = .next u ∧ SameOutside [g] s u ∧ (∀ k < g.len, some (memRead u.mem (g.pa + k)) = o.data[k]?)
          ∧ u.ctxs = s.ctxs ∧ u.op? n = some p ∧ p.sampled = true)
      ∧ (o.sampled = true → o.parked = none →
        ∃ u, exec (.flagIncrement n) s = .next u ∧ TokenCompletes s u n o ∧ SameOutside [q] s u
          ∧ Stored u q ((numberAt s q + 1) % 2 ^ 64))
      ∧ (o.sampled = false → exec (.flagIncrement n) s = .next s))

/-- DTLD_COMPLETE (R80, R407): the generation that the load took holds the table and is current, and the token completes.
PIN_FILL_COMPLETE (R171, R172): the window is filled and its counter holds FADE. -/
def TablesAndPins : Prop :=
  ∀ (s : State) (n : Nat) (o : Op) (f : YF) (t : Tok), MayEnd s n o → o.sampled = false →
    (∀ a g, o.ins = .dtld f t → a.len = 32 → PlainPiece s o .read o.v2 a → o.lanes = [g] → g ≤ 1 →
      ∃ u, exec (.dtldComplete n) s = .next u ∧ TokenCompletes s u n o ∧ u.mem = s.mem
        ∧ (u.slotAt o.core o.v1.toNat).current = g
        ∧ let d := if g = 0 then (u.slotAt o.core o.v1.toNat).g0 else (u.slotAt o.core o.v1.toNat).g1
          d.ty = (fmtOf o.v3.toNat).getD .bf16 ∧ ∀ k < 32, d.entries.extractLsb' (8 * k) 8 = memRead s.mem (a.pa + k))
    ∧ (∀ p l, o.ins = .ypin f t → (s.die (dieOf o.core)).pins = p :: l → p.base = o.v1.toNat % 2 ^ 56 → p.filled = false →
      p.unpin = [] → s.poisonIn o.src = none →
      ∃ u m, exec (.pinFillComplete n) s = .next u ∧ TokenCompletes s u n o ∧ u.mem = s.mem
        ∧ (u.die (dieOf o.core)).pins = { p with filled := true, count := p.fade, since := s.cycle } :: m)

/-- Faults on the data of a copy (R187, R573): a source page that does not translate parks the operation, its token still to
come; a poisoned source block completes the token faulted. Memory is unchanged. Operations that may not be performed yet stay as
they are. -/
def CopyFaults : Prop :=
  ∀ (s : State) (n : Nat) (o : Op) (f : YF) (t : Tok), s.op? n = some o → o.kind = .async → o.ins = .ycopy f t →
    (s.opReady o = false → exec (.tokenComplete n) s = .next s)
    ∧ (∀ cause a, s.opReady o = true → o.sampled = false → o.v2.getLsbD 63 = false → cause ≠ 2 →
        (s.asIssued o.issued).yPieces o.core .read o.v2 o.v3.toNat = .error (trapXlate cause a) → s.opLive o = true → (s.ctx o.ctx).inHandler = true →
        ∃ u q, exec (.tokenComplete n) s = .next u ∧ u.mem = s.mem ∧ u.op? n = some q ∧ q.parked.isSome = true
          ∧ ((u.ctx o.ctx).tok o.tok).done = ((s.ctx o.ctx).tok o.tok).done)
    ∧ (∀ segs b, s.opReady o = true → o.sampled = false → o.v2.getLsbD 63 = false →
        (s.asIssued o.issued).yPieces o.core .read o.v2 o.v3.toNat = .ok segs → s.poisonIn segs = some b → s.opLive o = true →
        s.versioned o.ctx = false → (s.ctx o.ctx).inHandler = true → o.tok ≠ 0 → ((s.ctx o.ctx).tok o.tok).op = n →
        ∃ u, exec (.tokenComplete n) s = .next u ∧ u.mem = s.mem ∧ u.op? n = none ∧ ((u.ctx o.ctx).tok o.tok).done = true)

/-! ## Redistribution and collectives -/

/-- RESHARD and the explicit steps, with the kind of their step (R503, R575). -/
def reshardRows : List ((YF → Tok → Maps → Instr) × Option Nat) :=
  [(.reshard, none), (.xag, some 0), (.xrs, some 1), (.xa2a, some 2), (.xprm, some 3)]

/-- The map registers of an instruction. -/
abbrev mapA (s : State) (x : Maps) : MapWord := (here s).sm x.sma.toNat
abbrev mapB (s : State) (x : Maps) : MapWord := (here s).sm x.smb.toNat

/-- The tensor that s[SO1] names (R503). -/
abbrev tensorOf (s : State) (f : YF) : Nat := (reg s f.so1).toNat % 2 ^ 20

/-- The participant's part of a collective in flight, by an instruction of the context that runs. -/
structure CollOf (s t : State) (i : Instr) (f : YF) (k : Tok) (o : Op) (c : Coll) : Prop where
  op : AsyncOf s i k o
  coll : o.coll = some c
  promise : o.promise = 0
  tensor : c.tensor = tensorOf s f
  unmatched : c.matched = false
  fresh : c.step = 0 ∧ c.counter = 0 ∧ c.landed = []
  key : ∀ r, s.unit? (s.unitNo s.focus) = some r → c.key = [r.launch, r.j, r.collectives]
  claimed : Claimed t s.focus k.make.toNat s.opNext
  counted : ∀ r, s.unit? (s.unitNo s.focus) = some r → ∃ q, t.unit? (s.unitNo s.focus) = some q ∧ q.collectives = r.collectives + 1

/-- The traps of RESHARD and the explicit steps at issue, in their order (R132, R134, R135, R145, R152, R154, R503, R576): the
tokens come first; then ORDER in a versioned unit or while a collective on the tensor is incomplete on the die; TABLE for a
table pointer; what the descriptor and the maps raise; MESH where no such plan leads to the destination map; TABLE for a
staging table that is missing, or named for an explicit step that needs none; MESH outside a mesh launch; PSUM for an
explicit step other than XRS on a map with a P axis. -/
def ReshardTraps : Prop :=
  ∀ row ∈ reshardRows, ∀ (f : YF) (t : Tok) (x : Maps) (s : State), Unplanted s →
    let i := row.1 f t x
    let core := coreOf s.focus
    let sizes := (s.die (dieOf core)).sizes
    let dt := (reg s f.so2).toNat
    let st := (reg s f.so3).toNat
    let busy := s.versioned s.focus = true ∨ s.collBusy core (tensorOf s f) = true
    let badTable := dt = 0 ∨ dt % 8 ≠ 0 ∨ 2 ^ 56 ≤ dt ∨ 2 ^ 56 ≤ st
    let plan (g : Maps2) : Option Plan := match row.2 with
      | none => chanter sizes g.t.d g.src g.dst
      | some k => explicitPlan sizes g.t.d g.src g.dst k
    let staging (p : Plan) : Prop := (p.stage ≠ 0 ∧ st = 0) ∨ (row.2 ≠ none ∧ p.stage = 0 ∧ st ≠ 0)
    let partials (g : Maps2) : Prop := row.2 ≠ none ∧ row.2 ≠ some 1 ∧ (hasP g.src.w = true ∨ hasP g.dst.w = true)
    (s.tokensReady s.focus t = false → Holds i s .waiting .other)
    ∧ (s.tokensReady s.focus t = true →
      (busy → Raises i s (trapOf 0x06)) ∧ (¬ busy → badTable → Raises i s (trapOf 0x08))
      ∧ (∀ e, ¬ busy → ¬ badTable → s.collMaps core (tensorOf s f) (mapA s x) (mapB s x) = .error e → e.code ≠ 0x16 → Raises i s e)
      ∧ ∀ g, ¬ busy → ¬ badTable → s.collMaps core (tensorOf s f) (mapA s x) (mapB s x) = .ok g →
        (plan g = none → Raises i s (trapOf 0x09))
        ∧ ∀ p, plan g = some p →
          (staging p → Raises i s (trapOf 0x08))
          ∧ (¬ staging p → s.collAllowed s.focus = false → Raises i s (trapOf 0x09))
          ∧ (¬ staging p → s.collAllowed s.focus = true → partials g → Raises i s (trapOf 0x0B))
          ∧ (¬ staging p → s.collAllowed s.focus = true → ¬ partials g → Calm s i →
              ∃ u o c, Sends i s u o ∧ CollOf s u i f t o c ∧ Untouched s u t.make.toNat ∧ c.plan = p ∧ c.srcMap = mapA s x
                ∧ c.dstMap = mapB s x ∧ c.dstTab = dt ∧ c.stgTab = st ∧ c.desc = g.t.d))

/-- XHALO (R153, R581) and RSPLAN (R143, R510): their traps, and what they put in flight: an exchange of the tensor's own map, of
one step where a dimension that is split has a halo and of none otherwise; the 96-byte record of the plan. -/
def HaloAndPlan : Prop :=
  ∀ (f : YF) (t : Tok) (x : Maps) (s : State), Unplanted s → s.tokensReady s.focus t = true →
    let core := coreOf s.focus
    let sizes := (s.die (dieOf core)).sizes
    let busy := s.versioned s.focus = true ∨ s.collBusy core (tensorOf s f) = true
    let w := reg s f.so2
    let rec_ : CopyRange := ⟨w, 96, 64, 1, true, true⟩
    let open_ (p : Prop) : Prop := ¬ rec_.Past s → ¬ rec_.Staged s → ¬ rec_.Misaligned → ¬ rec_.Malformed → p
    let maps := s.collMaps core (tensorOf s f) (mapA s x) (mapB s x)
    (busy → Raises (.xhalo f t) s (trapOf 0x06))
    ∧ (∀ g, ¬ busy → s.tensor core (tensorOf s f) = .ok g →
        (s.collAllowed s.focus = false → Raises (.xhalo f t) s (trapOf 0x09))
        ∧ (s.collAllowed s.focus = true → hasP (Desc.map g.d) = true → Raises (.xhalo f t) s (trapOf 0x0B))
        ∧ (s.collAllowed s.focus = true → hasP (Desc.map g.d) = false → Calm s (.xhalo f t) →
            ∃ u o c, Sends (.xhalo f t) s u o ∧ CollOf s u (.xhalo f t) f t o c ∧ Untouched s u t.make.toNat
              ∧ (c.plan.steps = [] ↔ ∀ q ∈ g.splits, Desc.halo g.d q.dim = 0)))
    ∧ (rec_.Past s → Raises (.rsplan f t x) s (trapOf 0x03))
    ∧ (¬ rec_.Past s → rec_.Staged s → Raises (.rsplan f t x) s (trapOf 0x06))
    ∧ (¬ rec_.Past s → ¬ rec_.Staged s → rec_.Misaligned → Raises (.rsplan f t x) s { code := 0x07, addr := w.toNat % 2 ^ 56 })
    ∧ (¬ rec_.Past s → ¬ rec_.Staged s → ¬ rec_.Misaligned → rec_.Malformed → Raises (.rsplan f t x) s (trapOf 0x08))
    ∧ (∀ e, maps = .error e → e.code ≠ 0x16 → open_ (Raises (.rsplan f t x) s e))
    ∧ ∀ g, maps = .ok g →
        (chanter sizes g.t.d g.src g.dst = none → open_ (Raises (.rsplan f t x) s (trapOf 0x09)))
        ∧ ∀ p, chanter sizes g.t.d g.src g.dst = some p →
          (rec_.Beyond → open_ (Raises (.rsplan f t x) s { code := 0x0C, sub := 0, addr := w.toNat % 2 ^ 56 }))
          ∧ (¬ rec_.Beyond → Roomy s [(w, 96)] → Calm s (.rsplan f t x) → open_
              (∃ u o, Sends (.rsplan f t x) s u o ∧ AsyncOf s (.rsplan f t x) t o ∧ Claimed u s.focus t.make.toNat s.opNext
                ∧ Untouched s u t.make.toNat ∧ o.v2 = w ∧ o.data = planRecord p))

/-- A BF16 tensor of shape 1,024 × 4,096 without padding or halo. -/
def workedTensor : Desc := BitVec.ofNat 1024 (2 ^ 47 + 2 * 2 ^ 30 + 3 * 2 ^ 25 + 1 + 1024 * 2 ^ 64 + 4096 * 2 ^ 96 + 8 * 2 ^ 256)

/-- A map with the entries of x and y, R elsewhere, and its splits on a mesh. -/
def workedMap (sizes : List Nat) (x y : Nat) : MapSp :=
  let w : Word := BitVec.ofNat 64 (x + y * 2 ^ 16 + 0x4000 * 2 ^ 32 + 0x4000 * 2 ^ 48)
  { w := w, sp := (splitsFrom sizes (Desc.padded workedTensor) w [] (List.range 6) 0).getD [] }

/-- Entries of R, of S of a dimension, and of P with ACC FP32 (R114). -/
def onR : Nat := 0x4000
def onS (dim : Nat) : Nat := 0x8000 + 0x800 * dim
def onP : Nat := 0xC000 + 0x40

/-- The worked plans: mesh, entries of x and y before and after, steps by kind, axes and dimension, bytes moved, staging. -/
def workedPlans : List (List Nat × (Nat × Nat) × (Nat × Nat) × List (Nat × List Nat × Nat) × Nat × Nat) :=
  [ ([4, 2, 1, 1], (onS 0, onR), (onR, onR), [(0, [0], 0)], 50331648, 0)
  , ([4, 2, 1, 1], (onS 0, onS 0), (onR, onR), [(0, [0, 1], 0)], 58720256, 0)
  , ([4, 2, 1, 1], (onP, onR), (onS 0, onR), [(1, [0], 0)], 100663296, 0)
  , ([4, 2, 1, 1], (onP, onR), (onR, onR), [(1, [0], 0), (0, [0], 0)], 150994944, 2097152)
  , ([4, 2, 1, 1], (onS 0, onS 1), (onS 1, onS 0), [(2, [0], 1), (2, [1], 0)], 10485760, 1048576)
  , ([2, 2, 1, 1], (onS 0, onR), (onR, onS 0), [(3, [0], 0)], 8388608, 0)
  , ([4, 2, 1, 1], (onR, onR), (onS 1, onR), [(4, [0], 1)], 0, 0)
  , ([4, 2, 1, 1], (onR, onR), (onP, onR), [(5, [0], 0)], 0, 0) ]

/-- Two participants' instructions agree in kind, tensor, maps and split points (R133). -/
def Agree (a b : Op) : Prop :=
  ∃ x y, a.coll = some x ∧ b.coll = some y ∧ a.ins.fnField = b.ins.fnField ∧ x.tensor = y.tensor ∧ x.srcMap = y.srcMap
    ∧ x.dstMap = y.dstMap ∧ x.points = y.points

/-- An operation completed its token faulted: it is gone, and its token complete in a context that its unit still holds. -/
def TokenFaulted (s t : State) (n : Nat) (o : Op) : Prop :=
  t.op? n = none ∧ (o.tok ≠ 0 → s.opLive o = true → ((s.ctx o.ctx).tok o.tok).op = n → ((t.ctx o.ctx).tok o.tok).done = true)

/-- COLLECTIVE_MATCH (R132, R133, R156): while a participant has not issued, nothing happens; where each has and they agree, the
plan starts on every participant; where they differ, every participant's token completes faulted. The contexts stand in
their handlers, so that the delivered MESH waits. -/
def Matching : Prop :=
  ∀ (s : State) (n : Nat) (o : Op) (k : Coll), s.op? n = some o → o.coll = some k → k.lost = false → k.matched = false →
    let peers := k.dies.map (s.peerAt k)
    (.late ∈ peers → .gone ∉ peers → exec (.collectiveMatch n) s = .next s)
    ∧ ∀ l : List (Nat × Op), peers = l.map (fun q => .issued q.1 q.2) → (∀ q ∈ l, s.op? q.1 = some q.2 ∧ q.2.coll.isSome = true) →
        (l.map Prod.fst).Nodup →
        ((∀ q ∈ l, Agree o q.2) → ∃ u, exec (.collectiveMatch n) s = .next u ∧ u.mem = s.mem ∧ u.ctxs = s.ctxs
          ∧ ∀ q ∈ l, ∃ p c, u.op? q.1 = some p ∧ p.coll = some c ∧ c.matched = true ∧ c.group = l.map Prod.fst ∧ c.landed = [])
        ∧ ((∃ q ∈ l, ¬ Agree o q.2) → (∀ q ∈ l, (s.ctx q.2.ctx).inHandler = true) →
            ∃ u, exec (.collectiveMatch n) s = .next u ∧ u.mem = s.mem ∧ ∀ q ∈ l, TokenFaulted s u q.1 q.2)

/-- The clamp of an I32 sum (R145). -/
def clampI32 (x : Int) : Int := if x < -(2 ^ 31) then -(2 ^ 31) else if 2 ^ 31 ≤ x then 2 ^ 31 - 1 else x

/-- R145: an I32 reduction is a left fold of the partials, each sum clamped; the FP32 fold of 2^24, 1, 1 and -2^24 is 0, not 2. -/
def Reductions : Prop :=
  (∀ (p : BitVec 32) (l : List (BitVec 32)),
    (foldPartials .i32 ((p :: l).map BitVec.toNat)).1
      = (BitVec.ofInt 32 (l.foldl (fun a q => clampI32 (a + q.toInt)) p.toInt)).toNat)
  ∧ (foldPartials .fp32 [0x4B800000, 0x3F800000, 0x3F800000, 0xCB800000]).1 = 0

/-- The piece counter (R147): after a piece that had not landed, in a step that does not end with it, every piece below the
counter has landed and the counter's own has not; a step whose pieces have all landed gives way to the next. -/
def PieceCounter : Prop :=
  ∀ (k : Coll) (p : PlanStep) (n : Nat) (f : Flg), k.counter ≤ n → n < p.pieces → n ∉ k.landed → k.counter ∉ k.landed →
    (∀ j ∈ k.landed, k.counter ≤ j ∧ j < p.pieces) →
    let c := k.landPiece p n f
    let have_ (j : Nat) : Prop := j < k.counter ∨ j = n ∨ j ∈ k.landed
    ((∃ j < p.pieces, ¬ have_ j) → c.step = k.step ∧ k.counter ≤ c.counter ∧ (∀ j < c.counter, have_ j) ∧ ¬ have_ c.counter
      ∧ ∀ j, j ∈ c.landed ↔ have_ j ∧ c.counter ≤ j)
    ∧ ((∀ j < p.pieces, have_ j) → c.step = k.step + 1 ∧ c.landed = [])

/-- COLLECTIVE_PIECE (R144, R146, R504): a piece whose turn it is writes its elements and nothing outside them, and counts; a
TRANSLATE parks the piece alone, its token still to come; a piece whose turn it is not changes nothing. -/
def Pieces : Prop :=
  ∀ (s : State) (n piece : Nat) (o : Op) (k : Coll) (p : PlanStep), s.op? n = some o → o.coll = some k → k.plan.steps[k.step]? = some p →
    (s.pieceReady o k piece = false → exec (.collectivePiece n piece) s = .next s)
    ∧ (∀ l, s.pieceReady o k piece = true → s.versionedUnit o.unit = false → s.pieceOut o.core k k.step p piece = .ok l →
        s.poisonHurt (outSegs l) = none →
        ∃ u q f, exec (.collectivePiece n piece) s = .next u ∧ SameOutside (outSegs l) s u ∧ u.op? n = some q
          ∧ q = { o with coll := some (k.landPiece p piece f) } ∧ ∀ m, m ≠ n → u.op? m = s.op? m)
    ∧ (∀ cause a, s.pieceReady o k piece = true → cause ≠ 2 → s.pieceOut o.core k k.step p piece = .error (trapXlate cause a) →
        s.opLive o = true → (s.ctx o.ctx).inHandler = true →
        ∃ u q c, exec (.collectivePiece n piece) s = .next u ∧ u.mem = s.mem ∧ u.op? n = some q ∧ q.parked.isSome = true
          ∧ q.coll = some c ∧ c.parkedPieces = k.parkedPieces ++ [piece] ∧ c.counter = k.counter
          ∧ ((u.ctx o.ctx).tok o.tok).done = ((s.ctx o.ctx).tok o.tok).done)

/-- PLAN_COMPLETE (R145, R149, R153): when every participant has finished, the participant of linear rank 0 writes SBASE, MAP and
SPLIT of the descriptor and no other byte (in a job of one module; of several, in every module's copy as well, R110), and every
participant's token completes with the flags of its reductions in ARSTAT; XHALO writes no descriptor. Before that nothing
happens. -/
def PlansEnd : Prop :=
  ∀ (s : State) (n : Nat) (o : Op) (k : Coll), s.op? n = some o → o.coll = some k →
    (s.planReady o k = false → exec (.planComplete n) s = .next s)
    ∧ (s.planReady o k = true → collIsHalo o = true →
        ∃ u, exec (.planComplete n) s = .next u ∧ u.mem = s.mem ∧ u.op? n = none)
    ∧ ∀ (z : Nat) (q : Op) (c : Coll) (g : Seg), s.planReady o k = true → collIsHalo o = false → s.rankZero k = some (z, q) →
        q.coll = some c → g.len = 128 → s.range q.core .write ((s.die (dieOf q.core)).descAddr c.tensor) 128 = .ok [g] →
        s.poisonHurt [g] = none → s.modules = 1 → moduleOf (dieOf q.core) = 0 →
        ∃ u, exec (.planComplete n) s = .next u ∧ (∀ m ∈ k.group, u.op? m = none)
          ∧ (k.group = [n] → o.tok ≠ 0 → s.opLive o = true → ((s.ctx o.ctx).tok o.tok).op = n →
              ((u.ctx o.ctx).tok o.tok).done = true
              ∧ ∀ j : Fin 6, k.flags.getLsbD j = true → (u.ctx o.ctx).sprs.arstat.getLsbD j = true)
          ∧ Stored u { g with pa := g.pa + 40, len := 8 } c.dstTab
          ∧ Stored u { g with pa := g.pa + 48, len := 8 } (mapPtr c.dstMap)
          ∧ Stored u { g with pa := g.pa + 64, len := 8 } (mapWord c.dstMap).toNat
          ∧ SameOutside [{ g with pa := g.pa + 40, len := 16 }, { g with pa := g.pa + 64, len := 8 }] s u

/-! ## Stream ports -/

/-- The walk (R73): with two loops, step i + COUNT0 · j lies at BASE plus i times the stride of loop 0 plus j times that of
loop 1; with one loop, step i lies at BASE plus i strides; and the walk has as many steps as the product of the counts. -/
def PortWalk : Prop :=
  ∀ (p : Port) (i j : Nat), i < p.count 0 →
    (p.loops = 1 → p.stepAddr i = (p.base : Int) + i * p.stride 0 ∧ p.steps = p.count 0)
    ∧ (p.loops = 2 → j < p.count 1 →
        p.stepAddr (i + p.count 0 * j) = (p.base : Int) + i * p.stride 0 + j * p.stride 1 ∧ p.steps = p.count 0 * p.count 1)

/-- A port without stages that moves a whole row at each step, of a type whose elements fill bytes. -/
structure RowPort (p : Port) : Prop where
  stages : p.stages = []
  chunk : p.chunk = 4096
  space : p.space ≠ 3
  type : p.ty ∈ [Fmt.fp64, .fp32, .bf16, .i8, .i16, .i32, .i64, .n8, .n16, .n32, .n64]

/-- PORT_ROW_READY (R73, R75): the next row of a source stands ready with the bytes of its walk step, and the walk moves on; no
register and no byte of memory changes. A port of which no row may form changes nothing. -/
def PortRowForms : Prop :=
  ∀ (s : State) (c : Nat) (k : Fin 16),
    ((s.ctx c).port? k = none → exec (.portRowReady c k) s = .next s)
    ∧ ∀ p, (s.ctx c).port? k = some p →
      (s.rowMayForm c p = false → exec (.portRowReady c k) s = .next s)
      ∧ ∀ g : Seg, s.rowMayForm c p = true → RowPort p → p.at_.raw = [] → p.at_.decoded = [] → p.at_.step < p.steps → g.len = 4096 →
        s.portRange (coreOf c) p.space .read (p.stepAddr p.at_.step) 4096 = .ok [g] → s.poison = [] →
        (∀ r, s.unit? (s.unitNo c) = some r → r.staged = []) → (∀ o ∈ s.ops, o.2.forwards (s.unitNo c) (s.cycle + 1) = false) →
        ∃ u q row, exec (.portRowReady c k) s = .next u ∧ (u.ctx c).port? k = some q ∧ q.rows = p.rows ++ [row] ∧ row.fault = none
          ∧ row.side = [] ∧ (∀ j < 4096, row.data.extractLsb' (8 * j) 8 = memRead s.mem (g.pa + j)) ∧ q.at_.step = p.at_.step + 1
          ∧ q.record = p.record ∧ u.mem = s.mem ∧ (u.ctx c).regs = (s.ctx c).regs
          ∧ (∀ n, n ≠ k.val → (u.ctx c).port? n = (s.ctx c).port? n) ∧ ∀ d, d ≠ c → u.ctx d = s.ctx d

/-- SINK_ROW_ACCEPTED (R75, R76): the oldest pushed row of a sink is stored at its walk step and nowhere else, and leaves the
port; an access that must be performed before it holds it back. -/
def PortRowStored : Prop :=
  ∀ (s : State) (c : Nat) (k : Fin 16),
    (s.headPush c k = none → exec (.sinkRowAccepted c k) s = .next s)
    ∧ ∀ n o p row, s.headPush c k = some (n, o, p, row) →
      (s.mayPerform o = false → exec (.sinkRowAccepted c k) s = .next s)
      ∧ ∀ g : Seg, s.mayPerform o = true → s.versionedUnit o.unit = false → s.opLive o = true → o.ctx = c → RowPort p → g.len = 4096 →
        4096 * p.accepted < p.streamBytes →
        (s.asIssued o.issued).portRange o.core p.space .write (p.stepAddr p.accepted) 4096 = .ok [g] → s.poison = [] →
        ∃ u q, exec (.sinkRowAccepted c k) s = .next u ∧ u.op? n = none ∧ (u.ctx c).port? k = some q
          ∧ q = { p with pushed := p.pushed.drop 1, accepted := p.accepted + 1 } ∧ SameOutside [g] s u
          ∧ ∀ j < 4096, memRead u.mem (g.pa + j) = row.extractLsb' (8 * j) 8

/-- The worked block of R77 and R78: its codes, the elements that the table entries and the literal give, and the two declared
ratios, of which 40 passes and 36 raises RATE. -/
def WorkedBlock : Prop :=
  let codes : List Byte := [0x52, 0xE2, 0xEF, 0xEF, 0xFF, 0, 0, 0, 0, 0, 0]
  let table : BitVec 256 := BitVec.ofNat 256 (0x3C00 + 0x4000 * 2 ^ 32 + 0xBF80 * 2 ^ 80)
  ∃ toks, cbScan 65 (nibblesOf codes) 0 0 [] = .block toks 22 ∧ escapesIn toks = 1
    ∧ cbElems table toks [0x3F80] = [0x4000, 0xBF80, 0x4000] ++ List.replicate 48 0 ++ [0x3F80] ++ List.replicate 12 0x3C00
    ∧ ∀ (s : State) (core u : Nat) (p : Port), p.at_.raw = codes → p.space = 2 →
      (p.ratio = 36 → s.cbBlock core u p = .bad (trapOf 0x0E))
      ∧ (p.ratio = 40 → s.portBytes core u 2 ((p.escAddr : Int) + 2 * p.at_.escapes) 2 = .ok [0x80, 0x3F] →
          ((s.core core).slot p.slot).table p.gen = { entries := table } →
          s.cbBlock core u p = .elems (cbElems table toks [0x3F80]) 11 1 0)

/-! ## The host -/

/-- A command is refused: ERR is set, vector 1 signals it and the log records it; nothing of the job changes (R298). -/
structure CommandRefused (s t : State) (code : Nat) : Prop where
  err : t.host.err = code
  vector : t.host.msix = s.host.msix ++ [1]
  log : t.host.log = s.host.log ++ [.err code]
  job : t.job = s.job
  ctxs : t.ctxs = s.ctxs
  mem : t.mem = s.mem

/-- START, STOP and ABORT (R298): by the job's state, the image is to be checked, the stopped job goes on, every bound context
is to be saved and the job is held once none is bound, or every unit ends and the job is aborted with vectors 0 and 1; in
any other state the command is refused with ERR 3. -/
def JobCommands : Prop :=
  ∀ (s : State),
    let bound (c : Nat) : Prop := (s.ctx c).unit.isSome = true
    (s.job.st = .idle ∨ s.job.st = .done ∨ s.job.st = .faulted ∨ s.job.st = .aborted →
      ∃ t, exec .start s = .next t ∧ t.job.st = .loading ∧ t.mem = s.mem ∧ t.ctxs = s.ctxs ∧ t.host = s.host)
    ∧ (s.job.st = .stopped → exec .start s = .next { s with job := { s.job with st := .running } })
    ∧ (s.job.st = .loading ∨ s.job.st = .running → ∃ t, exec .start s = .next t ∧ CommandRefused s t 3)
    ∧ (s.job.st = .running → ∃ t, exec .stop s = .next t ∧ t.mem = s.mem
        ∧ ((∀ p ∈ s.ctxs, p.2.unit = none) → t.job.st = .stopped)
        ∧ (∀ c, bound c → t.job.st = .running ∧ t.job.stopping = true ∧ (t.ctx c).unit = (s.ctx c).unit ∧ (t.ctx c).saving = some 0))
    ∧ (s.job.st ≠ .running → ∃ t, exec .stop s = .next t ∧ CommandRefused s t 3)
    ∧ (s.job.st = .running ∨ s.job.st = .stopped → ∃ t l, exec .abort s = .next t ∧ t.job.st = .aborted ∧ t.mem = s.mem
        ∧ t.host.msix = l ++ [0, 1] ∧ ∀ c, (t.ctx c).unit = none)
    ∧ (s.job.st ≠ .running → s.job.st ≠ .stopped → ∃ t, exec .abort s = .next t ∧ CommandRefused s t 3)

/-- Writes of the job window (R297, R298): JWIMAGE and JWAPER keep the bits that they have; JWCTL gives the command of its one
set bit, nothing for none, ERR 3 for more than one; JWINVAL gives its range; any other offset is ignored. -/
def WindowWrites : Prop :=
  ∀ (s : State) (v : Word),
    let cmd := v.toNat % 8
    exec (.hostRegisterWrite 0x008 v) s = .next { s with host := { s.host with jwimage := v &&& 0x000FFFFFFFFFF000 } }
    ∧ exec (.hostRegisterWrite 0x028 v) s = .next { s with host := { s.host with jwaper := v &&& 0x000FFFF000000000 } }
    ∧ (cmd = 0 → exec (.hostRegisterWrite 0x010 v) s = .next s)
    ∧ (cmd = 1 → exec (.hostRegisterWrite 0x010 v) s = exec .start s)
    ∧ (cmd = 2 → exec (.hostRegisterWrite 0x010 v) s = exec .stop s)
    ∧ (cmd = 4 → exec (.hostRegisterWrite 0x010 v) s = exec .abort s)
    ∧ (cmd = 3 ∨ 5 ≤ cmd → ∃ t, exec (.hostRegisterWrite 0x010 v) s = .next t ∧ CommandRefused s t 3)
    ∧ exec (.hostRegisterWrite 0x030 v) s = exec (.jwinval v) s
    ∧ ∀ off, off ∉ [0x008, 0x010, 0x028, 0x030] → exec (.hostRegisterWrite off v) s = .next s

/-- JWINVAL and INVALIDATION_COMPLETE (R300): a range that runs past 2^56 is refused with ERR 4; any other is to be invalidated,
and once it is, no TLB of a core or a die holds an entry of it. A write outside RUNNING and STOPPED has no effect (log 34). -/
def Invalidation : Prop :=
  (∀ (s : State) (v : Word),
    let base := (v.extractLsb' 18 38).toNat * 2 ^ 18
    let len := (v.extractLsb' 0 18).toNat * 2 ^ 18
    let live := s.job.st = .running ∨ s.job.st = .stopped
    (live → 2 ^ 56 < base + len → ∃ t, exec (.jwinval v) s = .next t ∧ CommandRefused s t 4)
    ∧ (live → base + len ≤ 2 ^ 56 →
        exec (.jwinval v) s = .next { s with host := { s.host with inval := s.host.inval ++ [(base, len)] } })
    ∧ (¬ live → exec (.jwinval v) s = .next s))
  ∧ ∀ (s : State),
    (s.host.inval = [] → exec .invalidationComplete s = .next s)
    ∧ (s.host.inval ≠ [] → (∀ p ∈ s.dies, p.2.fwNext = none) →
        ∃ t, exec .invalidationComplete s = .next t ∧ t.host.inval = [] ∧ t.mem = s.mem ∧ t.ctxs = s.ctxs ∧ t.job = s.job
          ∧ ∀ r ∈ s.host.inval, ∀ k, (∀ e ∈ (t.core k).tlb, e.base + 2 ^ e.bits ≤ r.1 ∨ r.1 + r.2 ≤ e.base)
            ∧ ∀ e ∈ (t.die k).tlb, e.base + 2 ^ e.bits ≤ r.1 ∨ r.1 + r.2 ≤ e.base)

/-- The header at an address keeps MAGIC, SIZE and its reserved fields (R299). -/
def GoodHeader (mem : List Host.Cell) (a : Nat) : Prop :=
  memWord mem a = 0x4E47414A4F420001 ∧ 4096 ≤ (memWord mem (a + 8)).toNat ∧ (memWord mem (a + 8)).toNat ≤ 2 ^ 36
  ∧ (memWord mem (a + 56)).extractLsb' 56 2 = 0 ∧ ∀ k < 56, memRead mem (a + 72 + k) = 0

/-- IMAGE_CHECK (R298, R299): the job goes back to IDLE with ERR 1 for a header that breaks its form and for an entry record of
more than one unit, with ERR 2 for a mesh that breaks R15 or whose share a module has not in service, where ERR 1 does not apply;
with a good entry record of one unit, no rules and the default slot tables it runs, its entry launch created. In any other state
than LOADING nothing happens. -/
def ImageCheck : Prop :=
  ∀ (s : State),
    let a := s.host.jwimage.toNat
    let h := readHeader s.mem a
    let ds := s.assign h.mesh
    let rejected (t : State) (code : Nat) : Prop := t.job.st = .idle ∧ t.host.err = code ∧ t.mem = s.mem ∧ t.ctxs = s.ctxs
    (s.job.st ≠ .loading → exec .imageCheck s = .next s)
    ∧ (s.job.st = .loading →
      (¬ GoodHeader s.mem a → ∃ t, exec .imageCheck s = .next t ∧ rejected t 1)
      ∧ ∀ bs, GoodHeader s.mem a → h.entry % 64 = 0 →
          (s.loadDies h ds).readVa (ds.headD 0 * 128) h.entry 128 = some bs → recBad (recordOf bs) = false →
        (manyUnits (recordOf bs) = true → ∃ t, exec .imageCheck s = .next t ∧ rejected t 1)
        ∧ (manyUnits (recordOf bs) = false → shapeRefused s (memWord s.mem (a + 16)) ≠ none ∨ ds.length < shapeDies h.mesh →
            ∃ t, exec .imageCheck s = .next t ∧ rejected t 2)
        ∧ (s.shapeBad h.mesh = false → shapeDies h.mesh ≤ ds.length → manyUnits (recordOf bs) = false → (memWord s.mem (a + 56)).extractLsb' 58 6 = 0 → memWord s.mem (a + 64) = 0 →
          ∃ t l, exec .imageCheck s = .next t ∧ t.job.st = .running ∧ t.mem = s.mem ∧ t.ctxs = s.ctxs
            ∧ t.launch? s.job.launchNext = some l ∧ l.record = recordOf bs ∧ t.job.launchNext = s.job.launchNext + 1))

/-- HOST_BAR2_ACCESS (R297, R223, R305): the host reads or writes populated module memory at JWAPER plus the offset; without debug
access a save area is closed to it, and what an access to no memory reads is open (log 34). -/
def ApertureAccess : Prop :=
  ∀ (s : State) (off : Nat) (data : List Byte),
    let pa := s.host.jwaper.toNat + off
    let open_ := s.backed pa data.length = true ∧ (s.host.debug ≠ .locked ∨ s.inSaveArea pa data.length = false)
    data ≠ [] → off + data.length ≤ 2 ^ 36 →
    (open_ → (∃ t, exec (.hostBar2Access true off data) s = .next t ∧ SameOutside [{ va := 0, pa := pa, len := data.length }] s t
          ∧ ∀ k < data.length, some (memRead t.mem (pa + k)) = data[k]?)
        ∧ exec (.hostBar2Access false off data) s
          = .next { s with host := { s.host with readData := (List.range data.length).map fun k => memRead s.mem (pa + k) } })
    ∧ (¬ open_ → exec (.hostBar2Access true off data) s = .next s
        ∧ ∃ t, exec (.hostBar2Access false off data) s = .next t ∧ t.mem = s.mem ∧ t.job = s.job ∧ t.ctxs = s.ctxs
          ∧ t.host.readData.length = data.length)

/-- POWER_ON (R301): the module starts from reset; a die whose firmware fails verification stays out of service and degrades the
posture; the keys and a degraded posture survive, and the modules stay joined. Memory outside the module keeps what it holds (the
model's choice: log 16). -/
def PowerOn : Prop :=
  ∀ (s : State) (trusted : Bool) (ok : BitVec 64),
    ∃ t, exec (.powerOn trusted ok) s = .next t ∧ t.mem = s.mem.filter (fun q => inSysAperture q.1)
    ∧ t.job = State.reset.job ∧ t.ctxs = State.reset.ctxs
    ∧ t.host.keyPresent = s.host.keyPresent ∧ t.host.trustedOk = trusted
    ∧ t.modules = s.modules ∧ (∀ d < s.dieCount, (t.die d).out = !(trusted && ok.getLsbD (d % 64)))
    ∧ (t.host.degraded = true ↔ s.host.degraded = true ∨ ∃ d < 64, (trusted && ok.getLsbD d) = false)

/-- FIRMWARE_REPLACE (R303): the services of a die in service pause with the new image under verification; at the end of the
pause the image runs where it was verified, and the old one where it was not, and the fault-log copies that waited are made; the
posture stays. -/
def FirmwareReplacement : Prop :=
  ∀ (s : State) (d image : Nat) (ok : Bool),
    ((s.die d).fwNext = none → d < s.dieCount → (s.die d).out = false →
      ∃ t, exec (.firmwareReplace d image ok) s = .next t ∧ (t.die d).fwNext = some (image, ok, s.cycle)
        ∧ (t.die d).fwImage = (s.die d).fwImage ∧ t.ctxs = s.ctxs ∧ t.mem = s.mem ∧ t.host = s.host)
    ∧ ((s.die d).fwNext = none → s.dieCount ≤ d ∨ (s.die d).out = true → exec (.firmwareReplace d image ok) s = .next s)
    ∧ ∀ im good at_, (s.die d).fwNext = some (im, good, at_) →
        ∃ t, exec (.firmwareReplace d image ok) s = .next t ∧ (t.die d).fwNext = none
          ∧ (t.die d).fwImage = (if good then im else (s.die d).fwImage) ∧ t.ctxs = s.ctxs ∧ t.mem = s.mem
          ∧ (t.die d).flog = (s.die d).flog ++ (s.die d).flogWait ∧ (t.die d).flogWait = [] ∧ t.host.degraded = s.host.degraded
          ∧ t.host.log = s.host.log ++ List.replicate (s.die d).flogWait.length (.faultRecord d)

/-- DEBUG_MODE_CHANGE, QUOTE and KEY_PROVISIONING (R301, R302, R305): only a signed request changes the mode, and vendor-debug
erases the attestation key and degrades the posture; a quote is signed except in degraded posture or without a key; keys
provisioned again verify the posture. Nothing of the job changes. -/
def Attestation : Prop :=
  ∀ (s : State) (m : DebugMode) (nonce : BitVec 256),
    let same (t : State) : Prop := t.mem = s.mem ∧ t.ctxs = s.ctxs ∧ t.job = s.job ∧ t.dies = s.dies
    exec (.debugModeChange m false) s = .next s
    ∧ (∃ t, exec (.debugModeChange m true) s = .next t ∧ same t ∧ t.host.debug = m
        ∧ (m = .vendorDebug → t.host.keyPresent = false ∧ t.host.degraded = true)
        ∧ (m ≠ .vendorDebug → t.host.keyPresent = s.host.keyPresent ∧ t.host.degraded = s.host.degraded))
    ∧ (∃ t q, exec (.quote nonce) s = .next t ∧ same t ∧ t.host.quotes = s.host.quotes ++ [q]
        ∧ q.digest = Config.digest (s.quoteMessage nonce)
        ∧ (s.host.degraded = true ∨ s.host.keyPresent = false → q.signature = none)
        ∧ (s.host.degraded = false → s.host.keyPresent = true → q.signature = some (Config.quoteSignature q.digest)))
    ∧ ∃ t, exec .keyProvisioning s = .next t ∧ same t ∧ t.host.keyPresent = true ∧ t.host.degraded = false

/-- A part goes out of service: vector 2 signals it and the log records it (R298, R304). -/
def Signalled (s t : State) (e : LogEntry) : Prop := ∃ l m, t.host.log = s.host.log ++ l ∧ e ∈ l ∧ t.host.msix = s.host.msix ++ m ∧ 2 ∈ m

/-- DRAIN (R304, R263): a die outside the mesh, or of a job that is stopped, has its bound contexts saved and is out of service
once none is bound; a die of the mesh of a running job is not drained while it has a route. A stack with its far stack, or
a channel, becomes unpopulated at once. -/
def Drains : Prop :=
  ∀ (s : State) (d k : Nat),
    let bound (c : Nat) : Prop := dieOfCtx c = d ∧ (s.ctx c).unit.isSome = true
    (d < s.dieCount → s.inJobMesh d = false ∨ s.job.st = .stopped → (s.die d).out = false → (s.die d).draining = false →
      ∃ t, exec (.drain (.die d)) s = .next t ∧ t.mem = s.mem
        ∧ (∀ c, bound c → (t.ctx c).saving = some 0 ∧ (t.ctx c).unit = (s.ctx c).unit)
        ∧ ((∀ p ∈ s.ctxs, p.2.unit.isSome = true → dieOfCtx p.1 ≠ d) → (t.die d).out = true ∧ Signalled s t (.reduced (.die d))))
    ∧ (s.inJobMesh d = true → s.job.st ≠ .stopped → s.routed d = true →
        exec (.drain (.die d)) s = .next s)
    ∧ (k < 4 → k ∉ (s.die d).stacksOut → ∃ t, exec (.drain (.stack d k)) s = .next t ∧ t.mem = s.mem ∧ t.ctxs = s.ctxs
        ∧ Signalled s t (.reduced (.stack d k))
        ∧ ∀ pa ch, s.levelOf pa = .near d ch ∨ s.levelOf pa = .far d ch → t.levelOf pa = if ch / 32 = k then .none else s.levelOf pa)
    ∧ ((s.link k).st ≠ .failed → ∃ t l m, exec (.drain (.link k)) s = .next t ∧ (t.link k).st = .failed ∧ t.mem = s.mem
        ∧ t.host.log = l ++ [.reduced (.link k)] ∧ t.host.msix = m ++ [2])
    ∧ ((s.link k).st = .failed → exec (.drain (.link k)) s = .next s)
    ∧ (k < 128 → k ∉ (s.die d).channelsOut → ∃ t, exec (.drain (.channel d k)) s = .next t ∧ t.mem = s.mem ∧ t.ctxs = s.ctxs
        ∧ Signalled s t (.reduced (.channel d k))
        ∧ ∀ pa ch, s.levelOf pa = .near d ch ∨ s.levelOf pa = .far d ch → t.levelOf pa = if ch = k then .none else s.levelOf pa)

/-- Every register table of a context names registers, granules and ports that there are, and the residencies of its core lie in
its macro slots. -/
structure InRange (s : State) (c : Nat) : Prop where
  footMax : (s.ctx c).foot ≤ 192
  sKeys : ∀ p ∈ (s.ctx c).regs.s, p.1 < 64
  hKeys : ∀ p ∈ (s.ctx c).regs.h, 56 ≤ p.1 ∧ p.1 < 64
  bKeys : ∀ p ∈ (s.ctx c).regs.b, p.1 < 16
  mKeys : ∀ p ∈ (s.ctx c).regs.m, p.1 < 16
  smKeys : ∀ p ∈ (s.ctx c).regs.sm, p.1 < 8
  tKeys : ∀ p ∈ (s.ctx c).views.t, p.1 < 32
  aKeys : ∀ p ∈ (s.ctx c).views.a, p.1 < 16
  granKeys : ∀ p ∈ (s.ctx c).gran, p.1 < 16 * (s.ctx c).foot
  portKeys : ∀ p ∈ (s.ctx c).ports, p.1 < 16
  distinct : ((s.ctx c).regs.s.map Prod.fst).Nodup
  resid : ∀ r ∈ (s.core (coreOf c)).resid, r.tile < 32 ∧ r.slot + (residSlots r).length ≤ 65536
  nestIdx : ∀ n, (s.ctx c).nest = some n → n.idx.length ≤ 6

/-- CONTEXT_SAVE (R222, R263, R264): a save that may not be made yet changes nothing. One that may releases the context, leaves its
unit Ready with its area, and, of a context whose tables name what there is, writes nothing outside the area; in it stand the call
depth, ARSTAT, TRAPBASE and the s registers at their places, the results in flight landed. -/
def ContextSaves : Prop :=
  ∀ (s : State) (c area u : Nat) (r : UnitRec),
    let l := ((s.readNow (s.unitNo c)).landAll c).leaveGangs c
    (s.saveReady c area = false → exec (.contextSave c area) s = .next s)
    ∧ (s.saveReady c area = true → (s.ctx c).unit = some u → s.unit? u = some r →
        ∃ t q, exec (.contextSave c area) s = .next t ∧ (t.ctx c).unit = none ∧ t.unit? u = some q ∧ q.st = .ready ∧ q.ctx = none
          ∧ q.saved = some area ∧ q.version = r.version
          ∧ (InRange l c → SameOutside [{ va := 0, pa := area, len := 0x2D000 + 4096 * (s.ctx c).foot }] s t
              ∧ memWord t.mem (area + 0x28) = (s.ctx c).depth ∧ memWord t.mem (area + 0x108) = (l.ctx c).sprs.arstat
              ∧ memWord t.mem (area + 0x120) = (s.ctx c).sprs.trapbase
              ∧ ∀ n w, tget (l.ctx c).regs.s n = some w → memWord t.mem (area + 0x200 + 8 * n) = w))

/-- RESUME (R263, R265, R319): a unit that may not be placed yet changes nothing. One that may is bound to a context that holds what
its area holds: the call depth, the mode, the special registers (their reserved bits 0, R6) and the s registers, with the
cursors of the engines; ARSTAT takes the flags that a collective of the unit has raised since; memory is unchanged. -/
def ContextResumes : Prop :=
  ∀ (s : State) (u : Nat),
    (s.resumeReady u = false → exec (.resume u) s = .next s)
    ∧ ∀ r l a, s.resumeReady u = true → s.unit? u = some r → s.launch? r.launch = some l → r.saved = some a →
        ∃ t c q, exec (.resume u) s = .next t ∧ (t.ctx c).unit = some u ∧ t.unit? u = some q ∧ q.saved = none ∧ q.ctx = some c
          ∧ t.mem = s.mem ∧ (t.ctx c).depth = memWord s.mem (a + 0x28) ∧ (t.ctx c).sprs.arstat = (memWord s.mem (a + 0x108) &&& 0x3F3F) ||| r.savedFlags.zeroExtend 64
          ∧ (t.ctx c).sprs.trapbase = memWord s.mem (a + 0x120) &&& 0x00FFFFFFFFFFFFE7
          ∧ (t.ctx c).mode = (if (memWord s.mem a).getLsbD 49 then .handler else .unit)
          ∧ (∀ n, 0 < n → n < 64 → tgetD (t.ctx c).regs.s n 0 = memWord s.mem (a + 0x200 + 8 * n))
          ∧ (t.ctx c).c.cur = posOfWord (memWord s.mem (a + 8)) ∧ (t.ctx c).v.cur = posOfWord (memWord s.mem (a + 16))
          ∧ (t.ctx c).m.cur = posOfWord (memWord s.mem (a + 24)) ∧ (t.ctx c).y.cur = posOfWord (memWord s.mem (a + 32))

/-! ## Links, memory controllers and errors -/

/-- The buffer allotment of a link by its capacity C, four flits to a good bank, the spare not among them (R294, R295). -/
structure Allotted (short : Bool) (k : Link) : Prop where
  none : 4 * k.good < 12 → k.st = .failed ∧ k.pool = 0 ∧ k.reserve = [0, 0, 0, 0, 0, 0]
  some : 12 ≤ 4 * k.good → 4 * k.good < 76 ∨ short = true →
    k.st = .restricted ∧ k.pool = 0 ∧ k.reserve.sum = 4 * k.good ∧ ∀ n ∈ k.reserve, 2 ≤ n
  full : 76 ≤ 4 * k.good → short = false → k.st = .normal ∧ k.reserve = [2, 2, 2, 2, 2, 2] ∧ k.pool = min 256 (4 * k.good - 12)

/-- The credit that a flit names is free at the receiver: fewer flits of its buffer hold one of the pool than the pool has, or one
of the channel's reserve than the reserve has (R292). -/
def CreditFree (k : Link) (h : Word) : Prop :=
  let vc := h.extractLsb' 61 3
  (h.getLsbD 60 = true → (k.held.filter fun p => p.1.getLsbD 60).length < k.pool)
  ∧ (h.getLsbD 60 = false →
      ∃ n, k.reserve[vc.toNat]? = some n ∧ (k.held.filter fun p => !p.1.getLsbD 60 && p.1.extractLsb' 61 3 == vc).length < n)

/-- Events of a link (R291 to R296): a flit with an invalid header is counted and discarded, the flit next in sequence enters the
buffer where the credit that it spent is free, any other is discarded; the oldest buffered flit of a channel is delivered, which
returns its credit; a bank's error uses the spare, or leaves a good bank less with the allotment of its
capacity; a failed link carries nothing; lost lanes leave the state; a restricted link is normal again when it is
reinitialised with a capacity of at least 76. -/
def LinkEvents : Prop :=
  ∀ (s : State) (l lanes : Nat) (h : Word) (p : BitVec 512),
    let k := s.link l
    let valid := (h.extractLsb' 61 3).toNat < 6 ∧ h.extractLsb' 0 33 = 0
    (k.st ≠ .failed → ¬ valid → ∃ t, exec (.flitReceive l h p) s = .next t ∧ t.link l = { k with errors := k.errors + 1 })
    ∧ (k.st ≠ .failed → valid → h.extractLsb' 48 12 = k.seq → CreditFree k h →
        ∃ t, exec (.flitReceive l h p) s = .next t ∧ t.link l = { k with seq := k.seq + 1, held := k.held ++ [(h, p)] })
    ∧ (k.st ≠ .failed → valid → h.extractLsb' 48 12 ≠ k.seq ∨ (k.reserve.length = 6 ∧ ¬ CreditFree k h) → exec (.flitReceive l h p) s = .next s)
    ∧ (∀ (vc : BitVec 3) a q b, k.held = a ++ q :: b → q.1.extractLsb' 61 3 = vc → (∀ r ∈ a, r.1.extractLsb' 61 3 ≠ vc) →
        ∃ t, State.chosen s (.freeFlit l vc.toNat) = .next t ∧ t.link l = { k with held := a ++ b, received := k.received ++ [q] })
    ∧ (k.st = .failed → exec (.flitReceive l h p) s = .next s ∧ exec (.bufferBankRetire l) s = .next s
        ∧ exec (.linkFailure l) s = .next s ∧ exec (.linkLaneLoss l lanes) s = .next s)
    ∧ (k.st ≠ .failed → k.spare = true →
        ∃ t, exec (.bufferBankRetire l) s = .next t ∧ t.link l = { k with spare := false } ∧ t.mem = s.mem)
    ∧ (k.st ≠ .failed → k.spare = false →
        ∃ t, exec (.bufferBankRetire l) s = .next t ∧ (t.link l).good = k.good - 1 ∧ t.mem = s.mem
          ∧ (Allotted (decide (k.st = .restricted)) (t.link l)))
    ∧ (k.st ≠ .failed → ∃ t, exec (.linkFailure l) s = .next t ∧ (t.link l).st = .failed ∧ t.mem = s.mem
        ∧ Signalled s t (.linkState l .failed))
    ∧ (k.st ≠ .failed → ∃ t, exec (.linkLaneLoss l lanes) s = .next t ∧ t.link l = { k with lanesLost := k.lanesLost + lanes })
    ∧ (k.st = .restricted → 76 ≤ 4 * k.good →
        ∃ t, exec (.linkReinitialisation l) s = .next t ∧ (t.link l).good = k.good ∧ Allotted false (t.link l))
    ∧ (k.st ≠ .restricted ∨ 4 * k.good < 76 → exec (.linkReinitialisation l) s = .next s)

/-- Refresh (R306, R307): a heartbeat before takeover is recorded with its OWED, one after it is logged and ignored; the first one
missed is counted, the second takes ownership; a reinitialised base die owns the refresh again. -/
def RefreshOwnership : Prop :=
  ∀ (s : State) (d k owed : Nat), k < 4 →
    let r := s.refreshOf d k
    (owed ≤ 8 → r.takenOver = false → ∃ t, exec (.heartbeat d k owed) s = .next t
        ∧ t.refreshOf d k = { r with lastBeat := s.cycle, owed := owed, missed := 0 })
    ∧ (owed ≤ 8 → r.takenOver = true → ∃ t, exec (.heartbeat d k owed) s = .next t ∧ t.refreshOf d k = r
        ∧ t.host.log = s.host.log ++ [.lateHeartbeat d k] ∧ t.dies = s.dies)
    ∧ (r.takenOver = false → r.missed = 0 → r.lastBeat + 9360 ≤ s.cycle →
        ∃ t, exec (.heartbeatMissed d k) s = .next t ∧ t.refreshOf d k = { r with missed := 1 })
    ∧ (r.takenOver = false → r.missed = 1 → r.lastBeat + 18720 ≤ s.cycle →
        ∃ t, exec (.heartbeatMissed d k) s = .next t ∧ t.refreshOf d k = { r with missed := 2, takenOver := true, takeover := s.cycle }
          ∧ t.mem = s.mem)
    ∧ (r.takenOver = true ∨ s.cycle < r.lastBeat + 9360 * (r.missed + 1) → exec (.heartbeatMissed d k) s = .next s)
    ∧ ∃ t, exec (.baseDieReinitialisation d k) s = .next t ∧ (t.refreshOf d k).takenOver = false ∧ (t.refreshOf d k).lastBeat = s.cycle

/-- Replays (R177, R182): a corrected ECC error of a read, or a retry of the far chain, moves a request of HBM that nothing is
bound behind one rotation, with codes 2 and 3; another request stays. -/
def Replays : Prop :=
  ∀ (s : State) (n j : Nat) (o : Op) (r : Req), s.op? n = some o → o.reqs[j]? = some r → (∀ m p, s.op? m = some p → m ≠ n → p.reqs = []) →
    (∀ q i, o.reqs[i]? = some q → i ≠ j → ∀ m ∈ r.slots, m + 64 ∉ q.slots) → (∀ p ∈ s.ops, s.op? p.1 = some p.2) →
    let moved (cause : Nat) (t : State) : Prop := t.mem = s.mem ∧ ∃ q, t.op? n = some q
      ∧ q.reqs[j]? = some { r with mc := r.mc + 64, done := r.done + 96, slots := r.slots.map (· + 64), cause := cause }
    (r.ch < 128 → s.cycle ≤ r.done → (r.rd = true → ∃ t, exec (.eccCorrectionReplay n j) s = .next t ∧ moved 2 t)
      ∧ (r.rd = false → exec (.eccCorrectionReplay n j) s = .next s)
      ∧ (r.far = true → ∃ t, exec (.farChainLinkRetry n j) s = .next t ∧ moved 3 t)
      ∧ (r.far = false → exec (.farChainLinkRetry n j) s = .next s))
    ∧ (128 ≤ r.ch ∨ r.done < s.cycle → exec (.eccCorrectionReplay n j) s = .next s ∧ exec (.farChainLinkRetry n j) s = .next s)

/-- FADE_DECREMENT (R172), WALK_COMPLETE (R188) and LINE_FETCH (R311): a filled window that no access has hit for 2^20 cycles counts
down, and at zero is released; a page walk that ends, one of those at work, is under way no longer, and its page is in the core's TLB where it
translates; a line that returns is kept, nothing else of memory or of another context changing. -/
def MemoryEvents : Prop :=
  (∀ (s : State) (d : Nat) (p : Pin) (l : List Pin), (s.die d).pins = p :: l → p.filled = true →
    (s.cycle < p.since + 2 ^ 20 → exec (.fadeDecrement d p.base) s = .next s)
    ∧ (p.since + 2 ^ 20 ≤ s.cycle → 1 < p.count → ∃ t m, exec (.fadeDecrement d p.base) s = .next t ∧ t.mem = s.mem
        ∧ (t.die d).pins = { p with count := p.count - 1, since := p.since + 2 ^ 20 } :: m)
    ∧ (p.since + 2 ^ 20 ≤ s.cycle → p.count ≤ 1 → ∃ t, exec (.fadeDecrement d p.base) s = .next t ∧ t.mem = s.mem
        ∧ ∀ q ∈ (t.die d).pins, q.base ≠ p.base))
  ∧ (∀ (s : State) (core page : Nat),
    (s.walkServed core page = false → exec (.walkComplete core page) s = .next s)
    ∧ (s.walkServed core page = true → s.ops = [] → ∃ t, exec (.walkComplete core page) s = .next t ∧ t.mem = s.mem
        ∧ page ∉ t.walksOf core ∧ ∀ e, s.lookup core page = some e → findTlb (s.core core).tlb e.base = none →
            (findTlb (t.core core).tlb page).isSome = true))
  ∧ ∀ (s : State) (core : Nat) (x : Fin 4) (e : Engine),
    ∃ t, exec (.lineFetch core x e) s = .next t ∧ t.mem = s.mem ∧ (∀ c, c ≠ 4 * core + x.val → t.ctx c = s.ctx c)
      ∧ (t.ctx (4 * core + x.val)).regs = (s.ctx (4 * core + x.val)).regs

/-- RESIDUE_ERROR_LOGIC and RESIDUE_ERROR_STORAGE (R252 to R254): equal residues are no error (R109); where the re-execution agrees, the retry is counted and nothing
else happens; where it does not, the core is fenced and a unit that is not versioned takes MCHECK with SUB 0; an error of
storage takes MCHECK with SUB 1, without retry or fence. -/
def ResidueErrors : Prop :=
  ∀ (s : State) (c : Nat) (e : Engine) (h : ResidueHit),
    (s.strikes c e = false ∨ residuesDiffer h = false → exec (.residueErrorLogic c e h true) s = .next s ∧ exec (.residueErrorStorage c e h) s = .next s)
    ∧ (s.strikes c e = true → residuesDiffer h = true →
      (∃ t, exec (.residueErrorLogic c e h false) s = .next t ∧ t.ctxs = s.ctxs ∧ t.mem = s.mem
        ∧ (t.core (coreOf c)).retries = min ((s.core (coreOf c)).retries + 1) 0xFFFFFFFF)
      ∧ (s.versioned c = false → HandlerReady s c →
          (∃ t, exec (.residueErrorLogic c e h true) s = .next t ∧ TookTrap t c 0x16 0 ∧ (t.core (coreOf c)).fenced = true ∧ t.mem = s.mem)
          ∧ ∃ t, exec (.residueErrorStorage c e h) s = .next t ∧ TookTrap t c 0x16 1
            ∧ (t.core (coreOf c)).fenced = (s.core (coreOf c)).fenced
            ∧ (t.core (coreOf c)).retries = (s.core (coreOf c)).retries ∧ t.mem = s.mem))

/-- UNCORRECTABLE_ERROR (R258) poisons the 256-byte block of a populated address and changes no byte. -/
def Poisoning : Prop :=
  ∀ (s : State) (a : Nat),
    (s.levelOf a = .none → exec (.uncorrectableError a) s = .next s)
    ∧ (s.levelOf a ≠ .none → ∃ t, exec (.uncorrectableError a) s = .next t ∧ a / 256 ∈ t.poison ∧ (∀ b ∈ s.poison, b ∈ t.poison)
        ∧ t.mem = s.mem ∧ t.ctxs = s.ctxs ∧ ∃ b, t.poisonIn [{ va := 0, pa := a, len := 1 }] = some b)

/-- PROMISE_MISS (R183, R184): COUNT rises by one, up to its largest value, with TOKEN the token; it is counted once; the trap is
taken only where TRAPCTL enables it. DEADLOCK (R48): where its conditions have held for 2,048 cycles the trap is taken with the
time that they have held. -/
def MissesAndDeadlocks : Prop :=
  (∀ (s : State) (c k : Nat), k < 32 →
    (s.missReady c k = false → exec (.promiseMiss c k) s = .next s)
    ∧ (s.missReady c k = true →
      let old := (s.ctx c).sprs.prommiss
      let counted (t : State) : Prop := ((t.ctx c).tok k).missed = true
        ∧ (t.ctx c).sprs.prommiss.toNat % 2 ^ 32 = min (old.toNat % 2 ^ 32 + 1) 0xFFFFFFFF
        ∧ ((t.ctx c).sprs.prommiss.extractLsb' 40 5).toNat = k ∧ t.mem = s.mem
      ((s.ctx c).sprs.trapctl.getLsbD 0 = false → ∃ t, exec (.promiseMiss c k) s = .next t ∧ counted t ∧ (t.ctx c).pend = (s.ctx c).pend)
      ∧ ((s.ctx c).sprs.trapctl.getLsbD 0 = true → HandlerReady s c →
          ∃ t, exec (.promiseMiss c k) s = .next t ∧ counted t ∧ (t.ctx c).mode = .handler
            ∧ ((t.ctx c).sprs.trapRec.w0.extractLsb' 59 5).toNat = 0x13)))
  ∧ ∀ (s : State) (c t0 : Nat), (s.ctx c).deadSince = some t0 →
    (s.deadlocked c = false ∨ s.cycle < t0 + 2048 → exec (.deadlock c) s = .next s)
    ∧ (s.deadlocked c = true → t0 + 2048 ≤ s.cycle → HandlerReady s c →
        ∃ t, exec (.deadlock c) s = .next t ∧ TookTrap t c 0x12 0 ∧ t.mem = s.mem
          ∧ ((t.ctx c).sprs.trapRec.w4.extractLsb' 0 32).toNat = (s.cycle - t0) % 2 ^ 32)

/-! ## Forms that complete -/

/-- TWAIT, SLEEP and KCHK with nothing to wait for, and TPROM, execute (R537, R513, R436, R533): their cursor stands behind them
and nothing else of the context or of memory changes but the register that TPROM writes; SLEEP_WAKE retires a SLEEP whose
cycle has come (R513). -/
def WaitsComplete : Prop :=
  ∀ (f : C3) (g : CL) (s : State),
    (Calm s (.twait f) → (∀ l, (here s).c.hold ≠ .tokens l) → (∀ k ∈ tokensOf f, ((here s).tok k).done = true) →
      ∃ t, exec (.twait f) s = .next t ∧ (t.eng s.focus .c).cur = fallThrough s (.twait f) ∧ Quiet s t)
    ∧ (Unplanted s → Settled s [f.d] →
      exec (.tprom f) s = .next ((s.putS s.focus f.d.toNat 1 (BitVec.ofNat 64 ((here s).tok (f.a.toNat % 32)).promise)).retire (.tprom f)
        (fallThrough s (.tprom f))))
    ∧ (Calm s (.sleep f) → Settled s [f.a] → (here s).c.hold = .none → (reg s f.a).toNat ≤ s.cycle →
      ∃ t, exec (.sleep f) s = .next t ∧ (t.eng s.focus .c).cur = fallThrough s (.sleep f) ∧ Quiet s t)
    ∧ (Unplanted s → s.katRuns s.focus = false →
      (s.core (coreOf s.focus)).ksig = (match g.lit with
        | .w32 w => w.signExtend 64
        | .w64 w => w) →
      exec (.kchk g) s = .next (s.retire (.kchk g) (fallThrough s (.kchk g))))
    ∧ ∀ c n, Calm { s with focus := c } (.sleep f) → (s.eng c .c).st = .waiting → (s.eng c .c).held = some (.sleep f) →
      (s.eng c .c).hold = .sleep n → n ≤ s.cycle →
      ∃ t, exec (.sleepWake c) s = .next t ∧ (t.eng c .c).st = .ready ∧ (t.eng c .c).cur = (s.eng c .c).next ∧ t.mem = s.mem

/-- LRULE, NSET, PBIND, PUNB, SMAP and VSET execute on an operand that their rules accept (R455, R494, R496, R498, R515, R571): one
entry of a rule table, a nest shadow, a port, a map register or VT takes it, and memory is unchanged. -/
def TablesComplete : Prop :=
  ∀ (f : C3) (s : State) (bs : List Byte),
    let va := (reg s f.a).toNat
    let port : Port := { record := recordOf bs }
    (∀ n, Calm s (.lrule f) → Settled s [f.a, f.b] → (here s).mode ≠ .unit → s.versioned s.focus = false → n < 32 →
      reg s f.b = 1#64 <<< n → va % 64 = 0 → RecordAt s (.lrule f) (va + 16 * n) 16 16 bs → ruleValid (ruleIn bs 0) = true →
      ∃ t, exec (.lrule f) s = .next t ∧ t.mem = s.mem ∧ tget (t.core (coreOf s.focus)).rules n = some (ruleIn bs 0))
    ∧ (Calm s (.nset f) → Settled s [f.a, f.b] → reg s f.b = 0 → va % 64 = 0 → s.nestUses s.focus 0 = false → RecordAt s (.nset f) va 256 64 bs →
      shadowBad (BitVec.ofNat 2048 (natOfBytes bs)) = false →
      ∃ t, exec (.nset f) s = .next t ∧ t.mem = s.mem
        ∧ ∀ k, k < 896 → (here t).shadow0.getLsbD k = (BitVec.ofNat 2048 (natOfBytes bs)).getLsbD k)
    ∧ (Calm s (.pbind f) → Settled s [f.a] → va % 64 = 0 → (here s).port? f.d.toNat = none → (∀ g l, (here s).c.hold ≠ .gens g l) →
      RecordAt s (.pbind f) va 128 64 bs → port.recordBad = false → port.isSink = false → port.stages = [] → port.ratio = 0 →
      (here s).fifoUsed + port.reserve ≤ 65536 → port.stageCodes = [0, 0, 0, 0] →
      ∃ t p, exec (.pbind f) s = .next t ∧ t.mem = s.mem ∧ (here t).port? f.d.toNat = some p ∧ p.record = recordOf bs ∧ p.rows = [])
    ∧ (Calm s (.punb f) → (∀ r, (here s).port? f.d.toNat = some r → r.isSink = false) →
      ∃ t, exec (.punb f) s = .next t ∧ t.mem = s.mem ∧ (t.eng s.focus .c).cur = fallThrough s (.punb f)
        ∧ ∀ k, k ≠ f.d.toNat → (here t).port? k = (here s).port? k)
    ∧ (Calm s (.smap f) → Settled s [f.a] → RecordAt s (.smap f) va 16 16 bs → va % 16 = 0 →
      smapBad (natOfBytes (bs.take 8)) (natOfBytes (bs.drop 8)) = false →
      ∃ t, exec (.smap f) s = .next t ∧ t.mem = s.mem
        ∧ (here t).sm (f.d.toNat % 8) = BitVec.ofNat 512 (natOfBytes (bs.drop 8) * 2 ^ 64 + natOfBytes (bs.take 8)))
    ∧ (Calm s (.vset f) → AllJoined s → (here s).mode = .unit → Settled s [f.a] → 48 ≤ f.d.toNat → (reg s f.a).toNat ∈ [1, 2, 3, 4, 5, 6, 7] →
      ∃ t, exec (.vset f) s = .next t ∧ t.mem = s.mem ∧ (here t).views.vt = reg s f.a)

/-- MNEST, MNEST_STEP, MGANG, MGANG.leave, MKAT, RESIDENCY_LOADED, MKAT_COMPLETE, LANTERN_DECISION and GROUP_ISSUE take effect where
nothing holds them (R480, R469, R470, R473, R465, R272, R287): the nest begins with its token claimed, its last step retires it,
the gang of one is formed, a context in no gang passes its leave, the known-answer tile starts and its signature is written, the
residency is ready, the head is decided, and the group commits. -/
def UnitsComplete : Prop :=
  (∀ (f : MF) (k : Tok) (s : State), (here s).nest = none → s.tokensReady s.focus k = true →
    nestBad (here s) f ((here s).shadow (f.mf.toNat % 2)) = false →
    ∃ t m u, exec (.mnest f k) s = .next u ∧ t.nestMove m f = .next u ∧ (here t).nest = some m ∧ m.ins = .mnest f k ∧ t.mem = s.mem
      ∧ Claimed t s.focus k.make.toNat s.opNext)
  ∧ (∀ (s : State) (n : Nest) (f : MF) (k : Tok) (p : MPlan), Calm s (.mnest f k) → (here s).nest = some n → n.ins = .mnest f k →
      (here s).m.st = .ready → (here s).m.cur = n.pos → n.wb = false → nPtok ((here s).shadow n.shadow) = 0 →
      nWen ((here s).shadow n.shadow) = false → n.lastB = some ((here s).nestB n f) → (s.resident s.focus f.fb.toNat).isSome = true →
      s.mmaPlan (here s).forwarded true (s.nestMma n f) = .ready p →
      nestNext n.idx (levels.map (nCount ((here s).shadow n.shadow))) = none →
      ∃ t, exec .mnestStep s = .next t ∧ t.mem = s.mem ∧ (here t).nest = none ∧ (here t).m.cur = n.next)
  ∧ (∀ (f : MF) (s : State), Calm s (.mgang f) → (s.cluster (clusterOf (coreOf s.focus))).gangs = [] → f.fa.toNat % 16 = 0 →
      ∃ t, exec (.mgang f) s = .next t ∧ t.mem = s.mem ∧ (t.eng s.focus .m).cur = fallThrough s (.mgang f)
        ∧ ∃ g, tget (t.cluster (clusterOf (coreOf s.focus))).gangs f.fb.toNat = some g ∧ g.members = [s.focus] ∧ g.formed = true)
  ∧ (∀ (f : MF) (s : State), Unplanted s → (s.cluster (clusterOf (coreOf s.focus))).gangs = [] →
      exec (.mgangLeave f) s = .next (s.retire (.mgangLeave f) (fallThrough s (.mgangLeave f))))
  ∧ (∀ (f : MF) (k : Tok) (s : State), Calm s (.mkat f k) → s.tokensReady s.focus k = true → (s.core (coreOf s.focus)).kat = none →
      ∃ t, exec (.mkat f k) s = .next t ∧ t.mem = s.mem ∧ (t.core (coreOf s.focus)).kat = some (s.opNext, 0)
        ∧ Claimed t s.focus k.make.toNat s.opNext)
  ∧ (∀ (s : State) (n idle : Nat) (o : Op), s.op? n = some o → (s.core o.core).kat = some (n, idle) → 4096 ≤ idle →
      ∃ t, exec (.mkatComplete n) s = .next t ∧ t.op? n = none ∧ (t.core o.core).ksig = 0x6B1D30E5A7C49F82)
  ∧ (∀ (s : State) (n : Nat) (o : Op) (f : MF) (k : Tok) (r : Resid), s.op? n = some o → o.ins = .mbld f k → o.parked = none → o.v3 = 0 →
      o.gang = none → o.fault = none → r ∈ (s.core o.core).resid → r.loading = some n →
      ∃ t, exec (.residencyLoaded n) s = .next t ∧ t.op? n = none ∧ t.mem = s.mem
        ∧ { r with loading := none, ready := s.cycle } ∈ (t.core o.core).resid)
  ∧ (∀ (s s1 : State) (c u : Nat), (s.ctx c).unit = some u → (s.ctx c).m.st = .ready → (s.ctx c).lantern.alone = false →
      (s.ctx c).lantern.group = none → s.window c = .ok s1 → (s1.ctx c).lantern.win ≠ [] → (s1.ctx c).sprs.rwctl.getLsbD 0 = false →
      ∃ t, exec (.lanternDecision c) s = .next t ∧ (t.ctx c).lantern.alone = true ∧ t.mem = s1.mem)
  ∧ ∀ (s : State) (c u : Nat) (g : Group) (ps : List MPlan), (s.ctx c).unit = some u → (s.ctx c).m.st = .ready → (s.ctx c).pend = [] →
      (s.ctx c).lantern.group = some g → (s.ctx c).sprs.inject.getLsbD 63 = false → s.groupPlans c g.repls = .ready ps →
      (∀ r ∈ g.repls, ∀ f k, r.ins ≠ .mbld f k) →
      ∃ t, exec (.groupIssue c) s = .next t ∧ (t.eng c .m).cur = g.next ∧ (t.ctx c).lantern.group = none ∧ t.mem = s.mem

/-- The host's commands and writes, and the firmware's acts, take effect (R297 to R305): START has the image checked, STOP holds
the job, ABORT ends it, a write of JWINVAL gives its range and one of JWAPER the aperture, the invalidation ends, a good image
runs, the host writes memory through BAR2; power-on resets the module, a verified image is replaced, a signed request changes the
debug mode, a quote is given, a channel is drained, and keys are provisioned. -/
def HostComplete : Prop :=
  ∀ (s : State),
    let a := s.host.jwimage.toNat
    let h := readHeader s.mem a
    let ds := s.assign h.mesh
    (s.job.st = .idle → ∃ t, exec .start s = .next t ∧ t.job.st = .loading ∧ t.mem = s.mem)
    ∧ (s.job.st = .running → ∃ t, exec .stop s = .next t ∧ t.mem = s.mem ∧ (t.job.st = .stopped ∨ t.job.stopping = true))
    ∧ (s.job.st = .running → ∃ t, exec .abort s = .next t ∧ t.job.st = .aborted ∧ t.mem = s.mem ∧ ∀ c, (t.ctx c).unit = none)
    ∧ (∀ v : Word, s.job.st = .running → (v.extractLsb' 18 38).toNat * 2 ^ 18 + (v.extractLsb' 0 18).toNat * 2 ^ 18 ≤ 2 ^ 56 →
        ∃ t, exec (.jwinval v) s = .next t
          ∧ t.host.inval = s.host.inval ++ [((v.extractLsb' 18 38).toNat * 2 ^ 18, (v.extractLsb' 0 18).toNat * 2 ^ 18)])
    ∧ (∀ v : Word, ∃ t, exec (.hostRegisterWrite 0x028 v) s = .next t ∧ t.host.jwaper = v &&& 0x000FFFF000000000 ∧ t.job = s.job)
    ∧ (s.host.inval ≠ [] → (∀ p ∈ s.dies, p.2.fwNext = none) →
        ∃ t, exec .invalidationComplete s = .next t ∧ t.host.inval = [] ∧ t.mem = s.mem)
    ∧ (∀ bs, s.job.st = .loading → GoodHeader s.mem a → s.shapeBad h.mesh = false → shapeDies h.mesh ≤ ds.length → h.entry % 64 = 0 →
        (s.loadDies h ds).readVa (ds.headD 0 * 128) h.entry 128 = some bs → recBad (recordOf bs) = false →
        manyUnits (recordOf bs) = false → (memWord s.mem (a + 56)).extractLsb' 58 6 = 0 → memWord s.mem (a + 64) = 0 →
        ∃ t, exec .imageCheck s = .next t ∧ t.job.st = .running ∧ t.mem = s.mem)
    ∧ (∀ (off : Nat) (b : Byte), off < 2 ^ 36 → s.backed (s.host.jwaper.toNat + off) 1 = true → s.inSaveArea (s.host.jwaper.toNat + off) 1 = false →
        ∃ t, exec (.hostBar2Access true off [b]) s = .next t ∧ memRead t.mem (s.host.jwaper.toNat + off) = b)
    ∧ (∀ (trusted : Bool) (ok : BitVec 64), ∃ t, exec (.powerOn trusted ok) s = .next t ∧ t.job = State.reset.job ∧ t.ctxs = State.reset.ctxs)
    ∧ (∀ (d image im at_ : Nat) (ok : Bool), (s.die d).fwNext = some (im, true, at_) →
        ∃ t, exec (.firmwareReplace d image ok) s = .next t ∧ (t.die d).fwNext = none ∧ (t.die d).fwImage = im)
    ∧ (∀ m : DebugMode, ∃ t, exec (.debugModeChange m true) s = .next t ∧ t.host.debug = m ∧ t.mem = s.mem)
    ∧ (∀ nonce : BitVec 256, ∃ t q, exec (.quote nonce) s = .next t ∧ t.host.quotes = s.host.quotes ++ [q] ∧ t.mem = s.mem)
    ∧ (∀ d k, k < 128 → k ∉ (s.die d).channelsOut →
        ∃ t, exec (.drain (.channel d k)) s = .next t ∧ t.mem = s.mem ∧ k ∈ (t.die d).channelsOut)
    ∧ ∃ t, exec .keyProvisioning s = .next t ∧ t.host.keyPresent = true ∧ t.host.degraded = false ∧ t.mem = s.mem

/-- CONTEXT_SAVE and RESUME take effect (R263, R265): a save that may be made releases the context, its unit Ready with its area; a
saved unit that may be placed is bound again, its call depth and cursors those of its area. -/
def SavesComplete : Prop :=
  (∀ (s : State) (c area u : Nat) (r : UnitRec), s.saveReady c area = true → (s.ctx c).unit = some u → s.unit? u = some r →
    ∃ t q, exec (.contextSave c area) s = .next t ∧ (t.ctx c).unit = none ∧ t.unit? u = some q ∧ q.st = .ready ∧ q.saved = some area)
  ∧ ∀ (s : State) (u a : Nat) (r : UnitRec) (l : LaunchRec), s.resumeReady u = true → s.unit? u = some r → s.launch? r.launch = some l →
    r.saved = some a →
    ∃ t c, exec (.resume u) s = .next t ∧ (t.ctx c).unit = some u ∧ t.mem = s.mem ∧ (t.ctx c).depth = memWord s.mem (a + 0x28)
      ∧ (t.ctx c).c.cur = posOfWord (memWord s.mem (a + 8))

/-! ## Decoding, the step, and the whole machine -/

/-- Words written out bit by bit from the formats and the maps of 13_encoding.md and 14_opcode_map.md: an engine, its words, and
the instruction that they are. -/
def wordRows : List (Engine × List W32 × Instr) :=
  [ -- ALU-A ADD: OP 000100, FN 0000, D, A, B, ISS (R322, R351)
    (.c, [0b000100_0000_000101_000110_000111_1010], .add ⟨5, 6, 7, 0b1010⟩)
    -- ALU-B CMP.GEU: OP 000101, FN 1101
  , (.c, [0b000101_1101_000001_000010_111111_0000], .cmpGeu ⟨1, 2, 63, 0⟩)
    -- ADD, immediate form: OP 010000, D, A, IMM, ISS (R323)
  , (.c, [0b010000_100000_000001_1111111111_0011], .addI ⟨32, 1, 0b1111111111, 3⟩)
    -- BRC: OP 001001, COND .lt, A, LOFF, LANE, ISS (R324)
  , (.c, [0b001001_010_001001_1000000001_111_0000], .brc ⟨0b010, 9, 0b1000000001, 7, 0⟩)
    -- MOV of a 64-bit literal: OP 100000, D, L64, reserved, ISS; low word first (R325)
  , (.c, [0b100000_000011_1_000000000000000_0000, 0x89ABCDEF, 0x01234567], .movL ⟨3, .w64 0x0123456789ABCDEF, 0⟩)
    -- LD: OP 101000, D, BASE, CLASS, ORDER, FN, ISS; OFF, SIZE, SX, SCOPE, E (R326)
  , (.c, [0b101000_000100_000101_0010_01_0000_0000, 0b10000000000000000001_10_1_011_000000],
      .ld ⟨4, 5, 2, 1, 0b10000000000000000001, 2, true, 3, 0, 0⟩)
    -- VADD: OP 000001, FN 0000, D v2, A p3, reserved, ISS; B a 32-bit literal, C 0, sync codes, MASK, RND, SAT (R327 to R330)
  , (.v, [0b000001_0000_00000010_11000011_00_0000, 0b11110001_00000000_01_00_00_00_0101_010_1, 0x3F800000],
      .vadd { d := .row 2, a := .port 3, b := .lit32 0x3F800000, c := .row 0, syd := 1, sya := 0, syb := 0, syc := 0,
              mask := 5, rnd := 2, sat := true, iss := 0 })
    -- MMA: OP 000001, FA, FC, FB, LU, PA, SA, MF, ISS (R331)
  , (.m, [0b000001_10001_0010_00011_0_0_10_0000_0000], .mma ⟨17, 2, 3, false, false, 2, 0, 0⟩)
    -- MBLD: OP 000011 with its token word: MAKE, AFT0, AFT1, AFT2, CLASS, SCOPE, TF (R333, R353)
  , (.m, [0b000011_00000_0000_00100_0_0_00_0000_0000, 0b00111_00001_00010_00011_0000_000_00000],
      .mbld ⟨0, 0, 4, false, false, 0, 0, 0⟩ ⟨7, 1, 2, 3, 0, 0, 0⟩)
    -- YCOPY: OP 000001, SO1, SO2, SO3, FN 0000, ISS, and its token word (R332, R354)
  , (.y, [0b000001_001010_001011_001100_0000_0000, 0b00001_00000_00000_00000_0011_101_00000],
      .ycopy ⟨10, 11, 12, 0⟩ ⟨1, 0, 0, 0, 3, 5, 0⟩)
    -- XATOM: OP 000101, FN 0001; third word AOP CAS, SIZE 8 bytes (R354)
  , (.y, [0b000101_000001_000010_000011_0001_0000, 0b00010_00000_00000_00000_0000_011_00000, 0b1001_11_00000000000000000000000000],
      .xatom ⟨1, 2, 3, 0⟩ ⟨2, 0, 0, 0, 0, 3, 0⟩ ⟨9, 3⟩)
    -- BKPT with one continuation lane: OP 111111, FN, D, A 0, B CNT (R355)
  , (.v, [0b111111_0000_000000_000000_000001_0000, 0], .bkpt ⟨.v, 1, 0⟩) ]

/-- The turn of an engine of a core that is free and holds nothing: it is chosen, or comes unasked. -/
def TurnComes (s s1 : State) (k : Nat) (e : Engine) : Prop :=
  (∃ l, s.agenda = .engine k e :: l ∧ s1 = { s with agenda := l })
  ∨ (s.agenda = [] ∧ s.auto = none ∧ ∃ l, s.turns = (k, e) :: l ∧ s1 = { s with turns := l })

/-- In its turn an engine of a core issues the instruction that it fetches in the context that is selected (R236, R315, R317,
R320); the matrix engine does so where no group is allowed and no nest is in progress (R269). An event that the schedule
chooses is the step (log 5). -/
def StepIssues : Prop :=
  (∀ (s s1 s2 s3 : State) (k c : Nat) (e : Engine) (pos next : Pos) (i : Instr), TurnComes s s1 k e →
    s1.engineBusy k e = false → s1.heldOf k e = [] → s1.selectCtx k e = (s2, some c) → s2.fetch c e = .ok s3 pos next i →
    (e ≠ .m → step s = exec i (s3.at_ c e pos next))
    ∧ (e = .m → (s2.ctx c).nest = none → (s2.ctx c).lantern = {} → (s2.ctx c).groupsAllowed = false →
        ∃ t : State, step s = exec i (t.at_ c .m pos next) ∧ t.mem = s.mem ∧ t.cycle = s.cycle ∧ (t.ctx c).regs = (s.ctx c).regs
          ∧ (t.ctx c).sprs = (s.ctx c).sprs ∧ (t.ctx c).gran = (s.ctx c).gran ∧ (t.ctx c).views = (s.ctx c).views))
  ∧ ∀ (s : State) (i : Instr) (l : List Turn), s.agenda = .event i :: l → i.engine = none →
      step s = exec i { s with agenda := l }

/-- The position behind m lanes of a line. -/
def behind (p : Pos) (m : Nat) : Pos := if p.lane + m = 8 then { line := nextLine p.line, lane := 1 } else { p with lane := p.lane + m }

/-- What an engine fetches: where its cursor stands at a first word of its own, on a line that it reads from memory, whose parity
and lanes are good, and the lanes that follow hold the other words of an instruction, it is that instruction, and its
cursor's next position is the one behind them; no byte of memory, and nothing of the context but its fetched lines,
changes (R308 to R317). A line that no write has reached since the program could last see it anew has the bytes of memory (R218,
R219; log 23). -/
def FetchReads : Prop :=
  ∀ (s : State) (c : Nat) (e : Engine) (pa : Nat) (page : TlbEnt) (i : Instr) (w : W32) (ws : List W32),
    let n := s.eng c e
    let p := n.cur
    let line := lineOfBytes (s.lineBytes p.line pa)
    ((∀ w ∈ s.undo, w.addr < pa ∨ pa + 32 ≤ w.addr) → s.lineBytes p.line pa = memBytes s.mem pa 32)
    ∧ (n.lines = [] → n.displaced = false → tget (s.core (coreOf c)).icache p.line = none →
    s.xlate (coreOf c) p.line .fetch = .ok (pa, page) → s.poisonIn [{ va := p.line, pa := pa, len := 32 }] = none →
    nibbleXor line = 0 → badLanes line = false → 1 ≤ p.lane → p.lane + ws.length ≤ 7 →
    laneNibble line p.lane = 1 + engNo e → laneWord line p.lane = w →
    (∀ k v, ws[k]? = some v → laneNibble line (p.lane + 1 + k) = 9 + engNo e ∧ laneWord line (p.lane + 1 + k) = v) →
    ws.length + 1 = wordCount e w (ws.headD 0) → decode e (w :: ws) = .ok (i, []) →
    ∃ t, s.fetch c e = .ok t p (behind p (ws.length + 1)) i ∧ t.mem = s.mem ∧ t.cycle = s.cycle
      ∧ (∀ d, d ≠ c → t.ctx d = s.ctx d) ∧ (t.ctx c).regs = (s.ctx c).regs ∧ (t.ctx c).sprs = (s.ctx c).sprs
      ∧ (t.ctx c).gran = (s.ctx c).gran ∧ (t.eng c e).cur = p)

end Sys2Proof

/-! ## The statements -/

open Sys2Proof Sys2Proof.Machine

/-- R463: the larger or the smaller of two registers, signed or unsigned under .u, with latency 1, no fault and no flag. -/
def Obligations.MinMax : Prop :=
  ∀ (f : C3) (s : State), Unplanted s → Settled s [f.d, f.a, f.b] →
    let a := reg s f.a
    let b := reg s f.b
    let gives (i : Instr) (v : Word) : Prop := Commits i s (s.putS s.focus f.d.toNat 1 v) (fallThrough s i)
    gives (.min f) (if a.toInt ≤ b.toInt then a else b) ∧ gives (.max f) (if a.toInt ≤ b.toInt then b else a)
    ∧ gives (.minU f) (if a.toNat ≤ b.toNat then a else b) ∧ gives (.maxU f) (if a.toNat ≤ b.toNat then b else a)

/-- R399: 1 where the relation holds, else 0; signed for .lt and .ge, unsigned for .ltu and .geu; latency 1, no fault. -/
def Obligations.Compare : Prop :=
  ∀ (f : C3) (s : State), Unplanted s → Settled s [f.d, f.a, f.b] →
    let a := reg s f.a
    let b := reg s f.b
    let gives (i : Instr) (p : Prop) [Decidable p] : Prop :=
      Commits i s (s.putS s.focus f.d.toNat 1 (if p then 1 else 0)) (fallThrough s i)
    gives (.cmpEq f) (a = b) ∧ gives (.cmpNe f) (a ≠ b) ∧ gives (.cmpLt f) (a.toInt < b.toInt)
    ∧ gives (.cmpGe f) (b.toInt ≤ a.toInt) ∧ gives (.cmpLtu f) (a.toNat < b.toNat) ∧ gives (.cmpGeu f) (b.toNat ≤ a.toNat)

/-- R397: CLZ, CTZ and POPC count bits of s[A] with latency 1, without fault or flag. -/
def Obligations.BitCounts : Prop :=
  ∀ (f : C3) (s : State), Unplanted s → Settled s [f.d, f.a, f.b] →
    let gives (i : Instr) (n : Nat) : Prop := Commits i s (s.putS s.focus f.d.toNat 1 (BitVec.ofNat 64 n)) (fallThrough s i)
    (∃ n, ZerosAbove (reg s f.a) n ∧ gives (.clz f) n) ∧ (∃ n, ZerosBelow (reg s f.a) n ∧ gives (.ctz f) n)
    ∧ gives (.popc f) ((List.range 64).countP fun k => (reg s f.a).getLsbD k)

/-- R511: SEL writes s[A] where s[D] is nonzero at issue, else s[B], with latency 1; with s0 as D the condition reads 0 and the
result is discarded. Its words have OP 0x05 and FN 7 above D, A, B and ISS, and `sel s3, s4, s5` is 0x15C3_1050. -/
def Obligations.Select : Prop :=
  (∀ (f : C3) (s : State), Unplanted s → Settled s [f.d, f.a, f.b] →
    Commits (.sel f) s (s.putS s.focus f.d.toNat 1 (if reg s f.d = 0 then reg s f.b else reg s f.a)) (fallThrough s (.sel f)))
  ∧ (∀ (b : State) (c : Nat) (v : Word), reg b 0 = 0 ∧ b.putS c 0 1 v = b)
  ∧ (∀ f : C3, decode .c [0x05#6 ++ 7#4 ++ f.d ++ f.a ++ f.b ++ f.iss] = .ok (.sel f, []))
  ∧ decode .c [0x15C31050] = .ok (.sel ⟨3, 4, 5, 0⟩, [])

/-- The arithmetic, logic and move forms of ALU-A commit with their results. -/
def Obligations.AluResults : Prop := AluRegisterForms ∧ AluImmediateForms

/-- FRAME of the control instructions with one register result, the branches that write no register, and NOP: whatever the
state of the registers that they name, they leave every register of the context, every special register, every engine but
their own, the register space, the ports, memory, every operation in flight and every other context unchanged; one result
for their destination is put in flight. The program counter and the issue selection may change (R362, R397, R399, R463,
R482, R492, R511). -/
def Obligations.ScalarFrame : Prop :=
  ∀ (i : Instr) (d : Nat) (s t : State), oneResult i = some d → Calm s i → exec i s = .next t →
    OnlyHere s t ∧ SameMemory s t
    ∧ ∃ c lands disp,
      here t = { here s with c := c, lands := lands, sprs := { (here s).sprs with displaced := disp } }
      ∧ OneLanding d (here s).lands lands ∧ DisplacedKept (here s).sprs.displaced disp

/-- DIV and REM: results, traps and frame. -/
def Obligations.Division : Prop := DivisionResults ∧ DivisionFrame

/-- Results in flight take effect in their cycle, in their order. -/
def Obligations.ResultsLand : Prop := ResultLands ∧ LaterResultPrevails

/-- What an s register and a mask read, and the hold on a register still to be written. -/
def Obligations.Registers : Prop := RegisterReads ∧ RegisterHold

/-- NOP, BR, BRC, CALL, LOOP and JMP: where the control cursor goes. -/
def Obligations.Branches : Prop := BranchTargets ∧ JumpTarget

/-- FORK and RDV: how the engines of a unit part and meet. -/
def Obligations.ForkAndRendezvous : Prop := ForkOf ∧ RendezvousOf

/-- RET and ISYNC, and the end of a stream. -/
def Obligations.Returns : Prop := ReturnAndIsync ∧ StreamEnds

/-- R525: an access below the lowest mode of its register raises PRIV, a write of a read-only register in every mode; at or
above that mode SYSR reads, and a write that R250 ignores commits without effect. -/
def Obligations.SystemRegisterModes : Prop :=
  ∀ (f : CI) (s : State), Unplanted s →
    (modeRank (here s).mode < readRank f.imm.toNat → Raises (.sysr f) s (trapOf 0x02))
    ∧ (readRank f.imm.toNat ≤ modeRank (here s).mode → Settled s [f.d] →
        Commits (.sysr f) s (s.putS s.focus f.d.toNat 2 (s.sysreg s.focus f.imm.toNat)) (fallThrough s (.sysr f)))
    ∧ (f.imm ∈ readOnly → Raises (.sysw f) s (trapOf 0x02))
    ∧ (f.imm ∈ ignoredWords → modeRank (here s).mode < 1 → Raises (.sysw f) s (trapOf 0x02))
    ∧ (f.imm ∈ ignoredWords → 1 ≤ modeRank (here s).mode → Settled s [f.a] →
        Commits (.sysw f) s s (fallThrough s (.sysw f)))
    ∧ ∀ row ∈ sysRows ++ otherSysRows, f.imm = row.num → modeRank (here s).mode < row.rank → Raises (row.ins f) s (trapOf 0x02)

/-- The values that SYSR reads, by register number (R5, R14, R23, R40, R99 to R101, R110, R183, R185, R200, R225, R247, R250,
R251, R255, R256, R267, R283 to R285, R472). -/
def Obligations.SystemRegisterValues : Prop :=
  ∀ (s : State) (c : Nat),
    let x := s.ctx c
    let d := s.die (dieOfCtx c)
    let k := s.core (coreOf c)
    let reads (n : Nat) (w : Word) : Prop := s.sysreg c n = w
    reads 0x000 (BitVec.ofNat 64 s.cycle) ∧ (x.unit = none → reads 0x002 0x3F000000)
    ∧ (∀ r, s.unitOf c = some r → r.launch < 2 ^ 24 → reads 0x002 (BitVec.ofNat 64 r.launch))
    ∧ (s.sysreg c 0x003).extractLsb' 53 6 = BitVec.ofNat 6 (dieOfCtx c)
    ∧ (s.sysreg c 0x003).extractLsb' 0 48 = d.meshpos.extractLsb' 0 48
    ∧ (s.sysreg c 0x003).extractLsb' 59 5 = d.meshpos.extractLsb' 59 5
    ∧ reads 0x004 d.meshshape ∧ reads 0x008 x.sprs.dphase ∧ reads 0x009 x.sprs.arstat ∧ reads 0x00A x.sprs.ordmask
    ∧ reads 0x00B x.sprs.prommiss ∧ reads 0x00C x.sprs.trapbase ∧ reads 0x00D x.sprs.trapctl ∧ reads 0x00E x.sprs.rwctl
    ∧ reads 0x00F x.sprs.rwsup ∧ reads 0x010 x.sprs.inject ∧ reads 0x011 x.sprs.displaced
    ∧ reads 0x018 x.sprs.trapRec.w0 ∧ reads 0x019 x.sprs.trapRec.w1 ∧ reads 0x01A x.sprs.trapRec.w2
    ∧ reads 0x01B x.sprs.trapRec.w3 ∧ reads 0x01C x.sprs.trapRec.w4 ∧ reads 0x01D x.sprs.trapRec.w5
    ∧ reads 0x01E 0 ∧ reads 0x01F 0 ∧ reads 0x022 k.rwperm ∧ reads 0x024 k.ksig ∧ reads 0x030 d.tdtab ∧ reads 0x031 d.ptroot
    ∧ (s.sysreg c 0x023).getLsbD 63 = k.fenced ∧ (k.retries < 2 ^ 32 → (s.sysreg c 0x023).extractLsb' 0 32 = BitVec.ofNat 32 k.retries)

/-- What every SYSW that commits leaves, and what those that refuse their value raise. -/
def Obligations.SyswEffects : Prop := SyswStores ∧ SyswSpecialRows ∧ SyswRefusals

/-- BKPT and TRAP enter the handler (R382, R535, R250): BKPT commits nothing and TRAPREC word 1 names it; TRAP has executed,
and its record names the boundary after it and holds IMM, sign-extended, in DETAILA. -/
def Obligations.Breakpoints : Prop :=
  ∀ (s : State) (u : Nat), (here s).mode = .unit → (here s).unit = some u → (here s).pend = [] → (here s).sprs.trapbase ≠ 0 →
    CanStop s s.focus →
    (∀ f : BK, ∃ s' t, exec (.bkpt f) s = .next s' ∧ Handles s' s.focus t (here s) ∧ t.code = 0x11 ∧ t.sub = 0 ∧ t.eng = f.eng
      ∧ (here s').sprs.trapRec.w1 = (s.eng s.focus f.eng).cur.word)
    ∧ (∀ f : CI, s.steps s.focus .c = false →
      let p := fallThrough s (.trap f)
      ∃ s' t, exec (.trap f) s = .next s' ∧ Handles s' s.focus t (here s) ∧ t.code = 0x10 ∧ t.sub = 0 ∧ t.eng = .c
        ∧ (here s').sprs.trapRec.w1 = ((s.nextFirst s.focus .c 64 p).getD p).word
        ∧ (here s').sprs.trapRec.w4 = (f.imm.signExtend 32).zeroExtend 64)

/-- Taking a trap, and the record of it. -/
def Obligations.TrapEntry : Prop := TrapTaken ∧ TrapRecordFields

/-- ERET (R416, R249, R248): PRIV outside a handler; TABLE on a bad resume point or a displaced word of another engine; else,
unless the trap was CANCEL or MCHECK on a fenced core, the unit's mode, its s56 to s63 and every engine come back. -/
def Obligations.ReturnFromTrap : Prop :=
  ∀ (f : C3) (s : State),
    let w := (here s).sprs.trapRec.w1
    let d := (here s).sprs.displaced
    let bad : Prop := (w ≠ 0 ∧ ¬ GoodPointer w)
      ∨ (d.getLsbD 63 = true ∧ d.extractLsb' 32 2 ≠ (here s).sprs.trapRec.w0.extractLsb' 50 2)
    ((here s).mode ≠ .handler → Raises (.eret f) s (trapOf 0x02))
    ∧ ((here s).mode = .handler → bad → Raises (.eret f) s (trapOf 0x08))
    ∧ (∀ t, (here s).mode = .handler → ¬ bad → (here s).handling = some t → t.code ≠ 0x15 →
        (t.code = 0x16 → (s.core (coreOf s.focus)).fenced = false) →
        ∃ s', exec (.eret f) s = .next s' ∧ (here s').mode = .unit ∧ (here s').handling = none ∧ s'.focus = s.focus
          ∧ (∀ r, r ≠ 0 → (here s').sr r = tgetD (here s).regs.s r 0)
          ∧ Resumed s (here s).stopped (here s').c (t.eng == .c) ∧ Resumed s (here s).v (here s').v (t.eng == .v)
          ∧ Resumed s (here s).m (here s').m (t.eng == .m) ∧ Resumed s (here s).y (here s').y (t.eng == .y)
          ∧ (here s').lantern.win = [] ∧ SameMemory s s')

/-- LD, LDC, ST and ATOM put their operations in flight. -/
def Obligations.AccessIssue : Prop := LoadIssue ∧ StoreIssue ∧ AtomicIssue

/-- The traps of an access, in their order (R246): ORDER for an atomic of a versioned unit and for a store of one to a SYS page
(R34, R368, R522), ALIGN for an address that is no multiple of the size, TRANSLATE with its cause for a page that does not
admit it once it has been found (R187, R188). Nothing is put in flight and nothing is committed. -/
def Obligations.AccessTraps : Prop :=
  ∀ (f : CM) (s : State), Unplanted s →
    let va := addressOf s f
    let misaligned := va % bytesAccessed f ≠ 0
    let denied (n : Need) (cause at_ : Nat) : Prop :=
      PagesFound s [(va, bytesAccessed f)] ∧ s.range (coreOf s.focus) n va (bytesAccessed f) = .error (cause, at_)
    let align : Trap := { code := 0x07, addr := va }
    let xlate (cause at_ : Nat) : Trap := { code := 0x0C, sub := cause, addr := at_ }
    (∀ row ∈ loadRows, Settled s [f.d, f.base] →
      (misaligned → Raises (row.1 f) s align)
      ∧ ∀ cause at_, ¬ misaligned → denied .read cause at_ → Raises (row.1 f) s (xlate cause at_))
    ∧ (Settled s [f.d, f.base] →
      let open_ := s.isSys (coreOf s.focus) va = true ∧ s.versioned s.focus = true
      (open_ → Raises (.st f) s (trapOf 0x06)) ∧ (¬ open_ → misaligned → Raises (.st f) s align)
      ∧ ∀ cause at_, ¬ open_ → ¬ misaligned → denied .write cause at_ → Raises (.st f) s (xlate cause at_))
    ∧ ∀ row ∈ atomRows, Settled s [f.d, f.base, f.e] →
      (s.versioned s.focus = true → Raises (row.1 f) s (trapOf 0x06))
      ∧ (s.versioned s.focus = false → misaligned → Raises (row.1 f) s align)
      ∧ ∀ cause at_, s.versioned s.focus = false → ¬ misaligned → denied .write cause at_ → Raises (row.1 f) s (xlate cause at_)

/-- Translation of a virtual address below 2^56 whose page no TLB holds (R185, R186, R187, R188): four levels of entries, in the
memory of the die's own module, end in a leaf of 256 KiB, whose physical address the page offset completes; without write permission a write is refused with
cause 1, and an address that nothing backs with cause 2; an entry that is not valid gives cause 0. -/
def Obligations.PageWalk : Prop :=
  ∀ (s : State) (core va : Nat),
    let root := (s.die (dieOf core)).ptroot
    let home := moduleOf (dieOf core) * 2 ^ 52
    let top := (root.extractLsb' 17 35).toNat * 2 ^ 17
    let e3 := entryAt s.mem (home + top) 42 14 va
    let e2 := entryAt s.mem (home + entryBase e3) 30 12 va
    let e1 := entryAt s.mem (home + entryBase e2) 24 6 va
    let e0 := entryAt s.mem (home + entryBase e1) 18 6 va
    let pa := home + entryBase e0 + va % 2 ^ 18
    va < 2 ^ 56 → root.getLsbD 0 = true → findTlb (s.core core).tlb va = none → findTlb (s.die (dieOf core)).tlb va = none →
    (e3.getLsbD 0 = false → ∀ n, s.xlate core va n = .error 0)
    ∧ (GoodEntry e3 false → GoodEntry e2 false → GoodEntry e1 false → GoodEntry e0 true → entryBase e0 % 2 ^ 18 = 0 →
        inSysAperture pa = false →
        (e0.getLsbD 2 = false → s.xlate core va .write = .error 1)
        ∧ (e0.getLsbD 3 = false → s.xlate core va .fetch = .error 1)
        ∧ (s.levelOf pa = .none → s.xlate core va .read = .error 2)
        ∧ (s.levelOf pa ≠ .none →
            (∃ p, s.xlate core va .read = .ok (pa, p)) ∧ (e0.getLsbD 2 = true → ∃ p, s.xlate core va .write = .ok (pa, p))))

/-- An access waits for every one ordered before it, and while one of them is pending no event performs it. -/
def Obligations.AccessOrder : Prop :=
  (∀ (s : State) (o : Op) (release : Option (BitVec 16)) (n : Nat) (p : Op) (w : Bool),
    { op := n, whole := w } ∈ o.hist → s.op? n = some p → Ordered p o release → ∃ w, { op := n, whole := w } ∈ s.waitsFor o release)
  ∧ ∀ (s : State) (m : Nat) (o : Op) (a : Acc), s.op? m = some o → a ∈ o.waits → s.pending a = true →
    exec (.loadReturn m 0) s = .next s ∧ exec (.atomReturn m) s = .next s ∧ exec (.storePerformed m) s = .next s

/-- Loads, atomics and stores in flight are performed. -/
def Obligations.AccessesPerformed : Prop := LoadReturns ∧ AtomicReturns ∧ StoresPerformed

/-- TWAIT, TPROM, SLEEP, SLEEP_WAKE and KCHK. -/
def Obligations.Waits : Prop := TokenInstructions ∧ SleepAndWake ∧ SignatureCheck

/-- FENCE and FENCE_COMPLETE (R202, R203): with no access before it in its mask still pending (for ACQ, no read) and to be performed
at its scope, the FENCE completes, and an ACQ or AR over class 15 lets the constant path read nothing older than it (R217); with
one pending the control engine waits, and the event retires it once every access that it waits for is performed. Before it are
what is CTX-ordered before its engine's next access and what any engine of the context issued in an earlier cycle. -/
def Obligations.Fences : Prop :=
  ∀ (kind : BitVec 2) (mask : BitVec 16) (scope : BitVec 3) (d : BitVec 6) (iss : BitVec 4) (s : State),
    let f := fenceOf kind mask scope d iss
    let before (a : Acc) : Prop := a ∈ s.histOf s.focus .c ∨ a ∈ s.issuedBefore s.focus s.cycle
    let masked (a : Acc) : Prop := before a ∧ ∃ o, s.op? a.op = some o ∧ mask.getLsbD o.cls = true
      ∧ (scope ≠ 0 ∨ o.kind = .async) ∧ (kind = 0 → o.reads = true ∧ o.sampled = false)
    (Calm s (.fence f) → (∀ n l, (here s).c.hold ≠ .fence n l) → (∀ a, ¬ masked a) →
      ∃ t, Completes (.fence f) s t ∧ KeepsCtx (here s) (here t) ∧ t.mem = s.mem ∧ t.ops = s.ops
        ∧ (mask.getLsbD 15 = true → kind ≠ 1 → ∀ u r, (here s).unit = some u → s.unit? u = some r →
            ∃ q, t.unit? u = some q ∧ q.constFloor = s.seqNext))
    ∧ ((∀ n l, (here s).c.hold ≠ .fence n l) → (∃ a, masked a) →
      ∃ t, exec (.fence f) s = .next t ∧ (t.eng s.focus .c).st = .waiting ∧ (t.eng s.focus .c).cur = pcOf s
        ∧ (t.eng s.focus .c).held = some (.fence f) ∧ t.mem = s.mem ∧ t.ops = s.ops)
    ∧ ∀ c n l, Calm { s with focus := c } (.fence f) → (s.eng c .c).st = .waiting → (s.eng c .c).held = some (.fence f) →
      (s.eng c .c).hold = .fence n l → (∀ a ∈ l, s.pending a = false) →
      ∃ t, exec (.fenceComplete c) s = .next t ∧ WaitOver s t c .c ∧ KeepsCtx (s.ctx c) (t.ctx c) ∧ t.mem = s.mem

/-- Waiting on a counter, and how counters end; the other waits of the control engine complete. -/
def Obligations.Counters : Prop := CounterWaits ∧ CountersFinal ∧ WaitsComplete

/-- BARI, BARA and BARW, and the arrivals that they make. -/
def Obligations.Barriers : Prop := BarrierInit ∧ BarrierUse ∧ ArrivalsCount

/-- Reading a record (R614): ALIGN off its alignment, TRANSLATE for a page that has been found and does not admit it, and else,
where it is one contiguous piece of memory with no poison, nothing before it is pending, and the unit has no access of its own in
flight and nothing staged, the bytes of memory there; reading changes no context, no byte of memory and nothing in flight. -/
def Obligations.RecordReads : Prop :=
  ∀ (s : State) (i : Instr) (va len align : Nat),
    (va % align ≠ 0 → s.recordRead i va len align = .trap { code := 0x07, addr := va })
    ∧ (∀ cause at_, va % align = 0 → PagesFound s [(va, len)] → s.range (coreOf s.focus) .read va len = .error (cause, at_) →
        s.recordRead i va len align = .trap { code := 0x0C, sub := cause, addr := at_ })
    ∧ (∀ g, va % align = 0 → PagesFound s [(va, len)] → s.range (coreOf s.focus) .read va len = .ok [g] → s.poisonIn [g] = none →
        (∀ a ∈ (s.eng s.focus .c).hist, s.pending a = false) → NoneInFlight s →
        (∀ r, s.unit? (s.unitNo s.focus) = some r → r.staged = []) → RecordAt s i va len align (memBytes s.mem g.pa g.len))
    ∧ ∀ t bs, s.recordRead i va len align = .bytes t bs → t.ctxs = s.ctxs ∧ t.mem = s.mem ∧ t.ops = s.ops ∧ t.job = s.job

/-- LAUNCH, SPAWN, EDGE, GSEAL and CANCEL at issue, at their answer, and in a versioned unit. -/
def Obligations.WorkInstructions : Prop := WorkPut ∧ WorkAnswered ∧ WorkStaged

/-- CANCEL (R30, R390) in a unit that is not versioned: TABLE for a handle of another level or of nothing; else it retires and
takes effect on the object: one that is FINAL or has CANC set stays as it is, any other has CANC and SEALED set, and a unit of it that is
held, waiting or ready is cancelled. -/
def Obligations.Cancelling : Prop :=
  (∀ (f : C3) (s : State), Unplanted s → s.versioned s.focus = false →
    let h := reg s f.a
    (Settled s [f.a] → handleLevel h ≠ f.d.toNat ∨ ((s.named h) = none ∧ s.createdBy (s.unitNo s.focus) h = false) →
      Raises (.cancel f) s (trapOf 0x08))
    ∧ (Settled s [f.a] → handleLevel h = f.d.toNat → (s.named h).isSome = true →
        exec (.cancel f) s = .next ((s.retire (.cancel f) (fallThrough s (.cancel f))).cancelObject f.d.toNat (handleIndex h)))
    ∧ exec (.cancelOwn f) s = .next ((s.retire (.cancelOwn f) (fallThrough s (.cancelOwn f))).cancelObject (f.d.toNat - 4)
        (s.ownIndex (s.unitNo s.focus) (f.d.toNat - 4))))
  ∧ (∀ (s : State) (level index : Nat) (k : Ctr), level < 4 → s.job.counter level index = some k →
      (k.final = true ∨ k.canc = true → s.cancelObject level index = s)
      ∧ (k.final = false → (s.job.markCancelled level index).counter level index = some { k with canc := true, sealed := true }))
  ∧ ∀ (s : State) (u : Nat) (r : UnitRec), s.unit? u = some r → r.st = .held ∨ r.st = .waiting ∨ r.st = .ready →
      ∃ q, (s.cancelUnit u).unit? u = some q ∧ q.st = .cancelled

/-- What work does at the job's graph state. -/
def Obligations.GraphState : Prop := GraphStateEffects ∧ EdgeRules

/-- MESH_LAUNCH_MATCH (R234): once every die's contribution under a key has arrived, equal SHAPE and CTL create one mesh launch
and answer its handle; contributions that differ, or one that can no longer come, raise MESH in each. -/
def Obligations.MeshMatch : Prop :=
  ∀ (s : State) (n : Nat) (k : Contribution), tget s.job.contributions n = some k → k.done = false →
    (∀ p ∈ s.job.contributions, p.2.atCommit = false ∧ (p.2.done = false → p.2.trap = none)) →
    (s.meshComplete k = true → (∀ p ∈ s.sameKey k, sameShape p.2.record k.record = true) →
      ∃ t m l q, exec (.meshLaunchMatch n) s = .next t ∧ tget t.job.launches m = some l ∧ l.record = k.record ∧ l.released = false
        ∧ tget t.job.contributions n = some q ∧ q.done = true ∧ q.trap = none ∧ q.val = handle 0 m ∧ t.mem = s.mem)
    ∧ ((s.meshComplete k = true ∧ (∃ p ∈ s.sameKey k, sameShape p.2.record k.record = false))
        ∨ (s.meshComplete k = false ∧ s.meshBroken k = true) →
      ∃ t q, exec (.meshLaunchMatch n) s = .next t ∧ t.job.launches = s.job.launches
        ∧ tget t.job.contributions n = some q ∧ q.done = true ∧ q.trap = some (trapOf 0x09))

/-- PLACEMENT (R38, R39, R232): the unit is bound to the context and the row base that placement finds: its control engine is
Ready at ENTRY, s1 holds ARGS, s2 its record address and s3 its affinity address, every other register is 0, the call
depth is 0, the mode is unit mode, and no granule is full. -/
def Obligations.Placement : Prop :=
  ∀ (s : State) (u c b : Nat) (r : UnitRec) (l : LaunchRec), s.unit? u = some r → s.placeFor u = some (c, b) →
    s.launch? r.launch = some l → r.saved = none → s.placedFirst u r c = true →
    let rec_ := (l.copyOf r.die).1
    ∃ t q, exec (.placement u) s = .next t ∧ (t.ctx c).unit = some u ∧ (t.ctx c).mode = .unit ∧ (t.ctx c).depth = 0
      ∧ (t.ctx c).base = b ∧ (t.ctx c).foot = l.foot ∧ (t.ctx c).c.st = .ready
      ∧ (t.ctx c).c.cur = posOfWord (recWord rec_ 0) ∧ (t.ctx c).v.st = .joined ∧ (t.ctx c).m.st = .joined ∧ (t.ctx c).y.st = .joined
      ∧ (t.ctx c).sr 1 = (l.copyOf r.die).2 ∧ (t.ctx c).sr 2 = recWord rec_ 16 + BitVec.ofNat 64 r.j * recWord rec_ 24
      ∧ (t.ctx c).sr 3 = BitVec.ofNat 64 (affinity rec_ l r.j) ∧ (∀ n, 3 < n → (t.ctx c).sr n = 0)
      ∧ (∀ n, (t.ctx c).br n = 0) ∧ (∀ g, ((t.ctx c).granAt g).full = false) ∧ (t.ctx c).sprs = {}
      ∧ t.unit? u = some q ∧ q.st = .resident ∧ q.ctx = some c ∧ (∀ d, d ≠ c → t.ctx d = s.ctx d) ∧ t.mem = s.mem

/-- How units become Ready, are promoted, and how an engine switches to one that has waited. -/
def Obligations.ReadyUnits : Prop := Readiness ∧ WaitsEnd

/-- The end of a unit, and the version log that may send one back; saves and resumes take effect. -/
def Obligations.UnitEnds : Prop := UnitsEnd ∧ VersionLogSpills ∧ SavesComplete

/-- Way groups and instruction-cache lines; the instructions that load a table, a view, a map register or a port complete. -/
def Obligations.CacheControl : Prop := WayConversion ∧ LineInvalidation ∧ TablesComplete

/-- VSET, SMAP, NSET, LRULE, PBIND and PUNB. -/
def Obligations.TableInstructions : Prop := ViewSetting ∧ RecordLoads ∧ PortBinding

/-- TDLD and TDSET (R530): the field that the selector names, at its place in the descriptor; TABLE for an ID outside the table
or a selector that is not assigned, and for a value that its field does not take. TDLD puts a load of it in flight; TDSET, which raises ORDER in a versioned unit, writes
its bytes once nothing before it is pending, in a job of one module no other byte, and drops every snapshot of the field in
every core. -/
def Obligations.DescriptorFields : Prop :=
  ∀ (f : C3) (s : State),
    let core := coreOf s.focus
    let die := s.die (dieOf core)
    let id := ((reg s f.a).extractLsb' 0 20).toNat
    let w := reg s f.b
    let sel := (w.extractLsb' 0 8).toNat
    let place := s.tdPlace core id sel (w.extractLsb' 8 32).toNat (decide (w.extractLsb' 40 24 ≠ 0))
    (∀ row ∈ fieldRows, sel = row.1 → die.idBad id = false → w.extractLsb' 40 24 = 0 → place = .ok (die.descAddr id + row.2.1, row.2.2))
    ∧ (die.idBad id = true ∨ w.extractLsb' 40 24 ≠ 0 ∨ (20 ≤ sel ∧ sel ≠ 32 ∧ sel ≠ 33 ∧ sel ≠ 34) → place = .error (trapOf 0x08))
    ∧ (∀ e, place = .error e → e.code ≠ 0x16 → Unplanted s → Settled s [f.d, f.a, f.b] →
        Raises (.tdld f) s e
        ∧ (s.versioned s.focus = false → tdValueBad sel id (reg s f.d) 0 = false → Raises (.tdset f) s e))
    ∧ (∀ va n segs, Calm s (.tdld f) → Settled s [f.d, f.a, f.b] → place = .ok (va, n) → PagesFound s [(va, n)] →
        s.range core .read va n = .ok segs →
        s.poisonIn segs = none → s.entriesFull core = false →
        ∃ t o, Sends (.tdld f) s t o ∧ Quiet s t ∧ o.kind = .load ∧ o.dst = f.d.toNat ∧ o.segs = segs ∧ o.cls = 0
          ∧ (sel < 20 → o.v1 = 0 ∧ o.v2 = BitVec.ofNat 64 (8 * n) ∧ o.v3 = 0))
    ∧ (Unplanted s → Settled s [f.d, f.a, f.b] → s.versioned s.focus = true → Raises (.tdset f) s (trapOf 0x06))
    ∧ (Unplanted s → Settled s [f.d, f.a, f.b] → s.versioned s.focus = false → sel < 20 → tdValueBad sel id (reg s f.d) 0 = true →
        Raises (.tdset f) s (trapOf 0x08))
    ∧ (∀ va n g, Calm s (.tdset f) → Settled s [f.d, f.a, f.b] → s.versioned s.focus = false → place = .ok (va, n) → sel < 20 →
        PagesFound s [(va, n)] → s.range core .write va n = .ok [g] → g.len = n → tdValueBad sel id (reg s f.d) 0 = false →
        s.poisonHurt [g] = none → (∀ a ∈ (s.eng s.focus .c).hist, s.pending a = false) → NoneInFlight s →
        (∀ m < s.modules, m = moduleOf (dieOf core)) →
        ∃ t, Completes (.tdset f) s t ∧ KeepsCtx (here s) (here t) ∧ SameOutside [g] s t ∧ Stored t g (reg s f.d).toNat
          ∧ ∀ k, ∀ p ∈ (t.core k).snaps, ¬ (p.addr < va + n ∧ va < p.addr + p.bytes.length))

/-- Every vector instruction that reads and writes registers completes, with its frame. -/
def Obligations.VectorIssue : Prop := VectorCommits ∧ VectorConverts

/-- Under an integer T each enabled lane of an arithmetic, bitwise or shift instruction takes its result at the latency of its
row, later only by cycles in which its reads were delayed (R69), with tag T, or for a bitwise instruction the tag of the
granule of A; every other lane keeps its bytes (R542, R543, R548, R552). VMOV copies lanes of any T with their tags (R567). -/
def Obligations.VectorLanes : Prop :=
  (∀ row ∈ laneRows, ∀ (f : VX) (s : State), Calm s (row.1.ins f) → NoEnables s →
    let t := (here s).vt
    let srcs := row.1.srcs f
    row.1.takes t → t ∈ ints → f.rnd = 0 → (∀ m o, srcs[m]? = some o → SourceReady s (row.1.tag t) srcs m o) → DestReady s t f.d f.syd →
    ∃ u delay, exec (row.1.ins f) s = .next u ∧ ∀ l, l < lanesOf t →
      (maskOf s f l = true → ∃ tag, tag ∈ ints ∧ tag.bits = t.bits ∧ ((∀ v, ¬ row.1.tag t v ∨ v = t) → tag = t)
        ∧ LaneLands s u f.d t.bits l
            (row.2.2 t f.sat (laneIn s srcs 0 t.bits l) (laneIn s srcs 1 t.bits l) (laneIn s srcs 2 t.bits l)) (s.cycle + row.2.1 + delay) tag)
      ∧ (maskOf s f l = false → LaneKept s u f.d t.bits l))
  ∧ ∀ (f : VX) (s : State) (n : BitVec 8), Calm s (.vmov f) → NoEnables s → f.a = .row n →
    SourceReady s (fun _ => True) (one f) 0 (f.a, f.sya) → DestReady s (here s).vt f.d f.syd →
    let b := (here s).vt.bits
    ∃ u delay, exec (.vmov f) s = .next u ∧ ∀ l, l < lanesOf (here s).vt →
      (maskOf s f l = true → LaneLands s u f.d b l (laneIn s (one f) 0 b l) (s.cycle + 6 + delay)
        ((here s).granAt (16 * n.toNat + l * b / 2048)).tag)
      ∧ (maskOf s f l = false → LaneKept s u f.d b l)

/-- VCMP, VRED.add and VEXT under an integer T (R554, R556, R569): the mask has exactly the enabled lanes where the relation
holds; the b register takes the sum of the enabled lanes, or one lane, extended to 64 bits. -/
def Obligations.VectorRegisters : Prop :=
  ∀ (f : VX) (s : State), NoEnables s → f.rnd = 0 →
    let t := (here s).vt
    let n := lanesOf t
    let x (l : Nat) : Int := intOf t (laneIn s (two f) 0 t.bits l)
    let y (l : Nat) : Int := intOf t (laneIn s (two f) 1 t.bits l)
    let compares (i : Instr) (p : Int → Int → Prop) : Prop := Calm s i → t ∈ ints →
      (∀ m o, (two f)[m]? = some o → SourceReady s (fun v => v = t) (two f) m o) →
      ∃ u q m, exec i s = .next u ∧ q ∈ landed s u ∧ q.act = .mask (VOp.num f.d) m
        ∧ ∀ l, l < 4096 → (m.getLsbD l = true ↔ l < n ∧ maskOf s f l = true ∧ p (x l) (y l))
    let extends_ (w : Word) (r : Nat) : Prop :=
      w = if t ∈ [Fmt.i8, .i16, .i32, .i64] then (BitVec.ofNat t.bits r).signExtend 64 else BitVec.ofNat 64 r
    compares (.vcmpEq f) (· = ·) ∧ compares (.vcmpNe f) (· ≠ ·) ∧ compares (.vcmpLt f) (· < ·) ∧ compares (.vcmpLe f) (· ≤ ·)
    ∧ compares (.vcmpGt f) (fun a b => b < a) ∧ compares (.vcmpGe f) (fun a b => b ≤ a)
    ∧ (Calm s (.vredAdd f) → t ∈ ints → SourceReady s (fun v => v = t) (one f) 0 (f.a, f.sya) →
        ∃ u q w, exec (.vredAdd f) s = .next u ∧ q ∈ landed s u ∧ q.act = .breg (VOp.num f.d) w
          ∧ extends_ w (lowOf t (((List.range n).filter (maskOf s f)).map x).sum))
    ∧ (Calm s (.vext f) → SourceReady s (fun _ => True) (one f) 0 (f.a, f.sya) →
        let lane := (VOp.scalar f.b (here s)).toNat
        (lane < n → ∃ u q w, exec (.vext f) s = .next u ∧ q ∈ landed s u ∧ q.act = .breg (VOp.num f.d) w
          ∧ extends_ w (laneIn s (one f) 0 t.bits lane))
        ∧ (n ≤ lane → Raises (.vext f) s (trapOf 0x0A)))

/-- The memory accesses of the vector engine. -/
def Obligations.VectorMemory : Prop := RowAccess ∧ LaneAccess ∧ GranuleFills

/-- The matrix instructions at issue; nests, gangs, the known-answer test, residencies and groups take effect. -/
def Obligations.MatrixIssue : Prop := MatrixCommits ∧ MatrixTokens ∧ MatrixViews ∧ UnitsComplete

/-- Gangs, the known-answer test, residencies, nests and the Lantern. -/
def Obligations.MatrixUnits : Prop := Gangs ∧ KnownAnswer ∧ Residencies ∧ Nests ∧ Lanterns

/-- Issue in the copy engine. -/
def Obligations.CopyIssue : Prop := CopyEngine ∧ Pinning

/-- Operations of the copy engine complete. -/
def Obligations.CopyCompletion : Prop :=
  CopyMoves ∧ BlockResults ∧ ElementMoves ∧ RemoteAccesses ∧ TablesAndPins ∧ CopyFaults

/-- Collectives at issue. -/
def Obligations.CollectiveIssue : Prop := ReshardTraps ∧ HaloAndPlan

/-- The eight worked plans of 06_reshard.md (R138 to R142). -/
def Obligations.WorkedPlans : Prop :=
  ∀ row ∈ workedPlans, ∃ p, chanter row.1 workedTensor (workedMap row.1 row.2.1.1 row.2.1.2) (workedMap row.1 row.2.2.1.1 row.2.2.1.2)
      = some p
    ∧ (p.steps.map fun q => (q.kind, q.axes, q.dim)) = row.2.2.2.1 ∧ p.bytes = row.2.2.2.2.1 ∧ p.stage = row.2.2.2.2.2

/-- Collectives run. -/
def Obligations.CollectivesRun : Prop := Matching ∧ Reductions ∧ PieceCounter ∧ Pieces ∧ PlansEnd

/-- Stream ports. -/
def Obligations.StreamPorts : Prop := PortWalk ∧ PortRowForms ∧ PortRowStored ∧ WorkedBlock

/-- The host's window on the module. -/
def Obligations.HostWindow : Prop := JobCommands ∧ WindowWrites ∧ Invalidation ∧ ImageCheck ∧ ApertureAccess

/-- Boot, firmware, attestation and service. -/
def Obligations.Firmware : Prop := PowerOn ∧ FirmwareReplacement ∧ Attestation ∧ Drains

/-- Contexts are saved and resumed. -/
def Obligations.SaveAndResume : Prop := ContextSaves ∧ ContextResumes

/-- Links, refresh, replays, fading, walks and lines; what the host and the firmware do takes effect. -/
def Obligations.LinksAndMemory : Prop := LinkEvents ∧ RefreshOwnership ∧ Replays ∧ MemoryEvents ∧ HostComplete

/-- Errors of the machine and of programs. -/
def Obligations.Errors : Prop := ResidueErrors ∧ Poisoning ∧ MissesAndDeadlocks

/-- Each of the words decodes to its instruction, with every word taken, and the instruction encodes as the words. -/
def Obligations.DecodeWords : Prop :=
  ∀ row ∈ wordRows, decode row.1 row.2.1 = .ok (row.2.2, []) ∧ row.2.2.wf = true
    ∧ row.2.2.encode = row.2.1

/-- Decoding the words of a well-formed instruction gives it back, whatever follows them, and its words are as many as its first
two words say (R313, R321 to R335, R349 to R356). -/
def Obligations.DecodeInvertsEncode : Prop :=
  ∀ (i : Instr) (e : Engine) (rest : List W32), i.wf = true → i.engine = some e →
    decode e (i.encode ++ rest) = .ok (i, rest)
    ∧ i.encode.length = wordCount e (i.encode.headD 0) ((i.encode.drop 1).headD 0)

/-- A step runs the instruction that the bytes at the cursor decode to. -/
def Obligations.StepRunsDecoded : Prop := StepIssues ∧ FetchReads

/-- Every step answers a next state, and memory keeps its canonical form in it: addresses strictly rising, and no byte listed
that is 0 (log 1). -/
def Obligations.MemoryKeepsForm : Prop :=
  ∀ (s : State), Memory.wf s.mem = true → ∃ t, step s = .next t ∧ Memory.wf t.mem = true

/-- The machine right after reset: memory in its canonical form with nothing listed, the job IDLE, and every register at the value
that its rule gives (R14, R39, R80, R99, R100, R183, R200, R247, R251, R255, R256, R267, R283 to R286), or, where a rule
gives none, at the one that logs 2 and 3 name. -/
def Obligations.ResetState : Prop :=
  Memory.wf State.reset.mem = true ∧ (∀ a, memRead State.reset.mem a = 0) ∧ State.reset.job.st = .idle
  ∧ (∀ c, (State.reset.ctx c).unit = none ∧ (∀ n, (State.reset.ctx c).sr n = 0) ∧ (∀ n, (State.reset.ctx c).br n = 0)
      ∧ (∀ n, ((State.reset.ctx c).tok n).done = true) ∧ (State.reset.ctx c).sprs.ordmask = 0xFFFFFFFF
      ∧ (State.reset.ctx c).sprs.trapctl = 1 ∧ (State.reset.ctx c).sprs.trapbase = 0 ∧ (State.reset.ctx c).sprs.rwctl = 7
      ∧ (State.reset.ctx c).sprs.rwsup = 0 ∧ (State.reset.ctx c).sprs.arstat = 0 ∧ (State.reset.ctx c).sprs.dphase = 0
      ∧ (State.reset.ctx c).sprs.prommiss = 0 ∧ (State.reset.ctx c).sprs.inject = 0 ∧ (State.reset.ctx c).sprs.displaced = 0)
  ∧ (∀ k, (State.reset.core k).fenced = false ∧ (State.reset.core k).retries = 0 ∧ (State.reset.core k).rwperm = 0
      ∧ (State.reset.core k).rules = [] ∧ (State.reset.core k).rwlog = [])
  ∧ (∀ d, (State.reset.die d).meshshape = 0x001001001001 ∧ (State.reset.die d).meshpos = 0 ∧ (State.reset.die d).calendar = [])
  ∧ State.reset.jwRead 0x008 = 0 ∧ State.reset.jwRead 0x018 = 0 ∧ State.reset.jwRead 0x020 = 0 ∧ State.reset.jwRead 0x028 = 0
end

