-- ==== Sys2Proof/Laws/Encoding.lean ====
section
/-! SUPPORT. Reading back the fields of packed words, format by format (13_encoding.md R322 to R333). -/
namespace Sys2Proof.Laws

/-! ## Bits of appended fields -/

/-- Bits above the lower part are those of the upper part. -/
theorem skip_low {m n s w : Nat} (x : BitVec m) (y : BitVec n) : (x ++ y).extractLsb' (n + s) w = x.extractLsb' s w := by
  apply BitVec.eq_of_getLsbD_eq
  intro k hk
  simp only [BitVec.getLsbD_extractLsb', BitVec.getLsbD_append, hk, decide_true, Bool.true_and]
  rw [if_neg (by omega)]
  congr 1
  omega

/-- The low bits are those of the lower part. -/
theorem take_low {m n : Nat} (x : BitVec m) (y : BitVec n) : (x ++ y).extractLsb' 0 n = y := by
  apply BitVec.eq_of_getLsbD_eq
  intro k hk
  simp [BitVec.getLsbD_append, hk]

theorem all_bits {n : Nat} (y : BitVec n) : y.extractLsb' 0 n = y := by
  apply BitVec.eq_of_getLsbD_eq
  intro k hk
  simp [hk]

/-- A field of one bit is a bit. -/
theorem bit_eq {n : Nat} (w : BitVec n) (k : Nat) (b : Bool) (h : w.extractLsb' k 1 = BitVec.ofBool b) : w.getLsbD k = b := by
  have := congrArg (fun v => v.getLsbD 0) h
  simpa using this

theorem major_eq (w : W32) (op : Nat) (h : w.extractLsb' 26 6 = BitVec.ofNat 6 op) (ho : op < 64) : majorOf w = op := by
  simp only [majorOf, h, BitVec.toNat_ofNat]
  omega

theorem fn_eq {v : BitVec 4} {fn : Nat} (h : v = BitVec.ofNat 4 fn) (ho : fn < 16) : v.toNat = fn := by
  simp only [h, BitVec.toNat_ofNat]
  omega

/-! ## Formats of one word, and token words -/

/-- Reading back the operand fields of a packed word. -/
theorem c3_fields (op fn : Nat) (f : C3) : Raw.c3 (Pack.c3 op fn f) = f := by
  obtain ⟨x0, x1, x2, x3⟩ := f
  simp only [Raw.c3, Pack.c3, C3.mk.injEq]
  refine ⟨?_, ?_, ?_, ?_⟩
  · exact (skip_low (s := 12) _ _).trans <| (skip_low (s := 6) _ _).trans <| (skip_low (s := 0) _ _).trans <| (take_low _ _)
  · exact (skip_low (s := 6) _ _).trans <| (skip_low (s := 0) _ _).trans <| (take_low _ _)
  · exact (skip_low (s := 0) _ _).trans <| (take_low _ _)
  · exact (take_low _ _)
theorem c3_op (op fn : Nat) (f : C3) : (Pack.c3 op fn f).extractLsb' 26 6 = BitVec.ofNat 6 op :=
  (skip_low (s := 22) _ _).trans <| (skip_low (s := 16) _ _).trans <| (skip_low (s := 10) _ _).trans <| (skip_low (s := 4) _ _).trans <| (skip_low (s := 0) _ _).trans <| (all_bits _)
@[simp] theorem c3_major (op fn : Nat) (f : C3) (h : op < 64) : majorOf (Pack.c3 op fn f) = op := major_eq _ _ (c3_op ..) h
theorem c3_fnBits (op fn : Nat) (f : C3) : (Pack.c3 op fn f).extractLsb' 22 4 = BitVec.ofNat 4 fn :=
  (skip_low (s := 18) _ _).trans <| (skip_low (s := 12) _ _).trans <| (skip_low (s := 6) _ _).trans <| (skip_low (s := 0) _ _).trans <| (take_low _ _)
@[simp] theorem c3_fn (op fn : Nat) (f : C3) (h : fn < 16) : Raw.fnHi (Pack.c3 op fn f) = fn := fn_eq (c3_fnBits ..) h

/-- Reading back the operand fields of a packed word. -/
theorem ci_fields (op : Nat) (f : CI) : Raw.ci (Pack.ci op f) = f := by
  obtain ⟨x0, x1, x2, x3⟩ := f
  simp only [Raw.ci, Pack.ci, CI.mk.injEq]
  refine ⟨?_, ?_, ?_, ?_⟩
  · exact (skip_low (s := 16) _ _).trans <| (skip_low (s := 6) _ _).trans <| (skip_low (s := 0) _ _).trans <| (take_low _ _)
  · exact (skip_low (s := 10) _ _).trans <| (skip_low (s := 0) _ _).trans <| (take_low _ _)
  · exact (skip_low (s := 0) _ _).trans <| (take_low _ _)
  · exact (take_low _ _)
theorem ci_op (op : Nat) (f : CI) : (Pack.ci op f).extractLsb' 26 6 = BitVec.ofNat 6 op :=
  (skip_low (s := 22) _ _).trans <| (skip_low (s := 12) _ _).trans <| (skip_low (s := 6) _ _).trans <| (skip_low (s := 0) _ _).trans <| (all_bits _)
@[simp] theorem ci_major (op : Nat) (f : CI) (h : op < 64) : majorOf (Pack.ci op f) = op := major_eq _ _ (ci_op ..) h

/-- Reading back the operand fields of a packed word. -/
theorem cb_fields (op : Nat) (f : CB) : Raw.cb (Pack.cb op f) = f := by
  obtain ⟨x0, x1, x2, x3, x4⟩ := f
  simp only [Raw.cb, Pack.cb, CB.mk.injEq]
  refine ⟨?_, ?_, ?_, ?_, ?_⟩
  · exact (skip_low (s := 19) _ _).trans <| (skip_low (s := 16) _ _).trans <| (skip_low (s := 6) _ _).trans <| (skip_low (s := 0) _ _).trans <| (take_low _ _)
  · exact (skip_low (s := 13) _ _).trans <| (skip_low (s := 10) _ _).trans <| (skip_low (s := 0) _ _).trans <| (take_low _ _)
  · exact (skip_low (s := 3) _ _).trans <| (skip_low (s := 0) _ _).trans <| (take_low _ _)
  · exact (skip_low (s := 0) _ _).trans <| (take_low _ _)
  · exact (take_low _ _)
theorem cb_op (op : Nat) (f : CB) : (Pack.cb op f).extractLsb' 26 6 = BitVec.ofNat 6 op :=
  (skip_low (s := 22) _ _).trans <| (skip_low (s := 19) _ _).trans <| (skip_low (s := 9) _ _).trans <| (skip_low (s := 3) _ _).trans <| (skip_low (s := 0) _ _).trans <| (all_bits _)
@[simp] theorem cb_major (op : Nat) (f : CB) (h : op < 64) : majorOf (Pack.cb op f) = op := major_eq _ _ (cb_op ..) h

/-- Reading back the operand fields of a packed word. -/
theorem m_fields (op : Nat) (f : MF) : Raw.mf (Pack.m op f) = f := by
  obtain ⟨x0, x1, x2, x3, x4, x5, x6, x7⟩ := f
  simp only [Raw.mf, Pack.m, MF.mk.injEq]
  refine ⟨?_, ?_, ?_, ?_, ?_, ?_, ?_, ?_⟩
  · exact (skip_low (s := 17) _ _).trans <| (skip_low (s := 13) _ _).trans <| (skip_low (s := 11) _ _).trans <| (skip_low (s := 10) _ _).trans <| (skip_low (s := 9) _ _).trans <| (skip_low (s := 4) _ _).trans <| (skip_low (s := 0) _ _).trans <| (take_low _ _)
  · exact (skip_low (s := 13) _ _).trans <| (skip_low (s := 9) _ _).trans <| (skip_low (s := 7) _ _).trans <| (skip_low (s := 6) _ _).trans <| (skip_low (s := 5) _ _).trans <| (skip_low (s := 0) _ _).trans <| (take_low _ _)
  · exact (skip_low (s := 8) _ _).trans <| (skip_low (s := 4) _ _).trans <| (skip_low (s := 2) _ _).trans <| (skip_low (s := 1) _ _).trans <| (skip_low (s := 0) _ _).trans <| (take_low _ _)
  · exact bit_eq _ _ _ ((skip_low (s := 7) _ _).trans <| (skip_low (s := 3) _ _).trans <| (skip_low (s := 1) _ _).trans <| (skip_low (s := 0) _ _).trans <| (take_low _ _))
  · exact bit_eq _ _ _ ((skip_low (s := 6) _ _).trans <| (skip_low (s := 2) _ _).trans <| (skip_low (s := 0) _ _).trans <| (take_low _ _))
  · exact (skip_low (s := 4) _ _).trans <| (skip_low (s := 0) _ _).trans <| (take_low _ _)
  · exact (skip_low (s := 0) _ _).trans <| (take_low _ _)
  · exact (take_low _ _)
theorem m_op (op : Nat) (f : MF) : (Pack.m op f).extractLsb' 26 6 = BitVec.ofNat 6 op :=
  (skip_low (s := 22) _ _).trans <| (skip_low (s := 18) _ _).trans <| (skip_low (s := 16) _ _).trans <| (skip_low (s := 15) _ _).trans <| (skip_low (s := 14) _ _).trans <| (skip_low (s := 9) _ _).trans <| (skip_low (s := 5) _ _).trans <| (skip_low (s := 0) _ _).trans <| (all_bits _)
@[simp] theorem m_major (op : Nat) (f : MF) (h : op < 64) : majorOf (Pack.m op f) = op := major_eq _ _ (m_op ..) h

/-- Reading back the operand fields of a packed word. -/
theorem tok_fields (t : Tok) : Raw.tok (Pack.tok t) = t := by
  obtain ⟨x0, x1, x2, x3, x4, x5, x6⟩ := t
  simp only [Raw.tok, Pack.tok, Tok.mk.injEq]
  refine ⟨?_, ?_, ?_, ?_, ?_, ?_, ?_⟩
  · exact (skip_low (s := 22) _ _).trans <| (skip_low (s := 19) _ _).trans <| (skip_low (s := 15) _ _).trans <| (skip_low (s := 10) _ _).trans <| (skip_low (s := 5) _ _).trans <| (skip_low (s := 0) _ _).trans <| (all_bits _)
  · exact (skip_low (s := 17) _ _).trans <| (skip_low (s := 14) _ _).trans <| (skip_low (s := 10) _ _).trans <| (skip_low (s := 5) _ _).trans <| (skip_low (s := 0) _ _).trans <| (take_low _ _)
  · exact (skip_low (s := 12) _ _).trans <| (skip_low (s := 9) _ _).trans <| (skip_low (s := 5) _ _).trans <| (skip_low (s := 0) _ _).trans <| (take_low _ _)
  · exact (skip_low (s := 7) _ _).trans <| (skip_low (s := 4) _ _).trans <| (skip_low (s := 0) _ _).trans <| (take_low _ _)
  · exact (skip_low (s := 3) _ _).trans <| (skip_low (s := 0) _ _).trans <| (take_low _ _)
  · exact (skip_low (s := 0) _ _).trans <| (take_low _ _)
  · exact (take_low _ _)

/-- Reading back the operand fields of a packed word. -/
theorem y_fields (op fn : Nat) (f : YF) : Raw.yf (Pack.y op fn f) = f := by
  obtain ⟨x0, x1, x2, x3⟩ := f
  simp only [Raw.yf, Pack.y, YF.mk.injEq]
  refine ⟨?_, ?_, ?_, ?_⟩
  · exact (skip_low (s := 16) _ _).trans <| (skip_low (s := 12) _ _).trans <| (skip_low (s := 6) _ _).trans <| (skip_low (s := 0) _ _).trans <| (take_low _ _)
  · exact (skip_low (s := 10) _ _).trans <| (skip_low (s := 6) _ _).trans <| (skip_low (s := 0) _ _).trans <| (take_low _ _)
  · exact (skip_low (s := 4) _ _).trans <| (skip_low (s := 0) _ _).trans <| (take_low _ _)
  · exact (take_low _ _)
theorem y_op (op fn : Nat) (f : YF) : (Pack.y op fn f).extractLsb' 26 6 = BitVec.ofNat 6 op :=
  (skip_low (s := 22) _ _).trans <| (skip_low (s := 18) _ _).trans <| (skip_low (s := 12) _ _).trans <| (skip_low (s := 6) _ _).trans <| (skip_low (s := 0) _ _).trans <| (all_bits _)
@[simp] theorem y_major (op fn : Nat) (f : YF) (h : op < 64) : majorOf (Pack.y op fn f) = op := major_eq _ _ (y_op ..) h
theorem y_fnBits (op fn : Nat) (f : YF) : (Pack.y op fn f).extractLsb' 4 4 = BitVec.ofNat 4 fn :=
  (skip_low (s := 0) _ _).trans <| (take_low _ _)
@[simp] theorem y_fn (op fn : Nat) (f : YF) (h : fn < 16) : Raw.fnLo (Pack.y op fn f) = fn := fn_eq (y_fnBits ..) h

/-- Reading back the operand fields of a packed word. -/
theorem maps_fields (x : Maps) : Raw.maps (Pack.maps x) = x := by
  obtain ⟨x0, x1⟩ := x
  simp only [Raw.maps, Pack.maps, Maps.mk.injEq]
  refine ⟨?_, ?_⟩
  · exact (skip_low (s := 3) _ _).trans <| (skip_low (s := 0) _ _).trans <| (all_bits _)
  · exact (skip_low (s := 0) _ _).trans <| (take_low _ _)
@[simp] theorem maps_rest (x : Maps) : (Pack.maps x).extractLsb' 0 26 = 0 := take_low _ _

/-- Reading back the operand fields of a packed word. -/
theorem at_fields (x : At) : Raw.at_ (Pack.at_ x) = x := by
  obtain ⟨x0, x1⟩ := x
  simp only [Raw.at_, Pack.at_, At.mk.injEq]
  refine ⟨?_, ?_⟩
  · exact (skip_low (s := 2) _ _).trans <| (skip_low (s := 0) _ _).trans <| (all_bits _)
  · exact (skip_low (s := 0) _ _).trans <| (take_low _ _)
@[simp] theorem at_rest (x : At) : (Pack.at_ x).extractLsb' 0 26 = 0 := take_low _ _

/-- MF[0] is bit 4 of a matrix word (R331). -/
theorem m_mf0 (op : Nat) (f : MF) : (Pack.m op f)[4] = f.mf[0] := by
  have h := congrArg MF.mf (m_fields op f)
  have hb := congrArg (fun v => v.getLsbD 0) h
  simpa [Raw.mf] using hb

/-! ## Formats of more words -/

/-- The first and the second word of CM (R326). -/
def cmWord0 (op fn : Nat) (f : CM) : W32 :=
  BitVec.ofNat 6 op ++ f.d ++ f.base ++ f.cls ++ f.order ++ BitVec.ofNat 4 fn ++ f.iss
def cmWord1 (f : CM) : W32 := f.off ++ f.size ++ BitVec.ofBool f.sx ++ f.scope ++ f.e
theorem cm_words (op fn : Nat) (f : CM) : Pack.cm op fn f = [cmWord0 op fn f, cmWord1 f] := rfl

@[simp] theorem cmWord0_op (op fn : Nat) (f : CM) : (cmWord0 op fn f).extractLsb' 26 6 = BitVec.ofNat 6 op :=
  (skip_low (s := 22) _ _).trans <| (skip_low (s := 18) _ _).trans <| (skip_low (s := 16) _ _).trans <| (skip_low (s := 12) _ _).trans <| (skip_low (s := 6) _ _).trans <| (skip_low (s := 0) _ _).trans <| (all_bits _)
@[simp] theorem cmWord0_d (op fn : Nat) (f : CM) : (cmWord0 op fn f).extractLsb' 20 6 = f.d :=
  (skip_low (s := 16) _ _).trans <| (skip_low (s := 12) _ _).trans <| (skip_low (s := 10) _ _).trans <| (skip_low (s := 6) _ _).trans <| (skip_low (s := 0) _ _).trans <| (take_low _ _)
@[simp] theorem cmWord0_base (op fn : Nat) (f : CM) : (cmWord0 op fn f).extractLsb' 14 6 = f.base :=
  (skip_low (s := 10) _ _).trans <| (skip_low (s := 6) _ _).trans <| (skip_low (s := 4) _ _).trans <| (skip_low (s := 0) _ _).trans <| (take_low _ _)
@[simp] theorem cmWord0_cls (op fn : Nat) (f : CM) : (cmWord0 op fn f).extractLsb' 10 4 = f.cls :=
  (skip_low (s := 6) _ _).trans <| (skip_low (s := 2) _ _).trans <| (skip_low (s := 0) _ _).trans <| (take_low _ _)
@[simp] theorem cmWord0_order (op fn : Nat) (f : CM) : (cmWord0 op fn f).extractLsb' 8 2 = f.order :=
  (skip_low (s := 4) _ _).trans <| (skip_low (s := 0) _ _).trans <| (take_low _ _)
@[simp] theorem cmWord0_fn (op fn : Nat) (f : CM) : (cmWord0 op fn f).extractLsb' 4 4 = BitVec.ofNat 4 fn :=
  (skip_low (s := 0) _ _).trans <| (take_low _ _)
@[simp] theorem cmWord0_iss (op fn : Nat) (f : CM) : (cmWord0 op fn f).extractLsb' 0 4 = f.iss :=
  (take_low _ _)
@[simp] theorem cmWord1_off (f : CM) : (cmWord1 f).extractLsb' 12 20 = f.off :=
  (skip_low (s := 6) _ _).trans <| (skip_low (s := 3) _ _).trans <| (skip_low (s := 2) _ _).trans <| (skip_low (s := 0) _ _).trans <| (all_bits _)
@[simp] theorem cmWord1_size (f : CM) : (cmWord1 f).extractLsb' 10 2 = f.size :=
  (skip_low (s := 4) _ _).trans <| (skip_low (s := 1) _ _).trans <| (skip_low (s := 0) _ _).trans <| (take_low _ _)
@[simp] theorem cmWord1_sx (f : CM) : (cmWord1 f).getLsbD 9 = f.sx :=
  bit_eq _ _ _ ((skip_low (s := 3) _ _).trans <| (skip_low (s := 0) _ _).trans <| (take_low _ _))
@[simp] theorem cmWord1_scope (f : CM) : (cmWord1 f).extractLsb' 6 3 = f.scope :=
  (skip_low (s := 0) _ _).trans <| (take_low _ _)
@[simp] theorem cmWord1_e (f : CM) : (cmWord1 f).extractLsb' 0 6 = f.e :=
  (take_low _ _)
@[simp] theorem cmWord0_major (op fn : Nat) (f : CM) (h : op < 64) : majorOf (cmWord0 op fn f) = op := major_eq _ _ (cmWord0_op ..) h
@[simp] theorem cmWord0_fnLo (op fn : Nat) (f : CM) (h : fn < 16) : Raw.fnLo (cmWord0 op fn f) = fn := fn_eq (cmWord0_fn ..) h
theorem cm_fields (op fn : Nat) (f : CM) : Raw.cm (cmWord0 op fn f) (cmWord1 f) = f := by
  simp only [Raw.cm, cmWord0_d, cmWord0_base, cmWord0_cls, cmWord0_order, cmWord0_iss, cmWord1_off, cmWord1_size, cmWord1_sx,
    cmWord1_scope, cmWord1_e]

/-- The first word of CL (R325). -/
def clWord0 (op : Nat) (f : CL) : W32 :=
  BitVec.ofNat 6 op ++ f.d ++ BitVec.ofBool (Pack.isL64 f.lit) ++ (0 : BitVec 15) ++ f.iss
theorem cl_words (op : Nat) (f : CL) : Pack.cl op f = clWord0 op f :: Pack.lit f.lit := rfl

@[simp] theorem clWord0_op (op : Nat) (f : CL) : (clWord0 op f).extractLsb' 26 6 = BitVec.ofNat 6 op :=
  (skip_low (s := 22) _ _).trans <| (skip_low (s := 7) _ _).trans <| (skip_low (s := 6) _ _).trans <| (skip_low (s := 0) _ _).trans <| (all_bits _)
@[simp] theorem clWord0_d (op : Nat) (f : CL) : (clWord0 op f).extractLsb' 20 6 = f.d :=
  (skip_low (s := 16) _ _).trans <| (skip_low (s := 1) _ _).trans <| (skip_low (s := 0) _ _).trans <| (take_low _ _)
@[simp] theorem clWord0_l (op : Nat) (f : CL) : (clWord0 op f).getLsbD 19 = Pack.isL64 f.lit :=
  bit_eq _ _ _ ((skip_low (s := 15) _ _).trans <| (skip_low (s := 0) _ _).trans <| (take_low _ _))
@[simp] theorem clWord0_z (op : Nat) (f : CL) : (clWord0 op f).extractLsb' 4 15 = 0 :=
  (skip_low (s := 0) _ _).trans <| (take_low _ _)
@[simp] theorem clWord0_iss (op : Nat) (f : CL) : (clWord0 op f).extractLsb' 0 4 = f.iss :=
  (take_low _ _)
@[simp] theorem clWord0_major (op : Nat) (f : CL) (h : op < 64) : majorOf (clWord0 op f) = op := major_eq _ _ (clWord0_op ..) h

/-- The first and the second word of VX (R327). -/
def vxWord0 (op fn : Nat) (f : VX) : W32 :=
  BitVec.ofNat 6 op ++ BitVec.ofNat 4 fn ++ Pack.code f.d ++ Pack.code f.a ++ (0 : BitVec 2) ++ f.iss
def vxWord1 (f : VX) : W32 :=
  Pack.code f.b ++ Pack.code f.c ++ f.syd ++ f.sya ++ f.syb ++ f.syc ++ f.mask ++ f.rnd ++ BitVec.ofBool f.sat
theorem vx_words (op fn : Nat) (f : VX) :
    Pack.vx op fn f = vxWord0 op fn f :: vxWord1 f :: (Pack.opLits f.a ++ Pack.opLits f.b ++ Pack.opLits f.c) := by
  simp [Pack.vx, vxWord0, vxWord1]

@[simp] theorem vxWord0_op (op fn : Nat) (f : VX) : (vxWord0 op fn f).extractLsb' 26 6 = BitVec.ofNat 6 op :=
  (skip_low (s := 22) _ _).trans <| (skip_low (s := 20) _ _).trans <| (skip_low (s := 12) _ _).trans <| (skip_low (s := 4) _ _).trans <| (skip_low (s := 0) _ _).trans <| (all_bits _)
@[simp] theorem vxWord0_fn (op fn : Nat) (f : VX) : (vxWord0 op fn f).extractLsb' 22 4 = BitVec.ofNat 4 fn :=
  (skip_low (s := 18) _ _).trans <| (skip_low (s := 16) _ _).trans <| (skip_low (s := 8) _ _).trans <| (skip_low (s := 0) _ _).trans <| (take_low _ _)
@[simp] theorem vxWord0_d (op fn : Nat) (f : VX) : (vxWord0 op fn f).extractLsb' 14 8 = Pack.code f.d :=
  (skip_low (s := 10) _ _).trans <| (skip_low (s := 8) _ _).trans <| (skip_low (s := 0) _ _).trans <| (take_low _ _)
@[simp] theorem vxWord0_a (op fn : Nat) (f : VX) : (vxWord0 op fn f).extractLsb' 6 8 = Pack.code f.a :=
  (skip_low (s := 2) _ _).trans <| (skip_low (s := 0) _ _).trans <| (take_low _ _)
@[simp] theorem vxWord0_z (op fn : Nat) (f : VX) : (vxWord0 op fn f).extractLsb' 4 2 = 0 :=
  (skip_low (s := 0) _ _).trans <| (take_low _ _)
@[simp] theorem vxWord0_iss (op fn : Nat) (f : VX) : (vxWord0 op fn f).extractLsb' 0 4 = f.iss :=
  (take_low _ _)
@[simp] theorem vxWord1_b (f : VX) : (vxWord1 f).extractLsb' 24 8 = Pack.code f.b :=
  (skip_low (s := 23) _ _).trans <| (skip_low (s := 20) _ _).trans <| (skip_low (s := 16) _ _).trans <| (skip_low (s := 14) _ _).trans <| (skip_low (s := 12) _ _).trans <| (skip_low (s := 10) _ _).trans <| (skip_low (s := 8) _ _).trans <| (skip_low (s := 0) _ _).trans <| (all_bits _)
@[simp] theorem vxWord1_c (f : VX) : (vxWord1 f).extractLsb' 16 8 = Pack.code f.c :=
  (skip_low (s := 15) _ _).trans <| (skip_low (s := 12) _ _).trans <| (skip_low (s := 8) _ _).trans <| (skip_low (s := 6) _ _).trans <| (skip_low (s := 4) _ _).trans <| (skip_low (s := 2) _ _).trans <| (skip_low (s := 0) _ _).trans <| (take_low _ _)
@[simp] theorem vxWord1_syd (f : VX) : (vxWord1 f).extractLsb' 14 2 = f.syd :=
  (skip_low (s := 13) _ _).trans <| (skip_low (s := 10) _ _).trans <| (skip_low (s := 6) _ _).trans <| (skip_low (s := 4) _ _).trans <| (skip_low (s := 2) _ _).trans <| (skip_low (s := 0) _ _).trans <| (take_low _ _)
@[simp] theorem vxWord1_sya (f : VX) : (vxWord1 f).extractLsb' 12 2 = f.sya :=
  (skip_low (s := 11) _ _).trans <| (skip_low (s := 8) _ _).trans <| (skip_low (s := 4) _ _).trans <| (skip_low (s := 2) _ _).trans <| (skip_low (s := 0) _ _).trans <| (take_low _ _)
@[simp] theorem vxWord1_syb (f : VX) : (vxWord1 f).extractLsb' 10 2 = f.syb :=
  (skip_low (s := 9) _ _).trans <| (skip_low (s := 6) _ _).trans <| (skip_low (s := 2) _ _).trans <| (skip_low (s := 0) _ _).trans <| (take_low _ _)
@[simp] theorem vxWord1_syc (f : VX) : (vxWord1 f).extractLsb' 8 2 = f.syc :=
  (skip_low (s := 7) _ _).trans <| (skip_low (s := 4) _ _).trans <| (skip_low (s := 0) _ _).trans <| (take_low _ _)
@[simp] theorem vxWord1_mask (f : VX) : (vxWord1 f).extractLsb' 4 4 = f.mask :=
  (skip_low (s := 3) _ _).trans <| (skip_low (s := 0) _ _).trans <| (take_low _ _)
@[simp] theorem vxWord1_rnd (f : VX) : (vxWord1 f).extractLsb' 1 3 = f.rnd :=
  (skip_low (s := 0) _ _).trans <| (take_low _ _)
@[simp] theorem vxWord1_sat (f : VX) : (vxWord1 f).getLsbD 0 = f.sat :=
  bit_eq _ _ _ ((take_low _ _))
@[simp] theorem vxWord0_major (op fn : Nat) (f : VX) (h : op < 64) : majorOf (vxWord0 op fn f) = op := major_eq _ _ (vxWord0_op ..) h
@[simp] theorem vxWord0_fnHi (op fn : Nat) (f : VX) (h : fn < 16) : Raw.fnHi (vxWord0 op fn f) = fn := fn_eq (vxWord0_fn ..) h

/-- The first word of BKPT (R355). -/
def bkWord0 (f : BK) : W32 := (0x3F : BitVec 6) ++ (0 : BitVec 19) ++ f.cnt ++ f.iss

@[simp] theorem bkWord0_op (f : BK) : (bkWord0 f).extractLsb' 26 6 = 0x3F :=
  (skip_low (s := 22) _ _).trans <| (skip_low (s := 19) _ _).trans <| (skip_low (s := 0) _ _).trans <| (all_bits _)
@[simp] theorem bkWord0_z (f : BK) : (bkWord0 f).extractLsb' 7 19 = 0 :=
  (skip_low (s := 3) _ _).trans <| (skip_low (s := 0) _ _).trans <| (take_low _ _)
@[simp] theorem bkWord0_cnt (f : BK) : (bkWord0 f).extractLsb' 4 3 = f.cnt :=
  (skip_low (s := 0) _ _).trans <| (take_low _ _)
@[simp] theorem bkWord0_iss (f : BK) : (bkWord0 f).extractLsb' 0 4 = f.iss :=
  (take_low _ _)
end Sys2Proof.Laws
end

