-- ==== Sys2Proof/Laws/Tables.lean ====
section
/-! SUPPORT. What a read of a sparse table and of memory gives after a write. Each lemma holds of every table, whatever order its
keys stand in. -/
namespace Sys2Proof.Laws
open Sys2Proof.Machine

/-! ## Tables -/

theorem tget_tset_same {α : Type} (t : Tab α) (k : Nat) (v : α) : tget (tset t k v) k = some v := by
  induction t with
  | nil => simp [tset, tget]
  | cons p t ih =>
    obtain ⟨j, w⟩ := p
    simp only [tset]
    split
    · simp [tget]
    · split
      · simp [tget]
      · rw [tget, if_neg (by omega), ih]

theorem tget_tset_other {α : Type} (t : Tab α) (k n : Nat) (v : α) (h : n ≠ k) : tget (tset t k v) n = tget t n := by
  induction t with
  | nil => simp [tset, tget, Ne.symm h]
  | cons p t ih =>
    obtain ⟨j, w⟩ := p
    simp only [tset]
    split
    · rw [tget, if_neg (Ne.symm h)]
    · split
      · rename_i hk
        rw [tget, tget, if_neg (Ne.symm h), if_neg (by omega)]
      · simp only [tget, ih]

/-- A read after a write: the value written at its key, and what stood elsewhere. -/
theorem tget_tset {α : Type} (t : Tab α) (k n : Nat) (v : α) : tget (tset t k v) n = if n = k then some v else tget t n := by
  split
  · subst n; exact tget_tset_same t k v
  · exact tget_tset_other t k n v ‹_›

theorem tgetD_tset {α : Type} (t : Tab α) (k n : Nat) (v d : α) :
    tgetD (tset t k v) n d = if n = k then v else tgetD t n d := by
  simp only [tgetD, tget_tset]
  split <;> simp

theorem tget_tdel {α : Type} (t : Tab α) (k n : Nat) : tget (tdel t k) n = if n = k then none else tget t n := by
  induction t with
  | nil => simp [tdel, tget]
  | cons p t ih =>
    obtain ⟨j, w⟩ := p
    simp only [tdel]
    split
    · rename_i hj
      rw [ih, tget]
      split
      · rfl
      · rw [if_neg (by omega)]
    · rename_i hj
      rw [tget, tget, ih]
      split
      · rw [if_neg (by omega)]
      · rfl

/-- Changing every value of a table by a function of its key. -/
theorem tget_map {α β : Type} (f : Nat → α → β) (t : Tab α) (n : Nat) :
    tget (t.map fun p => (p.1, f p.1 p.2)) n = (tget t n).map (f n) := by
  induction t with
  | nil => rfl
  | cons p t ih =>
    obtain ⟨j, w⟩ := p
    simp only [List.map_cons, tget]
    split
    · subst j; rfl
    · exact ih

theorem tgetD_map {α β : Type} (f : Nat → α → β) (t : Tab α) (n : Nat) (d : α) :
    tgetD (t.map fun p => (p.1, f p.1 p.2)) n (f n d) = f n (tgetD t n d) := by
  simp only [tgetD, tget_map]
  cases tget t n <;> rfl

theorem tget_mem {α : Type} {t : Tab α} {k : Nat} {v : α} (h : tget t k = some v) : (k, v) ∈ t := by
  induction t with
  | nil => simp [tget] at h
  | cons p t ih =>
    obtain ⟨j, w⟩ := p
    simp only [tget] at h
    split at h
    · subst j; simp_all
    · exact List.mem_cons_of_mem _ (ih h)

/-! ## Memory -/

theorem memRead_memErase (m : List Host.Cell) (a n : Nat) : memRead (memErase m a) n = if n = a then 0 else memRead m n := by
  induction m with
  | nil => simp [memErase, memRead]
  | cons p m ih =>
    obtain ⟨j, v⟩ := p
    simp only [memErase]
    split
    · rw [ih, memRead]
      split
      · rfl
      · rw [if_neg (by omega)]
    · rw [memRead, memRead, ih]
      split
      · rw [if_neg (by omega)]
      · rfl

/-- A read after the write of a byte. -/
theorem memRead_memWrite (m : List Host.Cell) (a n : Nat) (b : Byte) :
    memRead (memWrite m a b) n = if n = a then b else memRead m n := by
  induction m with
  | nil =>
    simp only [memWrite]
    split
    · simp_all [memRead]
    · simp only [memRead, eq_comm]
  | cons p m ih =>
    obtain ⟨j, v⟩ := p
    simp only [memWrite]
    split
    · split
      · simp only [memRead, memRead_memErase]
        split
        · rw [if_neg (by omega)]
        · split <;> simp_all
      · simp only [memRead, eq_comm]
    · split
      · split
        · simp only [memRead, memRead_memErase]
          split
          · simp_all
          · rw [if_neg (by omega)]
        · simp only [memRead]
          split
          · subst_vars; simp
          · rw [if_neg (by omega), if_neg (by omega)]
      · simp only [memRead, ih]
        split
        · rw [if_neg (by omega)]
        · rfl

/-- A read after the write of consecutive bytes. -/
theorem memRead_memStore (bs : List Byte) (m : List Host.Cell) (a n : Nat) :
    memRead (memStore m a bs) n = if a ≤ n ∧ n < a + bs.length then bs.getD (n - a) 0 else memRead m n := by
  induction bs generalizing m a with
  | nil =>
    rw [memStore, if_neg (by simp)]
  | cons b bs ih =>
    rw [memStore, ih, memRead_memWrite]
    by_cases h : n = a
    · subst n
      rw [if_neg (by omega), if_pos rfl, if_pos (by simp)]
      simp
    · rw [if_neg h]
      by_cases h2 : a + 1 ≤ n ∧ n < a + 1 + bs.length
      · rw [if_pos h2, if_pos (by simp; omega), show n - a = (n - (a + 1)) + 1 by omega, List.getD_cons_succ]
      · rw [if_neg h2, if_neg (by simp; omega)]

theorem memBytes_length (m : List Host.Cell) (a n : Nat) : (memBytes m a n).length = n := by
  induction n generalizing a with
  | zero => rfl
  | succ n ih => simp [memBytes, ih]

theorem memBytes_get (m : List Host.Cell) (a n k : Nat) (h : k < n) : (memBytes m a n)[k]? = some (memRead m (a + k)) := by
  induction n generalizing a k with
  | zero => omega
  | succ n ih =>
    cases k with
    | zero => rfl
    | succ k =>
      simp only [memBytes, List.getElem?_cons_succ, ih (a + 1) k (by omega)]
      congr 2
      omega

/-- Bytes that read the same are the same bytes. -/
theorem memBytes_congr (m m' : List Host.Cell) (a n : Nat) (h : ∀ k < n, memRead m' (a + k) = memRead m (a + k)) :
    memBytes m' a n = memBytes m a n := by
  apply List.ext_getElem?
  intro k
  by_cases hk : k < n
  · rw [memBytes_get _ _ _ _ hk, memBytes_get _ _ _ _ hk, h k hk]
  · rw [List.getElem?_eq_none (by rw [memBytes_length]; omega), List.getElem?_eq_none (by rw [memBytes_length]; omega)]

/-! ## The canonical form -/

theorem memAbove_mono {a b : Nat} (h : a ≤ b) {m : List Host.Cell} (hm : memAbove b m = true) : memAbove a m = true := by
  cases m with
  | nil => rfl
  | cons p m =>
    obtain ⟨j, v⟩ := p
    simp only [memAbove, Bool.and_eq_true, decide_eq_true_eq] at hm ⊢
    exact ⟨⟨by omega, hm.1.2⟩, hm.2⟩

theorem memAbove_erase {lo : Nat} {m : List Host.Cell} (a : Nat) (h : memAbove lo m = true) : memAbove lo (memErase m a) = true := by
  induction m generalizing lo with
  | nil => rfl
  | cons p m ih =>
    obtain ⟨j, v⟩ := p
    simp only [memAbove, Bool.and_eq_true, decide_eq_true_eq] at h
    simp only [memErase]
    split
    · exact memAbove_mono (by omega) (ih h.2)
    · simp only [memAbove, Bool.and_eq_true, decide_eq_true_eq]
      exact ⟨h.1, ih h.2⟩

theorem memAbove_write {lo : Nat} {m : List Host.Cell} {a : Nat} (b : Byte) (ha : lo ≤ a) (h : memAbove lo m = true) :
    memAbove lo (memWrite m a b) = true := by
  induction m generalizing lo with
  | nil =>
    simp only [memWrite]
    split
    · rfl
    · simp_all [memAbove]
  | cons p m ih =>
    obtain ⟨j, v⟩ := p
    have h0 := h
    simp only [memAbove, Bool.and_eq_true, decide_eq_true_eq] at h
    simp only [memWrite]
    split
    · split
      · simp only [memAbove, Bool.and_eq_true, decide_eq_true_eq]
        exact ⟨h.1, memAbove_erase a h.2⟩
      · simp only [memAbove, Bool.and_eq_true, decide_eq_true_eq, bne_iff_ne]
        exact ⟨⟨ha, by assumption⟩, ⟨⟨by omega, by simpa using h.1.2⟩, h.2⟩⟩
    · split
      · subst a
        split
        · exact memAbove_mono (by omega) (memAbove_erase j h.2)
        · simp only [memAbove, Bool.and_eq_true, decide_eq_true_eq, bne_iff_ne]
          exact ⟨⟨ha, by assumption⟩, h.2⟩
      · simp only [memAbove, Bool.and_eq_true, decide_eq_true_eq]
        exact ⟨h.1, ih (by omega) h.2⟩

/-- A write keeps the canonical form. -/
theorem wf_memWrite {m : List Host.Cell} (a : Nat) (b : Byte) (h : Memory.wf m = true) : Memory.wf (memWrite m a b) = true :=
  memAbove_write b (Nat.zero_le _) h

theorem wf_memStore {m : List Host.Cell} (a : Nat) (bs : List Byte) (h : Memory.wf m = true) :
    Memory.wf (memStore m a bs) = true := by
  induction bs generalizing m a with
  | nil => exact h
  | cons b bs ih => exact ih (a + 1) (wf_memWrite a b h)

theorem memAbove_filter {lo : Nat} {m : List Host.Cell} (p : Host.Cell → Bool) (h : memAbove lo m = true) :
    memAbove lo (m.filter p) = true := by
  induction m generalizing lo with
  | nil => rfl
  | cons q m ih =>
    obtain ⟨j, v⟩ := q
    simp only [memAbove, Bool.and_eq_true, decide_eq_true_eq] at h
    simp only [List.filter_cons]
    split
    · simp only [memAbove, Bool.and_eq_true, decide_eq_true_eq]
      exact ⟨h.1, ih h.2⟩
    · exact memAbove_mono (by omega) (ih h.2)

/-- Dropping bytes keeps the canonical form. -/
theorem wf_filter {m : List Host.Cell} (p : Host.Cell → Bool) (h : Memory.wf m = true) : Memory.wf (m.filter p) = true :=
  memAbove_filter p h

end Sys2Proof.Laws
end

