-- ==== Sys2Proof/Laws/State.lean ====
section
/-! SUPPORT. Each update of the state, field by field, and each read after each update: no proof needs to unfold a record
update. -/
namespace Sys2Proof.Laws
open Sys2Proof.Machine

/-! ### setCtx -/

@[simp] theorem setCtx_cycle (s : State) (c : Nat) (x : Ctx) : (s.setCtx c x).cycle = s.cycle := rfl
@[simp] theorem setCtx_focus (s : State) (c : Nat) (x : Ctx) : (s.setCtx c x).focus = s.focus := rfl
@[simp] theorem setCtx_agenda (s : State) (c : Nat) (x : Ctx) : (s.setCtx c x).agenda = s.agenda := rfl
@[simp] theorem setCtx_turns (s : State) (c : Nat) (x : Ctx) : (s.setCtx c x).turns = s.turns := rfl
@[simp] theorem setCtx_opNext (s : State) (c : Nat) (x : Ctx) : (s.setCtx c x).opNext = s.opNext := rfl
@[simp] theorem setCtx_seqNext (s : State) (c : Nat) (x : Ctx) : (s.setCtx c x).seqNext = s.seqNext := rfl
@[simp] theorem setCtx_freshN (s : State) (c : Nat) (x : Ctx) : (s.setCtx c x).freshN = s.freshN := rfl
@[simp] theorem setCtx_mem (s : State) (c : Nat) (x : Ctx) : (s.setCtx c x).mem = s.mem := rfl
@[simp] theorem setCtx_poison (s : State) (c : Nat) (x : Ctx) : (s.setCtx c x).poison = s.poison := rfl
@[simp] theorem setCtx_undo (s : State) (c : Nat) (x : Ctx) : (s.setCtx c x).undo = s.undo := rfl
@[simp] theorem setCtx_ops (s : State) (c : Nat) (x : Ctx) : (s.setCtx c x).ops = s.ops := rfl
@[simp] theorem setCtx_cores (s : State) (c : Nat) (x : Ctx) : (s.setCtx c x).cores = s.cores := rfl
@[simp] theorem setCtx_clusters (s : State) (c : Nat) (x : Ctx) : (s.setCtx c x).clusters = s.clusters := rfl
@[simp] theorem setCtx_dies (s : State) (c : Nat) (x : Ctx) : (s.setCtx c x).dies = s.dies := rfl
@[simp] theorem setCtx_links (s : State) (c : Nat) (x : Ctx) : (s.setCtx c x).links = s.links := rfl
@[simp] theorem setCtx_job (s : State) (c : Nat) (x : Ctx) : (s.setCtx c x).job = s.job := rfl
@[simp] theorem setCtx_host (s : State) (c : Nat) (x : Ctx) : (s.setCtx c x).host = s.host := rfl

/-! ### modCtx -/

@[simp] theorem modCtx_cycle (s : State) (c : Nat) (f : Ctx → Ctx) : (s.modCtx c f).cycle = s.cycle := rfl
@[simp] theorem modCtx_focus (s : State) (c : Nat) (f : Ctx → Ctx) : (s.modCtx c f).focus = s.focus := rfl
@[simp] theorem modCtx_agenda (s : State) (c : Nat) (f : Ctx → Ctx) : (s.modCtx c f).agenda = s.agenda := rfl
@[simp] theorem modCtx_turns (s : State) (c : Nat) (f : Ctx → Ctx) : (s.modCtx c f).turns = s.turns := rfl
@[simp] theorem modCtx_opNext (s : State) (c : Nat) (f : Ctx → Ctx) : (s.modCtx c f).opNext = s.opNext := rfl
@[simp] theorem modCtx_seqNext (s : State) (c : Nat) (f : Ctx → Ctx) : (s.modCtx c f).seqNext = s.seqNext := rfl
@[simp] theorem modCtx_freshN (s : State) (c : Nat) (f : Ctx → Ctx) : (s.modCtx c f).freshN = s.freshN := rfl
@[simp] theorem modCtx_mem (s : State) (c : Nat) (f : Ctx → Ctx) : (s.modCtx c f).mem = s.mem := rfl
@[simp] theorem modCtx_poison (s : State) (c : Nat) (f : Ctx → Ctx) : (s.modCtx c f).poison = s.poison := rfl
@[simp] theorem modCtx_undo (s : State) (c : Nat) (f : Ctx → Ctx) : (s.modCtx c f).undo = s.undo := rfl
@[simp] theorem modCtx_ops (s : State) (c : Nat) (f : Ctx → Ctx) : (s.modCtx c f).ops = s.ops := rfl
@[simp] theorem modCtx_cores (s : State) (c : Nat) (f : Ctx → Ctx) : (s.modCtx c f).cores = s.cores := rfl
@[simp] theorem modCtx_clusters (s : State) (c : Nat) (f : Ctx → Ctx) : (s.modCtx c f).clusters = s.clusters := rfl
@[simp] theorem modCtx_dies (s : State) (c : Nat) (f : Ctx → Ctx) : (s.modCtx c f).dies = s.dies := rfl
@[simp] theorem modCtx_links (s : State) (c : Nat) (f : Ctx → Ctx) : (s.modCtx c f).links = s.links := rfl
@[simp] theorem modCtx_job (s : State) (c : Nat) (f : Ctx → Ctx) : (s.modCtx c f).job = s.job := rfl
@[simp] theorem modCtx_host (s : State) (c : Nat) (f : Ctx → Ctx) : (s.modCtx c f).host = s.host := rfl

/-! ### modEng -/

@[simp] theorem modEng_cycle (s : State) (c : Nat) (e : Engine) (f : Eng → Eng) : (s.modEng c e f).cycle = s.cycle := rfl
@[simp] theorem modEng_focus (s : State) (c : Nat) (e : Engine) (f : Eng → Eng) : (s.modEng c e f).focus = s.focus := rfl
@[simp] theorem modEng_agenda (s : State) (c : Nat) (e : Engine) (f : Eng → Eng) : (s.modEng c e f).agenda = s.agenda := rfl
@[simp] theorem modEng_turns (s : State) (c : Nat) (e : Engine) (f : Eng → Eng) : (s.modEng c e f).turns = s.turns := rfl
@[simp] theorem modEng_opNext (s : State) (c : Nat) (e : Engine) (f : Eng → Eng) : (s.modEng c e f).opNext = s.opNext := rfl
@[simp] theorem modEng_seqNext (s : State) (c : Nat) (e : Engine) (f : Eng → Eng) : (s.modEng c e f).seqNext = s.seqNext := rfl
@[simp] theorem modEng_freshN (s : State) (c : Nat) (e : Engine) (f : Eng → Eng) : (s.modEng c e f).freshN = s.freshN := rfl
@[simp] theorem modEng_mem (s : State) (c : Nat) (e : Engine) (f : Eng → Eng) : (s.modEng c e f).mem = s.mem := rfl
@[simp] theorem modEng_poison (s : State) (c : Nat) (e : Engine) (f : Eng → Eng) : (s.modEng c e f).poison = s.poison := rfl
@[simp] theorem modEng_undo (s : State) (c : Nat) (e : Engine) (f : Eng → Eng) : (s.modEng c e f).undo = s.undo := rfl
@[simp] theorem modEng_ops (s : State) (c : Nat) (e : Engine) (f : Eng → Eng) : (s.modEng c e f).ops = s.ops := rfl
@[simp] theorem modEng_cores (s : State) (c : Nat) (e : Engine) (f : Eng → Eng) : (s.modEng c e f).cores = s.cores := rfl
@[simp] theorem modEng_clusters (s : State) (c : Nat) (e : Engine) (f : Eng → Eng) : (s.modEng c e f).clusters = s.clusters := rfl
@[simp] theorem modEng_dies (s : State) (c : Nat) (e : Engine) (f : Eng → Eng) : (s.modEng c e f).dies = s.dies := rfl
@[simp] theorem modEng_links (s : State) (c : Nat) (e : Engine) (f : Eng → Eng) : (s.modEng c e f).links = s.links := rfl
@[simp] theorem modEng_job (s : State) (c : Nat) (e : Engine) (f : Eng → Eng) : (s.modEng c e f).job = s.job := rfl
@[simp] theorem modEng_host (s : State) (c : Nat) (e : Engine) (f : Eng → Eng) : (s.modEng c e f).host = s.host := rfl

/-! ### modCore -/

@[simp] theorem modCore_cycle (s : State) (k : Nat) (f : Core → Core) : (s.modCore k f).cycle = s.cycle := rfl
@[simp] theorem modCore_focus (s : State) (k : Nat) (f : Core → Core) : (s.modCore k f).focus = s.focus := rfl
@[simp] theorem modCore_agenda (s : State) (k : Nat) (f : Core → Core) : (s.modCore k f).agenda = s.agenda := rfl
@[simp] theorem modCore_turns (s : State) (k : Nat) (f : Core → Core) : (s.modCore k f).turns = s.turns := rfl
@[simp] theorem modCore_opNext (s : State) (k : Nat) (f : Core → Core) : (s.modCore k f).opNext = s.opNext := rfl
@[simp] theorem modCore_seqNext (s : State) (k : Nat) (f : Core → Core) : (s.modCore k f).seqNext = s.seqNext := rfl
@[simp] theorem modCore_freshN (s : State) (k : Nat) (f : Core → Core) : (s.modCore k f).freshN = s.freshN := rfl
@[simp] theorem modCore_mem (s : State) (k : Nat) (f : Core → Core) : (s.modCore k f).mem = s.mem := rfl
@[simp] theorem modCore_poison (s : State) (k : Nat) (f : Core → Core) : (s.modCore k f).poison = s.poison := rfl
@[simp] theorem modCore_undo (s : State) (k : Nat) (f : Core → Core) : (s.modCore k f).undo = s.undo := rfl
@[simp] theorem modCore_ops (s : State) (k : Nat) (f : Core → Core) : (s.modCore k f).ops = s.ops := rfl
@[simp] theorem modCore_ctxs (s : State) (k : Nat) (f : Core → Core) : (s.modCore k f).ctxs = s.ctxs := rfl
@[simp] theorem modCore_clusters (s : State) (k : Nat) (f : Core → Core) : (s.modCore k f).clusters = s.clusters := rfl
@[simp] theorem modCore_dies (s : State) (k : Nat) (f : Core → Core) : (s.modCore k f).dies = s.dies := rfl
@[simp] theorem modCore_links (s : State) (k : Nat) (f : Core → Core) : (s.modCore k f).links = s.links := rfl
@[simp] theorem modCore_job (s : State) (k : Nat) (f : Core → Core) : (s.modCore k f).job = s.job := rfl
@[simp] theorem modCore_host (s : State) (k : Nat) (f : Core → Core) : (s.modCore k f).host = s.host := rfl

/-! ### modDie -/

@[simp] theorem modDie_cycle (s : State) (d : Nat) (f : Die → Die) : (s.modDie d f).cycle = s.cycle := rfl
@[simp] theorem modDie_focus (s : State) (d : Nat) (f : Die → Die) : (s.modDie d f).focus = s.focus := rfl
@[simp] theorem modDie_agenda (s : State) (d : Nat) (f : Die → Die) : (s.modDie d f).agenda = s.agenda := rfl
@[simp] theorem modDie_turns (s : State) (d : Nat) (f : Die → Die) : (s.modDie d f).turns = s.turns := rfl
@[simp] theorem modDie_opNext (s : State) (d : Nat) (f : Die → Die) : (s.modDie d f).opNext = s.opNext := rfl
@[simp] theorem modDie_seqNext (s : State) (d : Nat) (f : Die → Die) : (s.modDie d f).seqNext = s.seqNext := rfl
@[simp] theorem modDie_freshN (s : State) (d : Nat) (f : Die → Die) : (s.modDie d f).freshN = s.freshN := rfl
@[simp] theorem modDie_mem (s : State) (d : Nat) (f : Die → Die) : (s.modDie d f).mem = s.mem := rfl
@[simp] theorem modDie_poison (s : State) (d : Nat) (f : Die → Die) : (s.modDie d f).poison = s.poison := rfl
@[simp] theorem modDie_undo (s : State) (d : Nat) (f : Die → Die) : (s.modDie d f).undo = s.undo := rfl
@[simp] theorem modDie_ops (s : State) (d : Nat) (f : Die → Die) : (s.modDie d f).ops = s.ops := rfl
@[simp] theorem modDie_ctxs (s : State) (d : Nat) (f : Die → Die) : (s.modDie d f).ctxs = s.ctxs := rfl
@[simp] theorem modDie_cores (s : State) (d : Nat) (f : Die → Die) : (s.modDie d f).cores = s.cores := rfl
@[simp] theorem modDie_clusters (s : State) (d : Nat) (f : Die → Die) : (s.modDie d f).clusters = s.clusters := rfl
@[simp] theorem modDie_links (s : State) (d : Nat) (f : Die → Die) : (s.modDie d f).links = s.links := rfl
@[simp] theorem modDie_job (s : State) (d : Nat) (f : Die → Die) : (s.modDie d f).job = s.job := rfl
@[simp] theorem modDie_host (s : State) (d : Nat) (f : Die → Die) : (s.modDie d f).host = s.host := rfl

/-! ### modCluster -/

@[simp] theorem modCluster_cycle (s : State) (g : Nat) (f : Cluster → Cluster) : (s.modCluster g f).cycle = s.cycle := rfl
@[simp] theorem modCluster_focus (s : State) (g : Nat) (f : Cluster → Cluster) : (s.modCluster g f).focus = s.focus := rfl
@[simp] theorem modCluster_agenda (s : State) (g : Nat) (f : Cluster → Cluster) : (s.modCluster g f).agenda = s.agenda := rfl
@[simp] theorem modCluster_turns (s : State) (g : Nat) (f : Cluster → Cluster) : (s.modCluster g f).turns = s.turns := rfl
@[simp] theorem modCluster_opNext (s : State) (g : Nat) (f : Cluster → Cluster) : (s.modCluster g f).opNext = s.opNext := rfl
@[simp] theorem modCluster_seqNext (s : State) (g : Nat) (f : Cluster → Cluster) : (s.modCluster g f).seqNext = s.seqNext := rfl
@[simp] theorem modCluster_freshN (s : State) (g : Nat) (f : Cluster → Cluster) : (s.modCluster g f).freshN = s.freshN := rfl
@[simp] theorem modCluster_mem (s : State) (g : Nat) (f : Cluster → Cluster) : (s.modCluster g f).mem = s.mem := rfl
@[simp] theorem modCluster_poison (s : State) (g : Nat) (f : Cluster → Cluster) : (s.modCluster g f).poison = s.poison := rfl
@[simp] theorem modCluster_undo (s : State) (g : Nat) (f : Cluster → Cluster) : (s.modCluster g f).undo = s.undo := rfl
@[simp] theorem modCluster_ops (s : State) (g : Nat) (f : Cluster → Cluster) : (s.modCluster g f).ops = s.ops := rfl
@[simp] theorem modCluster_ctxs (s : State) (g : Nat) (f : Cluster → Cluster) : (s.modCluster g f).ctxs = s.ctxs := rfl
@[simp] theorem modCluster_cores (s : State) (g : Nat) (f : Cluster → Cluster) : (s.modCluster g f).cores = s.cores := rfl
@[simp] theorem modCluster_dies (s : State) (g : Nat) (f : Cluster → Cluster) : (s.modCluster g f).dies = s.dies := rfl
@[simp] theorem modCluster_links (s : State) (g : Nat) (f : Cluster → Cluster) : (s.modCluster g f).links = s.links := rfl
@[simp] theorem modCluster_job (s : State) (g : Nat) (f : Cluster → Cluster) : (s.modCluster g f).job = s.job := rfl
@[simp] theorem modCluster_host (s : State) (g : Nat) (f : Cluster → Cluster) : (s.modCluster g f).host = s.host := rfl

/-! ### modJob -/

@[simp] theorem modJob_cycle (s : State) (f : Job → Job) : (s.modJob f).cycle = s.cycle := rfl
@[simp] theorem modJob_focus (s : State) (f : Job → Job) : (s.modJob f).focus = s.focus := rfl
@[simp] theorem modJob_agenda (s : State) (f : Job → Job) : (s.modJob f).agenda = s.agenda := rfl
@[simp] theorem modJob_turns (s : State) (f : Job → Job) : (s.modJob f).turns = s.turns := rfl
@[simp] theorem modJob_opNext (s : State) (f : Job → Job) : (s.modJob f).opNext = s.opNext := rfl
@[simp] theorem modJob_seqNext (s : State) (f : Job → Job) : (s.modJob f).seqNext = s.seqNext := rfl
@[simp] theorem modJob_freshN (s : State) (f : Job → Job) : (s.modJob f).freshN = s.freshN := rfl
@[simp] theorem modJob_mem (s : State) (f : Job → Job) : (s.modJob f).mem = s.mem := rfl
@[simp] theorem modJob_poison (s : State) (f : Job → Job) : (s.modJob f).poison = s.poison := rfl
@[simp] theorem modJob_undo (s : State) (f : Job → Job) : (s.modJob f).undo = s.undo := rfl
@[simp] theorem modJob_ops (s : State) (f : Job → Job) : (s.modJob f).ops = s.ops := rfl
@[simp] theorem modJob_ctxs (s : State) (f : Job → Job) : (s.modJob f).ctxs = s.ctxs := rfl
@[simp] theorem modJob_cores (s : State) (f : Job → Job) : (s.modJob f).cores = s.cores := rfl
@[simp] theorem modJob_clusters (s : State) (f : Job → Job) : (s.modJob f).clusters = s.clusters := rfl
@[simp] theorem modJob_dies (s : State) (f : Job → Job) : (s.modJob f).dies = s.dies := rfl
@[simp] theorem modJob_links (s : State) (f : Job → Job) : (s.modJob f).links = s.links := rfl
@[simp] theorem modJob_host (s : State) (f : Job → Job) : (s.modJob f).host = s.host := rfl

/-! ### modHost -/

@[simp] theorem modHost_cycle (s : State) (f : HostIf → HostIf) : (s.modHost f).cycle = s.cycle := rfl
@[simp] theorem modHost_focus (s : State) (f : HostIf → HostIf) : (s.modHost f).focus = s.focus := rfl
@[simp] theorem modHost_agenda (s : State) (f : HostIf → HostIf) : (s.modHost f).agenda = s.agenda := rfl
@[simp] theorem modHost_turns (s : State) (f : HostIf → HostIf) : (s.modHost f).turns = s.turns := rfl
@[simp] theorem modHost_opNext (s : State) (f : HostIf → HostIf) : (s.modHost f).opNext = s.opNext := rfl
@[simp] theorem modHost_seqNext (s : State) (f : HostIf → HostIf) : (s.modHost f).seqNext = s.seqNext := rfl
@[simp] theorem modHost_freshN (s : State) (f : HostIf → HostIf) : (s.modHost f).freshN = s.freshN := rfl
@[simp] theorem modHost_mem (s : State) (f : HostIf → HostIf) : (s.modHost f).mem = s.mem := rfl
@[simp] theorem modHost_poison (s : State) (f : HostIf → HostIf) : (s.modHost f).poison = s.poison := rfl
@[simp] theorem modHost_undo (s : State) (f : HostIf → HostIf) : (s.modHost f).undo = s.undo := rfl
@[simp] theorem modHost_ops (s : State) (f : HostIf → HostIf) : (s.modHost f).ops = s.ops := rfl
@[simp] theorem modHost_ctxs (s : State) (f : HostIf → HostIf) : (s.modHost f).ctxs = s.ctxs := rfl
@[simp] theorem modHost_cores (s : State) (f : HostIf → HostIf) : (s.modHost f).cores = s.cores := rfl
@[simp] theorem modHost_clusters (s : State) (f : HostIf → HostIf) : (s.modHost f).clusters = s.clusters := rfl
@[simp] theorem modHost_dies (s : State) (f : HostIf → HostIf) : (s.modHost f).dies = s.dies := rfl
@[simp] theorem modHost_links (s : State) (f : HostIf → HostIf) : (s.modHost f).links = s.links := rfl
@[simp] theorem modHost_job (s : State) (f : HostIf → HostIf) : (s.modHost f).job = s.job := rfl

/-! ### setOp -/

@[simp] theorem setOp_cycle (s : State) (n : Nat) (o : Op) : (s.setOp n o).cycle = s.cycle := rfl
@[simp] theorem setOp_focus (s : State) (n : Nat) (o : Op) : (s.setOp n o).focus = s.focus := rfl
@[simp] theorem setOp_agenda (s : State) (n : Nat) (o : Op) : (s.setOp n o).agenda = s.agenda := rfl
@[simp] theorem setOp_turns (s : State) (n : Nat) (o : Op) : (s.setOp n o).turns = s.turns := rfl
@[simp] theorem setOp_opNext (s : State) (n : Nat) (o : Op) : (s.setOp n o).opNext = s.opNext := rfl
@[simp] theorem setOp_seqNext (s : State) (n : Nat) (o : Op) : (s.setOp n o).seqNext = s.seqNext := rfl
@[simp] theorem setOp_freshN (s : State) (n : Nat) (o : Op) : (s.setOp n o).freshN = s.freshN := rfl
@[simp] theorem setOp_mem (s : State) (n : Nat) (o : Op) : (s.setOp n o).mem = s.mem := rfl
@[simp] theorem setOp_poison (s : State) (n : Nat) (o : Op) : (s.setOp n o).poison = s.poison := rfl
@[simp] theorem setOp_undo (s : State) (n : Nat) (o : Op) : (s.setOp n o).undo = s.undo := rfl
@[simp] theorem setOp_ctxs (s : State) (n : Nat) (o : Op) : (s.setOp n o).ctxs = s.ctxs := rfl
@[simp] theorem setOp_cores (s : State) (n : Nat) (o : Op) : (s.setOp n o).cores = s.cores := rfl
@[simp] theorem setOp_clusters (s : State) (n : Nat) (o : Op) : (s.setOp n o).clusters = s.clusters := rfl
@[simp] theorem setOp_dies (s : State) (n : Nat) (o : Op) : (s.setOp n o).dies = s.dies := rfl
@[simp] theorem setOp_links (s : State) (n : Nat) (o : Op) : (s.setOp n o).links = s.links := rfl
@[simp] theorem setOp_job (s : State) (n : Nat) (o : Op) : (s.setOp n o).job = s.job := rfl
@[simp] theorem setOp_host (s : State) (n : Nat) (o : Op) : (s.setOp n o).host = s.host := rfl

/-! ### delOp -/

@[simp] theorem delOp_cycle (s : State) (n : Nat) : (s.delOp n).cycle = s.cycle := rfl
@[simp] theorem delOp_focus (s : State) (n : Nat) : (s.delOp n).focus = s.focus := rfl
@[simp] theorem delOp_agenda (s : State) (n : Nat) : (s.delOp n).agenda = s.agenda := rfl
@[simp] theorem delOp_turns (s : State) (n : Nat) : (s.delOp n).turns = s.turns := rfl
@[simp] theorem delOp_opNext (s : State) (n : Nat) : (s.delOp n).opNext = s.opNext := rfl
@[simp] theorem delOp_seqNext (s : State) (n : Nat) : (s.delOp n).seqNext = s.seqNext := rfl
@[simp] theorem delOp_freshN (s : State) (n : Nat) : (s.delOp n).freshN = s.freshN := rfl
@[simp] theorem delOp_mem (s : State) (n : Nat) : (s.delOp n).mem = s.mem := rfl
@[simp] theorem delOp_poison (s : State) (n : Nat) : (s.delOp n).poison = s.poison := rfl
@[simp] theorem delOp_undo (s : State) (n : Nat) : (s.delOp n).undo = s.undo := rfl
@[simp] theorem delOp_ctxs (s : State) (n : Nat) : (s.delOp n).ctxs = s.ctxs := rfl
@[simp] theorem delOp_cores (s : State) (n : Nat) : (s.delOp n).cores = s.cores := rfl
@[simp] theorem delOp_clusters (s : State) (n : Nat) : (s.delOp n).clusters = s.clusters := rfl
@[simp] theorem delOp_dies (s : State) (n : Nat) : (s.delOp n).dies = s.dies := rfl
@[simp] theorem delOp_links (s : State) (n : Nat) : (s.delOp n).links = s.links := rfl
@[simp] theorem delOp_job (s : State) (n : Nat) : (s.delOp n).job = s.job := rfl
@[simp] theorem delOp_host (s : State) (n : Nat) : (s.delOp n).host = s.host := rfl

/-! ### modOp -/

@[simp] theorem modOp_cycle (s : State) (n : Nat) (f : Op → Op) : (s.modOp n f).cycle = s.cycle := by unfold State.modOp; split <;> rfl
@[simp] theorem modOp_focus (s : State) (n : Nat) (f : Op → Op) : (s.modOp n f).focus = s.focus := by unfold State.modOp; split <;> rfl
@[simp] theorem modOp_agenda (s : State) (n : Nat) (f : Op → Op) : (s.modOp n f).agenda = s.agenda := by unfold State.modOp; split <;> rfl
@[simp] theorem modOp_turns (s : State) (n : Nat) (f : Op → Op) : (s.modOp n f).turns = s.turns := by unfold State.modOp; split <;> rfl
@[simp] theorem modOp_opNext (s : State) (n : Nat) (f : Op → Op) : (s.modOp n f).opNext = s.opNext := by unfold State.modOp; split <;> rfl
@[simp] theorem modOp_seqNext (s : State) (n : Nat) (f : Op → Op) : (s.modOp n f).seqNext = s.seqNext := by unfold State.modOp; split <;> rfl
@[simp] theorem modOp_freshN (s : State) (n : Nat) (f : Op → Op) : (s.modOp n f).freshN = s.freshN := by unfold State.modOp; split <;> rfl
@[simp] theorem modOp_mem (s : State) (n : Nat) (f : Op → Op) : (s.modOp n f).mem = s.mem := by unfold State.modOp; split <;> rfl
@[simp] theorem modOp_poison (s : State) (n : Nat) (f : Op → Op) : (s.modOp n f).poison = s.poison := by unfold State.modOp; split <;> rfl
@[simp] theorem modOp_undo (s : State) (n : Nat) (f : Op → Op) : (s.modOp n f).undo = s.undo := by unfold State.modOp; split <;> rfl
@[simp] theorem modOp_ctxs (s : State) (n : Nat) (f : Op → Op) : (s.modOp n f).ctxs = s.ctxs := by unfold State.modOp; split <;> rfl
@[simp] theorem modOp_cores (s : State) (n : Nat) (f : Op → Op) : (s.modOp n f).cores = s.cores := by unfold State.modOp; split <;> rfl
@[simp] theorem modOp_clusters (s : State) (n : Nat) (f : Op → Op) : (s.modOp n f).clusters = s.clusters := by unfold State.modOp; split <;> rfl
@[simp] theorem modOp_dies (s : State) (n : Nat) (f : Op → Op) : (s.modOp n f).dies = s.dies := by unfold State.modOp; split <;> rfl
@[simp] theorem modOp_links (s : State) (n : Nat) (f : Op → Op) : (s.modOp n f).links = s.links := by unfold State.modOp; split <;> rfl
@[simp] theorem modOp_job (s : State) (n : Nat) (f : Op → Op) : (s.modOp n f).job = s.job := by unfold State.modOp; split <;> rfl
@[simp] theorem modOp_host (s : State) (n : Nat) (f : Op → Op) : (s.modOp n f).host = s.host := by unfold State.modOp; split <;> rfl

/-! ### modUnit -/

@[simp] theorem modUnit_cycle (s : State) (u : Nat) (f : UnitRec → UnitRec) : (s.modUnit u f).cycle = s.cycle := by unfold State.modUnit; split <;> rfl
@[simp] theorem modUnit_focus (s : State) (u : Nat) (f : UnitRec → UnitRec) : (s.modUnit u f).focus = s.focus := by unfold State.modUnit; split <;> rfl
@[simp] theorem modUnit_agenda (s : State) (u : Nat) (f : UnitRec → UnitRec) : (s.modUnit u f).agenda = s.agenda := by unfold State.modUnit; split <;> rfl
@[simp] theorem modUnit_turns (s : State) (u : Nat) (f : UnitRec → UnitRec) : (s.modUnit u f).turns = s.turns := by unfold State.modUnit; split <;> rfl
@[simp] theorem modUnit_opNext (s : State) (u : Nat) (f : UnitRec → UnitRec) : (s.modUnit u f).opNext = s.opNext := by unfold State.modUnit; split <;> rfl
@[simp] theorem modUnit_seqNext (s : State) (u : Nat) (f : UnitRec → UnitRec) : (s.modUnit u f).seqNext = s.seqNext := by unfold State.modUnit; split <;> rfl
@[simp] theorem modUnit_freshN (s : State) (u : Nat) (f : UnitRec → UnitRec) : (s.modUnit u f).freshN = s.freshN := by unfold State.modUnit; split <;> rfl
@[simp] theorem modUnit_mem (s : State) (u : Nat) (f : UnitRec → UnitRec) : (s.modUnit u f).mem = s.mem := by unfold State.modUnit; split <;> rfl
@[simp] theorem modUnit_poison (s : State) (u : Nat) (f : UnitRec → UnitRec) : (s.modUnit u f).poison = s.poison := by unfold State.modUnit; split <;> rfl
@[simp] theorem modUnit_undo (s : State) (u : Nat) (f : UnitRec → UnitRec) : (s.modUnit u f).undo = s.undo := by unfold State.modUnit; split <;> rfl
@[simp] theorem modUnit_ops (s : State) (u : Nat) (f : UnitRec → UnitRec) : (s.modUnit u f).ops = s.ops := by unfold State.modUnit; split <;> rfl
@[simp] theorem modUnit_ctxs (s : State) (u : Nat) (f : UnitRec → UnitRec) : (s.modUnit u f).ctxs = s.ctxs := by unfold State.modUnit; split <;> rfl
@[simp] theorem modUnit_cores (s : State) (u : Nat) (f : UnitRec → UnitRec) : (s.modUnit u f).cores = s.cores := by unfold State.modUnit; split <;> rfl
@[simp] theorem modUnit_clusters (s : State) (u : Nat) (f : UnitRec → UnitRec) : (s.modUnit u f).clusters = s.clusters := by unfold State.modUnit; split <;> rfl
@[simp] theorem modUnit_dies (s : State) (u : Nat) (f : UnitRec → UnitRec) : (s.modUnit u f).dies = s.dies := by unfold State.modUnit; split <;> rfl
@[simp] theorem modUnit_links (s : State) (u : Nat) (f : UnitRec → UnitRec) : (s.modUnit u f).links = s.links := by unfold State.modUnit; split <;> rfl
@[simp] theorem modUnit_host (s : State) (u : Nat) (f : UnitRec → UnitRec) : (s.modUnit u f).host = s.host := by unfold State.modUnit; split <;> rfl

/-! ### modLaunch -/

@[simp] theorem modLaunch_cycle (s : State) (l : Nat) (f : LaunchRec → LaunchRec) : (s.modLaunch l f).cycle = s.cycle := by unfold State.modLaunch; split <;> rfl
@[simp] theorem modLaunch_focus (s : State) (l : Nat) (f : LaunchRec → LaunchRec) : (s.modLaunch l f).focus = s.focus := by unfold State.modLaunch; split <;> rfl
@[simp] theorem modLaunch_agenda (s : State) (l : Nat) (f : LaunchRec → LaunchRec) : (s.modLaunch l f).agenda = s.agenda := by unfold State.modLaunch; split <;> rfl
@[simp] theorem modLaunch_turns (s : State) (l : Nat) (f : LaunchRec → LaunchRec) : (s.modLaunch l f).turns = s.turns := by unfold State.modLaunch; split <;> rfl
@[simp] theorem modLaunch_opNext (s : State) (l : Nat) (f : LaunchRec → LaunchRec) : (s.modLaunch l f).opNext = s.opNext := by unfold State.modLaunch; split <;> rfl
@[simp] theorem modLaunch_seqNext (s : State) (l : Nat) (f : LaunchRec → LaunchRec) : (s.modLaunch l f).seqNext = s.seqNext := by unfold State.modLaunch; split <;> rfl
@[simp] theorem modLaunch_freshN (s : State) (l : Nat) (f : LaunchRec → LaunchRec) : (s.modLaunch l f).freshN = s.freshN := by unfold State.modLaunch; split <;> rfl
@[simp] theorem modLaunch_mem (s : State) (l : Nat) (f : LaunchRec → LaunchRec) : (s.modLaunch l f).mem = s.mem := by unfold State.modLaunch; split <;> rfl
@[simp] theorem modLaunch_poison (s : State) (l : Nat) (f : LaunchRec → LaunchRec) : (s.modLaunch l f).poison = s.poison := by unfold State.modLaunch; split <;> rfl
@[simp] theorem modLaunch_undo (s : State) (l : Nat) (f : LaunchRec → LaunchRec) : (s.modLaunch l f).undo = s.undo := by unfold State.modLaunch; split <;> rfl
@[simp] theorem modLaunch_ops (s : State) (l : Nat) (f : LaunchRec → LaunchRec) : (s.modLaunch l f).ops = s.ops := by unfold State.modLaunch; split <;> rfl
@[simp] theorem modLaunch_ctxs (s : State) (l : Nat) (f : LaunchRec → LaunchRec) : (s.modLaunch l f).ctxs = s.ctxs := by unfold State.modLaunch; split <;> rfl
@[simp] theorem modLaunch_cores (s : State) (l : Nat) (f : LaunchRec → LaunchRec) : (s.modLaunch l f).cores = s.cores := by unfold State.modLaunch; split <;> rfl
@[simp] theorem modLaunch_clusters (s : State) (l : Nat) (f : LaunchRec → LaunchRec) : (s.modLaunch l f).clusters = s.clusters := by unfold State.modLaunch; split <;> rfl
@[simp] theorem modLaunch_dies (s : State) (l : Nat) (f : LaunchRec → LaunchRec) : (s.modLaunch l f).dies = s.dies := by unfold State.modLaunch; split <;> rfl
@[simp] theorem modLaunch_links (s : State) (l : Nat) (f : LaunchRec → LaunchRec) : (s.modLaunch l f).links = s.links := by unfold State.modLaunch; split <;> rfl
@[simp] theorem modLaunch_host (s : State) (l : Nat) (f : LaunchRec → LaunchRec) : (s.modLaunch l f).host = s.host := by unfold State.modLaunch; split <;> rfl

/-! ### land -/

@[simp] theorem land_cycle (s : State) (c : Nat) (e : Engine) (n : Nat) (a : Land) (h : List Acc) : (s.land c e n a h).cycle = s.cycle := rfl
@[simp] theorem land_focus (s : State) (c : Nat) (e : Engine) (n : Nat) (a : Land) (h : List Acc) : (s.land c e n a h).focus = s.focus := rfl
@[simp] theorem land_agenda (s : State) (c : Nat) (e : Engine) (n : Nat) (a : Land) (h : List Acc) : (s.land c e n a h).agenda = s.agenda := rfl
@[simp] theorem land_turns (s : State) (c : Nat) (e : Engine) (n : Nat) (a : Land) (h : List Acc) : (s.land c e n a h).turns = s.turns := rfl
@[simp] theorem land_opNext (s : State) (c : Nat) (e : Engine) (n : Nat) (a : Land) (h : List Acc) : (s.land c e n a h).opNext = s.opNext := rfl
@[simp] theorem land_freshN (s : State) (c : Nat) (e : Engine) (n : Nat) (a : Land) (h : List Acc) : (s.land c e n a h).freshN = s.freshN := rfl
@[simp] theorem land_mem (s : State) (c : Nat) (e : Engine) (n : Nat) (a : Land) (h : List Acc) : (s.land c e n a h).mem = s.mem := rfl
@[simp] theorem land_poison (s : State) (c : Nat) (e : Engine) (n : Nat) (a : Land) (h : List Acc) : (s.land c e n a h).poison = s.poison := rfl
@[simp] theorem land_undo (s : State) (c : Nat) (e : Engine) (n : Nat) (a : Land) (h : List Acc) : (s.land c e n a h).undo = s.undo := rfl
@[simp] theorem land_ops (s : State) (c : Nat) (e : Engine) (n : Nat) (a : Land) (h : List Acc) : (s.land c e n a h).ops = s.ops := rfl
@[simp] theorem land_cores (s : State) (c : Nat) (e : Engine) (n : Nat) (a : Land) (h : List Acc) : (s.land c e n a h).cores = s.cores := rfl
@[simp] theorem land_clusters (s : State) (c : Nat) (e : Engine) (n : Nat) (a : Land) (h : List Acc) : (s.land c e n a h).clusters = s.clusters := rfl
@[simp] theorem land_dies (s : State) (c : Nat) (e : Engine) (n : Nat) (a : Land) (h : List Acc) : (s.land c e n a h).dies = s.dies := rfl
@[simp] theorem land_links (s : State) (c : Nat) (e : Engine) (n : Nat) (a : Land) (h : List Acc) : (s.land c e n a h).links = s.links := rfl
@[simp] theorem land_job (s : State) (c : Nat) (e : Engine) (n : Nat) (a : Land) (h : List Acc) : (s.land c e n a h).job = s.job := rfl
@[simp] theorem land_host (s : State) (c : Nat) (e : Engine) (n : Nat) (a : Land) (h : List Acc) : (s.land c e n a h).host = s.host := rfl

/-! ### putS -/

@[simp] theorem putS_cycle (s : State) (c r n : Nat) (v : Word) : (s.putS c r n v).cycle = s.cycle := by unfold State.putS; split <;> rfl
@[simp] theorem putS_focus (s : State) (c r n : Nat) (v : Word) : (s.putS c r n v).focus = s.focus := by unfold State.putS; split <;> rfl
@[simp] theorem putS_agenda (s : State) (c r n : Nat) (v : Word) : (s.putS c r n v).agenda = s.agenda := by unfold State.putS; split <;> rfl
@[simp] theorem putS_turns (s : State) (c r n : Nat) (v : Word) : (s.putS c r n v).turns = s.turns := by unfold State.putS; split <;> rfl
@[simp] theorem putS_opNext (s : State) (c r n : Nat) (v : Word) : (s.putS c r n v).opNext = s.opNext := by unfold State.putS; split <;> rfl
@[simp] theorem putS_freshN (s : State) (c r n : Nat) (v : Word) : (s.putS c r n v).freshN = s.freshN := by unfold State.putS; split <;> rfl
@[simp] theorem putS_mem (s : State) (c r n : Nat) (v : Word) : (s.putS c r n v).mem = s.mem := by unfold State.putS; split <;> rfl
@[simp] theorem putS_poison (s : State) (c r n : Nat) (v : Word) : (s.putS c r n v).poison = s.poison := by unfold State.putS; split <;> rfl
@[simp] theorem putS_undo (s : State) (c r n : Nat) (v : Word) : (s.putS c r n v).undo = s.undo := by unfold State.putS; split <;> rfl
@[simp] theorem putS_ops (s : State) (c r n : Nat) (v : Word) : (s.putS c r n v).ops = s.ops := by unfold State.putS; split <;> rfl
@[simp] theorem putS_cores (s : State) (c r n : Nat) (v : Word) : (s.putS c r n v).cores = s.cores := by unfold State.putS; split <;> rfl
@[simp] theorem putS_clusters (s : State) (c r n : Nat) (v : Word) : (s.putS c r n v).clusters = s.clusters := by unfold State.putS; split <;> rfl
@[simp] theorem putS_dies (s : State) (c r n : Nat) (v : Word) : (s.putS c r n v).dies = s.dies := by unfold State.putS; split <;> rfl
@[simp] theorem putS_links (s : State) (c r n : Nat) (v : Word) : (s.putS c r n v).links = s.links := by unfold State.putS; split <;> rfl
@[simp] theorem putS_job (s : State) (c r n : Nat) (v : Word) : (s.putS c r n v).job = s.job := by unfold State.putS; split <;> rfl
@[simp] theorem putS_host (s : State) (c r n : Nat) (v : Word) : (s.putS c r n v).host = s.host := by unfold State.putS; split <;> rfl

/-! ### writePhys -/

@[simp] theorem writePhys_cycle (s : State) (a : Nat) (l : List Byte) : (s.writePhys a l).cycle = s.cycle := rfl
@[simp] theorem writePhys_focus (s : State) (a : Nat) (l : List Byte) : (s.writePhys a l).focus = s.focus := rfl
@[simp] theorem writePhys_agenda (s : State) (a : Nat) (l : List Byte) : (s.writePhys a l).agenda = s.agenda := rfl
@[simp] theorem writePhys_turns (s : State) (a : Nat) (l : List Byte) : (s.writePhys a l).turns = s.turns := rfl
@[simp] theorem writePhys_opNext (s : State) (a : Nat) (l : List Byte) : (s.writePhys a l).opNext = s.opNext := rfl
@[simp] theorem writePhys_freshN (s : State) (a : Nat) (l : List Byte) : (s.writePhys a l).freshN = s.freshN := rfl
@[simp] theorem writePhys_ops (s : State) (a : Nat) (l : List Byte) : (s.writePhys a l).ops = s.ops := rfl
@[simp] theorem writePhys_ctxs (s : State) (a : Nat) (l : List Byte) : (s.writePhys a l).ctxs = s.ctxs := rfl
@[simp] theorem writePhys_cores (s : State) (a : Nat) (l : List Byte) : (s.writePhys a l).cores = s.cores := rfl
@[simp] theorem writePhys_clusters (s : State) (a : Nat) (l : List Byte) : (s.writePhys a l).clusters = s.clusters := rfl
@[simp] theorem writePhys_dies (s : State) (a : Nat) (l : List Byte) : (s.writePhys a l).dies = s.dies := rfl
@[simp] theorem writePhys_links (s : State) (a : Nat) (l : List Byte) : (s.writePhys a l).links = s.links := rfl
@[simp] theorem writePhys_job (s : State) (a : Nat) (l : List Byte) : (s.writePhys a l).job = s.job := rfl
@[simp] theorem writePhys_host (s : State) (a : Nat) (l : List Byte) : (s.writePhys a l).host = s.host := rfl

/-! ### waitOn -/

@[simp] theorem waitOn_cycle (s : State) (c : Nat) (e : Engine) (st : EngState) (h : Hold) (i : Instr) : (s.waitOn c e st h i).cycle = s.cycle := rfl
@[simp] theorem waitOn_focus (s : State) (c : Nat) (e : Engine) (st : EngState) (h : Hold) (i : Instr) : (s.waitOn c e st h i).focus = s.focus := rfl
@[simp] theorem waitOn_agenda (s : State) (c : Nat) (e : Engine) (st : EngState) (h : Hold) (i : Instr) : (s.waitOn c e st h i).agenda = s.agenda := rfl
@[simp] theorem waitOn_turns (s : State) (c : Nat) (e : Engine) (st : EngState) (h : Hold) (i : Instr) : (s.waitOn c e st h i).turns = s.turns := rfl
@[simp] theorem waitOn_opNext (s : State) (c : Nat) (e : Engine) (st : EngState) (h : Hold) (i : Instr) : (s.waitOn c e st h i).opNext = s.opNext := rfl
@[simp] theorem waitOn_seqNext (s : State) (c : Nat) (e : Engine) (st : EngState) (h : Hold) (i : Instr) : (s.waitOn c e st h i).seqNext = s.seqNext := rfl
@[simp] theorem waitOn_freshN (s : State) (c : Nat) (e : Engine) (st : EngState) (h : Hold) (i : Instr) : (s.waitOn c e st h i).freshN = s.freshN := rfl
@[simp] theorem waitOn_mem (s : State) (c : Nat) (e : Engine) (st : EngState) (h : Hold) (i : Instr) : (s.waitOn c e st h i).mem = s.mem := rfl
@[simp] theorem waitOn_poison (s : State) (c : Nat) (e : Engine) (st : EngState) (h : Hold) (i : Instr) : (s.waitOn c e st h i).poison = s.poison := rfl
@[simp] theorem waitOn_undo (s : State) (c : Nat) (e : Engine) (st : EngState) (h : Hold) (i : Instr) : (s.waitOn c e st h i).undo = s.undo := rfl
@[simp] theorem waitOn_ops (s : State) (c : Nat) (e : Engine) (st : EngState) (h : Hold) (i : Instr) : (s.waitOn c e st h i).ops = s.ops := rfl
@[simp] theorem waitOn_cores (s : State) (c : Nat) (e : Engine) (st : EngState) (h : Hold) (i : Instr) : (s.waitOn c e st h i).cores = s.cores := rfl
@[simp] theorem waitOn_clusters (s : State) (c : Nat) (e : Engine) (st : EngState) (h : Hold) (i : Instr) : (s.waitOn c e st h i).clusters = s.clusters := rfl
@[simp] theorem waitOn_dies (s : State) (c : Nat) (e : Engine) (st : EngState) (h : Hold) (i : Instr) : (s.waitOn c e st h i).dies = s.dies := rfl
@[simp] theorem waitOn_links (s : State) (c : Nat) (e : Engine) (st : EngState) (h : Hold) (i : Instr) : (s.waitOn c e st h i).links = s.links := rfl
@[simp] theorem waitOn_job (s : State) (c : Nat) (e : Engine) (st : EngState) (h : Hold) (i : Instr) : (s.waitOn c e st h i).job = s.job := rfl
@[simp] theorem waitOn_host (s : State) (c : Nat) (e : Engine) (st : EngState) (h : Hold) (i : Instr) : (s.waitOn c e st h i).host = s.host := rfl

/-! ### logEntry -/

@[simp] theorem logEntry_cycle (s : State) (e : LogEntry) : (s.logEntry e).cycle = s.cycle := rfl
@[simp] theorem logEntry_focus (s : State) (e : LogEntry) : (s.logEntry e).focus = s.focus := rfl
@[simp] theorem logEntry_agenda (s : State) (e : LogEntry) : (s.logEntry e).agenda = s.agenda := rfl
@[simp] theorem logEntry_turns (s : State) (e : LogEntry) : (s.logEntry e).turns = s.turns := rfl
@[simp] theorem logEntry_opNext (s : State) (e : LogEntry) : (s.logEntry e).opNext = s.opNext := rfl
@[simp] theorem logEntry_seqNext (s : State) (e : LogEntry) : (s.logEntry e).seqNext = s.seqNext := rfl
@[simp] theorem logEntry_freshN (s : State) (e : LogEntry) : (s.logEntry e).freshN = s.freshN := rfl
@[simp] theorem logEntry_mem (s : State) (e : LogEntry) : (s.logEntry e).mem = s.mem := rfl
@[simp] theorem logEntry_poison (s : State) (e : LogEntry) : (s.logEntry e).poison = s.poison := rfl
@[simp] theorem logEntry_undo (s : State) (e : LogEntry) : (s.logEntry e).undo = s.undo := rfl
@[simp] theorem logEntry_ops (s : State) (e : LogEntry) : (s.logEntry e).ops = s.ops := rfl
@[simp] theorem logEntry_ctxs (s : State) (e : LogEntry) : (s.logEntry e).ctxs = s.ctxs := rfl
@[simp] theorem logEntry_cores (s : State) (e : LogEntry) : (s.logEntry e).cores = s.cores := rfl
@[simp] theorem logEntry_clusters (s : State) (e : LogEntry) : (s.logEntry e).clusters = s.clusters := rfl
@[simp] theorem logEntry_dies (s : State) (e : LogEntry) : (s.logEntry e).dies = s.dies := rfl
@[simp] theorem logEntry_links (s : State) (e : LogEntry) : (s.logEntry e).links = s.links := rfl
@[simp] theorem logEntry_job (s : State) (e : LogEntry) : (s.logEntry e).job = s.job := rfl

/-! ### msi -/

@[simp] theorem msi_cycle (s : State) (v : Nat) : (s.msi v).cycle = s.cycle := rfl
@[simp] theorem msi_focus (s : State) (v : Nat) : (s.msi v).focus = s.focus := rfl
@[simp] theorem msi_agenda (s : State) (v : Nat) : (s.msi v).agenda = s.agenda := rfl
@[simp] theorem msi_turns (s : State) (v : Nat) : (s.msi v).turns = s.turns := rfl
@[simp] theorem msi_opNext (s : State) (v : Nat) : (s.msi v).opNext = s.opNext := rfl
@[simp] theorem msi_seqNext (s : State) (v : Nat) : (s.msi v).seqNext = s.seqNext := rfl
@[simp] theorem msi_freshN (s : State) (v : Nat) : (s.msi v).freshN = s.freshN := rfl
@[simp] theorem msi_mem (s : State) (v : Nat) : (s.msi v).mem = s.mem := rfl
@[simp] theorem msi_poison (s : State) (v : Nat) : (s.msi v).poison = s.poison := rfl
@[simp] theorem msi_undo (s : State) (v : Nat) : (s.msi v).undo = s.undo := rfl
@[simp] theorem msi_ops (s : State) (v : Nat) : (s.msi v).ops = s.ops := rfl
@[simp] theorem msi_ctxs (s : State) (v : Nat) : (s.msi v).ctxs = s.ctxs := rfl
@[simp] theorem msi_cores (s : State) (v : Nat) : (s.msi v).cores = s.cores := rfl
@[simp] theorem msi_clusters (s : State) (v : Nat) : (s.msi v).clusters = s.clusters := rfl
@[simp] theorem msi_dies (s : State) (v : Nat) : (s.msi v).dies = s.dies := rfl
@[simp] theorem msi_links (s : State) (v : Nat) : (s.msi v).links = s.links := rfl
@[simp] theorem msi_job (s : State) (v : Nat) : (s.msi v).job = s.job := rfl

/-! ## Reads after updates -/

@[simp] theorem ctx_setCtx (s : State) (c d : Nat) (x : Ctx) : (s.setCtx c x).ctx d = if d = c then x else s.ctx d :=
  tgetD_tset ..
@[simp] theorem ctx_modCtx (s : State) (c d : Nat) (f : Ctx → Ctx) :
    (s.modCtx c f).ctx d = if d = c then f (s.ctx c) else s.ctx d := tgetD_tset ..
@[simp] theorem core_modCore (s : State) (k n : Nat) (f : Core → Core) :
    (s.modCore k f).core n = if n = k then f (s.core k) else s.core n := tgetD_tset ..
@[simp] theorem die_modDie (s : State) (d n : Nat) (f : Die → Die) :
    (s.modDie d f).die n = if n = d then f (s.die d) else s.die n := tgetD_tset ..
@[simp] theorem cluster_modCluster (s : State) (g n : Nat) (f : Cluster → Cluster) :
    (s.modCluster g f).cluster n = if n = g then f (s.cluster g) else s.cluster n := tgetD_tset ..
@[simp] theorem op_setOp (s : State) (n m : Nat) (o : Op) : (s.setOp n o).op? m = if m = n then some o else s.op? m :=
  tget_tset ..
@[simp] theorem op_delOp (s : State) (n m : Nat) : (s.delOp n).op? m = if m = n then none else s.op? m := tget_tdel ..
theorem op_modOp (s : State) (n m : Nat) (f : Op → Op) :
    (s.modOp n f).op? m = if m = n then (s.op? n).map f else s.op? m := by
  unfold State.modOp State.op?
  split
  · rename_i o h
    simp only [State.setOp, tget_tset, h]
    rfl
  · rename_i h
    split
    · simp_all
    · rfl
theorem unit_modUnit (s : State) (u v : Nat) (f : UnitRec → UnitRec) :
    (s.modUnit u f).unit? v = if v = u then (s.unit? u).map f else s.unit? v := by
  unfold State.modUnit State.unit?
  split
  · rename_i r h
    simp only [State.modJob, tget_tset, h]
    rfl
  · rename_i h
    split
    · simp_all
    · rfl
theorem launch_modLaunch (s : State) (l n : Nat) (f : LaunchRec → LaunchRec) :
    (s.modLaunch l f).launch? n = if n = l then (s.launch? l).map f else s.launch? n := by
  unfold State.modLaunch State.launch?
  split
  · rename_i r h
    simp only [State.modJob, tget_tset, h]
    rfl
  · rename_i h
    split
    · simp_all
    · rfl
@[simp] theorem modUnit_launches (s : State) (u : Nat) (f : UnitRec → UnitRec) : (s.modUnit u f).job.launches = s.job.launches := by
  unfold State.modUnit; split <;> rfl
@[simp] theorem modLaunch_units (s : State) (l : Nat) (f : LaunchRec → LaunchRec) : (s.modLaunch l f).job.units = s.job.units := by
  unfold State.modLaunch; split <;> rfl

/-! ## Reads that an update leaves alone -/

@[simp] theorem core_setCtx_left (s : State) (c : Nat) (x : Ctx) (at_ : Nat) : (s.setCtx c x).core at_ = s.core at_ := rfl
@[simp] theorem die_setCtx_left (s : State) (c : Nat) (x : Ctx) (at_ : Nat) : (s.setCtx c x).die at_ = s.die at_ := rfl
@[simp] theorem cluster_setCtx_left (s : State) (c : Nat) (x : Ctx) (at_ : Nat) : (s.setCtx c x).cluster at_ = s.cluster at_ := rfl
@[simp] theorem op_setCtx_left (s : State) (c : Nat) (x : Ctx) (at_ : Nat) : (s.setCtx c x).op? at_ = s.op? at_ := rfl
@[simp] theorem unit_setCtx_left (s : State) (c : Nat) (x : Ctx) (at_ : Nat) : (s.setCtx c x).unit? at_ = s.unit? at_ := rfl
@[simp] theorem launch_setCtx_left (s : State) (c : Nat) (x : Ctx) (at_ : Nat) : (s.setCtx c x).launch? at_ = s.launch? at_ := rfl
@[simp] theorem core_modCtx_left (s : State) (c : Nat) (f : Ctx → Ctx) (at_ : Nat) : (s.modCtx c f).core at_ = s.core at_ := rfl
@[simp] theorem die_modCtx_left (s : State) (c : Nat) (f : Ctx → Ctx) (at_ : Nat) : (s.modCtx c f).die at_ = s.die at_ := rfl
@[simp] theorem cluster_modCtx_left (s : State) (c : Nat) (f : Ctx → Ctx) (at_ : Nat) : (s.modCtx c f).cluster at_ = s.cluster at_ := rfl
@[simp] theorem op_modCtx_left (s : State) (c : Nat) (f : Ctx → Ctx) (at_ : Nat) : (s.modCtx c f).op? at_ = s.op? at_ := rfl
@[simp] theorem unit_modCtx_left (s : State) (c : Nat) (f : Ctx → Ctx) (at_ : Nat) : (s.modCtx c f).unit? at_ = s.unit? at_ := rfl
@[simp] theorem launch_modCtx_left (s : State) (c : Nat) (f : Ctx → Ctx) (at_ : Nat) : (s.modCtx c f).launch? at_ = s.launch? at_ := rfl
@[simp] theorem core_modEng_left (s : State) (c : Nat) (e : Engine) (f : Eng → Eng) (at_ : Nat) : (s.modEng c e f).core at_ = s.core at_ := rfl
@[simp] theorem die_modEng_left (s : State) (c : Nat) (e : Engine) (f : Eng → Eng) (at_ : Nat) : (s.modEng c e f).die at_ = s.die at_ := rfl
@[simp] theorem cluster_modEng_left (s : State) (c : Nat) (e : Engine) (f : Eng → Eng) (at_ : Nat) : (s.modEng c e f).cluster at_ = s.cluster at_ := rfl
@[simp] theorem op_modEng_left (s : State) (c : Nat) (e : Engine) (f : Eng → Eng) (at_ : Nat) : (s.modEng c e f).op? at_ = s.op? at_ := rfl
@[simp] theorem unit_modEng_left (s : State) (c : Nat) (e : Engine) (f : Eng → Eng) (at_ : Nat) : (s.modEng c e f).unit? at_ = s.unit? at_ := rfl
@[simp] theorem launch_modEng_left (s : State) (c : Nat) (e : Engine) (f : Eng → Eng) (at_ : Nat) : (s.modEng c e f).launch? at_ = s.launch? at_ := rfl
@[simp] theorem ctx_modCore_left (s : State) (k : Nat) (f : Core → Core) (at_ : Nat) : (s.modCore k f).ctx at_ = s.ctx at_ := rfl
@[simp] theorem die_modCore_left (s : State) (k : Nat) (f : Core → Core) (at_ : Nat) : (s.modCore k f).die at_ = s.die at_ := rfl
@[simp] theorem cluster_modCore_left (s : State) (k : Nat) (f : Core → Core) (at_ : Nat) : (s.modCore k f).cluster at_ = s.cluster at_ := rfl
@[simp] theorem op_modCore_left (s : State) (k : Nat) (f : Core → Core) (at_ : Nat) : (s.modCore k f).op? at_ = s.op? at_ := rfl
@[simp] theorem unit_modCore_left (s : State) (k : Nat) (f : Core → Core) (at_ : Nat) : (s.modCore k f).unit? at_ = s.unit? at_ := rfl
@[simp] theorem launch_modCore_left (s : State) (k : Nat) (f : Core → Core) (at_ : Nat) : (s.modCore k f).launch? at_ = s.launch? at_ := rfl
@[simp] theorem ctx_modDie_left (s : State) (d : Nat) (f : Die → Die) (at_ : Nat) : (s.modDie d f).ctx at_ = s.ctx at_ := rfl
@[simp] theorem core_modDie_left (s : State) (d : Nat) (f : Die → Die) (at_ : Nat) : (s.modDie d f).core at_ = s.core at_ := rfl
@[simp] theorem cluster_modDie_left (s : State) (d : Nat) (f : Die → Die) (at_ : Nat) : (s.modDie d f).cluster at_ = s.cluster at_ := rfl
@[simp] theorem op_modDie_left (s : State) (d : Nat) (f : Die → Die) (at_ : Nat) : (s.modDie d f).op? at_ = s.op? at_ := rfl
@[simp] theorem unit_modDie_left (s : State) (d : Nat) (f : Die → Die) (at_ : Nat) : (s.modDie d f).unit? at_ = s.unit? at_ := rfl
@[simp] theorem launch_modDie_left (s : State) (d : Nat) (f : Die → Die) (at_ : Nat) : (s.modDie d f).launch? at_ = s.launch? at_ := rfl
@[simp] theorem ctx_modCluster_left (s : State) (g : Nat) (f : Cluster → Cluster) (at_ : Nat) : (s.modCluster g f).ctx at_ = s.ctx at_ := rfl
@[simp] theorem core_modCluster_left (s : State) (g : Nat) (f : Cluster → Cluster) (at_ : Nat) : (s.modCluster g f).core at_ = s.core at_ := rfl
@[simp] theorem die_modCluster_left (s : State) (g : Nat) (f : Cluster → Cluster) (at_ : Nat) : (s.modCluster g f).die at_ = s.die at_ := rfl
@[simp] theorem op_modCluster_left (s : State) (g : Nat) (f : Cluster → Cluster) (at_ : Nat) : (s.modCluster g f).op? at_ = s.op? at_ := rfl
@[simp] theorem unit_modCluster_left (s : State) (g : Nat) (f : Cluster → Cluster) (at_ : Nat) : (s.modCluster g f).unit? at_ = s.unit? at_ := rfl
@[simp] theorem launch_modCluster_left (s : State) (g : Nat) (f : Cluster → Cluster) (at_ : Nat) : (s.modCluster g f).launch? at_ = s.launch? at_ := rfl
@[simp] theorem ctx_modJob_left (s : State) (f : Job → Job) (at_ : Nat) : (s.modJob f).ctx at_ = s.ctx at_ := rfl
@[simp] theorem core_modJob_left (s : State) (f : Job → Job) (at_ : Nat) : (s.modJob f).core at_ = s.core at_ := rfl
@[simp] theorem die_modJob_left (s : State) (f : Job → Job) (at_ : Nat) : (s.modJob f).die at_ = s.die at_ := rfl
@[simp] theorem cluster_modJob_left (s : State) (f : Job → Job) (at_ : Nat) : (s.modJob f).cluster at_ = s.cluster at_ := rfl
@[simp] theorem op_modJob_left (s : State) (f : Job → Job) (at_ : Nat) : (s.modJob f).op? at_ = s.op? at_ := rfl
@[simp] theorem ctx_modHost_left (s : State) (f : HostIf → HostIf) (at_ : Nat) : (s.modHost f).ctx at_ = s.ctx at_ := rfl
@[simp] theorem core_modHost_left (s : State) (f : HostIf → HostIf) (at_ : Nat) : (s.modHost f).core at_ = s.core at_ := rfl
@[simp] theorem die_modHost_left (s : State) (f : HostIf → HostIf) (at_ : Nat) : (s.modHost f).die at_ = s.die at_ := rfl
@[simp] theorem cluster_modHost_left (s : State) (f : HostIf → HostIf) (at_ : Nat) : (s.modHost f).cluster at_ = s.cluster at_ := rfl
@[simp] theorem op_modHost_left (s : State) (f : HostIf → HostIf) (at_ : Nat) : (s.modHost f).op? at_ = s.op? at_ := rfl
@[simp] theorem unit_modHost_left (s : State) (f : HostIf → HostIf) (at_ : Nat) : (s.modHost f).unit? at_ = s.unit? at_ := rfl
@[simp] theorem launch_modHost_left (s : State) (f : HostIf → HostIf) (at_ : Nat) : (s.modHost f).launch? at_ = s.launch? at_ := rfl
@[simp] theorem ctx_setOp_left (s : State) (n : Nat) (o : Op) (at_ : Nat) : (s.setOp n o).ctx at_ = s.ctx at_ := rfl
@[simp] theorem core_setOp_left (s : State) (n : Nat) (o : Op) (at_ : Nat) : (s.setOp n o).core at_ = s.core at_ := rfl
@[simp] theorem die_setOp_left (s : State) (n : Nat) (o : Op) (at_ : Nat) : (s.setOp n o).die at_ = s.die at_ := rfl
@[simp] theorem cluster_setOp_left (s : State) (n : Nat) (o : Op) (at_ : Nat) : (s.setOp n o).cluster at_ = s.cluster at_ := rfl
@[simp] theorem unit_setOp_left (s : State) (n : Nat) (o : Op) (at_ : Nat) : (s.setOp n o).unit? at_ = s.unit? at_ := rfl
@[simp] theorem launch_setOp_left (s : State) (n : Nat) (o : Op) (at_ : Nat) : (s.setOp n o).launch? at_ = s.launch? at_ := rfl
@[simp] theorem ctx_delOp_left (s : State) (n : Nat) (at_ : Nat) : (s.delOp n).ctx at_ = s.ctx at_ := rfl
@[simp] theorem core_delOp_left (s : State) (n : Nat) (at_ : Nat) : (s.delOp n).core at_ = s.core at_ := rfl
@[simp] theorem die_delOp_left (s : State) (n : Nat) (at_ : Nat) : (s.delOp n).die at_ = s.die at_ := rfl
@[simp] theorem cluster_delOp_left (s : State) (n : Nat) (at_ : Nat) : (s.delOp n).cluster at_ = s.cluster at_ := rfl
@[simp] theorem unit_delOp_left (s : State) (n : Nat) (at_ : Nat) : (s.delOp n).unit? at_ = s.unit? at_ := rfl
@[simp] theorem launch_delOp_left (s : State) (n : Nat) (at_ : Nat) : (s.delOp n).launch? at_ = s.launch? at_ := rfl
@[simp] theorem ctx_modOp_left (s : State) (n : Nat) (f : Op → Op) (at_ : Nat) : (s.modOp n f).ctx at_ = s.ctx at_ := by unfold State.modOp; split <;> rfl
@[simp] theorem core_modOp_left (s : State) (n : Nat) (f : Op → Op) (at_ : Nat) : (s.modOp n f).core at_ = s.core at_ := by unfold State.modOp; split <;> rfl
@[simp] theorem die_modOp_left (s : State) (n : Nat) (f : Op → Op) (at_ : Nat) : (s.modOp n f).die at_ = s.die at_ := by unfold State.modOp; split <;> rfl
@[simp] theorem cluster_modOp_left (s : State) (n : Nat) (f : Op → Op) (at_ : Nat) : (s.modOp n f).cluster at_ = s.cluster at_ := by unfold State.modOp; split <;> rfl
@[simp] theorem unit_modOp_left (s : State) (n : Nat) (f : Op → Op) (at_ : Nat) : (s.modOp n f).unit? at_ = s.unit? at_ := by unfold State.modOp; split <;> rfl
@[simp] theorem launch_modOp_left (s : State) (n : Nat) (f : Op → Op) (at_ : Nat) : (s.modOp n f).launch? at_ = s.launch? at_ := by unfold State.modOp; split <;> rfl
@[simp] theorem ctx_modUnit_left (s : State) (u : Nat) (f : UnitRec → UnitRec) (at_ : Nat) : (s.modUnit u f).ctx at_ = s.ctx at_ := by unfold State.modUnit; split <;> rfl
@[simp] theorem core_modUnit_left (s : State) (u : Nat) (f : UnitRec → UnitRec) (at_ : Nat) : (s.modUnit u f).core at_ = s.core at_ := by unfold State.modUnit; split <;> rfl
@[simp] theorem die_modUnit_left (s : State) (u : Nat) (f : UnitRec → UnitRec) (at_ : Nat) : (s.modUnit u f).die at_ = s.die at_ := by unfold State.modUnit; split <;> rfl
@[simp] theorem cluster_modUnit_left (s : State) (u : Nat) (f : UnitRec → UnitRec) (at_ : Nat) : (s.modUnit u f).cluster at_ = s.cluster at_ := by unfold State.modUnit; split <;> rfl
@[simp] theorem op_modUnit_left (s : State) (u : Nat) (f : UnitRec → UnitRec) (at_ : Nat) : (s.modUnit u f).op? at_ = s.op? at_ := by unfold State.modUnit; split <;> rfl
@[simp] theorem ctx_modLaunch_left (s : State) (l : Nat) (f : LaunchRec → LaunchRec) (at_ : Nat) : (s.modLaunch l f).ctx at_ = s.ctx at_ := by unfold State.modLaunch; split <;> rfl
@[simp] theorem core_modLaunch_left (s : State) (l : Nat) (f : LaunchRec → LaunchRec) (at_ : Nat) : (s.modLaunch l f).core at_ = s.core at_ := by unfold State.modLaunch; split <;> rfl
@[simp] theorem die_modLaunch_left (s : State) (l : Nat) (f : LaunchRec → LaunchRec) (at_ : Nat) : (s.modLaunch l f).die at_ = s.die at_ := by unfold State.modLaunch; split <;> rfl
@[simp] theorem cluster_modLaunch_left (s : State) (l : Nat) (f : LaunchRec → LaunchRec) (at_ : Nat) : (s.modLaunch l f).cluster at_ = s.cluster at_ := by unfold State.modLaunch; split <;> rfl
@[simp] theorem op_modLaunch_left (s : State) (l : Nat) (f : LaunchRec → LaunchRec) (at_ : Nat) : (s.modLaunch l f).op? at_ = s.op? at_ := by unfold State.modLaunch; split <;> rfl
@[simp] theorem core_land_left (s : State) (c : Nat) (e : Engine) (n : Nat) (a : Land) (h : List Acc) (at_ : Nat) : (s.land c e n a h).core at_ = s.core at_ := rfl
@[simp] theorem die_land_left (s : State) (c : Nat) (e : Engine) (n : Nat) (a : Land) (h : List Acc) (at_ : Nat) : (s.land c e n a h).die at_ = s.die at_ := rfl
@[simp] theorem cluster_land_left (s : State) (c : Nat) (e : Engine) (n : Nat) (a : Land) (h : List Acc) (at_ : Nat) : (s.land c e n a h).cluster at_ = s.cluster at_ := rfl
@[simp] theorem op_land_left (s : State) (c : Nat) (e : Engine) (n : Nat) (a : Land) (h : List Acc) (at_ : Nat) : (s.land c e n a h).op? at_ = s.op? at_ := rfl
@[simp] theorem unit_land_left (s : State) (c : Nat) (e : Engine) (n : Nat) (a : Land) (h : List Acc) (at_ : Nat) : (s.land c e n a h).unit? at_ = s.unit? at_ := rfl
@[simp] theorem launch_land_left (s : State) (c : Nat) (e : Engine) (n : Nat) (a : Land) (h : List Acc) (at_ : Nat) : (s.land c e n a h).launch? at_ = s.launch? at_ := rfl
@[simp] theorem core_putS_left (s : State) (c r n : Nat) (v : Word) (at_ : Nat) : (s.putS c r n v).core at_ = s.core at_ := by unfold State.putS; split <;> rfl
@[simp] theorem die_putS_left (s : State) (c r n : Nat) (v : Word) (at_ : Nat) : (s.putS c r n v).die at_ = s.die at_ := by unfold State.putS; split <;> rfl
@[simp] theorem cluster_putS_left (s : State) (c r n : Nat) (v : Word) (at_ : Nat) : (s.putS c r n v).cluster at_ = s.cluster at_ := by unfold State.putS; split <;> rfl
@[simp] theorem op_putS_left (s : State) (c r n : Nat) (v : Word) (at_ : Nat) : (s.putS c r n v).op? at_ = s.op? at_ := by unfold State.putS; split <;> rfl
@[simp] theorem unit_putS_left (s : State) (c r n : Nat) (v : Word) (at_ : Nat) : (s.putS c r n v).unit? at_ = s.unit? at_ := by unfold State.putS; split <;> rfl
@[simp] theorem launch_putS_left (s : State) (c r n : Nat) (v : Word) (at_ : Nat) : (s.putS c r n v).launch? at_ = s.launch? at_ := by unfold State.putS; split <;> rfl
@[simp] theorem ctx_writePhys_left (s : State) (a : Nat) (l : List Byte) (at_ : Nat) : (s.writePhys a l).ctx at_ = s.ctx at_ := rfl
@[simp] theorem core_writePhys_left (s : State) (a : Nat) (l : List Byte) (at_ : Nat) : (s.writePhys a l).core at_ = s.core at_ := rfl
@[simp] theorem die_writePhys_left (s : State) (a : Nat) (l : List Byte) (at_ : Nat) : (s.writePhys a l).die at_ = s.die at_ := rfl
@[simp] theorem cluster_writePhys_left (s : State) (a : Nat) (l : List Byte) (at_ : Nat) : (s.writePhys a l).cluster at_ = s.cluster at_ := rfl
@[simp] theorem op_writePhys_left (s : State) (a : Nat) (l : List Byte) (at_ : Nat) : (s.writePhys a l).op? at_ = s.op? at_ := rfl
@[simp] theorem unit_writePhys_left (s : State) (a : Nat) (l : List Byte) (at_ : Nat) : (s.writePhys a l).unit? at_ = s.unit? at_ := rfl
@[simp] theorem launch_writePhys_left (s : State) (a : Nat) (l : List Byte) (at_ : Nat) : (s.writePhys a l).launch? at_ = s.launch? at_ := rfl
@[simp] theorem core_waitOn_left (s : State) (c : Nat) (e : Engine) (st : EngState) (h : Hold) (i : Instr) (at_ : Nat) : (s.waitOn c e st h i).core at_ = s.core at_ := rfl
@[simp] theorem die_waitOn_left (s : State) (c : Nat) (e : Engine) (st : EngState) (h : Hold) (i : Instr) (at_ : Nat) : (s.waitOn c e st h i).die at_ = s.die at_ := rfl
@[simp] theorem cluster_waitOn_left (s : State) (c : Nat) (e : Engine) (st : EngState) (h : Hold) (i : Instr) (at_ : Nat) : (s.waitOn c e st h i).cluster at_ = s.cluster at_ := rfl
@[simp] theorem op_waitOn_left (s : State) (c : Nat) (e : Engine) (st : EngState) (h : Hold) (i : Instr) (at_ : Nat) : (s.waitOn c e st h i).op? at_ = s.op? at_ := rfl
@[simp] theorem unit_waitOn_left (s : State) (c : Nat) (e : Engine) (st : EngState) (h : Hold) (i : Instr) (at_ : Nat) : (s.waitOn c e st h i).unit? at_ = s.unit? at_ := rfl
@[simp] theorem launch_waitOn_left (s : State) (c : Nat) (e : Engine) (st : EngState) (h : Hold) (i : Instr) (at_ : Nat) : (s.waitOn c e st h i).launch? at_ = s.launch? at_ := rfl
@[simp] theorem ctx_logEntry_left (s : State) (e : LogEntry) (at_ : Nat) : (s.logEntry e).ctx at_ = s.ctx at_ := rfl
@[simp] theorem core_logEntry_left (s : State) (e : LogEntry) (at_ : Nat) : (s.logEntry e).core at_ = s.core at_ := rfl
@[simp] theorem die_logEntry_left (s : State) (e : LogEntry) (at_ : Nat) : (s.logEntry e).die at_ = s.die at_ := rfl
@[simp] theorem cluster_logEntry_left (s : State) (e : LogEntry) (at_ : Nat) : (s.logEntry e).cluster at_ = s.cluster at_ := rfl
@[simp] theorem op_logEntry_left (s : State) (e : LogEntry) (at_ : Nat) : (s.logEntry e).op? at_ = s.op? at_ := rfl
@[simp] theorem unit_logEntry_left (s : State) (e : LogEntry) (at_ : Nat) : (s.logEntry e).unit? at_ = s.unit? at_ := rfl
@[simp] theorem launch_logEntry_left (s : State) (e : LogEntry) (at_ : Nat) : (s.logEntry e).launch? at_ = s.launch? at_ := rfl
@[simp] theorem ctx_msi_left (s : State) (v : Nat) (at_ : Nat) : (s.msi v).ctx at_ = s.ctx at_ := rfl
@[simp] theorem core_msi_left (s : State) (v : Nat) (at_ : Nat) : (s.msi v).core at_ = s.core at_ := rfl
@[simp] theorem die_msi_left (s : State) (v : Nat) (at_ : Nat) : (s.msi v).die at_ = s.die at_ := rfl
@[simp] theorem cluster_msi_left (s : State) (v : Nat) (at_ : Nat) : (s.msi v).cluster at_ = s.cluster at_ := rfl
@[simp] theorem op_msi_left (s : State) (v : Nat) (at_ : Nat) : (s.msi v).op? at_ = s.op? at_ := rfl
@[simp] theorem unit_msi_left (s : State) (v : Nat) (at_ : Nat) : (s.msi v).unit? at_ = s.unit? at_ := rfl
@[simp] theorem launch_msi_left (s : State) (v : Nat) (at_ : Nat) : (s.msi v).launch? at_ = s.launch? at_ := rfl

/-! ## Engines of a context -/

@[simp] theorem eng_setEng_same (x : Ctx) (e : Engine) (n : Eng) : (x.setEng e n).eng e = n := by cases e <;> rfl
theorem eng_setEng (x : Ctx) (e g : Engine) (n : Eng) : (x.setEng e n).eng g = if g = e then n else x.eng g := by
  cases e <;> cases g <;> rfl
theorem eng_modEng (s : State) (c d : Nat) (e g : Engine) (f : Eng → Eng) :
    (s.modEng c e f).eng d g = if d = c ∧ g = e then f (s.eng c e) else s.eng d g := by
  simp only [State.eng, State.modEng, ctx_modCtx, Ctx.modEng]
  by_cases hd : d = c
  · subst d
    rw [if_pos rfl, eng_setEng]
    by_cases hg : g = e <;> simp [hg]
  · simp [hd]

@[simp] theorem setEng_unit (x : Ctx) (e : Engine) (n : Eng) : (x.setEng e n).unit = x.unit := by cases e <;> rfl
@[simp] theorem ctxModEng_unit (x : Ctx) (e : Engine) (f : Eng → Eng) : (x.modEng e f).unit = x.unit := setEng_unit ..
@[simp] theorem setEng_mode (x : Ctx) (e : Engine) (n : Eng) : (x.setEng e n).mode = x.mode := by cases e <;> rfl
@[simp] theorem ctxModEng_mode (x : Ctx) (e : Engine) (f : Eng → Eng) : (x.modEng e f).mode = x.mode := setEng_mode ..
@[simp] theorem setEng_depth (x : Ctx) (e : Engine) (n : Eng) : (x.setEng e n).depth = x.depth := by cases e <;> rfl
@[simp] theorem ctxModEng_depth (x : Ctx) (e : Engine) (f : Eng → Eng) : (x.modEng e f).depth = x.depth := setEng_depth ..
@[simp] theorem setEng_foot (x : Ctx) (e : Engine) (n : Eng) : (x.setEng e n).foot = x.foot := by cases e <;> rfl
@[simp] theorem ctxModEng_foot (x : Ctx) (e : Engine) (f : Eng → Eng) : (x.modEng e f).foot = x.foot := setEng_foot ..
@[simp] theorem setEng_base (x : Ctx) (e : Engine) (n : Eng) : (x.setEng e n).base = x.base := by cases e <;> rfl
@[simp] theorem ctxModEng_base (x : Ctx) (e : Engine) (f : Eng → Eng) : (x.modEng e f).base = x.base := setEng_base ..
@[simp] theorem setEng_regs (x : Ctx) (e : Engine) (n : Eng) : (x.setEng e n).regs = x.regs := by cases e <;> rfl
@[simp] theorem ctxModEng_regs (x : Ctx) (e : Engine) (f : Eng → Eng) : (x.modEng e f).regs = x.regs := setEng_regs ..
@[simp] theorem setEng_sprs (x : Ctx) (e : Engine) (n : Eng) : (x.setEng e n).sprs = x.sprs := by cases e <;> rfl
@[simp] theorem ctxModEng_sprs (x : Ctx) (e : Engine) (f : Eng → Eng) : (x.modEng e f).sprs = x.sprs := setEng_sprs ..
@[simp] theorem setEng_views (x : Ctx) (e : Engine) (n : Eng) : (x.setEng e n).views = x.views := by cases e <;> rfl
@[simp] theorem ctxModEng_views (x : Ctx) (e : Engine) (f : Eng → Eng) : (x.modEng e f).views = x.views := setEng_views ..
@[simp] theorem setEng_captured (x : Ctx) (e : Engine) (n : Eng) : (x.setEng e n).captured = x.captured := by cases e <;> rfl
@[simp] theorem ctxModEng_captured (x : Ctx) (e : Engine) (f : Eng → Eng) : (x.modEng e f).captured = x.captured := setEng_captured ..
@[simp] theorem setEng_gran (x : Ctx) (e : Engine) (n : Eng) : (x.setEng e n).gran = x.gran := by cases e <;> rfl
@[simp] theorem ctxModEng_gran (x : Ctx) (e : Engine) (f : Eng → Eng) : (x.modEng e f).gran = x.gran := setEng_gran ..
@[simp] theorem setEng_ports (x : Ctx) (e : Engine) (n : Eng) : (x.setEng e n).ports = x.ports := by cases e <;> rfl
@[simp] theorem ctxModEng_ports (x : Ctx) (e : Engine) (f : Eng → Eng) : (x.modEng e f).ports = x.ports := setEng_ports ..
@[simp] theorem setEng_stopped (x : Ctx) (e : Engine) (n : Eng) : (x.setEng e n).stopped = x.stopped := by cases e <;> rfl
@[simp] theorem ctxModEng_stopped (x : Ctx) (e : Engine) (f : Eng → Eng) : (x.modEng e f).stopped = x.stopped := setEng_stopped ..
@[simp] theorem setEng_lands (x : Ctx) (e : Engine) (n : Eng) : (x.setEng e n).lands = x.lands := by cases e <;> rfl
@[simp] theorem ctxModEng_lands (x : Ctx) (e : Engine) (f : Eng → Eng) : (x.modEng e f).lands = x.lands := setEng_lands ..
@[simp] theorem setEng_pend (x : Ctx) (e : Engine) (n : Eng) : (x.setEng e n).pend = x.pend := by cases e <;> rfl
@[simp] theorem ctxModEng_pend (x : Ctx) (e : Engine) (f : Eng → Eng) : (x.modEng e f).pend = x.pend := setEng_pend ..
@[simp] theorem setEng_handling (x : Ctx) (e : Engine) (n : Eng) : (x.setEng e n).handling = x.handling := by cases e <;> rfl
@[simp] theorem ctxModEng_handling (x : Ctx) (e : Engine) (f : Eng → Eng) : (x.modEng e f).handling = x.handling := setEng_handling ..
@[simp] theorem setEng_deadSince (x : Ctx) (e : Engine) (n : Eng) : (x.setEng e n).deadSince = x.deadSince := by cases e <;> rfl
@[simp] theorem ctxModEng_deadSince (x : Ctx) (e : Engine) (f : Eng → Eng) : (x.modEng e f).deadSince = x.deadSince := setEng_deadSince ..
@[simp] theorem setEng_flagCycle (x : Ctx) (e : Engine) (n : Eng) : (x.setEng e n).flagCycle = x.flagCycle := by cases e <;> rfl
@[simp] theorem ctxModEng_flagCycle (x : Ctx) (e : Engine) (f : Eng → Eng) : (x.modEng e f).flagCycle = x.flagCycle := setEng_flagCycle ..
@[simp] theorem setEng_flagBits (x : Ctx) (e : Engine) (n : Eng) : (x.setEng e n).flagBits = x.flagBits := by cases e <;> rfl
@[simp] theorem ctxModEng_flagBits (x : Ctx) (e : Engine) (f : Eng → Eng) : (x.modEng e f).flagBits = x.flagBits := setEng_flagBits ..
@[simp] theorem setEng_shadow0 (x : Ctx) (e : Engine) (n : Eng) : (x.setEng e n).shadow0 = x.shadow0 := by cases e <;> rfl
@[simp] theorem ctxModEng_shadow0 (x : Ctx) (e : Engine) (f : Eng → Eng) : (x.modEng e f).shadow0 = x.shadow0 := setEng_shadow0 ..
@[simp] theorem setEng_shadow1 (x : Ctx) (e : Engine) (n : Eng) : (x.setEng e n).shadow1 = x.shadow1 := by cases e <;> rfl
@[simp] theorem ctxModEng_shadow1 (x : Ctx) (e : Engine) (f : Eng → Eng) : (x.modEng e f).shadow1 = x.shadow1 := setEng_shadow1 ..
@[simp] theorem setEng_nest (x : Ctx) (e : Engine) (n : Eng) : (x.setEng e n).nest = x.nest := by cases e <;> rfl
@[simp] theorem ctxModEng_nest (x : Ctx) (e : Engine) (f : Eng → Eng) : (x.modEng e f).nest = x.nest := setEng_nest ..
@[simp] theorem setEng_lantern (x : Ctx) (e : Engine) (n : Eng) : (x.setEng e n).lantern = x.lantern := by cases e <;> rfl
@[simp] theorem ctxModEng_lantern (x : Ctx) (e : Engine) (f : Eng → Eng) : (x.modEng e f).lantern = x.lantern := setEng_lantern ..
@[simp] theorem setEng_mats (x : Ctx) (e : Engine) (n : Eng) : (x.setEng e n).mats = x.mats := by cases e <;> rfl
@[simp] theorem ctxModEng_mats (x : Ctx) (e : Engine) (f : Eng → Eng) : (x.modEng e f).mats = x.mats := setEng_mats ..
@[simp] theorem setEng_saving (x : Ctx) (e : Engine) (n : Eng) : (x.setEng e n).saving = x.saving := by cases e <;> rfl
@[simp] theorem ctxModEng_saving (x : Ctx) (e : Engine) (f : Eng → Eng) : (x.modEng e f).saving = x.saving := setEng_saving ..

/-! ## Registers -/

/-- s0 reads 0 whatever the tables hold (R66). -/
@[simp] theorem sr_zero (x : Ctx) : x.sr 0 = 0 := rfl
/-- m0 reads all ones (R66). -/
@[simp] theorem mr_zero (x : Ctx) : x.mr 0 = BitVec.allOnes 4096 := rfl
/-- k0 reads complete with promise 0 (R67). -/
@[simp] theorem tok_zero (x : Ctx) : x.tok 0 = {} := rfl

/-- An s register after a write to the copy in use: the value written, and s0 still 0 (R66, R248). -/
theorem sr_setS (x : Ctx) (r n : Nat) (v : Word) :
    ({ x with regs := x.regs.setS r x.inHandler v } : Ctx).sr n = if n = r ∧ r ≠ 0 then v else x.sr n := by
  unfold Ctx.sr Regs.setS
  by_cases hr : r = 0
  · subst hr; simp [Ctx.inHandler]
  · by_cases hn : n = 0
    · subst hn; simp [hr]; intro h; exact absurd h.symm hr
    · by_cases hh : (x.mode != .unit) = true
      · by_cases h6 : 56 ≤ r <;> by_cases h7 : 56 ≤ n <;> by_cases he : n = r <;>
          simp [Ctx.inHandler, tgetD_tset, hr, hn, hh, h6, h7, he] <;> first | (subst he; exact absurd h6 h7) | (subst he; exact absurd h7 h6) | omega
      · by_cases he : n = r <;> simp_all [Ctx.inHandler, tgetD_tset]

theorem tok_setTok (x : Ctx) (k n : Nat) (t : Token) : (x.setTok k t).tok n = if n = k ∧ k ≠ 0 then t else x.tok n := by
  unfold Ctx.tok Ctx.setTok
  by_cases hk : k = 0
  · subst hk; simp
  · by_cases hn : n = 0
    · subst hn; simp [hk]; intro h; exact absurd h.symm hk
    · by_cases he : n = k <;> simp_all [tgetD_tset]

theorem granAt_setGran (x : Ctx) (g n : Nat) (v : Gran) : (x.setGran g v).granAt n = if n = g then v else x.granAt n :=
  tgetD_tset ..

end Sys2Proof.Laws
end

