-- ==== Sys2Proof/Laws/Ops.lean ====
section
/-! SUPPORT. What the shared ends of an instruction give: committing, jumping, holding and trapping, and what each leaves. -/
namespace Sys2Proof.Laws
open Sys2Proof Sys2Proof.Machine

/-! ## Contexts after updates -/

theorem ctx_modEng (s : State) (c d : Nat) (e : Engine) (f : Eng → Eng) :
    (s.modEng c e f).ctx d = if d = c then (s.ctx c).modEng e f else s.ctx d := ctx_modCtx ..

theorem ctx_waitOn (s : State) (c d : Nat) (e : Engine) (st : EngState) (h : Hold) (i : Instr) :
    (s.waitOn c e st h i).ctx d = if d = c then
      (s.ctx c).modEng e fun n =>
        { n with
          st := st, hold := h, held := some i, age := some (n.age.getD s.cycle), left := s.cycle + 1, resumed := false }
      else s.ctx d :=
  ctx_modEng ..

/-- A result put in flight is the last of those of its context (R47). -/
theorem ctx_land (s : State) (c d : Nat) (e : Engine) (n : Nat) (a : Land) (h : List Acc) :
    (s.land c e n a h).ctx d = if d = c then
      { s.ctx c with lands := (s.ctx c).lands ++ [{ due := s.cycle + n, eng := e, seq := s.seqNext, act := a, hist := h }] }
      else s.ctx d := ctx_modCtx ..

theorem putS_zero (s : State) (c n : Nat) (v : Word) : s.putS c 0 n v = s := rfl

theorem putS_land (s : State) (c r n : Nat) (v : Word) (h : r ≠ 0) :
    s.putS c r n v = s.land c .c n (.sreg r (s.ctx c).inHandler v) := if_neg h

/-! ## Planted errors (R256) -/

/-- An INJECT that is not armed plants nothing. -/
theorem plant_disarmed (w : Word) (i : Instr) (chk : Checked) (h : w.getLsbD 63 = false) : plant w i chk = .none := by
  unfold plant injectMatches
  rw [h]
  rfl

/-! ## The four ends -/

theorem finishWith_done {i : Instr} {s : State} (h : Unplanted s) (chk : Checked) (t : State) :
    finishWith i s chk (.done t) = .next (t.retire i (fallThrough s i)) := by
  simp only [finishWith, plant_disarmed _ _ _ h, fallThrough]

theorem finishWith_jump {i : Instr} {s : State} (h : Unplanted s) (chk : Checked) (t : State) (p : Pos) :
    finishWith i s chk (.jump t p) = .next (t.retire i p) := by
  simp only [finishWith, plant_disarmed _ _ _ h]

theorem finishWith_wait (i : Instr) (s : State) (chk : Checked) (t : State) (st : EngState) (h : Hold) :
    finishWith i s chk (.wait t st h) = .next (t.waitOn s.focus (Instr.eng i) st h i) := rfl

theorem finishWith_trap (i : Instr) (s : State) (chk : Checked) (t : State) (tr : Trap) (h : tr.code ≠ tMcheck) :
    finishWith i s chk (.trap t tr) = .next (t.raise s.focus (tr.of s i)) := by
  simp only [finishWith, h, if_false]

theorem finishWith_gone (i : Instr) (s : State) (chk : Checked) (t : State) : finishWith i s chk (.gone t) = .next t := rfl

theorem finish_done {i : Instr} {s : State} (h : Unplanted s) (t : State) :
    finish i s (.done t) = .next (t.retire i (fallThrough s i)) := finishWith_done h _ t

theorem finish_jump {i : Instr} {s : State} (h : Unplanted s) (t : State) (p : Pos) :
    finish i s (.jump t p) = .next (t.retire i p) := finishWith_jump h _ t p

theorem finish_wait (i : Instr) (s t : State) (st : EngState) (h : Hold) :
    finish i s (.wait t st h) = .next (t.waitOn s.focus (Instr.eng i) st h i) := rfl

theorem finish_trap (i : Instr) (s t : State) (tr : Trap) (h : tr.code ≠ tMcheck) :
    finish i s (.trap t tr) = .next (t.raise s.focus (tr.of s i)) := finishWith_trap i s _ t tr h

theorem finish_gone (i : Instr) (s t : State) : finish i s (.gone t) = .next t := rfl

/-- Every instruction that ends in one of the four ways answers a next state. -/
theorem finishWith_next (i : Instr) (s : State) (chk : Checked) (r : Res) : ∃ t, finishWith i s chk r = .next t := by
  cases r <;> exact ⟨_, rfl⟩

theorem finish_next (i : Instr) (s : State) (r : Res) : ∃ t, finish i s r = .next t := finishWith_next i s _ r

/-! ## Registers still to be written (R367) -/

theorem sHold_free (s : State) (rs : List Nat) (k : Res) (h : ∀ r ∈ rs, s.sPending s.focus r = false) : s.sHold rs k = k := by
  unfold State.sHold
  rw [if_neg]
  simpa using h

theorem sHold_pending (s : State) (rs : List Nat) (k : Res) (h : ∃ r ∈ rs, s.sPending s.focus r = true) :
    s.sHold rs k = .wait s .waiting .sreg := by
  unfold State.sHold
  rw [if_pos]
  simpa using h

/-- The registers that an instruction names are settled, as register numbers. -/
theorem settled_nat {s : State} {rs : List (BitVec 6)} (h : Settled s rs) :
    ∀ r ∈ rs.map BitVec.toNat, s.sPending s.focus r = false := by
  intro r hr
  obtain ⟨q, hq, rfl⟩ := List.mem_map.1 hr
  exact h q hq

theorem sHold_settled {s : State} {rs : List (BitVec 6)} (h : Settled s rs) (k : Res) : s.sHold (rs.map BitVec.toNat) k = k :=
  sHold_free s _ k (settled_nat h)

theorem not_settled {s : State} {rs : List (BitVec 6)} (h : ¬ Settled s rs) (k : Res) :
    s.sHold (rs.map BitVec.toNat) k = .wait s .waiting .sreg := by
  apply sHold_pending
  by_cases hc : rs.all (fun r => s.sPending s.focus r.toNat == false) = true
  · exact absurd (fun r hr => by simpa using List.all_eq_true.1 hc r hr) h
  · simp only [List.all_eq_true, Classical.not_forall] at hc
    obtain ⟨r, hr, hp⟩ := hc
    exact ⟨r.toNat, List.mem_map.2 ⟨r, hr, rfl⟩, by simpa using hp⟩

end Sys2Proof.Laws
end

