-- ==== Sys2Proof/Laws/Memory.lean ====
section
/-! SUPPORT. Which operations leave memory as it is: one lemma for each operation on the state that stores nothing. -/
namespace Sys2Proof.Laws
open Sys2Proof Sys2Proof.Machine

/-- A fold of operations that leave memory as it is leaves it as it is. -/
theorem foldl_mem {α : Type} (f : State → α → State) (h : ∀ s a, (f s a).mem = s.mem) (l : List α) (s : State) :
    (l.foldl f s).mem = s.mem := by
  induction l generalizing s with
  | nil => rfl
  | cons a l ih => rw [List.foldl_cons, ih, h]

@[simp] theorem ite_mem (p : Prop) [Decidable p] (s t : State) : (if p then s else t).mem = if p then s.mem else t.mem := by
  split <;> rfl

@[simp] theorem fillTlb_mem (s : State) (core : Nat) (t : TlbEnt) : (State.fillTlb s core t).mem = s.mem := by simp [State.fillTlb]

@[simp] theorem addHist_mem (s : State) (c : Nat) (e : Engine) (l : List Acc) : (State.addHist s c e l).mem = s.mem := rfl

@[simp] theorem trimBound_mem (s : State) (core : Nat) : (State.trimBound s core).mem = s.mem := rfl

@[simp] theorem bindSegs_mem (s : State) (a : Asker) (ready : Nat) (l : List Seg) : (s.bindSegs a ready l).1.mem = s.mem := by
  have book : ∀ (t : State) (l : List Booked), (t.modCore a.core fun k => { k with bound := k.bound ++ l }).mem = t.mem := fun _ _ => rfl
  have req : ∀ (t : State) (va pa : Nat), (t.bindReq a va pa ready).1.mem = t.mem := by
    intro t va pa
    unfold State.bindReq
    split
    · rfl
    · unfold State.bindClass
      dsimp only
      repeat' split
      all_goals first | rfl | exact book ..
  have seg : ∀ (n : Nat) (t : State) (va pa len : Nat), (t.bindSeg a ready n va pa len).1.mem = t.mem := by
    intro n
    induction n with
    | zero => intros; rfl
    | succ n ih =>
      intro t va pa len
      unfold State.bindSeg
      split
      · rfl
      · dsimp only
        split <;> exact (ih _ _ _ _).trans (req ..)
  induction l generalizing s with
  | nil => rfl
  | cons g l ih =>
    unfold State.bindSegs
    exact (ih _).trans (seg ..)

@[simp] theorem startWalks_mem (s : State) (core : Nat) (l : List Nat) : (s.startWalks core l).mem = s.mem := rfl

@[simp] theorem fillRange_mem (s : State) (core : Nat) (l : List Seg) : (s.fillRange core l).mem = s.mem := by
  induction l generalizing s with
  | nil => rfl
  | cons g l ih =>
    unfold State.fillRange
    split
    · rw [ih, fillTlb_mem]
    · exact ih _

@[simp] theorem cacheLine_mem (s : State) (k line : Nat) (l : BitVec 256) : (s.cacheLine k line l).mem = s.mem := by
  unfold State.cacheLine
  repeat' split
  all_goals first | rfl | simp [State.touchPins]

@[simp] theorem keepLine_mem (s : State) (c : Nat) (e : Engine) (line : Nat) (l : BitVec 256) : (State.keepLine s c e line l).mem = s.mem := by
  unfold State.keepLine
  simp only []
  repeat' split
  all_goals first | rfl | simp

@[simp] theorem tokenDone_mem (s : State) (n : Nat) (o : Op) : (State.tokenDone s n o).mem = s.mem := by simp [State.tokenDone]

@[simp] theorem post_mem (s : State) (c : Nat) (t : Trap) : (State.post s c t).mem = s.mem := rfl

@[simp] theorem endGeneration_mem (s : State) (cl obj : Nat) (gen : BitVec 16) (out : Word) : (State.endGeneration s cl obj gen out).mem = s.mem := rfl

@[simp] theorem breakBarIn_mem (s : State) (u cl obj : Nat) (b : Bar) : (State.breakBarIn s u cl obj b).mem = s.mem := by unfold State.breakBarIn; split <;> rfl

@[simp] theorem breakBars_mem (s : State) (u : Nat) : (State.breakBars s u).mem = s.mem := by
  unfold State.breakBars
  exact foldl_mem _ (fun _ _ => foldl_mem _ (fun _ _ => breakBarIn_mem ..) _ _) _ _

@[simp] theorem failGangLoad_mem (s : State) (members : List Nat) (n : Nat) (o : Op) : (State.failGangLoad s members n o).mem = s.mem := by unfold State.failGangLoad; split <;> simp

@[simp] theorem breakGangAt_mem (s : State) (cl id : Nat) (members : List Nat) : (State.breakGangAt s cl id members).mem = s.mem := by unfold State.breakGangAt; exact foldl_mem _ (fun _ _ => by simp) _ _

@[simp] theorem leaveGangs_mem (s : State) (c : Nat) : (State.leaveGangs s c).mem = s.mem := by unfold State.leaveGangs; exact foldl_mem _ (fun _ _ => by simp) _ _

@[simp] theorem launchSettled_mem (s : State) (l : Nat) : (State.launchSettled s l).mem = s.mem := by unfold State.launchSettled; split <;> simp

@[simp] theorem countUnit_mem (s : State) (u : Nat) (st : UnitState) : (State.countUnit s u st).mem = s.mem := by unfold State.countUnit; split <;> simp

@[simp] theorem reducedBy_mem (s : State) (p : ServicePart) : (State.reducedBy s p).mem = s.mem := rfl

@[simp] theorem fillFree_mem (s : State) (d n : Nat) : (s.fillFree d n).mem = s.mem := by
  induction n generalizing s with
  | zero => rfl
  | succ n ih =>
    unfold State.fillFree
    split
    · rw [ih]; simp [State.enterPool]
    · rfl

@[simp] theorem fillPool_mem (s : State) (d : Nat) : (s.fillPool d).mem = s.mem := by simp [State.fillPool]

@[simp] theorem requeue_mem (s : State) (d e u : Nat) : (State.requeue s d e u).mem = s.mem := by unfold State.requeue; split <;> simp

@[simp] theorem dieDrained_mem (s : State) (d : Nat) : (State.dieDrained s d).mem = s.mem := by unfold State.dieDrained; exact foldl_mem _ (fun _ _ => by simp) _ _

@[simp] theorem drainCheck_mem (s : State) : (State.drainCheck s).mem = s.mem := by unfold State.drainCheck; exact foldl_mem _ (fun _ _ => by simp) _ _

@[simp] theorem stopCheck_mem (s : State) : (State.stopCheck s).mem = s.mem := by simp [State.stopCheck]

@[simp] theorem releaseCtx_mem (s : State) (c : Nat) : (State.releaseCtx s c).mem = s.mem := by unfold State.releaseCtx; split <;> simp

@[simp] theorem endStream_mem (s : State) (c : Nat) (st : UnitState) : (State.endStream s c st).mem = s.mem := by unfold State.endStream; split <;> simp

@[simp] theorem removeUnit_mem (s : State) (u : Nat) : (State.removeUnit s u).mem = s.mem := by
  unfold State.removeUnit
  repeat' split
  all_goals first | rfl | simp

@[simp] theorem backToReady_mem (s : State) (u d : Nat) (counts : Bool) : (s.backToReady u d counts).mem = s.mem := by
  simp [State.backToReady]

@[simp] theorem unitCheck_mem (s : State) (u : Nat) (t : Trap) : (s.unitCheck u t).mem = s.mem := by
  unfold State.unitCheck
  split <;> simp

@[simp] theorem rollback_mem (s : State) (c : Nat) (counts : Bool) : (State.rollback s c counts).mem = s.mem := by unfold State.rollback; split <;> simp

@[simp] theorem fenceCore_mem (s : State) (k keep : Nat) : (State.fenceCore s k keep).mem = s.mem := by unfold State.fenceCore; exact foldl_mem _ (fun _ _ => by simp) _ _

@[simp] theorem setCurrent_mem (s : State) (c : Nat) (e : Engine) : (State.setCurrent s c e).mem = s.mem := rfl

@[simp] theorem occupy_mem (s : State) (c : Nat) (e : Engine) (n : Nat) : (State.occupy s c e n).mem = s.mem := rfl

@[simp] theorem dropPromise_mem (s : State) (c : Nat) (t : Trap) : (State.dropPromise s c t).mem = s.mem := by
  unfold State.dropPromise
  repeat' split
  all_goals first | rfl | simp

@[simp] theorem addOp_mem (s : State) (o : Op) : (s.addOp o).1.mem = s.mem := rfl

@[simp] theorem logFault_mem (s : State) (d : Nat) (r : TrapRec) : (State.logFault s d r).mem = s.mem := by
  unfold State.logFault
  split <;> rfl

@[simp] theorem copyFaults_mem (s : State) (d : Nat) : (s.copyFaults d).mem = s.mem := by
  unfold State.copyFaults
  exact foldl_mem _ (fun _ _ => by simp) _ _

@[simp] theorem takeTrap_mem (s : State) (c : Nat) (t : Trap) : (State.takeTrap s c t).mem = s.mem := by simp [State.takeTrap]

@[simp] theorem settle_mem (s : State) (c : Nat) : (State.settle s c).mem = s.mem := by
  unfold State.settle
  simp only []
  repeat' split
  all_goals first | rfl | simp

@[simp] theorem faultInHandler_mem (s : State) (c : Nat) (t : Trap) : (State.faultInHandler s c t).mem = s.mem := by simp [State.faultInHandler]

@[simp] theorem raise_mem (s : State) (c : Nat) (t : Trap) : (State.raise s c t).mem = s.mem := by simp [State.raise]

@[simp] theorem deliver_mem (s : State) (c : Nat) (t : Trap) : (State.deliver s c t).mem = s.mem := by simp [State.deliver]

@[simp] theorem machineCheck_mem (s : State) (c : Nat) (t : Trap) (fence : Bool) : (State.machineCheck s c t fence).mem = s.mem := by
  unfold State.machineCheck
  simp only []
  repeat' split
  all_goals first | rfl | simp

@[simp] theorem replay_mem (s : State) (t : Trap) : (State.replay s t).mem = s.mem := by unfold State.replay; split <;> simp

@[simp] theorem returnFromTrap_mem (s : State) (c : Nat) : (State.returnFromTrap s c).mem = s.mem := by simp [State.returnFromTrap]

@[simp] theorem stepTrap_mem (s : State) (c : Nat) (i : Instr) : (State.stepTrap s c i).mem = s.mem := by simp [State.stepTrap]

@[simp] theorem switchAway_mem (s : State) (c : Nat) (e : Engine) (sw : Bool) : (State.switchAway s c e sw).mem = s.mem := by
  unfold State.switchAway
  repeat' split
  all_goals first | rfl | simp

@[simp] theorem retire_mem (s : State) (i : Instr) (p : Pos) : (State.retire s i p).mem = s.mem := by simp [State.retire]

@[simp] theorem setInject_mem (s : State) (c : Nat) (w : Word) : (State.setInject s c w).mem = s.mem := rfl

@[simp] theorem countRetry_mem (s : State) (k : Nat) : (State.countRetry s k).mem = s.mem := rfl

@[simp] theorem claim_mem (s : State) (c k op promise scope : Nat) : (State.claim s c k op promise scope).mem = s.mem := rfl

@[simp] theorem consume_mem (s : State) (c : Nat) (e : Engine) (sync : Nat) (gs : List Nat) (delay : Nat → Nat) : (State.consume s c e sync gs delay).mem = s.mem := by
  unfold State.consume
  (try simp only [])
  repeat' split
  all_goals first
    | rfl
    | (simp; done)
    | (refine (foldl_mem _ (fun _ _ => ?_) _ _).trans ?_ <;> (repeat' split) <;> first | rfl | simp)

@[simp] theorem landParts_mem (s : State) (c : Nat) (e : Engine) (delay sync : Nat) (tag : Fmt) (ps : List GranPart) : (State.landParts s c e delay sync tag ps).mem = s.mem := by unfold State.landParts; exact foldl_mem _ (fun _ _ => by simp) _ _

@[simp] theorem markEmpty_mem (s : State) (c sync : Nat) (gs : List Nat) : (State.markEmpty s c sync gs).mem = s.mem := by simp [State.markEmpty]

@[simp] theorem fillParts_mem (s : State) (o : Op) (sync : Nat) (tag : Fmt) (h : List Acc) (ps : List GranPart) : (State.fillParts s o sync tag h ps).mem = s.mem := rfl

@[simp] theorem touchPins_mem (s : State) (segs : List Seg) : (State.touchPins s segs).mem = s.mem := rfl

@[simp] theorem pinReleased_mem (s : State) (d : Nat) (p : Pin) : (State.pinReleased s d p).mem = s.mem := rfl

@[simp] theorem returnS_mem (s : State) (o : Op) (v : Word) : (State.returnS s o v).mem = s.mem := by simp [State.returnS]

@[simp] theorem parkOp_mem (s : State) (n : Nat) (o : Op) (t : Trap) : (State.parkOp s n o t).mem = s.mem := by
  unfold State.parkOp
  repeat' split
  all_goals first | rfl | simp

@[simp] theorem failOp_mem (s : State) (n : Nat) (o : Op) (t : Trap) : (State.failOp s n o t).mem = s.mem := by simp [State.failOp]

@[simp] theorem endOp_mem (s : State) (n : Nat) (o : Op) : (State.endOp s n o).mem = s.mem := by simp [State.endOp]

@[simp] theorem modSprs_mem (s : State) (c : Nat) (f : Sprs → Sprs) : (State.modSprs s c f).mem = s.mem := rfl

@[simp] theorem flushLantern_mem (s : State) (c : Nat) : (State.flushLantern s c).mem = s.mem := rfl

@[simp] theorem bankCommit_mem (s : State) (c : Nat) (a : Arb) : (State.bankCommit s c a).mem = s.mem := rfl

@[simp] theorem landTagged_mem (s : State) (c : Nat) (e : Engine) (delay : Nat) (ps : List (GranPart × Fmt × Nat)) : (State.landTagged s c e delay ps).mem = s.mem := by
  unfold State.landTagged
  refine (foldl_mem _ ?_ _ _).trans rfl
  intro t p
  first | exact landDue_mem .. | exact land_mem ..

@[simp] theorem launchOp_mem (s : State) (o : Op) (r : Option (BitVec 16)) : (s.launchOp o r).1.mem = s.mem := by
  unfold State.launchOp
  simp [State.addOp]

@[simp] theorem pushOp_mem (s : State) (i : Instr) (c n : Nat) (p : Port) (row : Nat) (d : Option (BitVec 32768)) :
    (s.pushOp i c n p row d).1.mem = s.mem := by
  simp [State.pushOp]

@[simp] theorem fillPush_mem (s : State) (n : Nat) (d : BitVec 32768) : (s.fillPush n d).mem = s.mem := by
  unfold State.fillPush
  repeat' split
  all_goals first | rfl | simp

@[simp] theorem vecConsume_mem (s : State) (c : Nat) (rd : VRead) (n : Nat) (l : List VSrc) : (s.vecConsume c rd n l).mem = s.mem := by
  induction l generalizing s n with
  | nil => rfl
  | cons v l ih =>
    unfold State.vecConsume
    rw [ih]
    split <;> simp

@[simp] theorem markPopped_mem (s : State) (c : Nat) (pops : List (Option (Nat × Nat))) (dsts : List VDst) :
    (s.markPopped c pops dsts).mem = s.mem := by
  simp only [State.markPopped]
  split
  · exact foldl_mem _ (fun _ _ => by split <;> simp) _ _
  · rfl

@[simp] theorem vecCommit_mem (s : State) (i : Instr) (c : Nat) (f : VX) (srcs : List VSrc) (pops : List (Option (Nat × Nat))) (dsts : List VDst) (lat occ : Nat) (rd : VRead) (o : VOut) : (State.vecCommit s i c f srcs pops dsts lat occ rd o).mem = s.mem := by
  have h : ∀ t : State, (srcs.foldl (fun t v => t.addHist c .v (s.handoffs c v.sync v.rowGrans)) t).mem = t.mem :=
    fun t => foldl_mem _ (fun _ _ => addHist_mem ..) _ _
  unfold State.vecCommit
  (repeat' split) <;> simp [h]

@[simp] theorem cancelUnit_mem (s : State) (u : Nat) : (State.cancelUnit s u).mem = s.mem := by
  unfold State.cancelUnit
  repeat' split
  all_goals first | rfl | simp

@[simp] theorem cancelObject_mem (s : State) (level index : Nat) : (State.cancelObject s level index).mem = s.mem := by
  unfold State.cancelObject
  (try simp only [])
  repeat' split
  all_goals first
    | rfl
    | (simp; done)
    | (refine (foldl_mem _ (fun _ _ => ?_) _ _).trans ?_ <;> (repeat' split) <;> first | rfl | simp)

@[simp] theorem dropEffect_mem (s : State) (n : Nat) : (State.dropEffect s n).mem = s.mem := rfl

@[simp] theorem stageWork_mem (s : State) (w : Work) : (State.stageWork s w).mem = s.mem := by simp [State.stageWork]

@[simp] theorem keepSnap_mem (s : State) (core va len : Nat) : (State.keepSnap s core va len).mem = s.mem := by unfold State.keepSnap; split <;> rfl

@[simp] theorem keepTensor_mem (s : State) (core id : Nat) : (State.keepTensor s core id).mem = s.mem := by simp [State.keepTensor]

@[simp] theorem keepBlock_mem (s : State) (core : Nat) (t : Tens) (idx : List Nat) : (State.keepBlock s core t idx).mem = s.mem := by simp [State.keepBlock]

@[simp] theorem invalidate_mem (s : State) (va len : Nat) : (State.invalidate s va len).mem = s.mem := rfl

@[simp] theorem setSinkPort_mem (s : State) (o : Op) (n : Nat) (p : Port) : (State.setSinkPort s o n p).mem = s.mem := by simp [State.setSinkPort]

@[simp] theorem landDue_mem (s : State) (c : Nat) (e : Engine) (due : Nat) (a : Land) (h : List Acc) (run : Nat) : (State.landDue s c e due a h run).mem = s.mem := rfl

@[simp] theorem matrixRow_mem (s : State) (c n row due : Nat) : (State.matrixRow s c n row due).mem = s.mem := by
  unfold State.matrixRow
  (try simp only [])
  repeat' split
  all_goals first
    | rfl
    | (simp; done)
    | (refine (foldl_mem _ (fun _ _ => ?_) _ _).trans ?_ <;> (repeat' split) <;> first | rfl | simp)

@[simp] theorem applyOne_mem (s : State) (c : Nat) (l : Landing) : (State.applyOne s c l).mem = s.mem := by unfold State.applyOne; split <;> simp

@[simp] theorem applyDue_mem (s : State) (c now n : Nat) : (s.applyDue c now n).mem = s.mem := by
  induction n generalizing s with
  | zero => rfl
  | succ n ih =>
    unfold State.applyDue
    simp only []
    split
    · rfl
    · rw [ih]
      exact (foldl_mem _ (fun _ _ => applyOne_mem ..) _ _).trans rfl

@[simp] theorem landMany_mem (s : State) (c due : Nat) (tag : Fmt) (fill : Bool) (h : List Acc) (run : Nat) (ps : List GranPart) :
    (s.landMany c due tag fill h run ps).mem = s.mem := by
  unfold State.landMany
  refine (foldl_mem _ ?_ _ _).trans rfl
  intro t p
  first | exact landDue_mem .. | exact land_mem ..

@[simp] theorem landAll_mem (s : State) (c : Nat) : (State.landAll s c).mem = s.mem := by
  unfold State.landAll
  simp

@[simp] theorem mwbMemEffect_mem (i : Instr) (t : Tok) (va : Nat) (r : MatRun) (s : State) (_x0 : Nat) : (mwbMemEffect i t va r s _x0).mem = s.mem := rfl

@[simp] theorem addResid_mem (s : State) (core : Nat) (r : Resid) : (State.addResid s core r).mem = s.mem := rfl

@[simp] theorem alsoDone_mem (s : State) (n : Nat) (o : Op) : (State.alsoDone s n o).mem = s.mem := by
  unfold State.alsoDone
  exact foldl_mem _ (fun _ _ => by simp) _ _

@[simp] theorem loadDone_mem (s : State) (n : Nat) (o : Op) (data : Option (List Int × List Nat)) : (State.loadDone s n o data).mem = s.mem := by simp [State.loadDone]

@[simp] theorem loadFailed_mem (s : State) (n : Nat) (o : Op) (t : Trap) : (State.loadFailed s n o t).mem = s.mem := by simp [State.loadFailed]

@[simp] theorem nextLoad_mem (s : State) (c : Nat) : (s.nextLoad c).1.mem = s.mem := by
  unfold State.nextLoad
  split <;> rfl

@[simp] theorem asyncOp_mem (s : State) (t : Tok) (p : Nat) (o : Op) (r : Option (BitVec 16)) : (s.asyncOp t p o r).1.mem = s.mem := by
  unfold State.asyncOp
  simp

@[simp] theorem loadEffect_mem (i : Instr) (t : Tok) (tile : Nat) (v : TileView) (w : Word) (pass promise : Bool) (also : List Nat)
    (data : List Int × List Nat) (fault park : Option Trap) (s : State) (now : Nat) :
    (loadEffect i t tile v w pass promise also data fault park s now).mem = s.mem := by
  unfold loadEffect
  simp only []
  repeat' split
  all_goals simp
  all_goals refine (foldl_mem _ (fun _ _ => claim_mem ..) _ _).trans ?_
  all_goals simp

@[simp] theorem fillResid_mem (s : State) (n : Nat) (o : Op) (data : List Int × List Nat) : (State.fillResid s n o data).mem = s.mem := rfl

@[simp] theorem popForLoad_mem (s : State) (n : Nat) (o : Op) (f : MF) : (State.popForLoad s n o f).mem = s.mem := by
  unfold State.popForLoad
  simp only []
  repeat' split
  all_goals first | rfl | simp

@[simp] theorem gangLoaded_mem (s : State) (l : List (Nat × Op)) : (State.gangLoaded s l).mem = s.mem := by
  unfold State.gangLoaded
  (try simp only [])
  repeat' split
  all_goals first
    | rfl
    | (simp; done)
    | (refine (foldl_mem _ (fun _ _ => ?_) _ _).trans ?_ <;> (repeat' split) <;> first | rfl | simp)

@[simp] theorem retireJoins_mem (s : State) (l : List Nat) : (State.retireJoins s l).mem = s.mem := by unfold State.retireJoins; exact foldl_mem _ (fun _ _ => by split <;> simp) _ _

@[simp] theorem setNest_mem (s : State) (c : Nat) (n : Option Nest) : (State.setNest s c n).mem = s.mem := rfl

@[simp] theorem nestHold_mem (s : State) (c : Nat) (n : Nest) (st : EngState) (h : Hold) : (State.nestHold s c n st h).mem = s.mem := rfl

@[simp] theorem nestEnd_mem (s : State) (c : Nat) (n : Nest) : (State.nestEnd s c n).mem = s.mem := by simp [State.nestEnd]

@[simp] theorem nestAdvance_mem (s : State) (c : Nat) (n : Nest) (retires : Bool) : (State.nestAdvance s c n retires).mem = s.mem := by
  unfold State.nestAdvance
  simp only []
  repeat' split
  all_goals first | rfl | simp

@[simp] theorem leaveNest_mem (s : State) (c : Nat) : (State.leaveNest s c).mem = s.mem := by
  unfold State.leaveNest
  simp only []
  repeat' split
  all_goals first | rfl | simp

@[simp] theorem at__mem (s : State) (c : Nat) (e : Engine) (pos next : Pos) : (State.at_ s c e pos next).mem = s.mem := rfl

@[simp] theorem loadRules_mem (s : State) (core : Nat) (l : List (Nat × BitVec 128)) : (State.loadRules s core l).mem = s.mem := by
  unfold State.loadRules
  exact foldl_mem _ (fun _ _ => by simp) _ _

@[simp] theorem holdHead_mem (s : State) (c : Nat) (st : EngState) (h : Hold) : (State.holdHead s c st h).mem = s.mem := by unfold State.holdHead; split <;> rfl

@[simp] theorem groupDone_mem (s : State) (c : Nat) (g : Group) : (State.groupDone s c g).mem = s.mem := by simp [State.groupDone]

@[simp] theorem madeAtOnce_mem (s : State) (c k promise scope : Nat) (h : List Acc) : (State.madeAtOnce s c k promise scope h).mem = s.mem := rfl

@[simp] theorem dropICache_mem (s : State) (va n : Nat) : (State.dropICache s va n).mem = s.mem := rfl

@[simp] theorem fillReg_mem (s : State) (o : Op) (off : Nat) (bs : List Byte) (tag : Nat → Fmt) : (State.fillReg s o off bs tag).mem = s.mem := by
  unfold State.fillReg
  (try simp only [])
  repeat' split
  all_goals first
    | rfl
    | (simp; done)
    | (refine (foldl_mem _ (fun _ _ => ?_) _ _).trans ?_ <;> (repeat' split) <;> first | rfl | simp)

@[simp] theorem yFault_mem (s : State) (n : Nat) (o : Op) (t : Trap) : (State.yFault s n o t).mem = s.mem := by simp [State.yFault]

@[simp] theorem endPrefetch_mem (s : State) (n : Nat) (o : Op) : (State.endPrefetch s n o).mem = s.mem := by unfold State.endPrefetch; split <;> simp

@[simp] theorem postEffect_mem (s : State) (e : Effect) : (s.postEffect e).1.mem = s.mem := rfl
@[simp] theorem postContribution_mem (s : State) (k : Contribution) : (s.postContribution k).1.mem = s.mem := rfl
@[simp] theorem takeIndex_mem (s : State) : s.takeIndex.1.mem = s.mem := rfl

@[simp] theorem logCommit_mem (s : State) (u code : Nat) : (State.logCommit s u code).mem = s.mem := rfl

@[simp] theorem answerMesh_mem (s : State) (k : Contribution) (r : Except Nat Word) : (State.answerMesh s k r).mem = s.mem := by
  unfold State.answerMesh
  refine (foldl_mem _ (fun _ _ => ?_) _ _).trans ?_ <;> (repeat' split) <;> first | rfl | simp

@[simp] theorem jobCleanup_mem (s : State) : (State.jobCleanup s).mem = s.mem := rfl

@[simp] theorem jobEnd_mem (s : State) (st : JobState) : (State.jobEnd s st).mem = s.mem := by simp [State.jobEnd]

@[simp] theorem makeReady_mem (s : State) (u : Nat) : (State.makeReady s u).mem = s.mem := by simp [State.makeReady]

@[simp] theorem releaseUnit_mem (s : State) (u : Nat) : (State.releaseUnit s u).mem = s.mem := by unfold State.releaseUnit; split <;> simp

@[simp] theorem takePlace_mem (s : State) (u c : Nat) (l : LaunchRec) : (State.takePlace s u c l).mem = s.mem := by simp [State.takePlace]

@[simp] theorem reserveFor_mem (s : State) (u : Nat) : (State.reserveFor s u).mem = s.mem := by
  unfold State.reserveFor
  repeat' split
  all_goals first | rfl | simp

@[simp] theorem commitWork_mem (s : State) (u n : Nat) (w : Work) : (State.commitWork s u n w).mem = s.mem := by
  unfold State.commitWork
  simp only []
  (repeat' split) <;> simp

@[simp] theorem discardVersion_mem (s : State) (u : Nat) (r : UnitRec) : (State.discardVersion s u r).mem = s.mem := by unfold State.discardVersion; split <;> simp

@[simp] theorem stopPlan_mem (s : State) (l : List Nat) (t : Trap) : (State.stopPlan s l t).mem = s.mem := by unfold State.stopPlan; exact foldl_mem _ (fun _ _ => by split <;> simp) _ _

@[simp] theorem showCounter_mem (s : State) (n : Nat) (o : Op) (k : Coll) : (State.showCounter s n o k).mem = s.mem := by simp [State.showCounter]

@[simp] theorem endColl_mem (s : State) (n : Nat) : (State.endColl s n).mem = s.mem := by unfold State.endColl; split <;> simp

@[simp] theorem moveReqs_mem (s : State) (cause n : Nat) (l : List (Nat × Nat × Nat)) : (s.moveReqs cause n l).mem = s.mem := by
  induction n generalizing s l with
  | zero => rfl
  | succ n ih =>
    cases l with
    | nil => rfl
    | cons a l =>
      unfold State.moveReqs
      split
      · exact ih _ _
      · split
        · exact ih _ _
        · exact (ih _ _).trans rfl

@[simp] theorem moveReq_mem (s : State) (n j k cause : Nat) : (State.moveReq s n j k cause).mem = s.mem := moveReqs_mem ..

@[simp] theorem walkEnds_mem (s : State) (page : Nat) (bad : Bool) (n : Nat) : (State.walkEnds s page bad n).mem = s.mem := by unfold State.walkEnds; split <;> simp

@[simp] theorem placeResids_mem (s : State) (k : Nat) (route : Option Nat) (l : List Resid) : (State.placeResids s k route l).mem = s.mem := rfl

@[simp] theorem followUnit_mem (s : State) (u c : Nat) : (State.followUnit s u c).mem = s.mem := rfl

@[simp] theorem setErr_mem (s : State) (code : Nat) : (State.setErr s code).mem = s.mem := rfl

@[simp] theorem wake_mem (s : State) : (State.wake s).mem = s.mem := by simp [State.wake]

@[simp] theorem saveAll_mem (s : State) : (State.saveAll s).mem = s.mem := rfl

@[simp] theorem abortUnits_mem (s : State) : (State.abortUnits s).mem = s.mem := by
  unfold State.abortUnits
  exact (foldl_mem _ (fun _ _ => endStream_mem ..) _ _).trans (foldl_mem _ (fun _ _ => removeUnit_mem ..) _ _)

@[simp] theorem loadDies_mem (s : State) (h : Header) (ds : List Nat) : (State.loadDies s h ds).mem = s.mem := by
  unfold State.loadDies
  exact foldl_mem _ (fun _ _ => by simp) _ _

@[simp] theorem loadCores_mem (s : State) (perm : Word) (rules : Tab (BitVec 128)) (ds : List Nat) : (State.loadCores s perm rules ds).mem = s.mem := by simp [State.loadCores]

@[simp] theorem clearClusters_mem (s : State) : (State.clearClusters s).mem = s.mem := rfl

@[simp] theorem loadTable_mem (s : State) (d ch : Nat) (t : List Byte) : (State.loadTable s d ch t).mem = s.mem := by simp [State.loadTable]

@[simp] theorem reject_mem (s : State) (code : Nat) : (State.reject s code).mem = s.mem := rfl

@[simp] theorem createEntry_mem (s : State) (die : Nat) (r : BitVec 1024) : (State.createEntry s die r).mem = s.mem := rfl

@[simp] theorem loadCalendars_mem (s : State) (bs : List Byte) (l : List Nat) : (s.loadCalendars bs l).mem = s.mem := by
  induction l generalizing s bs with
  | nil => rfl
  | cons d l ih =>
    unfold State.loadCalendars
    rw [ih]
    exact foldl_mem _ (fun _ _ => loadTable_mem ..) _ _

@[simp] theorem loadImage_mem (s : State) (h : Header) : (State.loadImage s h).mem = s.mem := by
  unfold State.loadImage
  dsimp only
  (repeat' split) <;> simp

@[simp] theorem degrade_mem (s : State) : (State.degrade s).mem = s.mem := by simp [State.degrade]

@[simp] theorem setLink_mem (s : State) (l : Nat) (k : Link) : (State.setLink s l k).mem = s.mem := rfl

@[simp] theorem freeFlit_mem (s : State) (l v : Nat) : (s.freeFlit l v).mem = s.mem := rfl

@[simp] theorem freeFlits_mem (s : State) : s.freeFlits.mem = s.mem := rfl

@[simp] theorem fabricOp_mem (s : State) (n : Nat) : (State.fabricOp s n).mem = s.mem := by
  unfold State.fabricOp
  repeat' split
  all_goals first | rfl | simp

@[simp] theorem loseFlits_mem (s : State) (group : List Nat) : (State.loseFlits s group).mem = s.mem := by
  unfold State.loseFlits
  (try simp only [])
  repeat' split
  all_goals first
    | rfl
    | (simp; done)
    | (refine (foldl_mem _ (fun _ _ => ?_) _ _).trans ?_ <;> (repeat' split) <;> first | rfl | simp)

@[simp] theorem beginDrain_mem (s : State) (d : Nat) : (State.beginDrain s d).mem = s.mem := by simp [State.beginDrain]

@[simp] theorem linkFailed_mem (s : State) (l : Nat) : (State.linkFailed s l).mem = s.mem := by
  unfold State.linkFailed
  refine (foldl_mem _ (fun t d => ?_) _ _).trans ((foldl_mem _ (fun _ _ => loseFlits_mem ..) _ _).trans rfl)
  split
  · rfl
  · exact beginDrain_mem ..

@[simp] theorem failLink_mem (s : State) (l : Nat) : (State.failLink s l).mem = s.mem := by simp [State.failLink]

@[simp] theorem setRefresh_mem (s : State) (d k : Nat) (r : Refresh) : (State.setRefresh s d k r).mem = s.mem := rfl

@[simp] theorem takeSlot_mem (s : State) (d ch m : Nat) : (State.takeSlot s d ch m).mem = s.mem := by simp [State.takeSlot]

@[simp] theorem catchUp_mem (s : State) (d : Nat) (r : Refresh) (ch : Nat) : (State.catchUp s d r ch).mem = s.mem := by unfold State.catchUp; exact foldl_mem _ (fun _ _ => by simp) _ _

@[simp] theorem setBar_mem (s : State) (cl obj : Nat) (b : Bar) : (State.setBar s cl obj b).mem = s.mem := rfl

@[simp] theorem arrive_mem (s : State) (c cl obj : Nat) : (State.arrive s c cl obj).mem = s.mem := rfl

@[simp] theorem countArrival_mem (s : State) (a : Arrival) : (State.countArrival s a).mem = s.mem := by simp [State.countArrival]

@[simp] theorem fencePoint_mem (s : State) (c issued : Nat) : (State.fencePoint s c issued).mem = s.mem := rfl

@[simp] theorem narrow_mem (s : State) (c : Nat) (f : CL) : (State.narrow s c f).mem = s.mem := by simp [State.narrow]

@[simp] theorem fetchTrapped_mem (s : State) (c : Nat) (e : Engine) (t : Trap) : (State.fetchTrapped s c e t).mem = s.mem := by simp [State.fetchTrapped]

@[simp] theorem join_mem (s : State) (n : Nat) : (s.join n).mem = s.mem := by
  unfold State.join
  repeat' split
  all_goals rfl

@[simp] theorem staleTlb_mem (s : State) (k : Nat) (e : TlbEnt) : (s.staleTlb k e).mem = s.mem := by simp [State.staleTlb]

@[simp] theorem tick_mem (s : State) : (State.tick s).mem = s.mem := rfl

@[simp] theorem dropTlb_mem (s : State) (k base : Nat) : (State.dropTlb s k base).mem = s.mem := rfl

@[simp] theorem dropDieTlb_mem (s : State) (d base : Nat) : (State.dropDieTlb s d base).mem = s.mem := rfl

@[simp] theorem dropLine_mem (s : State) (k line : Nat) : (State.dropLine s k line).mem = s.mem := rfl

@[simp] theorem dropSnapshot_mem (s : State) (k a : Nat) : (State.dropSnapshot s k a).mem = s.mem := rfl

end Sys2Proof.Laws
end

