-- ==== Sys2Proof/Laws/RoundTrip.lean ====
section
/-! SUPPORT. Decoding the words of a row, format by format: what the round trip of each instruction rests on. -/
namespace Sys2Proof.Laws

/-- A well-formed instruction passes every check (R335). -/
theorem check_of_wf {i : Instr} (h : i.wf = true) : checkFields i false = .ok i := by
  simp only [Instr.wf, Bool.and_eq_true, Bool.not_eq_true'] at h
  simp [checkFields, h.1.1, h.1.2, h.2]

/-- What the map of an engine answers is the decoded instruction where it is well formed and no reserved bit is set. -/
theorem decode_of_raw {e : Engine} {w : W32} {rest r : List W32} {i : Instr} (hr : Raw.decode e w rest = .ok (i, false, r))
    (h : i.wf = true) : decode e (w :: rest) = .ok (i, r) := by
  simp [decode, hr, check_of_wf h, Except.map]

/-! ## Literals -/

theorem join_halves (w : Word) : (w.extractLsb' 32 32 ++ w.extractLsb' 0 32 : BitVec 64) = w := by
  apply BitVec.eq_of_getLsbD_eq
  intro k hk
  simp only [BitVec.getLsbD_append, BitVec.getLsbD_extractLsb']
  split
  · simp_all
  · rw [show 32 + (k - 32) = k by omega]
    simp
    omega

/-- CL reads back its register and its literal (R325). -/
theorem cl_read (op : Nat) (f : CL) (rest : List W32) : Raw.cl (clWord0 op f) (Pack.lit f.lit ++ rest) = .ok (f, rest) := by
  obtain ⟨d, l, i⟩ := f
  cases l with
  | w32 w =>
    simp only [Raw.cl, clWord0_l, clWord0_d, clWord0_iss, Pack.isL64, Pack.lit, List.cons_append, List.nil_append]
  | w64 w =>
    simp only [Raw.cl, clWord0_l, clWord0_d, clWord0_iss, Pack.isL64, Pack.lit, List.cons_append, List.nil_append]
    rw [join_halves]

/-! ## Operand codes -/

/-- Reading back an operand with its literal words (R328, R330). -/
theorem operand_read (o : VOp) (rest : List W32) (h : o.validRow = true) :
    VOp.ofCode (Pack.code o) (Pack.opLits o ++ rest) = .ok (o, rest) := by
  cases o with
  | row n =>
    have hn : n.toNat < 192 := by simpa [VOp.validRow] using h
    simp [Pack.code, Pack.opLits, VOp.ofCode, hn]
  | port p =>
    have hp : ∀ p : BitVec 4, ¬ ((0xC : BitVec 4) ++ p).toNat < 0xC0 ∧ ((0xC : BitVec 4) ++ p).toNat < 0xD0
        ∧ ((0xC : BitVec 4) ++ p).extractLsb' 0 4 = p := by decide
    simp only [Pack.code, Pack.opLits, VOp.ofCode, if_neg (hp p).1, if_pos (hp p).2.1, (hp p).2.2, List.nil_append]
  | breg p =>
    have hp : ∀ p : BitVec 4, ¬ ((0xD : BitVec 4) ++ p).toNat < 0xC0 ∧ ¬ ((0xD : BitVec 4) ++ p).toNat < 0xD0
        ∧ ((0xD : BitVec 4) ++ p).toNat < 0xE0 ∧ ((0xD : BitVec 4) ++ p).extractLsb' 0 4 = p := by decide
    simp only [Pack.code, Pack.opLits, VOp.ofCode, if_neg (hp p).1, if_neg (hp p).2.1, if_pos (hp p).2.2.1, (hp p).2.2.2,
      List.nil_append]
  | zero => rfl
  | lit32 w => rfl
  | lit64 w =>
    show Except.ok (VOp.lit64 (w.extractLsb' 32 32 ++ w.extractLsb' 0 32), rest) = _
    rw [join_halves]

/-- An operand without a literal is read back from its code alone. -/
theorem bare_read (o : VOp) (h : o.validRow = true) (hl : o.isLit = false) : VOp.ofCodeBare (Pack.code o) = .ok o := by
  have hn : Pack.opLits o = [] := by cases o <;> simp_all [VOp.isLit, Pack.opLits]
  have := operand_read o [0, 0] h
  rw [hn] at this
  rw [VOp.ofCodeBare, show VOp.ofCode (Pack.code o) [0, 0] = .ok (o, [0, 0]) from this]
  rfl

/-- An operand has as many literal words as its code says (R330). -/
theorem operand_words (o : VOp) (h : o.validRow = true) : (Pack.opLits o).length = litWords (Pack.code o) := by
  cases o with
  | row n =>
    have hn : n.toNat < 192 := by simpa [VOp.validRow] using h
    have h1 : n ≠ 0xF1 := by rintro rfl; simp at hn
    have h2 : n ≠ 0xF2 := by rintro rfl; simp at hn
    rw [Pack.code, litWords, if_neg h1, if_neg h2]
    rfl
  | port p => revert p; decide
  | breg p => revert p; decide
  | zero => rfl
  | lit32 w => rfl
  | lit64 w => rfl

/-! ## Vector instructions -/

/-- What the reading of VX needs of an operand record: rows that there are, no literal in D, and none in a tag field. -/
structure Readable (op fn : Nat) (f : VX) : Prop where
  d : f.d.validRow = true
  a : f.a.validRow = true
  b : f.b.validRow = true
  c : f.c.validRow = true
  plainD : f.d.isLit = false
  plainC : vxTagC op fn = true → f.c.isLit = false

/-- A record that passes the checks of its row can be read back (R329, R352). -/
theorem readable_of (op fn : Nat) (s : VSpec) (f : VX) (h6 : s.code6 f = false) (h2 : s.field2 f = false)
    (hd : s.d = .maskReg ∨ s.d = .rowOnly ∨ s.dRead = false) (hc : vxTagC op fn = true → s.c = .tag) : Readable op fn f := by
  simp only [VSpec.code6, Bool.or_eq_false_iff, Bool.not_eq_false', Bool.and_eq_true] at h6
  obtain ⟨⟨hv, h1⟩, h3⟩ := h6
  simp only [VSpec.field2, Bool.or_eq_false_iff, Bool.not_eq_false', Bool.and_eq_true] at h2
  obtain ⟨⟨⟨⟨⟨⟨ha, _⟩, _⟩, _⟩, _⟩, _⟩, _⟩ := h2
  refine ⟨hv.1.1.1, hv.1.1.2, hv.1.2, hv.2, ?_, fun ht => ?_⟩
  · rcases hd with hd | hd | hd
    · rw [hd] at ha
      cases hf : f.d <;> simp_all [VKind.accepts, VOp.isLit]
    · rw [hd] at ha
      cases hf : f.d <;> simp_all [VKind.accepts, VOp.isLit, VOp.isRow]
    · by_cases hm : s.d = .maskReg
      · rw [hm] at ha
        cases hf : f.d <;> simp_all [VKind.accepts, VOp.isLit]
      · cases hf : f.d <;> simp_all [VOp.isLit, VOp.isZero]
  · rw [hc ht] at h3
    cases hf : f.c <;> simp_all [VOp.isLit]

/-- VX reads back its operands with their literal words (R327, R330). -/
theorem vx_read (op fn : Nat) (f : VX) (rest : List W32) (ho : op < 64) (hf : fn < 16) (h : Readable op fn f) :
    Raw.vx (vxWord0 op fn f) (vxWord1 f) (Pack.opLits f.a ++ Pack.opLits f.b ++ Pack.opLits f.c ++ rest) = .ok (f, rest) := by
  simp only [Raw.vx, vxWord0_d, vxWord0_a, vxWord1_b, vxWord1_c, bare_read _ h.d h.plainD, List.append_assoc,
    operand_read _ _ h.a, operand_read _ _ h.b, vxWord0_major op fn f ho, vxWord0_fnHi op fn f hf, vxWord1_syd, vxWord1_sya,
    vxWord1_syb, vxWord1_syc, vxWord1_mask, vxWord1_rnd, vxWord1_sat, vxWord0_iss]
  by_cases ht : vxTagC op fn = true
  · have hn : Pack.opLits f.c = [] := by
      have := h.plainC ht
      cases hc : f.c <;> simp_all [VOp.isLit, Pack.opLits]
    simp [ht, bare_read _ h.c (h.plainC ht), Except.map, hn]
  · simp [ht, operand_read _ _ h.c]

/-- The words of a vector row decode to its instruction. -/
theorem v_round (op fn : Nat) (f : VX) (i : Instr) (rest : List W32) (ho : op ≤ 6) (hf : fn < 16) (h : Readable op fn f)
    (hb : ∃ j, vRow op fn VX.blank = .ok j) (hk : vRow op fn f = .ok i) (hw : i.wf = true) :
    decode .v (Pack.vx op fn f ++ rest) = .ok (i, rest) := by
  obtain ⟨j, hj⟩ := hb
  have h64 : op < 64 := by omega
  rw [vx_words, List.cons_append, List.cons_append]
  refine decode_of_raw ?_ hw
  simp only [Raw.decode, Raw.v, vxWord0_major op fn f h64, vxWord0_fnHi op fn f hf, vxWord0_z, hj, vx_read op fn f rest h64 hf h, hk]
  rw [if_neg (by omega)]
  simp [Except.map]

/-- The words of a vector row are as many as its first two say (R313, R330). -/
theorem v_count (op fn : Nat) (f : VX) (ho : op ≤ 6) (hf : fn < 16) (h : Readable op fn f) :
    (Pack.vx op fn f).length = wordCount .v ((Pack.vx op fn f).headD 0) (((Pack.vx op fn f).drop 1).headD 0) := by
  have h64 : op < 64 := by omega
  rw [vx_words]
  simp only [List.headD_cons, List.drop_succ_cons, List.drop_zero, List.length_cons, List.length_append, wordCount,
    vxWord0_major op fn f h64, vxWord0_fnHi op fn f hf, vxWord0_a, vxWord1_b, vxWord1_c, operand_words _ h.a, operand_words _ h.b]
  rw [if_neg (by omega)]
  by_cases ht : vxTagC op fn = true
  · have hn : Pack.opLits f.c = [] := by
      have := h.plainC ht
      cases hc : f.c <;> simp_all [VOp.isLit, Pack.opLits]
    simp [ht, hn]
    omega
  · simp [ht, operand_words _ h.c]
    omega

/-! ## Breakpoints -/

theorem bk_major (f : BK) : majorOf (bkWord0 f) = 0x3F := major_eq _ 0x3F (bkWord0_op f) (by decide)
theorem bk_fn (f : BK) : Raw.fnHi (bkWord0 f) = 0 := by
  obtain ⟨e, n, i⟩ := f
  have : ∀ (n : BitVec 3) (i : BitVec 4), Raw.fnHi (bkWord0 ⟨.c, n, i⟩) = 0 := by decide
  exact this n i
theorem bk_zero (f : BK) : (bkWord0 f).extractLsb' 7 15 = 0 := by
  obtain ⟨e, n, i⟩ := f
  have : ∀ (n : BitVec 3) (i : BitVec 4), (bkWord0 ⟨.c, n, i⟩).extractLsb' 7 15 = 0 := by decide
  exact this n i

/-- BKPT is read back in every engine, with the lanes that it counts (R355). -/
theorem bk_read (f : BK) (rest : List W32) :
    Raw.bkpt f.eng (bkWord0 f) (List.replicate f.cnt.toNat 0 ++ rest) = .ok (.bkpt f, false, rest) := by
  simp only [Raw.bkpt, bk_fn, bk_zero, bkWord0_cnt, bkWord0_iss, List.length_append, List.length_replicate]
  rw [if_neg (by simp), if_neg (by omega)]
  simp

end Sys2Proof.Laws
end

