-- ==== Sys2Proof/Laws/PerInstr.lean ====
section
/-! SUPPORT. Families of lemmas with one lemma per instruction. `RoundTrip`: decoding the words of a well-formed instruction
gives it back. -/
namespace Sys2Proof.Laws.RoundTrip

/-- Decoding the words of a well-formed instruction gives it back, whatever follows them, and its words are as many as its first
two words say. -/
def Statement (i : Instr) : Prop :=
  ∀ (e : Engine) (rest : List W32), i.wf = true → i.engine = some e →
    decode e (i.encode ++ rest) = .ok (i, rest)
    ∧ i.encode.length = wordCount e (i.encode.headD 0) ((i.encode.drop 1).headD 0)

/-- An instruction of one engine, with its map's answer and its number of words. -/
theorem of_raw {i : Instr} {en : Engine} {w : W32} {l : List W32} (he : i.engine = some en) (hw : i.encode = w :: l)
    (hr : i.wf = true → ∀ rest, Raw.decode en w (l ++ rest) = .ok (i, false, rest))
    (hn : i.wf = true → (w :: l).length = wordCount en w (l.headD 0)) : Statement i := by
  intro e rest h hi
  obtain rfl : en = e := by simpa [he] using hi
  rw [hw]
  exact ⟨decode_of_raw (hr h rest) h, hn h⟩

/-- An event is in no stream. -/
theorem of_event {i : Instr} (h : i.engine = none) : Statement i := by
  intro e rest _ hi
  simp [h] at hi

/-- A row of the vector engine. -/
theorem of_vector {i : Instr} (op fn : Nat) (s : VSpec) (f : VX) (he : i.engine = some .v)
    (_ : i.vspec = some (s, f)) (h6 : i.wf = true → s.code6 f = false ∧ s.field2 f = false) (hd : s.d = .maskReg ∨ s.d = .rowOnly ∨ s.dRead = false)
    (hc : vxTagC op fn = true → s.c = .tag) (hw : i.encode = Pack.vx op fn f) (ho : op ≤ 6) (hf : fn < 16)
    (hb : ∃ j, vRow op fn VX.blank = .ok j) (hk : vRow op fn f = .ok i) : Statement i := by
  intro e rest h hi
  obtain rfl : Engine.v = e := by simpa [he] using hi
  have hr := readable_of op fn s f (h6 h).1 (h6 h).2 hd hc
  rw [hw]
  exact ⟨v_round op fn f i rest ho hf hr hb hk h, v_count op fn f ho hf hr⟩

theorem nop (f : C3) : Statement (.nop f) := by
  refine of_raw (en := .c) (w := Pack.c3 0 0 f) (l := []) rfl rfl (fun h rest => ?_) (fun _ => ?_)
  · simp [Raw.decode, Raw.c, c3_fields, fnOr1, plain, Except.map, only0]
  · simp [wordCount]
theorem ret (f : C3) : Statement (.ret f) := by
  refine of_raw (en := .c) (w := Pack.c3 1 0 f) (l := []) rfl rfl (fun h rest => ?_) (fun _ => ?_)
  · simp [Raw.decode, Raw.c, c3_fields, fnOr1, plain, Except.map, only0]
  · simp [wordCount]
theorem rdv (f : C3) : Statement (.rdv f) := by
  refine of_raw (en := .c) (w := Pack.c3 2 0 f) (l := []) rfl rfl (fun h rest => ?_) (fun _ => ?_)
  · simp [Raw.decode, Raw.c, c3_fields, fnOr1, plain, Except.map, only0]
  · simp [wordCount]
theorem fork (f : C3) : Statement (.fork f) := by
  refine of_raw (en := .c) (w := Pack.c3 3 0 f) (l := []) rfl rfl (fun h rest => ?_) (fun _ => ?_)
  · simp [Raw.decode, Raw.c, c3_fields, fnOr1, plain, Except.map, only0]
  · simp [wordCount]
theorem add (f : C3) : Statement (.add f) := by
  refine of_raw (en := .c) (w := Pack.c3 4 0 f) (l := []) rfl rfl (fun h rest => ?_) (fun _ => ?_)
  · simp [Raw.decode, Raw.c, c3_fields, fnOr1, plain, Except.map, aluA]
  · simp [wordCount]
theorem sub (f : C3) : Statement (.sub f) := by
  refine of_raw (en := .c) (w := Pack.c3 4 1 f) (l := []) rfl rfl (fun h rest => ?_) (fun _ => ?_)
  · simp [Raw.decode, Raw.c, c3_fields, fnOr1, plain, Except.map, aluA]
  · simp [wordCount]
theorem and (f : C3) : Statement (.and f) := by
  refine of_raw (en := .c) (w := Pack.c3 4 2 f) (l := []) rfl rfl (fun h rest => ?_) (fun _ => ?_)
  · simp [Raw.decode, Raw.c, c3_fields, fnOr1, plain, Except.map, aluA]
  · simp [wordCount]
theorem or (f : C3) : Statement (.or f) := by
  refine of_raw (en := .c) (w := Pack.c3 4 3 f) (l := []) rfl rfl (fun h rest => ?_) (fun _ => ?_)
  · simp [Raw.decode, Raw.c, c3_fields, fnOr1, plain, Except.map, aluA]
  · simp [wordCount]
theorem xor (f : C3) : Statement (.xor f) := by
  refine of_raw (en := .c) (w := Pack.c3 4 4 f) (l := []) rfl rfl (fun h rest => ?_) (fun _ => ?_)
  · simp [Raw.decode, Raw.c, c3_fields, fnOr1, plain, Except.map, aluA]
  · simp [wordCount]
theorem shl (f : C3) : Statement (.shl f) := by
  refine of_raw (en := .c) (w := Pack.c3 4 5 f) (l := []) rfl rfl (fun h rest => ?_) (fun _ => ?_)
  · simp [Raw.decode, Raw.c, c3_fields, fnOr1, plain, Except.map, aluA]
  · simp [wordCount]
theorem shr (f : C3) : Statement (.shr f) := by
  refine of_raw (en := .c) (w := Pack.c3 4 6 f) (l := []) rfl rfl (fun h rest => ?_) (fun _ => ?_)
  · simp [Raw.decode, Raw.c, c3_fields, fnOr1, plain, Except.map, aluA]
  · simp [wordCount]
theorem sar (f : C3) : Statement (.sar f) := by
  refine of_raw (en := .c) (w := Pack.c3 4 7 f) (l := []) rfl rfl (fun h rest => ?_) (fun _ => ?_)
  · simp [Raw.decode, Raw.c, c3_fields, fnOr1, plain, Except.map, aluA]
  · simp [wordCount]
theorem rol (f : C3) : Statement (.rol f) := by
  refine of_raw (en := .c) (w := Pack.c3 4 8 f) (l := []) rfl rfl (fun h rest => ?_) (fun _ => ?_)
  · simp [Raw.decode, Raw.c, c3_fields, fnOr1, plain, Except.map, aluA]
  · simp [wordCount]
theorem mul (f : C3) : Statement (.mul f) := by
  refine of_raw (en := .c) (w := Pack.c3 4 9 f) (l := []) rfl rfl (fun h rest => ?_) (fun _ => ?_)
  · simp [Raw.decode, Raw.c, c3_fields, fnOr1, plain, Except.map, aluA]
  · simp [wordCount]
theorem mulh (f : C3) : Statement (.mulh f) := by
  refine of_raw (en := .c) (w := Pack.c3 4 10 f) (l := []) rfl rfl (fun h rest => ?_) (fun _ => ?_)
  · simp [Raw.decode, Raw.c, c3_fields, fnOr1, plain, Except.map, aluA]
  · simp [wordCount]
theorem mulhU (f : C3) : Statement (.mulhU f) := by
  refine of_raw (en := .c) (w := Pack.c3 4 11 f) (l := []) rfl rfl (fun h rest => ?_) (fun _ => ?_)
  · simp [Raw.decode, Raw.c, c3_fields, fnOr1, plain, Except.map, aluA]
  · simp [wordCount]
theorem div (f : C3) : Statement (.div f) := by
  refine of_raw (en := .c) (w := Pack.c3 4 12 f) (l := []) rfl rfl (fun h rest => ?_) (fun _ => ?_)
  · simp [Raw.decode, Raw.c, c3_fields, fnOr1, plain, Except.map, aluA]
  · simp [wordCount]
theorem divU (f : C3) : Statement (.divU f) := by
  refine of_raw (en := .c) (w := Pack.c3 4 13 f) (l := []) rfl rfl (fun h rest => ?_) (fun _ => ?_)
  · simp [Raw.decode, Raw.c, c3_fields, fnOr1, plain, Except.map, aluA]
  · simp [wordCount]
theorem rem (f : C3) : Statement (.rem f) := by
  refine of_raw (en := .c) (w := Pack.c3 4 14 f) (l := []) rfl rfl (fun h rest => ?_) (fun _ => ?_)
  · simp [Raw.decode, Raw.c, c3_fields, fnOr1, plain, Except.map, aluA]
  · simp [wordCount]
theorem remU (f : C3) : Statement (.remU f) := by
  refine of_raw (en := .c) (w := Pack.c3 4 15 f) (l := []) rfl rfl (fun h rest => ?_) (fun _ => ?_)
  · simp [Raw.decode, Raw.c, c3_fields, fnOr1, plain, Except.map, aluA]
  · simp [wordCount]
theorem min (f : C3) : Statement (.min f) := by
  refine of_raw (en := .c) (w := Pack.c3 5 0 f) (l := []) rfl rfl (fun h rest => ?_) (fun _ => ?_)
  · simp [Raw.decode, Raw.c, c3_fields, fnOr1, plain, Except.map, aluB]
  · simp [wordCount]
theorem minU (f : C3) : Statement (.minU f) := by
  refine of_raw (en := .c) (w := Pack.c3 5 1 f) (l := []) rfl rfl (fun h rest => ?_) (fun _ => ?_)
  · simp [Raw.decode, Raw.c, c3_fields, fnOr1, plain, Except.map, aluB]
  · simp [wordCount]
theorem max (f : C3) : Statement (.max f) := by
  refine of_raw (en := .c) (w := Pack.c3 5 2 f) (l := []) rfl rfl (fun h rest => ?_) (fun _ => ?_)
  · simp [Raw.decode, Raw.c, c3_fields, fnOr1, plain, Except.map, aluB]
  · simp [wordCount]
theorem maxU (f : C3) : Statement (.maxU f) := by
  refine of_raw (en := .c) (w := Pack.c3 5 3 f) (l := []) rfl rfl (fun h rest => ?_) (fun _ => ?_)
  · simp [Raw.decode, Raw.c, c3_fields, fnOr1, plain, Except.map, aluB]
  · simp [wordCount]
theorem clz (f : C3) : Statement (.clz f) := by
  refine of_raw (en := .c) (w := Pack.c3 5 4 f) (l := []) rfl rfl (fun h rest => ?_) (fun _ => ?_)
  · simp [Raw.decode, Raw.c, c3_fields, fnOr1, plain, Except.map, aluB]
  · simp [wordCount]
theorem ctz (f : C3) : Statement (.ctz f) := by
  refine of_raw (en := .c) (w := Pack.c3 5 5 f) (l := []) rfl rfl (fun h rest => ?_) (fun _ => ?_)
  · simp [Raw.decode, Raw.c, c3_fields, fnOr1, plain, Except.map, aluB]
  · simp [wordCount]
theorem popc (f : C3) : Statement (.popc f) := by
  refine of_raw (en := .c) (w := Pack.c3 5 6 f) (l := []) rfl rfl (fun h rest => ?_) (fun _ => ?_)
  · simp [Raw.decode, Raw.c, c3_fields, fnOr1, plain, Except.map, aluB]
  · simp [wordCount]
theorem sel (f : C3) : Statement (.sel f) := by
  refine of_raw (en := .c) (w := Pack.c3 5 7 f) (l := []) rfl rfl (fun h rest => ?_) (fun _ => ?_)
  · simp [Raw.decode, Raw.c, c3_fields, fnOr1, plain, Except.map, aluB]
  · simp [wordCount]
theorem cmpEq (f : C3) : Statement (.cmpEq f) := by
  refine of_raw (en := .c) (w := Pack.c3 5 8 f) (l := []) rfl rfl (fun h rest => ?_) (fun _ => ?_)
  · simp [Raw.decode, Raw.c, c3_fields, fnOr1, plain, Except.map, aluB]
  · simp [wordCount]
theorem cmpNe (f : C3) : Statement (.cmpNe f) := by
  refine of_raw (en := .c) (w := Pack.c3 5 9 f) (l := []) rfl rfl (fun h rest => ?_) (fun _ => ?_)
  · simp [Raw.decode, Raw.c, c3_fields, fnOr1, plain, Except.map, aluB]
  · simp [wordCount]
theorem cmpLt (f : C3) : Statement (.cmpLt f) := by
  refine of_raw (en := .c) (w := Pack.c3 5 10 f) (l := []) rfl rfl (fun h rest => ?_) (fun _ => ?_)
  · simp [Raw.decode, Raw.c, c3_fields, fnOr1, plain, Except.map, aluB]
  · simp [wordCount]
theorem cmpGe (f : C3) : Statement (.cmpGe f) := by
  refine of_raw (en := .c) (w := Pack.c3 5 11 f) (l := []) rfl rfl (fun h rest => ?_) (fun _ => ?_)
  · simp [Raw.decode, Raw.c, c3_fields, fnOr1, plain, Except.map, aluB]
  · simp [wordCount]
theorem cmpLtu (f : C3) : Statement (.cmpLtu f) := by
  refine of_raw (en := .c) (w := Pack.c3 5 12 f) (l := []) rfl rfl (fun h rest => ?_) (fun _ => ?_)
  · simp [Raw.decode, Raw.c, c3_fields, fnOr1, plain, Except.map, aluB]
  · simp [wordCount]
theorem cmpGeu (f : C3) : Statement (.cmpGeu f) := by
  refine of_raw (en := .c) (w := Pack.c3 5 13 f) (l := []) rfl rfl (fun h rest => ?_) (fun _ => ?_)
  · simp [Raw.decode, Raw.c, c3_fields, fnOr1, plain, Except.map, aluB]
  · simp [wordCount]
theorem jmp (f : C3) : Statement (.jmp f) := by
  refine of_raw (en := .c) (w := Pack.c3 6 0 f) (l := []) rfl rfl (fun h rest => ?_) (fun _ => ?_)
  · simp [Raw.decode, Raw.c, c3_fields, fnOr1, plain, Except.map, only0]
  · simp [wordCount]
theorem mov (f : C3) : Statement (.mov f) := by
  refine of_raw (en := .c) (w := Pack.c3 7 0 f) (l := []) rfl rfl (fun h rest => ?_) (fun _ => ?_)
  · simp [Raw.decode, Raw.c, c3_fields, fnOr1, plain, Except.map, only0]
  · simp [wordCount]
theorem br (f : CB) : Statement (.br f) := by
  refine of_raw (en := .c) (w := Pack.cb 8 f) (l := []) rfl rfl (fun h rest => ?_) (fun _ => ?_)
  · simp [Raw.decode, Raw.c, cb_fields, plain, Except.map]
  · simp [wordCount]
theorem brc (f : CB) : Statement (.brc f) := by
  refine of_raw (en := .c) (w := Pack.cb 9 f) (l := []) rfl rfl (fun h rest => ?_) (fun _ => ?_)
  · simp [Raw.decode, Raw.c, cb_fields, plain, Except.map]
  · simp [wordCount]
theorem call (f : CB) : Statement (.call f) := by
  refine of_raw (en := .c) (w := Pack.cb 10 f) (l := []) rfl rfl (fun h rest => ?_) (fun _ => ?_)
  · simp [Raw.decode, Raw.c, cb_fields, plain, Except.map]
  · simp [wordCount]
theorem loop (f : CB) : Statement (.loop f) := by
  refine of_raw (en := .c) (w := Pack.cb 11 f) (l := []) rfl rfl (fun h rest => ?_) (fun _ => ?_)
  · simp [Raw.decode, Raw.c, cb_fields, plain, Except.map]
  · simp [wordCount]
theorem twait (f : C3) : Statement (.twait f) := by
  refine of_raw (en := .c) (w := Pack.c3 12 0 f) (l := []) rfl rfl (fun h rest => ?_) (fun _ => ?_)
  · simp [Raw.decode, Raw.c, c3_fields, fnOr1, plain, Except.map, waits]
  · simp [wordCount]
theorem tprom (f : C3) : Statement (.tprom f) := by
  refine of_raw (en := .c) (w := Pack.c3 12 1 f) (l := []) rfl rfl (fun h rest => ?_) (fun _ => ?_)
  · simp [Raw.decode, Raw.c, c3_fields, fnOr1, plain, Except.map, waits]
  · simp [wordCount]
theorem sleep (f : C3) : Statement (.sleep f) := by
  refine of_raw (en := .c) (w := Pack.c3 12 2 f) (l := []) rfl rfl (fun h rest => ?_) (fun _ => ?_)
  · simp [Raw.decode, Raw.c, c3_fields, fnOr1, plain, Except.map, waits]
  · simp [wordCount]
theorem isync (f : C3) : Statement (.isync f) := by
  refine of_raw (en := .c) (w := Pack.c3 12 3 f) (l := []) rfl rfl (fun h rest => ?_) (fun _ => ?_)
  · simp [Raw.decode, Raw.c, c3_fields, fnOr1, plain, Except.map, waits]
  · simp [wordCount]
theorem eret (f : C3) : Statement (.eret f) := by
  refine of_raw (en := .c) (w := Pack.c3 12 4 f) (l := []) rfl rfl (fun h rest => ?_) (fun _ => ?_)
  · simp [Raw.decode, Raw.c, c3_fields, fnOr1, plain, Except.map, waits]
  · simp [wordCount]
theorem launch (f : C3) : Statement (.launch f) := by
  refine of_raw (en := .c) (w := Pack.c3 13 0 f) (l := []) rfl rfl (fun h rest => ?_) (fun _ => ?_)
  · simp [Raw.decode, Raw.c, c3_fields, fnOr1, plain, Except.map, work]
  · simp [wordCount]
theorem edgeOne (f : C3) : Statement (.edgeOne f) := by
  refine of_raw (en := .c) (w := Pack.c3 13 1 f) (l := []) rfl rfl (fun h rest => ?_) (fun _ => ?_)
  · simp [Raw.decode, Raw.c, c3_fields, fnOr1, plain, Except.map, work]
  · simp [wordCount]
theorem edgeAll (f : C3) : Statement (.edgeAll f) := by
  refine of_raw (en := .c) (w := Pack.c3 13 2 f) (l := []) rfl rfl (fun h rest => ?_) (fun _ => ?_)
  · simp [Raw.decode, Raw.c, c3_fields, fnOr1, plain, Except.map, work]
  · simp [wordCount]
theorem edgeTree (f : C3) : Statement (.edgeTree f) := by
  refine of_raw (en := .c) (w := Pack.c3 13 3 f) (l := []) rfl rfl (fun h rest => ?_) (fun _ => ?_)
  · simp [Raw.decode, Raw.c, c3_fields, fnOr1, plain, Except.map, work]
  · simp [wordCount]
theorem edgeStencil (f : C3) : Statement (.edgeStencil f) := by
  refine of_raw (en := .c) (w := Pack.c3 13 4 f) (l := []) rfl rfl (fun h rest => ?_) (fun _ => ?_)
  · simp [Raw.decode, Raw.c, c3_fields, fnOr1, plain, Except.map, work]
  · simp [wordCount]
theorem gseal (f : C3) : Statement (.gseal f) := by
  refine of_raw (en := .c) (w := Pack.c3 13 5 f) (l := []) rfl rfl (fun h rest => ?_) (fun _ => ?_)
  · simp [Raw.decode, Raw.c, c3_fields, fnOr1, plain, Except.map, work]
  · simp [wordCount]
theorem gsealPh (f : C3) : Statement (.gsealPh f) := by
  refine of_raw (en := .c) (w := Pack.c3 13 6 f) (l := []) rfl rfl (fun h rest => ?_) (fun _ => ?_)
  · simp [Raw.decode, Raw.c, c3_fields, fnOr1, plain, Except.map, work]
  · simp [wordCount]
theorem cancel (f : C3) : Statement (.cancel f) := by
  refine of_raw (en := .c) (w := Pack.c3 13 7 f) (l := []) rfl rfl (fun h rest => ?_) (fun _ => ?_)
  · have hd : f.d.toNat < 4 := by
      simp only [Instr.wf, Instr.badField, Bool.and_eq_true, Bool.not_eq_true', Bool.or_eq_false_iff, decide_eq_false_iff_not] at h
      omega
    simp [Raw.decode, Raw.c, c3_fields, fnOr1, plain, Except.map, work, hd]
  · simp [wordCount]
theorem cancelOwn (f : C3) : Statement (.cancelOwn f) := by
  refine of_raw (en := .c) (w := Pack.c3 13 7 f) (l := []) rfl rfl (fun h rest => ?_) (fun _ => ?_)
  · have hd : ¬ f.d.toNat < 4 := by
      simp only [Instr.wf, Instr.badField, Bool.and_eq_true, Bool.not_eq_true', Bool.or_eq_false_iff, decide_eq_false_iff_not] at h
      omega
    simp [Raw.decode, Raw.c, c3_fields, fnOr1, plain, Except.map, work, hd]
  · simp [wordCount]
theorem spawn (f : C3) : Statement (.spawn f) := by
  refine of_raw (en := .c) (w := Pack.c3 13 8 f) (l := []) rfl rfl (fun h rest => ?_) (fun _ => ?_)
  · simp [Raw.decode, Raw.c, c3_fields, fnOr1, plain, Except.map, work]
  · simp [wordCount]
theorem ctrwait (f : C3) : Statement (.ctrwait f) := by
  refine of_raw (en := .c) (w := Pack.c3 13 9 f) (l := []) rfl rfl (fun h rest => ?_) (fun _ => ?_)
  · simp [Raw.decode, Raw.c, c3_fields, fnOr1, plain, Except.map, work]
  · simp [wordCount]
theorem bari (f : C3) : Statement (.bari f) := by
  refine of_raw (en := .c) (w := Pack.c3 14 0 f) (l := []) rfl rfl (fun h rest => ?_) (fun _ => ?_)
  · simp [Raw.decode, Raw.c, c3_fields, fnOr1, plain, Except.map, bar]
  · simp [wordCount]
theorem bara (f : C3) : Statement (.bara f) := by
  refine of_raw (en := .c) (w := Pack.c3 14 1 f) (l := []) rfl rfl (fun h rest => ?_) (fun _ => ?_)
  · simp [Raw.decode, Raw.c, c3_fields, fnOr1, plain, Except.map, bar]
  · simp [wordCount]
theorem barw (f : C3) : Statement (.barw f) := by
  refine of_raw (en := .c) (w := Pack.c3 14 2 f) (l := []) rfl rfl (fun h rest => ?_) (fun _ => ?_)
  · simp [Raw.decode, Raw.c, c3_fields, fnOr1, plain, Except.map, bar]
  · simp [wordCount]
theorem ccvt (f : C3) : Statement (.ccvt f) := by
  refine of_raw (en := .c) (w := Pack.c3 15 0 f) (l := []) rfl rfl (fun h rest => ?_) (fun _ => ?_)
  · simp [Raw.decode, Raw.c, c3_fields, fnOr1, plain, Except.map, res]
  · simp [wordCount]
theorem icbc (f : C3) : Statement (.icbc f) := by
  refine of_raw (en := .c) (w := Pack.c3 15 1 f) (l := []) rfl rfl (fun h rest => ?_) (fun _ => ?_)
  · simp [Raw.decode, Raw.c, c3_fields, fnOr1, plain, Except.map, res]
  · simp [wordCount]
theorem lrule (f : C3) : Statement (.lrule f) := by
  refine of_raw (en := .c) (w := Pack.c3 15 2 f) (l := []) rfl rfl (fun h rest => ?_) (fun _ => ?_)
  · simp [Raw.decode, Raw.c, c3_fields, fnOr1, plain, Except.map, res]
  · simp [wordCount]
theorem nset (f : C3) : Statement (.nset f) := by
  refine of_raw (en := .c) (w := Pack.c3 15 3 f) (l := []) rfl rfl (fun h rest => ?_) (fun _ => ?_)
  · simp [Raw.decode, Raw.c, c3_fields, fnOr1, plain, Except.map, res]
  · simp [wordCount]
theorem pbind (f : C3) : Statement (.pbind f) := by
  refine of_raw (en := .c) (w := Pack.c3 15 4 f) (l := []) rfl rfl (fun h rest => ?_) (fun _ => ?_)
  · simp [Raw.decode, Raw.c, c3_fields, fnOr1, plain, Except.map, res]
  · simp [wordCount]
theorem punb (f : C3) : Statement (.punb f) := by
  refine of_raw (en := .c) (w := Pack.c3 15 5 f) (l := []) rfl rfl (fun h rest => ?_) (fun _ => ?_)
  · simp [Raw.decode, Raw.c, c3_fields, fnOr1, plain, Except.map, res]
  · simp [wordCount]
theorem smap (f : C3) : Statement (.smap f) := by
  refine of_raw (en := .c) (w := Pack.c3 15 6 f) (l := []) rfl rfl (fun h rest => ?_) (fun _ => ?_)
  · simp [Raw.decode, Raw.c, c3_fields, fnOr1, plain, Except.map, res]
  · simp [wordCount]
theorem tdld (f : C3) : Statement (.tdld f) := by
  refine of_raw (en := .c) (w := Pack.c3 15 7 f) (l := []) rfl rfl (fun h rest => ?_) (fun _ => ?_)
  · simp [Raw.decode, Raw.c, c3_fields, fnOr1, plain, Except.map, res]
  · simp [wordCount]
theorem tdset (f : C3) : Statement (.tdset f) := by
  refine of_raw (en := .c) (w := Pack.c3 15 8 f) (l := []) rfl rfl (fun h rest => ?_) (fun _ => ?_)
  · simp [Raw.decode, Raw.c, c3_fields, fnOr1, plain, Except.map, res]
  · simp [wordCount]
theorem vset (f : C3) : Statement (.vset f) := by
  refine of_raw (en := .c) (w := Pack.c3 15 9 f) (l := []) rfl rfl (fun h rest => ?_) (fun _ => ?_)
  · simp [Raw.decode, Raw.c, c3_fields, fnOr1, plain, Except.map, res]
  · simp [wordCount]
theorem addI (f : CI) : Statement (.addI f) := by
  refine of_raw (en := .c) (w := Pack.ci 16 f) (l := []) rfl rfl (fun h rest => ?_) (fun _ => ?_)
  · simp [Raw.decode, Raw.c, ci_fields, plain, Except.map]
  · simp [wordCount]
theorem andI (f : CI) : Statement (.andI f) := by
  refine of_raw (en := .c) (w := Pack.ci 17 f) (l := []) rfl rfl (fun h rest => ?_) (fun _ => ?_)
  · simp [Raw.decode, Raw.c, ci_fields, plain, Except.map]
  · simp [wordCount]
theorem orI (f : CI) : Statement (.orI f) := by
  refine of_raw (en := .c) (w := Pack.ci 18 f) (l := []) rfl rfl (fun h rest => ?_) (fun _ => ?_)
  · simp [Raw.decode, Raw.c, ci_fields, plain, Except.map]
  · simp [wordCount]
theorem xorI (f : CI) : Statement (.xorI f) := by
  refine of_raw (en := .c) (w := Pack.ci 19 f) (l := []) rfl rfl (fun h rest => ?_) (fun _ => ?_)
  · simp [Raw.decode, Raw.c, ci_fields, plain, Except.map]
  · simp [wordCount]
theorem shlI (f : CI) : Statement (.shlI f) := by
  refine of_raw (en := .c) (w := Pack.ci 20 f) (l := []) rfl rfl (fun h rest => ?_) (fun _ => ?_)
  · simp [Raw.decode, Raw.c, ci_fields, plain, Except.map]
  · simp [wordCount]
theorem shrI (f : CI) : Statement (.shrI f) := by
  refine of_raw (en := .c) (w := Pack.ci 21 f) (l := []) rfl rfl (fun h rest => ?_) (fun _ => ?_)
  · simp [Raw.decode, Raw.c, ci_fields, plain, Except.map]
  · simp [wordCount]
theorem sarI (f : CI) : Statement (.sarI f) := by
  refine of_raw (en := .c) (w := Pack.ci 22 f) (l := []) rfl rfl (fun h rest => ?_) (fun _ => ?_)
  · simp [Raw.decode, Raw.c, ci_fields, plain, Except.map]
  · simp [wordCount]
theorem rolI (f : CI) : Statement (.rolI f) := by
  refine of_raw (en := .c) (w := Pack.ci 23 f) (l := []) rfl rfl (fun h rest => ?_) (fun _ => ?_)
  · simp [Raw.decode, Raw.c, ci_fields, plain, Except.map]
  · simp [wordCount]
theorem mulI (f : CI) : Statement (.mulI f) := by
  refine of_raw (en := .c) (w := Pack.ci 24 f) (l := []) rfl rfl (fun h rest => ?_) (fun _ => ?_)
  · simp [Raw.decode, Raw.c, ci_fields, plain, Except.map]
  · simp [wordCount]
theorem movI (f : CI) : Statement (.movI f) := by
  refine of_raw (en := .c) (w := Pack.ci 25 f) (l := []) rfl rfl (fun h rest => ?_) (fun _ => ?_)
  · simp [Raw.decode, Raw.c, ci_fields, plain, Except.map]
  · simp [wordCount]
theorem trap (f : CI) : Statement (.trap f) := by
  refine of_raw (en := .c) (w := Pack.ci 26 f) (l := []) rfl rfl (fun h rest => ?_) (fun _ => ?_)
  · simp [Raw.decode, Raw.c, ci_fields, plain, Except.map]
  · simp [wordCount]
theorem sysr (f : CI) : Statement (.sysr f) := by
  refine of_raw (en := .c) (w := Pack.ci 27 f) (l := []) rfl rfl (fun h rest => ?_) (fun _ => ?_)
  · simp [Raw.decode, Raw.c, ci_fields, plain, Except.map]
  · simp [wordCount]
theorem sysw (f : CI) : Statement (.sysw f) := by
  refine of_raw (en := .c) (w := Pack.ci 28 f) (l := []) rfl rfl (fun h rest => ?_) (fun _ => ?_)
  · have hn : syswRow f = .sysw f := by
      simp only [Instr.wf, Instr.badField, Bool.and_eq_true, Bool.not_eq_true', Bool.or_eq_false_iff] at h
      have h1 := h.2.2
      unfold syswRow
      split <;> first | rfl | (rename_i hk; rw [hk] at h1; simp [sysregOwnStep] at h1)
    simp [Raw.decode, Raw.c, ci_fields, plain, Except.map, hn]
  · simp [wordCount]
theorem movL (f : CL) : Statement (.movL f) := by
  refine of_raw (en := .c) (w := clWord0 32 f) (l := Pack.lit f.lit) rfl rfl (fun h rest => ?_) (fun _ => ?_)
  · simp [Raw.decode, Raw.c, cl_read, Except.map]
  · cases hl : f.lit <;> simp [wordCount, Pack.lit, Pack.isL64, hl, show (clWord0 32 f)[19] = _ from clWord0_l 32 f]
theorem fence (f : CL) : Statement (.fence f) := by
  refine of_raw (en := .c) (w := clWord0 33 f) (l := Pack.lit f.lit) rfl rfl (fun h rest => ?_) (fun _ => ?_)
  · simp [Raw.decode, Raw.c, cl_read, Except.map]
  · cases hl : f.lit <;> simp [wordCount, Pack.lit, Pack.isL64, hl, show (clWord0 33 f)[19] = _ from clWord0_l 33 f]
theorem kchk (f : CL) : Statement (.kchk f) := by
  refine of_raw (en := .c) (w := clWord0 34 f) (l := Pack.lit f.lit) rfl rfl (fun h rest => ?_) (fun _ => ?_)
  · simp [Raw.decode, Raw.c, cl_read, Except.map]
  · cases hl : f.lit <;> simp [wordCount, Pack.lit, Pack.isL64, hl, show (clWord0 34 f)[19] = _ from clWord0_l 34 f]
theorem ld (f : CM) : Statement (.ld f) := by
  refine of_raw (en := .c) (w := cmWord0 40 0 f) (l := [cmWord1 f]) rfl rfl (fun h rest => ?_) (fun _ => ?_)
  · simp [Raw.decode, Raw.c, Raw.cmRow, cm_fields, fnOr1, plain, Except.map, only0]
  · simp [wordCount]
theorem st (f : CM) : Statement (.st f) := by
  refine of_raw (en := .c) (w := cmWord0 41 0 f) (l := [cmWord1 f]) rfl rfl (fun h rest => ?_) (fun _ => ?_)
  · simp [Raw.decode, Raw.c, Raw.cmRow, cm_fields, fnOr1, plain, Except.map, only0]
  · simp [wordCount]
theorem atomAdd (f : CM) : Statement (.atomAdd f) := by
  refine of_raw (en := .c) (w := cmWord0 42 0 f) (l := [cmWord1 f]) rfl rfl (fun h rest => ?_) (fun _ => ?_)
  · simp [Raw.decode, Raw.c, Raw.cmRow, cm_fields, fnOr1, plain, Except.map, atomRow]
  · simp [wordCount]
theorem atomAnd (f : CM) : Statement (.atomAnd f) := by
  refine of_raw (en := .c) (w := cmWord0 42 1 f) (l := [cmWord1 f]) rfl rfl (fun h rest => ?_) (fun _ => ?_)
  · simp [Raw.decode, Raw.c, Raw.cmRow, cm_fields, fnOr1, plain, Except.map, atomRow]
  · simp [wordCount]
theorem atomOr (f : CM) : Statement (.atomOr f) := by
  refine of_raw (en := .c) (w := cmWord0 42 2 f) (l := [cmWord1 f]) rfl rfl (fun h rest => ?_) (fun _ => ?_)
  · simp [Raw.decode, Raw.c, Raw.cmRow, cm_fields, fnOr1, plain, Except.map, atomRow]
  · simp [wordCount]
theorem atomXor (f : CM) : Statement (.atomXor f) := by
  refine of_raw (en := .c) (w := cmWord0 42 3 f) (l := [cmWord1 f]) rfl rfl (fun h rest => ?_) (fun _ => ?_)
  · simp [Raw.decode, Raw.c, Raw.cmRow, cm_fields, fnOr1, plain, Except.map, atomRow]
  · simp [wordCount]
theorem atomMin (f : CM) : Statement (.atomMin f) := by
  refine of_raw (en := .c) (w := cmWord0 42 4 f) (l := [cmWord1 f]) rfl rfl (fun h rest => ?_) (fun _ => ?_)
  · simp [Raw.decode, Raw.c, Raw.cmRow, cm_fields, fnOr1, plain, Except.map, atomRow]
  · simp [wordCount]
theorem atomMax (f : CM) : Statement (.atomMax f) := by
  refine of_raw (en := .c) (w := cmWord0 42 5 f) (l := [cmWord1 f]) rfl rfl (fun h rest => ?_) (fun _ => ?_)
  · simp [Raw.decode, Raw.c, Raw.cmRow, cm_fields, fnOr1, plain, Except.map, atomRow]
  · simp [wordCount]
theorem atomMinu (f : CM) : Statement (.atomMinu f) := by
  refine of_raw (en := .c) (w := cmWord0 42 6 f) (l := [cmWord1 f]) rfl rfl (fun h rest => ?_) (fun _ => ?_)
  · simp [Raw.decode, Raw.c, Raw.cmRow, cm_fields, fnOr1, plain, Except.map, atomRow]
  · simp [wordCount]
theorem atomMaxu (f : CM) : Statement (.atomMaxu f) := by
  refine of_raw (en := .c) (w := cmWord0 42 7 f) (l := [cmWord1 f]) rfl rfl (fun h rest => ?_) (fun _ => ?_)
  · simp [Raw.decode, Raw.c, Raw.cmRow, cm_fields, fnOr1, plain, Except.map, atomRow]
  · simp [wordCount]
theorem atomSwap (f : CM) : Statement (.atomSwap f) := by
  refine of_raw (en := .c) (w := cmWord0 42 8 f) (l := [cmWord1 f]) rfl rfl (fun h rest => ?_) (fun _ => ?_)
  · simp [Raw.decode, Raw.c, Raw.cmRow, cm_fields, fnOr1, plain, Except.map, atomRow]
  · simp [wordCount]
theorem atomCas (f : CM) : Statement (.atomCas f) := by
  refine of_raw (en := .c) (w := cmWord0 42 9 f) (l := [cmWord1 f]) rfl rfl (fun h rest => ?_) (fun _ => ?_)
  · simp [Raw.decode, Raw.c, Raw.cmRow, cm_fields, fnOr1, plain, Except.map, atomRow]
  · simp [wordCount]
theorem ldc (f : CM) : Statement (.ldc f) := by
  refine of_raw (en := .c) (w := cmWord0 43 0 f) (l := [cmWord1 f]) rfl rfl (fun h rest => ?_) (fun _ => ?_)
  · simp [Raw.decode, Raw.c, Raw.cmRow, cm_fields, fnOr1, plain, Except.map, only0]
  · simp [wordCount]
theorem bkpt (f : BK) : Statement (.bkpt f) := by
  refine of_raw (en := f.eng) (w := bkWord0 f) (l := List.replicate f.cnt.toNat 0) rfl rfl (fun h rest => ?_) (fun _ => ?_)
  · have hb := bk_read f rest
    obtain ⟨e, n, i⟩ := f
    cases e
    · simpa only [Raw.decode, Raw.c, bk_major, if_true] using hb
    · simpa only [Raw.decode, Raw.v, bk_major, if_true] using hb
    · simpa only [Raw.decode, Raw.m, bk_major, if_true] using hb
    · simpa only [Raw.decode, Raw.y, bk_major, if_true] using hb
  · simp [wordCount, bk_major]
    omega
theorem vRdv (f : VX) : Statement (.vRdv f) := by
  refine of_vector 0 0 _ f rfl rfl (fun h => ?_) (by decide) (by decide) rfl (by decide) (by decide) ⟨_, rfl⟩ rfl
  simp only [Instr.wf, Bool.and_eq_true, Bool.not_eq_true'] at h
  exact ⟨h.1.1, h.2⟩
theorem vadd (f : VX) : Statement (.vadd f) := by
  refine of_vector 1 0 _ f rfl rfl (fun h => ?_) (by decide) (by decide) rfl (by decide) (by decide) ⟨_, rfl⟩ rfl
  simp only [Instr.wf, Bool.and_eq_true, Bool.not_eq_true'] at h
  exact ⟨h.1.1, h.2⟩
theorem vsub (f : VX) : Statement (.vsub f) := by
  refine of_vector 1 1 _ f rfl rfl (fun h => ?_) (by decide) (by decide) rfl (by decide) (by decide) ⟨_, rfl⟩ rfl
  simp only [Instr.wf, Bool.and_eq_true, Bool.not_eq_true'] at h
  exact ⟨h.1.1, h.2⟩
theorem vmul (f : VX) : Statement (.vmul f) := by
  refine of_vector 1 2 _ f rfl rfl (fun h => ?_) (by decide) (by decide) rfl (by decide) (by decide) ⟨_, rfl⟩ rfl
  simp only [Instr.wf, Bool.and_eq_true, Bool.not_eq_true'] at h
  exact ⟨h.1.1, h.2⟩
theorem vfma (f : VX) : Statement (.vfma f) := by
  refine of_vector 1 3 _ f rfl rfl (fun h => ?_) (by decide) (by decide) rfl (by decide) (by decide) ⟨_, rfl⟩ rfl
  simp only [Instr.wf, Bool.and_eq_true, Bool.not_eq_true'] at h
  exact ⟨h.1.1, h.2⟩
theorem vmin (f : VX) : Statement (.vmin f) := by
  refine of_vector 1 4 _ f rfl rfl (fun h => ?_) (by decide) (by decide) rfl (by decide) (by decide) ⟨_, rfl⟩ rfl
  simp only [Instr.wf, Bool.and_eq_true, Bool.not_eq_true'] at h
  exact ⟨h.1.1, h.2⟩
theorem vmax (f : VX) : Statement (.vmax f) := by
  refine of_vector 1 5 _ f rfl rfl (fun h => ?_) (by decide) (by decide) rfl (by decide) (by decide) ⟨_, rfl⟩ rfl
  simp only [Instr.wf, Bool.and_eq_true, Bool.not_eq_true'] at h
  exact ⟨h.1.1, h.2⟩
theorem vdiv (f : VX) : Statement (.vdiv f) := by
  refine of_vector 1 6 _ f rfl rfl (fun h => ?_) (by decide) (by decide) rfl (by decide) (by decide) ⟨_, rfl⟩ rfl
  simp only [Instr.wf, Bool.and_eq_true, Bool.not_eq_true'] at h
  exact ⟨h.1.1, h.2⟩
theorem vabs (f : VX) : Statement (.vabs f) := by
  refine of_vector 1 7 _ f rfl rfl (fun h => ?_) (by decide) (by decide) rfl (by decide) (by decide) ⟨_, rfl⟩ rfl
  simp only [Instr.wf, Bool.and_eq_true, Bool.not_eq_true'] at h
  exact ⟨h.1.1, h.2⟩
theorem vneg (f : VX) : Statement (.vneg f) := by
  refine of_vector 1 8 _ f rfl rfl (fun h => ?_) (by decide) (by decide) rfl (by decide) (by decide) ⟨_, rfl⟩ rfl
  simp only [Instr.wf, Bool.and_eq_true, Bool.not_eq_true'] at h
  exact ⟨h.1.1, h.2⟩
theorem vsqrt (f : VX) : Statement (.vsqrt f) := by
  refine of_vector 1 9 _ f rfl rfl (fun h => ?_) (by decide) (by decide) rfl (by decide) (by decide) ⟨_, rfl⟩ rfl
  simp only [Instr.wf, Bool.and_eq_true, Bool.not_eq_true'] at h
  exact ⟨h.1.1, h.2⟩
theorem vrcp (f : VX) : Statement (.vrcp f) := by
  refine of_vector 1 10 _ f rfl rfl (fun h => ?_) (by decide) (by decide) rfl (by decide) (by decide) ⟨_, rfl⟩ rfl
  simp only [Instr.wf, Bool.and_eq_true, Bool.not_eq_true'] at h
  exact ⟨h.1.1, h.2⟩
theorem vrsq (f : VX) : Statement (.vrsq f) := by
  refine of_vector 1 11 _ f rfl rfl (fun h => ?_) (by decide) (by decide) rfl (by decide) (by decide) ⟨_, rfl⟩ rfl
  simp only [Instr.wf, Bool.and_eq_true, Bool.not_eq_true'] at h
  exact ⟨h.1.1, h.2⟩
theorem vexp2 (f : VX) : Statement (.vexp2 f) := by
  refine of_vector 1 12 _ f rfl rfl (fun h => ?_) (by decide) (by decide) rfl (by decide) (by decide) ⟨_, rfl⟩ rfl
  simp only [Instr.wf, Bool.and_eq_true, Bool.not_eq_true'] at h
  exact ⟨h.1.1, h.2⟩
theorem vlog2 (f : VX) : Statement (.vlog2 f) := by
  refine of_vector 1 13 _ f rfl rfl (fun h => ?_) (by decide) (by decide) rfl (by decide) (by decide) ⟨_, rfl⟩ rfl
  simp only [Instr.wf, Bool.and_eq_true, Bool.not_eq_true'] at h
  exact ⟨h.1.1, h.2⟩
theorem vscl (f : VX) : Statement (.vscl f) := by
  refine of_vector 1 14 _ f rfl rfl (fun h => ?_) (by decide) (by decide) rfl (by decide) (by decide) ⟨_, rfl⟩ rfl
  simp only [Instr.wf, Bool.and_eq_true, Bool.not_eq_true'] at h
  exact ⟨h.1.1, h.2⟩
theorem vand (f : VX) : Statement (.vand f) := by
  refine of_vector 2 0 _ f rfl rfl (fun h => ?_) (by decide) (by decide) rfl (by decide) (by decide) ⟨_, rfl⟩ rfl
  simp only [Instr.wf, Bool.and_eq_true, Bool.not_eq_true'] at h
  exact ⟨h.1.1, h.2⟩
theorem vor (f : VX) : Statement (.vor f) := by
  refine of_vector 2 1 _ f rfl rfl (fun h => ?_) (by decide) (by decide) rfl (by decide) (by decide) ⟨_, rfl⟩ rfl
  simp only [Instr.wf, Bool.and_eq_true, Bool.not_eq_true'] at h
  exact ⟨h.1.1, h.2⟩
theorem vxor (f : VX) : Statement (.vxor f) := by
  refine of_vector 2 2 _ f rfl rfl (fun h => ?_) (by decide) (by decide) rfl (by decide) (by decide) ⟨_, rfl⟩ rfl
  simp only [Instr.wf, Bool.and_eq_true, Bool.not_eq_true'] at h
  exact ⟨h.1.1, h.2⟩
theorem vnot (f : VX) : Statement (.vnot f) := by
  refine of_vector 2 3 _ f rfl rfl (fun h => ?_) (by decide) (by decide) rfl (by decide) (by decide) ⟨_, rfl⟩ rfl
  simp only [Instr.wf, Bool.and_eq_true, Bool.not_eq_true'] at h
  exact ⟨h.1.1, h.2⟩
theorem vshl (f : VX) : Statement (.vshl f) := by
  refine of_vector 2 4 _ f rfl rfl (fun h => ?_) (by decide) (by decide) rfl (by decide) (by decide) ⟨_, rfl⟩ rfl
  simp only [Instr.wf, Bool.and_eq_true, Bool.not_eq_true'] at h
  exact ⟨h.1.1, h.2⟩
theorem vshr (f : VX) : Statement (.vshr f) := by
  refine of_vector 2 5 _ f rfl rfl (fun h => ?_) (by decide) (by decide) rfl (by decide) (by decide) ⟨_, rfl⟩ rfl
  simp only [Instr.wf, Bool.and_eq_true, Bool.not_eq_true'] at h
  exact ⟨h.1.1, h.2⟩
theorem vsar (f : VX) : Statement (.vsar f) := by
  refine of_vector 2 6 _ f rfl rfl (fun h => ?_) (by decide) (by decide) rfl (by decide) (by decide) ⟨_, rfl⟩ rfl
  simp only [Instr.wf, Bool.and_eq_true, Bool.not_eq_true'] at h
  exact ⟨h.1.1, h.2⟩
theorem vrol (f : VX) : Statement (.vrol f) := by
  refine of_vector 2 7 _ f rfl rfl (fun h => ?_) (by decide) (by decide) rfl (by decide) (by decide) ⟨_, rfl⟩ rfl
  simp only [Instr.wf, Bool.and_eq_true, Bool.not_eq_true'] at h
  exact ⟨h.1.1, h.2⟩
theorem vmov (f : VX) : Statement (.vmov f) := by
  refine of_vector 3 0 _ f rfl rfl (fun h => ?_) (by decide) (by decide) rfl (by decide) (by decide) ⟨_, rfl⟩ rfl
  simp only [Instr.wf, Bool.and_eq_true, Bool.not_eq_true'] at h
  exact ⟨h.1.1, h.2⟩
theorem vsel (f : VX) : Statement (.vsel f) := by
  refine of_vector 3 1 _ f rfl rfl (fun h => ?_) (by decide) (by decide) rfl (by decide) (by decide) ⟨_, rfl⟩ rfl
  simp only [Instr.wf, Bool.and_eq_true, Bool.not_eq_true'] at h
  exact ⟨h.1.1, h.2⟩
theorem vcmpEq (f : VX) : Statement (.vcmpEq f) := by
  refine of_vector 3 2 _ f rfl rfl (fun h => ?_) (by decide) (by decide) rfl (by decide) (by decide) ⟨_, rfl⟩ rfl
  simp only [Instr.wf, Bool.and_eq_true, Bool.not_eq_true'] at h
  exact ⟨h.1.1, h.2⟩
theorem vcmpNe (f : VX) : Statement (.vcmpNe f) := by
  refine of_vector 3 3 _ f rfl rfl (fun h => ?_) (by decide) (by decide) rfl (by decide) (by decide) ⟨_, rfl⟩ rfl
  simp only [Instr.wf, Bool.and_eq_true, Bool.not_eq_true'] at h
  exact ⟨h.1.1, h.2⟩
theorem vcmpLt (f : VX) : Statement (.vcmpLt f) := by
  refine of_vector 3 4 _ f rfl rfl (fun h => ?_) (by decide) (by decide) rfl (by decide) (by decide) ⟨_, rfl⟩ rfl
  simp only [Instr.wf, Bool.and_eq_true, Bool.not_eq_true'] at h
  exact ⟨h.1.1, h.2⟩
theorem vcmpLe (f : VX) : Statement (.vcmpLe f) := by
  refine of_vector 3 5 _ f rfl rfl (fun h => ?_) (by decide) (by decide) rfl (by decide) (by decide) ⟨_, rfl⟩ rfl
  simp only [Instr.wf, Bool.and_eq_true, Bool.not_eq_true'] at h
  exact ⟨h.1.1, h.2⟩
theorem vcmpGt (f : VX) : Statement (.vcmpGt f) := by
  refine of_vector 3 6 _ f rfl rfl (fun h => ?_) (by decide) (by decide) rfl (by decide) (by decide) ⟨_, rfl⟩ rfl
  simp only [Instr.wf, Bool.and_eq_true, Bool.not_eq_true'] at h
  exact ⟨h.1.1, h.2⟩
theorem vcmpGe (f : VX) : Statement (.vcmpGe f) := by
  refine of_vector 3 7 _ f rfl rfl (fun h => ?_) (by decide) (by decide) rfl (by decide) (by decide) ⟨_, rfl⟩ rfl
  simp only [Instr.wf, Bool.and_eq_true, Bool.not_eq_true'] at h
  exact ⟨h.1.1, h.2⟩
theorem vbc (f : VX) : Statement (.vbc f) := by
  refine of_vector 3 8 _ f rfl rfl (fun h => ?_) (by decide) (by decide) rfl (by decide) (by decide) ⟨_, rfl⟩ rfl
  simp only [Instr.wf, Bool.and_eq_true, Bool.not_eq_true'] at h
  exact ⟨h.1.1, h.2⟩
theorem vext (f : VX) : Statement (.vext f) := by
  refine of_vector 3 9 _ f rfl rfl (fun h => ?_) (by decide) (by decide) rfl (by decide) (by decide) ⟨_, rfl⟩ rfl
  simp only [Instr.wf, Bool.and_eq_true, Bool.not_eq_true'] at h
  exact ⟨h.1.1, h.2⟩
theorem vins (f : VX) : Statement (.vins f) := by
  refine of_vector 3 10 _ f rfl rfl (fun h => ?_) (by decide) (by decide) rfl (by decide) (by decide) ⟨_, rfl⟩ rfl
  simp only [Instr.wf, Bool.and_eq_true, Bool.not_eq_true'] at h
  exact ⟨h.1.1, h.2⟩
theorem vslide (f : VX) : Statement (.vslide f) := by
  refine of_vector 3 11 _ f rfl rfl (fun h => ?_) (by decide) (by decide) rfl (by decide) (by decide) ⟨_, rfl⟩ rfl
  simp only [Instr.wf, Bool.and_eq_true, Bool.not_eq_true'] at h
  exact ⟨h.1.1, h.2⟩
theorem vredAdd (f : VX) : Statement (.vredAdd f) := by
  refine of_vector 4 0 _ f rfl rfl (fun h => ?_) (by decide) (by decide) rfl (by decide) (by decide) ⟨_, rfl⟩ rfl
  simp only [Instr.wf, Bool.and_eq_true, Bool.not_eq_true'] at h
  exact ⟨h.1.1, h.2⟩
theorem vredMin (f : VX) : Statement (.vredMin f) := by
  refine of_vector 4 1 _ f rfl rfl (fun h => ?_) (by decide) (by decide) rfl (by decide) (by decide) ⟨_, rfl⟩ rfl
  simp only [Instr.wf, Bool.and_eq_true, Bool.not_eq_true'] at h
  exact ⟨h.1.1, h.2⟩
theorem vredMax (f : VX) : Statement (.vredMax f) := by
  refine of_vector 4 2 _ f rfl rfl (fun h => ?_) (by decide) (by decide) rfl (by decide) (by decide) ⟨_, rfl⟩ rfl
  simp only [Instr.wf, Bool.and_eq_true, Bool.not_eq_true'] at h
  exact ⟨h.1.1, h.2⟩
theorem vcvt (f : VX) : Statement (.vcvt f) := by
  refine of_vector 5 0 _ f rfl rfl (fun h => ?_) (by decide) (by decide) rfl (by decide) (by decide) ⟨_, rfl⟩ rfl
  simp only [Instr.wf, Bool.and_eq_true, Bool.not_eq_true'] at h
  exact ⟨h.1.1, h.2⟩
theorem vqnt (f : VX) : Statement (.vqnt f) := by
  refine of_vector 5 1 _ f rfl rfl (fun h => ?_) (by decide) (by decide) rfl (by decide) (by decide) ⟨_, rfl⟩ rfl
  simp only [Instr.wf, Bool.and_eq_true, Bool.not_eq_true'] at h
  exact ⟨h.1.1, h.2⟩
theorem vdqnt (f : VX) : Statement (.vdqnt f) := by
  refine of_vector 5 2 _ f rfl rfl (fun h => ?_) (by decide) (by decide) rfl (by decide) (by decide) ⟨_, rfl⟩ rfl
  simp only [Instr.wf, Bool.and_eq_true, Bool.not_eq_true'] at h
  exact ⟨h.1.1, h.2⟩
theorem vld (f : VX) : Statement (.vld f) := by
  refine of_vector 6 0 _ f rfl rfl (fun h => ?_) (by decide) (by decide) rfl (by decide) (by decide) ⟨_, rfl⟩ rfl
  simp only [Instr.wf, Bool.and_eq_true, Bool.not_eq_true'] at h
  exact ⟨h.1.1, h.2⟩
theorem vst (f : VX) : Statement (.vst f) := by
  refine of_vector 6 1 _ f rfl rfl (fun h => ?_) (by decide) (by decide) rfl (by decide) (by decide) ⟨_, rfl⟩ rfl
  simp only [Instr.wf, Bool.and_eq_true, Bool.not_eq_true'] at h
  exact ⟨h.1.1, h.2⟩
theorem vldx (f : VX) : Statement (.vldx f) := by
  refine of_vector 6 2 _ f rfl rfl (fun h => ?_) (by decide) (by decide) rfl (by decide) (by decide) ⟨_, rfl⟩ rfl
  simp only [Instr.wf, Bool.and_eq_true, Bool.not_eq_true'] at h
  exact ⟨h.1.1, h.2⟩
theorem vstx (f : VX) : Statement (.vstx f) := by
  refine of_vector 6 3 _ f rfl rfl (fun h => ?_) (by decide) (by decide) rfl (by decide) (by decide) ⟨_, rfl⟩ rfl
  simp only [Instr.wf, Bool.and_eq_true, Bool.not_eq_true'] at h
  exact ⟨h.1.1, h.2⟩
theorem mRdv (f : MF) : Statement (.mRdv f) := by
  refine of_raw (en := .m) (w := Pack.m 0 f) (l := []) rfl rfl (fun h rest => ?_) (fun h => ?_)
  · simp [Raw.decode, Raw.m, m_fields]
  · simp [wordCount]
theorem mma (f : MF) : Statement (.mma f) := by
  refine of_raw (en := .m) (w := Pack.m 1 f) (l := []) rfl rfl (fun h rest => ?_) (fun h => ?_)
  · simp [Raw.decode, Raw.m, m_fields]
  · simp [wordCount]
theorem mnest (f : MF) (t : Tok) : Statement (.mnest f t) := by
  refine of_raw (en := .m) (w := Pack.m 2 f) (l := [Pack.tok t]) rfl rfl (fun h rest => ?_) (fun h => ?_)
  · simp [Raw.decode, Raw.m, m_fields, Raw.mTok, tok_fields]
  · simp [wordCount]
theorem mnestStep : Statement (.mnestStep) := of_event rfl
theorem mbld (f : MF) (t : Tok) : Statement (.mbld f t) := by
  refine of_raw (en := .m) (w := Pack.m 3 f) (l := [Pack.tok t]) rfl rfl (fun h rest => ?_) (fun h => ?_)
  · simp [Raw.decode, Raw.m, m_fields, Raw.mTok, tok_fields]
  · simp [wordCount]
theorem mwb (f : MF) : Statement (.mwb f) := by
  refine of_raw (en := .m) (w := Pack.m 4 f) (l := []) rfl rfl (fun h rest => ?_) (fun h => ?_)
  · have hm : f.mf.getLsbD 0 = false := by
      simp only [Instr.wf, Instr.badField, Bool.and_eq_true, Bool.not_eq_true', Bool.or_eq_false_iff] at h
      have hb := h.2
      simp_all
    have hb : f.mf[0] = false := hm
    simp [Raw.decode, Raw.m, m_fields, hb]
  · have hm : f.mf.getLsbD 0 = false := by
      simp only [Instr.wf, Instr.badField, Bool.and_eq_true, Bool.not_eq_true', Bool.or_eq_false_iff] at h
      have hb := h.2
      simp_all
    have hb : f.mf[0] = false := hm
    simp [wordCount, m_mf0, hb]
theorem mwbMem (f : MF) (t : Tok) : Statement (.mwbMem f t) := by
  refine of_raw (en := .m) (w := Pack.m 4 f) (l := [Pack.tok t]) rfl rfl (fun h rest => ?_) (fun h => ?_)
  · have hm : f.mf.getLsbD 0 = true := by
      simp only [Instr.wf, Instr.badField, Bool.and_eq_true, Bool.not_eq_true', Bool.or_eq_false_iff] at h
      have hb := h.2
      simp_all
    have hb : f.mf[0] = true := hm
    simp [Raw.decode, Raw.m, m_fields, Raw.mTok, tok_fields, hb]
  · have hm : f.mf.getLsbD 0 = true := by
      simp only [Instr.wf, Instr.badField, Bool.and_eq_true, Bool.not_eq_true', Bool.or_eq_false_iff] at h
      have hb := h.2
      simp_all
    have hb : f.mf[0] = true := hm
    simp [wordCount, m_mf0, hb]
theorem mscl (f : MF) : Statement (.mscl f) := by
  refine of_raw (en := .m) (w := Pack.m 5 f) (l := []) rfl rfl (fun h rest => ?_) (fun h => ?_)
  · have hm : f.mf.getLsbD 0 = false := by
      simp only [Instr.wf, Instr.badField, Bool.and_eq_true, Bool.not_eq_true', Bool.or_eq_false_iff] at h
      have hb := h.2
      simp_all
    have hb : f.mf[0] = false := hm
    simp [Raw.decode, Raw.m, m_fields, hb]
  · simp [wordCount]
theorem msclReg (f : MF) : Statement (.msclReg f) := by
  refine of_raw (en := .m) (w := Pack.m 5 f) (l := []) rfl rfl (fun h rest => ?_) (fun h => ?_)
  · have hm : f.mf.getLsbD 0 = true := by
      simp only [Instr.wf, Instr.badField, Bool.and_eq_true, Bool.not_eq_true', Bool.or_eq_false_iff] at h
      have hb := h.2
      simp_all
    have hb : f.mf[0] = true := hm
    simp [Raw.decode, Raw.m, m_fields, hb]
  · simp [wordCount]
theorem mtrn (f : MF) : Statement (.mtrn f) := by
  refine of_raw (en := .m) (w := Pack.m 6 f) (l := []) rfl rfl (fun h rest => ?_) (fun h => ?_)
  · simp [Raw.decode, Raw.m, m_fields]
  · simp [wordCount]
theorem mxmov (f : MF) : Statement (.mxmov f) := by
  refine of_raw (en := .m) (w := Pack.m 7 f) (l := []) rfl rfl (fun h rest => ?_) (fun h => ?_)
  · simp [Raw.decode, Raw.m, m_fields]
  · simp [wordCount]
theorem mzero (f : MF) : Statement (.mzero f) := by
  refine of_raw (en := .m) (w := Pack.m 8 f) (l := []) rfl rfl (fun h rest => ?_) (fun h => ?_)
  · simp [Raw.decode, Raw.m, m_fields]
  · simp [wordCount]
theorem mgang (f : MF) : Statement (.mgang f) := by
  refine of_raw (en := .m) (w := Pack.m 9 f) (l := []) rfl rfl (fun h rest => ?_) (fun h => ?_)
  · have hm : f.mf.getLsbD 0 = false := by
      simp only [Instr.wf, Instr.badField, Bool.and_eq_true, Bool.not_eq_true', Bool.or_eq_false_iff, bne_eq_false_iff_eq] at h
      simp [h.2.2]
    have hb : f.mf[0] = false := hm
    simp [Raw.decode, Raw.m, m_fields, hb]
  · simp [wordCount]
theorem mgangLeave (f : MF) : Statement (.mgangLeave f) := by
  refine of_raw (en := .m) (w := Pack.m 9 f) (l := []) rfl rfl (fun h rest => ?_) (fun h => ?_)
  · have hm : f.mf.getLsbD 0 = true := by
      simp only [Instr.wf, Instr.badField, Bool.and_eq_true, Bool.not_eq_true', Bool.or_eq_false_iff, bne_eq_false_iff_eq] at h
      simp [h.2.2]
    have hb : f.mf[0] = true := hm
    simp [Raw.decode, Raw.m, m_fields, hb]
  · simp [wordCount]
theorem mkat (f : MF) (t : Tok) : Statement (.mkat f t) := by
  refine of_raw (en := .m) (w := Pack.m 10 f) (l := [Pack.tok t]) rfl rfl (fun h rest => ?_) (fun h => ?_)
  · simp [Raw.decode, Raw.m, m_fields, Raw.mTok, tok_fields]
  · simp [wordCount]
theorem yRdv (f : YF) (t : Tok) : Statement (.yRdv f t) := by
  refine of_raw (en := .y) (w := Pack.y 0 0 f) (l := [Pack.tok t]) rfl rfl (fun h rest => ?_) (fun _ => ?_)
  · simp [Raw.decode, Raw.y, y_fields, tok_fields, yRow2, yRow3, fnOr1, plain, Except.map]
  · simp [wordCount]
theorem ycopy (f : YF) (t : Tok) : Statement (.ycopy f t) := by
  refine of_raw (en := .y) (w := Pack.y 1 0 f) (l := [Pack.tok t]) rfl rfl (fun h rest => ?_) (fun _ => ?_)
  · simp [Raw.decode, Raw.y, y_fields, tok_fields, yRow2, yRow3, fnOr1, plain, Except.map]
  · simp [wordCount]
theorem yfill (f : YF) (t : Tok) : Statement (.yfill f t) := by
  refine of_raw (en := .y) (w := Pack.y 1 1 f) (l := [Pack.tok t]) rfl rfl (fun h rest => ?_) (fun _ => ?_)
  · simp [Raw.decode, Raw.y, y_fields, tok_fields, yRow2, yRow3, fnOr1, plain, Except.map]
  · simp [wordCount]
theorem ygath (f : YF) (t : Tok) : Statement (.ygath f t) := by
  refine of_raw (en := .y) (w := Pack.y 1 2 f) (l := [Pack.tok t]) rfl rfl (fun h rest => ?_) (fun _ => ?_)
  · simp [Raw.decode, Raw.y, y_fields, tok_fields, yRow2, yRow3, fnOr1, plain, Except.map]
  · simp [wordCount]
theorem yscat (f : YF) (t : Tok) : Statement (.yscat f t) := by
  refine of_raw (en := .y) (w := Pack.y 1 3 f) (l := [Pack.tok t]) rfl rfl (fun h rest => ?_) (fun _ => ?_)
  · simp [Raw.decode, Raw.y, y_fields, tok_fields, yRow2, yRow3, fnOr1, plain, Except.map]
  · simp [wordCount]
theorem ypref (f : YF) (t : Tok) : Statement (.ypref f t) := by
  refine of_raw (en := .y) (w := Pack.y 1 4 f) (l := [Pack.tok t]) rfl rfl (fun h rest => ?_) (fun _ => ?_)
  · simp [Raw.decode, Raw.y, y_fields, tok_fields, yRow2, yRow3, fnOr1, plain, Except.map]
  · simp [wordCount]
theorem yfpr (f : YF) (t : Tok) : Statement (.yfpr f t) := by
  refine of_raw (en := .y) (w := Pack.y 2 0 f) (l := [Pack.tok t]) rfl rfl (fun h rest => ?_) (fun _ => ?_)
  · simp [Raw.decode, Raw.y, y_fields, tok_fields, yRow2, yRow3, fnOr1, plain, Except.map]
  · simp [wordCount]
theorem ycmp (f : YF) (t : Tok) : Statement (.ycmp f t) := by
  refine of_raw (en := .y) (w := Pack.y 2 1 f) (l := [Pack.tok t]) rfl rfl (fun h rest => ?_) (fun _ => ?_)
  · simp [Raw.decode, Raw.y, y_fields, tok_fields, yRow2, yRow3, fnOr1, plain, Except.map]
  · simp [wordCount]
theorem dtld (f : YF) (t : Tok) : Statement (.dtld f t) := by
  refine of_raw (en := .y) (w := Pack.y 2 2 f) (l := [Pack.tok t]) rfl rfl (fun h rest => ?_) (fun _ => ?_)
  · simp [Raw.decode, Raw.y, y_fields, tok_fields, yRow2, yRow3, fnOr1, plain, Except.map]
  · simp [wordCount]
theorem ypin (f : YF) (t : Tok) : Statement (.ypin f t) := by
  refine of_raw (en := .y) (w := Pack.y 3 0 f) (l := [Pack.tok t]) rfl rfl (fun h rest => ?_) (fun _ => ?_)
  · simp [Raw.decode, Raw.y, y_fields, tok_fields, yRow2, yRow3, fnOr1, plain, Except.map]
  · simp [wordCount]
theorem yunpin (f : YF) (t : Tok) : Statement (.yunpin f t) := by
  refine of_raw (en := .y) (w := Pack.y 3 1 f) (l := [Pack.tok t]) rfl rfl (fun h rest => ?_) (fun _ => ?_)
  · simp [Raw.decode, Raw.y, y_fields, tok_fields, yRow2, yRow3, fnOr1, plain, Except.map]
  · simp [wordCount]
theorem reshard (f : YF) (t : Tok) (x : Maps) : Statement (.reshard f t x) := by
  refine of_raw (en := .y) (w := Pack.y 4 0 f) (l := [Pack.tok t, Pack.maps x]) rfl rfl (fun h rest => ?_) (fun _ => ?_)
  · simp [Raw.decode, Raw.y, y_fields, tok_fields, yRow2, yRow3, fnOr1, Except.map, maps_fields]
  · simp [wordCount]
theorem rsplan (f : YF) (t : Tok) (x : Maps) : Statement (.rsplan f t x) := by
  refine of_raw (en := .y) (w := Pack.y 4 1 f) (l := [Pack.tok t, Pack.maps x]) rfl rfl (fun h rest => ?_) (fun _ => ?_)
  · simp [Raw.decode, Raw.y, y_fields, tok_fields, yRow2, yRow3, fnOr1, Except.map, maps_fields]
  · simp [wordCount]
theorem xag (f : YF) (t : Tok) (x : Maps) : Statement (.xag f t x) := by
  refine of_raw (en := .y) (w := Pack.y 4 2 f) (l := [Pack.tok t, Pack.maps x]) rfl rfl (fun h rest => ?_) (fun _ => ?_)
  · simp [Raw.decode, Raw.y, y_fields, tok_fields, yRow2, yRow3, fnOr1, Except.map, maps_fields]
  · simp [wordCount]
theorem xrs (f : YF) (t : Tok) (x : Maps) : Statement (.xrs f t x) := by
  refine of_raw (en := .y) (w := Pack.y 4 3 f) (l := [Pack.tok t, Pack.maps x]) rfl rfl (fun h rest => ?_) (fun _ => ?_)
  · simp [Raw.decode, Raw.y, y_fields, tok_fields, yRow2, yRow3, fnOr1, Except.map, maps_fields]
  · simp [wordCount]
theorem xa2a (f : YF) (t : Tok) (x : Maps) : Statement (.xa2a f t x) := by
  refine of_raw (en := .y) (w := Pack.y 4 4 f) (l := [Pack.tok t, Pack.maps x]) rfl rfl (fun h rest => ?_) (fun _ => ?_)
  · simp [Raw.decode, Raw.y, y_fields, tok_fields, yRow2, yRow3, fnOr1, Except.map, maps_fields]
  · simp [wordCount]
theorem xprm (f : YF) (t : Tok) (x : Maps) : Statement (.xprm f t x) := by
  refine of_raw (en := .y) (w := Pack.y 4 5 f) (l := [Pack.tok t, Pack.maps x]) rfl rfl (fun h rest => ?_) (fun _ => ?_)
  · simp [Raw.decode, Raw.y, y_fields, tok_fields, yRow2, yRow3, fnOr1, Except.map, maps_fields]
  · simp [wordCount]
theorem xhalo (f : YF) (t : Tok) : Statement (.xhalo f t) := by
  refine of_raw (en := .y) (w := Pack.y 4 6 f) (l := [Pack.tok t]) rfl rfl (fun h rest => ?_) (fun _ => ?_)
  · simp [Raw.decode, Raw.y, y_fields, tok_fields, yRow2, yRow3, fnOr1, plain, Except.map]
  · simp [wordCount]
theorem xstf (f : YF) (t : Tok) : Statement (.xstf f t) := by
  refine of_raw (en := .y) (w := Pack.y 5 0 f) (l := [Pack.tok t]) rfl rfl (fun h rest => ?_) (fun _ => ?_)
  · simp [Raw.decode, Raw.y, y_fields, tok_fields, yRow2, yRow3, fnOr1, plain, Except.map]
  · simp [wordCount]
theorem xatom (f : YF) (t : Tok) (x : At) : Statement (.xatom f t x) := by
  refine of_raw (en := .y) (w := Pack.y 5 1 f) (l := [Pack.tok t, Pack.at_ x]) rfl rfl (fun h rest => ?_) (fun _ => ?_)
  · simp [Raw.decode, Raw.y, y_fields, tok_fields, yRow2, yRow3, fnOr1, Except.map, at_fields]
  · simp [wordCount]
theorem writeMeshshape (f : CI) : Statement (.writeMeshshape f) := by
  refine of_raw (en := .c) (w := Pack.ci 28 f) (l := []) rfl rfl (fun h rest => ?_) (fun _ => ?_)
  · have hn : syswRow f = .writeMeshshape f := by
      simp only [Instr.wf, Instr.badField, CI.writeBad, Bool.and_eq_true, Bool.not_eq_true', Bool.or_eq_false_iff, bne_eq_false_iff_eq] at h
      unfold syswRow
      rw [h.2.2]
      rfl
    simp [Raw.decode, Raw.c, ci_fields, plain, Except.map, hn]
  · simp [wordCount]
theorem writeMeshpos (f : CI) : Statement (.writeMeshpos f) := by
  refine of_raw (en := .c) (w := Pack.ci 28 f) (l := []) rfl rfl (fun h rest => ?_) (fun _ => ?_)
  · have hn : syswRow f = .writeMeshpos f := by
      simp only [Instr.wf, Instr.badField, CI.writeBad, Bool.and_eq_true, Bool.not_eq_true', Bool.or_eq_false_iff, bne_eq_false_iff_eq] at h
      unfold syswRow
      rw [h.2.2]
      rfl
    simp [Raw.decode, Raw.c, ci_fields, plain, Except.map, hn]
  · simp [wordCount]
theorem writeBankloss (f : CI) : Statement (.writeBankloss f) := by
  refine of_raw (en := .c) (w := Pack.ci 28 f) (l := []) rfl rfl (fun h rest => ?_) (fun _ => ?_)
  · have hn : syswRow f = .writeBankloss f := by
      simp only [Instr.wf, Instr.badField, CI.writeBad, Bool.and_eq_true, Bool.not_eq_true', Bool.or_eq_false_iff, bne_eq_false_iff_eq] at h
      unfold syswRow
      rw [h.2.2]
      rfl
    simp [Raw.decode, Raw.c, ci_fields, plain, Except.map, hn]
  · simp [wordCount]
theorem writeDphase (f : CI) : Statement (.writeDphase f) := by
  refine of_raw (en := .c) (w := Pack.ci 28 f) (l := []) rfl rfl (fun h rest => ?_) (fun _ => ?_)
  · have hn : syswRow f = .writeDphase f := by
      simp only [Instr.wf, Instr.badField, CI.writeBad, Bool.and_eq_true, Bool.not_eq_true', Bool.or_eq_false_iff, bne_eq_false_iff_eq] at h
      unfold syswRow
      rw [h.2.2]
      rfl
    simp [Raw.decode, Raw.c, ci_fields, plain, Except.map, hn]
  · simp [wordCount]
theorem writeArstat (f : CI) : Statement (.writeArstat f) := by
  refine of_raw (en := .c) (w := Pack.ci 28 f) (l := []) rfl rfl (fun h rest => ?_) (fun _ => ?_)
  · have hn : syswRow f = .writeArstat f := by
      simp only [Instr.wf, Instr.badField, CI.writeBad, Bool.and_eq_true, Bool.not_eq_true', Bool.or_eq_false_iff, bne_eq_false_iff_eq] at h
      unfold syswRow
      rw [h.2.2]
      rfl
    simp [Raw.decode, Raw.c, ci_fields, plain, Except.map, hn]
  · simp [wordCount]
theorem writeOrdmask (f : CI) : Statement (.writeOrdmask f) := by
  refine of_raw (en := .c) (w := Pack.ci 28 f) (l := []) rfl rfl (fun h rest => ?_) (fun _ => ?_)
  · have hn : syswRow f = .writeOrdmask f := by
      simp only [Instr.wf, Instr.badField, CI.writeBad, Bool.and_eq_true, Bool.not_eq_true', Bool.or_eq_false_iff, bne_eq_false_iff_eq] at h
      unfold syswRow
      rw [h.2.2]
      rfl
    simp [Raw.decode, Raw.c, ci_fields, plain, Except.map, hn]
  · simp [wordCount]
theorem writePrommiss (f : CI) : Statement (.writePrommiss f) := by
  refine of_raw (en := .c) (w := Pack.ci 28 f) (l := []) rfl rfl (fun h rest => ?_) (fun _ => ?_)
  · have hn : syswRow f = .writePrommiss f := by
      simp only [Instr.wf, Instr.badField, CI.writeBad, Bool.and_eq_true, Bool.not_eq_true', Bool.or_eq_false_iff, bne_eq_false_iff_eq] at h
      unfold syswRow
      rw [h.2.2]
      rfl
    simp [Raw.decode, Raw.c, ci_fields, plain, Except.map, hn]
  · simp [wordCount]
theorem writeTrapbase (f : CI) : Statement (.writeTrapbase f) := by
  refine of_raw (en := .c) (w := Pack.ci 28 f) (l := []) rfl rfl (fun h rest => ?_) (fun _ => ?_)
  · have hn : syswRow f = .writeTrapbase f := by
      simp only [Instr.wf, Instr.badField, CI.writeBad, Bool.and_eq_true, Bool.not_eq_true', Bool.or_eq_false_iff, bne_eq_false_iff_eq] at h
      unfold syswRow
      rw [h.2.2]
      rfl
    simp [Raw.decode, Raw.c, ci_fields, plain, Except.map, hn]
  · simp [wordCount]
theorem writeTrapctl (f : CI) : Statement (.writeTrapctl f) := by
  refine of_raw (en := .c) (w := Pack.ci 28 f) (l := []) rfl rfl (fun h rest => ?_) (fun _ => ?_)
  · have hn : syswRow f = .writeTrapctl f := by
      simp only [Instr.wf, Instr.badField, CI.writeBad, Bool.and_eq_true, Bool.not_eq_true', Bool.or_eq_false_iff, bne_eq_false_iff_eq] at h
      unfold syswRow
      rw [h.2.2]
      rfl
    simp [Raw.decode, Raw.c, ci_fields, plain, Except.map, hn]
  · simp [wordCount]
theorem writeRwctl (f : CI) : Statement (.writeRwctl f) := by
  refine of_raw (en := .c) (w := Pack.ci 28 f) (l := []) rfl rfl (fun h rest => ?_) (fun _ => ?_)
  · have hn : syswRow f = .writeRwctl f := by
      simp only [Instr.wf, Instr.badField, CI.writeBad, Bool.and_eq_true, Bool.not_eq_true', Bool.or_eq_false_iff, bne_eq_false_iff_eq] at h
      unfold syswRow
      rw [h.2.2]
      rfl
    simp [Raw.decode, Raw.c, ci_fields, plain, Except.map, hn]
  · simp [wordCount]
theorem writeRwsup (f : CI) : Statement (.writeRwsup f) := by
  refine of_raw (en := .c) (w := Pack.ci 28 f) (l := []) rfl rfl (fun h rest => ?_) (fun _ => ?_)
  · have hn : syswRow f = .writeRwsup f := by
      simp only [Instr.wf, Instr.badField, CI.writeBad, Bool.and_eq_true, Bool.not_eq_true', Bool.or_eq_false_iff, bne_eq_false_iff_eq] at h
      unfold syswRow
      rw [h.2.2]
      rfl
    simp [Raw.decode, Raw.c, ci_fields, plain, Except.map, hn]
  · simp [wordCount]
theorem writeRwlog (f : CI) : Statement (.writeRwlog f) := by
  refine of_raw (en := .c) (w := Pack.ci 28 f) (l := []) rfl rfl (fun h rest => ?_) (fun _ => ?_)
  · have hn : syswRow f = .writeRwlog f := by
      simp only [Instr.wf, Instr.badField, CI.writeBad, Bool.and_eq_true, Bool.not_eq_true', Bool.or_eq_false_iff, bne_eq_false_iff_eq] at h
      unfold syswRow
      rw [h.2.2]
      rfl
    simp [Raw.decode, Raw.c, ci_fields, plain, Except.map, hn]
  · simp [wordCount]
theorem writeInject (f : CI) : Statement (.writeInject f) := by
  refine of_raw (en := .c) (w := Pack.ci 28 f) (l := []) rfl rfl (fun h rest => ?_) (fun _ => ?_)
  · have hn : syswRow f = .writeInject f := by
      simp only [Instr.wf, Instr.badField, CI.writeBad, Bool.and_eq_true, Bool.not_eq_true', Bool.or_eq_false_iff, bne_eq_false_iff_eq] at h
      unfold syswRow
      rw [h.2.2]
      rfl
    simp [Raw.decode, Raw.c, ci_fields, plain, Except.map, hn]
  · simp [wordCount]
theorem writeMcstat (f : CI) : Statement (.writeMcstat f) := by
  refine of_raw (en := .c) (w := Pack.ci 28 f) (l := []) rfl rfl (fun h rest => ?_) (fun _ => ?_)
  · have hn : syswRow f = .writeMcstat f := by
      simp only [Instr.wf, Instr.badField, CI.writeBad, Bool.and_eq_true, Bool.not_eq_true', Bool.or_eq_false_iff, bne_eq_false_iff_eq] at h
      unfold syswRow
      rw [h.2.2]
      rfl
    simp [Raw.decode, Raw.c, ci_fields, plain, Except.map, hn]
  · simp [wordCount]
theorem writeTraprecWord1 (f : CI) : Statement (.writeTraprecWord1 f) := by
  refine of_raw (en := .c) (w := Pack.ci 28 f) (l := []) rfl rfl (fun h rest => ?_) (fun _ => ?_)
  · have hn : syswRow f = .writeTraprecWord1 f := by
      simp only [Instr.wf, Instr.badField, CI.writeBad, Bool.and_eq_true, Bool.not_eq_true', Bool.or_eq_false_iff, bne_eq_false_iff_eq] at h
      unfold syswRow
      rw [h.2.2]
      rfl
    simp [Raw.decode, Raw.c, ci_fields, plain, Except.map, hn]
  · simp [wordCount]
theorem writeDisplaced (f : CI) : Statement (.writeDisplaced f) := by
  refine of_raw (en := .c) (w := Pack.ci 28 f) (l := []) rfl rfl (fun h rest => ?_) (fun _ => ?_)
  · have hn : syswRow f = .writeDisplaced f := by
      simp only [Instr.wf, Instr.badField, CI.writeBad, Bool.and_eq_true, Bool.not_eq_true', Bool.or_eq_false_iff, bne_eq_false_iff_eq] at h
      unfold syswRow
      rw [h.2.2]
      rfl
    simp [Raw.decode, Raw.c, ci_fields, plain, Except.map, hn]
  · simp [wordCount]
theorem start : Statement (.start) := of_event rfl
theorem stop : Statement (.stop) := of_event rfl
theorem abort : Statement (.abort) := of_event rfl
theorem jwinval (v : Word) : Statement (.jwinval v) := of_event rfl
theorem hostRegisterWrite (off : Nat) (v : Word) : Statement (.hostRegisterWrite off v) := of_event rfl
theorem invalidationComplete : Statement (.invalidationComplete) := of_event rfl
theorem imageCheck : Statement (.imageCheck) := of_event rfl
theorem hostBar2Access (write : Bool) (off : Nat) (data : List Byte) : Statement (.hostBar2Access write off data) := of_event rfl
theorem powerOn (trustedOk : Bool) (diesOk : BitVec 64) : Statement (.powerOn trustedOk diesOk) := of_event rfl
theorem firmwareReplace (die : Nat) (image : Nat) (ok : Bool) : Statement (.firmwareReplace die image ok) := of_event rfl
theorem debugModeChange (mode : DebugMode) (signedOk : Bool) : Statement (.debugModeChange mode signedOk) := of_event rfl
theorem quote (nonce : BitVec 256) : Statement (.quote nonce) := of_event rfl
theorem drain (part : ServicePart) : Statement (.drain part) := of_event rfl
theorem contextSave (ctx : Nat) (area : Nat) : Statement (.contextSave ctx area) := of_event rfl
theorem resume (unit : Nat) : Statement (.resume unit) := of_event rfl
theorem flitReceive (link : Nat) (header : Word) (payload : BitVec 512) : Statement (.flitReceive link header payload) := of_event rfl
theorem bufferBankRetire (link : Nat) : Statement (.bufferBankRetire link) := of_event rfl
theorem linkFailure (link : Nat) : Statement (.linkFailure link) := of_event rfl
theorem heartbeat (die stack : Nat) (owed : Nat) : Statement (.heartbeat die stack owed) := of_event rfl
theorem heartbeatMissed (die stack : Nat) : Statement (.heartbeatMissed die stack) := of_event rfl
theorem eccCorrectionReplay (op req : Nat) : Statement (.eccCorrectionReplay op req) := of_event rfl
theorem farChainLinkRetry (op req : Nat) : Statement (.farChainLinkRetry op req) := of_event rfl
theorem fadeDecrement (die base : Nat) : Statement (.fadeDecrement die base) := of_event rfl
theorem walkComplete (core page : Nat) : Statement (.walkComplete core page) := of_event rfl
theorem lineFetch (core : Nat) (ctx : Fin 4) (eng : Engine) : Statement (.lineFetch core ctx eng) := of_event rfl
theorem promiseMiss (ctx tok : Nat) : Statement (.promiseMiss ctx tok) := of_event rfl
theorem deadlock (ctx : Nat) : Statement (.deadlock ctx) := of_event rfl
theorem agePromotion (unit : Nat) : Statement (.agePromotion unit) := of_event rfl
theorem candidateWaitExpiry (core : Nat) (eng : Engine) (ctx : Fin 4) : Statement (.candidateWaitExpiry core eng ctx) := of_event rfl
theorem trapEntry (ctx : Nat) : Statement (.trapEntry ctx) := of_event rfl
theorem residueErrorLogic (ctx : Nat) (eng : Engine) (hit : ResidueHit) (persists : Bool) : Statement (.residueErrorLogic ctx eng hit persists) := of_event rfl
theorem residueErrorStorage (ctx : Nat) (eng : Engine) (hit : ResidueHit) : Statement (.residueErrorStorage ctx eng hit) := of_event rfl
theorem uncorrectableError (addr : Nat) : Statement (.uncorrectableError addr) := of_event rfl
theorem versionLogDiscard (die : Nat) : Statement (.versionLogDiscard die) := of_event rfl
theorem launchRelease (queue : Fin 8) : Statement (.launchRelease queue) := of_event rfl
theorem graphStateEffect : Statement (.graphStateEffect) := of_event rfl
theorem counterFinal (level : Fin 4) (index : Nat) : Statement (.counterFinal level index) := of_event rfl
theorem jobSeal : Statement (.jobSeal) := of_event rfl
theorem unitReady (unit : Nat) : Statement (.unitReady unit) := of_event rfl
theorem placement (unit : Nat) : Statement (.placement unit) := of_event rfl
theorem unitDone (unit : Nat) : Statement (.unitDone unit) := of_event rfl
theorem barrierArrival (arrival : Nat) : Statement (.barrierArrival arrival) := of_event rfl
theorem meshLaunchMatch (contribution : Nat) : Statement (.meshLaunchMatch contribution) := of_event rfl
theorem collectiveMatch (op : Nat) : Statement (.collectiveMatch op) := of_event rfl
theorem collectivePiece (op piece : Nat) : Statement (.collectivePiece op piece) := of_event rfl
theorem planComplete (op : Nat) : Statement (.planComplete op) := of_event rfl
theorem resultWrite (ctx : Nat) : Statement (.resultWrite ctx) := of_event rfl
theorem longLatencyComplete (op : Nat) : Statement (.longLatencyComplete op) := of_event rfl
theorem loadReturn (op pick : Nat) : Statement (.loadReturn op pick) := of_event rfl
theorem atomReturn (op : Nat) : Statement (.atomReturn op) := of_event rfl
theorem tokenComplete (op : Nat) : Statement (.tokenComplete op) := of_event rfl
theorem dtldComplete (op : Nat) : Statement (.dtldComplete op) := of_event rfl
theorem ccvtComplete (op : Nat) : Statement (.ccvtComplete op) := of_event rfl
theorem residencyLoaded (op : Nat) : Statement (.residencyLoaded op) := of_event rfl
theorem mkatComplete (op : Nat) : Statement (.mkatComplete op) := of_event rfl
theorem pinFillComplete (op : Nat) : Statement (.pinFillComplete op) := of_event rfl
theorem flagIncrement (op : Nat) : Statement (.flagIncrement op) := of_event rfl
theorem icbcAckComplete (op : Nat) : Statement (.icbcAckComplete op) := of_event rfl
theorem portRowReady (ctx : Nat) (port : Fin 16) : Statement (.portRowReady ctx port) := of_event rfl
theorem sinkRowAccepted (ctx : Nat) (port : Fin 16) : Statement (.sinkRowAccepted ctx port) := of_event rfl
theorem fenceComplete (ctx : Nat) : Statement (.fenceComplete ctx) := of_event rfl
theorem ctrwaitCondition (ctx : Nat) : Statement (.ctrwaitCondition ctx) := of_event rfl
theorem sleepWake (ctx : Nat) : Statement (.sleepWake ctx) := of_event rfl
theorem lanternDecision (ctx : Nat) : Statement (.lanternDecision ctx) := of_event rfl
theorem groupIssue (ctx : Nat) : Statement (.groupIssue ctx) := of_event rfl
theorem deliveredFault (ctx : Nat) : Statement (.deliveredFault ctx) := of_event rfl
theorem storePerformed (op : Nat) : Statement (.storePerformed op) := of_event rfl
theorem versionSpillComplete (die addr : Nat) : Statement (.versionSpillComplete die addr) := of_event rfl
theorem linkLaneLoss (link lanes : Nat) : Statement (.linkLaneLoss link lanes) := of_event rfl
theorem linkReinitialisation (link : Nat) : Statement (.linkReinitialisation link) := of_event rfl
theorem baseDieReinitialisation (die stack : Nat) : Statement (.baseDieReinitialisation die stack) := of_event rfl
theorem keyProvisioning : Statement (.keyProvisioning) := of_event rfl

end Sys2Proof.Laws.RoundTrip
end

