-- ==== Sys2Proof/Laws/Residue.lean ====
section
/-! SUPPORT. The residue predictions of R109 are the residues of what they predict, so a check fails only where a value was
struck. -/
namespace Sys2Proof.Laws
open Sys2Proof.Machine

/-- The residue of a power of two goes round with period 3. -/
theorem two_pow_residue (k : Nat) : residue7 (2 ^ k) = pow7 k := by
  have h : k = 3 * (k / 3) + k % 3 := by omega
  have h8 : (2 : Nat) ^ (3 * (k / 3)) % 7 = 1 := by
    rw [Nat.pow_mul, Nat.pow_mod]; simp
  have hk : k % 3 = 0 ∨ k % 3 = 1 ∨ k % 3 = 2 := by omega
  unfold residue7 pow7
  rw [h, Nat.pow_add, Nat.mul_mod, h8]
  rcases hk with h | h | h <;> simp [h]

/-- The prediction for a left shift is the residue of the result. -/
theorem residueShl_eq (x k : Nat) : residueShl (residue7 x) k = residue7 (x * 2 ^ k) := by
  have h := two_pow_residue k
  unfold residueShl residue7 at *
  rw [← h, Nat.mul_mod x, Nat.mul_mod (x % 7)]

/-- The two factors of the shifts are inverse to each other. -/
theorem pow7_inv7 (k : Nat) : pow7 k * inv7 k % 7 = 1 := by
  have hk : k % 3 = 0 ∨ k % 3 = 1 ∨ k % 3 = 2 := by omega
  rcases hk with h | h | h <;> simp [pow7, inv7, h]

/-- The prediction for a right shift is the residue of the result. -/
theorem residueShr_eq (x k : Nat) : residueShr (residue7 x) (residue7 (x % 2 ^ k)) k = residue7 (x / 2 ^ k) := by
  have hx := Nat.div_add_mod x (2 ^ k)
  generalize x / 2 ^ k = q at *
  generalize x % 2 ^ k = d at *
  have h := two_pow_residue k
  have hd : (x % 7 + 7 - d % 7) % 7 = q * pow7 k % 7 := by
    have : (2 ^ k * q) % 7 = q * pow7 k % 7 := by
      rw [← h, Nat.mul_comm, residue7, Nat.mul_mod q, Nat.mul_mod q]; simp
    omega
  unfold residueShr residue7
  rw [Nat.mul_mod, hd, ← Nat.mul_mod, Nat.mul_assoc, Nat.mul_mod, pow7_inv7]
  simp

/-- The prediction for a rounding step is the residue of the rounded value. -/
theorem residueRound_eq (x k : Nat) (up : Bool) :
    residueRound (residue7 x) (residue7 (x % 2 ^ k)) k up = residue7 (x / 2 ^ k + if up then 1 else 0) := by
  rw [residueRound, residueShr_eq]
  simp [residue7]

/-- A bit plane's partial sum has the predicted residue. -/
theorem residuePlane_eq (l : List (Bool × Nat)) :
    residuePlane (l.map fun p => (p.1, residue7 p.2)) = residue7 ((l.map fun p => if p.1 then p.2 else 0).sum) := by
  induction l with
  | nil => rfl
  | cons p l ih =>
    rcases p with ⟨a, b⟩
    rw [List.map_cons, residuePlane, ih]
    cases a <;> simp [residue7]

/-- The sum over bit planes from b up of 2^b times a plane's partial sum (R109). -/
def blockSum : Nat → List Nat → Nat
  | _, [] => 0
  | b, p :: l => p * 2 ^ b + blockSum (b + 1) l

/-- A K-block sum, the sum of 2^b times the partial sum of plane b, has the predicted residue. -/
theorem residueBlock_eq (b : Nat) (l : List Nat) :
    residueBlock b (l.map residue7) = residue7 (blockSum b l) := by
  induction l generalizing b with
  | nil => rfl
  | cons p l ih =>
    rw [List.map_cons, residueBlock, ih, residueShl_eq, blockSum]
    simp [residue7]

end Sys2Proof.Laws
end

