-- ==== Sys2Proof/Laws/Retire.lean ====
section
/-! SUPPORT. Retiring: what an instruction that commits leaves of the state beside its own effect, where no trap waits and its
engine does not single-step. -/
namespace Sys2Proof.Laws
open Sys2Proof Sys2Proof.Machine

/-- With nothing pending no trap is taken. -/
theorem settle_none (s : State) (c : Nat) (h : (s.ctx c).pend = []) : s.settle c = s := by
  unfold State.settle
  simp only [Ctx.takable, h, List.filter_nil, firstTrap]
  split <;> rfl

theorem settle_inHandler (s : State) (c : Nat) (h : (s.ctx c).inHandler = true) : s.settle c = s := by
  unfold State.settle
  simp [h]

theorem settle_free (s : State) (c : Nat) (h : (s.ctx c).unit = none) : s.settle c = s := by
  unfold State.settle
  simp [h]

theorem stepTrap_off (s : State) (c : Nat) (i : Instr) (h : s.steps c (Instr.eng i) = false) : s.stepTrap c i = s := by
  unfold State.stepTrap
  simp only [h, Bool.false_eq_true, if_false]

/-- The context after an instruction of the engine has retired with its cursor at p (R237, R267, R269, R285). -/
def retired (s : State) (i : Instr) (p : Pos) (x : Ctx) : Ctx :=
  let e := Instr.eng i
  (countAlone e ((x.modEng e fun n => n.commit s.cycle p (i.iss.extractLsb' 0 3).toNat
    (s.marksAway s.focus e (i.iss.getLsbD 3))).clearDisplaced (s.eng s.focus e).displaced)).popWindow e i

/-- Only how long engines are busy differs between two cores. -/
def SameCore (a b : Core) : Prop := b = { a with busy := b.busy }

theorem SameCore.refl (a : Core) : SameCore a a := rfl

@[simp] theorem modEng_pend (x : Ctx) (e : Engine) (f : Eng → Eng) : (x.modEng e f).pend = x.pend := by cases e <;> rfl
@[simp] theorem modEng_unit (x : Ctx) (e : Engine) (f : Eng → Eng) : (x.modEng e f).unit = x.unit := by cases e <;> rfl
@[simp] theorem modEng_mode (x : Ctx) (e : Engine) (f : Eng → Eng) : (x.modEng e f).mode = x.mode := by cases e <;> rfl
@[simp] theorem modEng_sprs (x : Ctx) (e : Engine) (f : Eng → Eng) : (x.modEng e f).sprs = x.sprs := by cases e <;> rfl
@[simp] theorem modEng_regs (x : Ctx) (e : Engine) (f : Eng → Eng) : (x.modEng e f).regs = x.regs := by cases e <;> rfl
@[simp] theorem modEng_gran (x : Ctx) (e : Engine) (f : Eng → Eng) : (x.modEng e f).gran = x.gran := by cases e <;> rfl
@[simp] theorem modEng_lands (x : Ctx) (e : Engine) (f : Eng → Eng) : (x.modEng e f).lands = x.lands := by cases e <;> rfl
@[simp] theorem modEng_lantern (x : Ctx) (e : Engine) (f : Eng → Eng) : (x.modEng e f).lantern = x.lantern := by cases e <;> rfl

/-- A retired context: engines but the instruction's own as before, the rest but DISPLACED, the Lantern and, for the matrix
engine, RWSUP as before. -/
theorem retired_fields (s : State) (i : Instr) (p : Pos) (x : Ctx) :
    (retired s i p x).pend = x.pend ∧ (retired s i p x).unit = x.unit ∧ (retired s i p x).mode = x.mode
    ∧ (retired s i p x).sprs.trapctl = x.sprs.trapctl := by
  unfold retired countAlone Ctx.clearDisplaced Ctx.popWindow
  simp only
  split <;> split <;> split <;> simp

/-- Of the control engine: the engine moves on, and DISPLACED's V is cleared where the displaced word has run (R267). -/
theorem retired_c (s : State) (i : Instr) (p : Pos) (x : Ctx) (hc : Instr.eng i = .c) :
    ∃ n disp, retired s i p x = { x with c := n, sprs := { x.sprs with displaced := disp } }
      ∧ n = x.c.commit s.cycle p (i.iss.extractLsb' 0 3).toNat (s.marksAway s.focus .c (i.iss.getLsbD 3)) ∧ DisplacedKept x.sprs.displaced disp := by
  unfold retired countAlone Ctx.popWindow Ctx.clearDisplaced
  simp only [hc, reduceCtorEq, decide_false, Bool.false_and, Bool.false_eq_true, if_false]
  split
  · exact ⟨_, _, rfl, rfl, Or.inr rfl⟩
  · exact ⟨_, x.sprs.displaced, rfl, rfl, Or.inl rfl⟩

/-- Retiring with no trap pending and no single step (R237, R246, R251): the context that runs is retired, every other
context is as before, and of the rest only the issue selection of the core changes. -/
theorem retire_calm (t : State) (i : Instr) (p : Pos) (hp : (t.ctx t.focus).pend = [])
    (hs : t.steps t.focus (Instr.eng i) = false) :
    ∃ cores, t.retire i p = { t with ctxs := tset t.ctxs t.focus (retired t i p (t.ctx t.focus)), cores := cores }
      ∧ ∀ k, SameCore (t.core k) ((t.retire i p).core k) := by
  have e1 : t.retire i p = ((({ t with ctxs := tset t.ctxs t.focus (retired t i p (t.ctx t.focus)) } : State).modCore
      (coreOf t.focus) fun k =>
        { k with busy := tset k.busy (engNo (Instr.eng i)) (((retired t i p (t.ctx t.focus)).eng (Instr.eng i)).lastEnd + 1) }).stepTrap
          t.focus i).settle t.focus := by
    have h : ({ t with ctxs := tset t.ctxs t.focus (retired t i p (t.ctx t.focus)) } : State).eng t.focus (Instr.eng i)
        = (retired t i p (t.ctx t.focus)).eng (Instr.eng i) := by simp [State.eng, State.ctx, tgetD_tset]
    rw [← h]; rfl
  obtain ⟨f1, f2, f3, f4⟩ := retired_fields t i p (t.ctx t.focus)
  generalize retired t i p (t.ctx t.focus) = x at *
  generalize hs2 : ({ t with ctxs := tset t.ctxs t.focus x } : State).modCore (coreOf t.focus) (fun k =>
    { k with busy := tset k.busy (engNo (Instr.eng i)) ((x.eng (Instr.eng i)).lastEnd + 1) }) = s2 at *
  have c2 : s2.ctx t.focus = x := by rw [← hs2]; simp [State.ctx, State.modCore, tgetD_tset]
  have st : s2.steps t.focus (Instr.eng i) = false := by
    have : s2.steps t.focus (Instr.eng i) = t.steps t.focus (Instr.eng i) := by
      simp only [State.steps, c2, Ctx.inHandler, f2, f3, f4]
    rw [this, hs]
  rw [stepTrap_off _ _ _ st, settle_none _ _ (by rw [c2, f1, hp])] at e1
  rw [e1]
  refine ⟨s2.cores, by rw [← hs2]; rfl, fun k => ?_⟩
  rw [← hs2]
  simp only [State.core, State.modCore, tgetD_tset]
  split
  · rename_i h; subst h; rfl
  · rfl

end Sys2Proof.Laws
end

