-- ==== Sys2Proof/Laws/Scalar.lean ====
section
/-! SUPPORT. The shared operations of the scalar instructions: what they answer with their registers settled, and the frame of
an instruction of the control engine with at most one register result. -/
namespace Sys2Proof.Laws
open Sys2Proof Sys2Proof.Machine

/-- A result of s[A] and s[B] (R362): committed once no register is still to be written. -/
theorem scalarC3_commits {i : Instr} {f : C3} {s : State} (h : Unplanted s) (hs : Settled s [f.d, f.a, f.b]) (lat : Nat)
    (g : Word → Word → Word) :
    scalarC3 i f s lat g = .next ((s.putS s.focus f.d.toNat lat (g (reg s f.a) (reg s f.b))).retire i (fallThrough s i)) := by
  show finish i s (s.sHold ([f.d, f.a, f.b].map BitVec.toNat) _) = _
  rw [sHold_settled hs]
  exact finish_done h _

theorem scalarC3_holds {i : Instr} {f : C3} {s : State} (h : ¬ Settled s [f.d, f.a, f.b]) (lat : Nat) (g : Word → Word → Word) :
    scalarC3 i f s lat g = .next (s.waitOn s.focus (Instr.eng i) .waiting .sreg i) := by
  show finish i s (s.sHold ([f.d, f.a, f.b].map BitVec.toNat) _) = _
  rw [not_settled h]; rfl

/-- A result of s[A] and an immediate (R360). -/
theorem scalarCI_commits {i : Instr} {f : CI} {s : State} (h : Unplanted s) (hs : Settled s [f.d, f.a]) (b : Word) (lat : Nat)
    (g : Word → Word → Word) :
    scalarCI i f s b lat g = .next ((s.putS s.focus f.d.toNat lat (g (reg s f.a) b)).retire i (fallThrough s i)) := by
  show finish i s (s.sHold ([f.d, f.a].map BitVec.toNat) _) = _
  rw [sHold_settled hs]
  exact finish_done h _

theorem scalarCI_holds {i : Instr} {f : CI} {s : State} (h : ¬ Settled s [f.d, f.a]) (b : Word) (lat : Nat)
    (g : Word → Word → Word) :
    scalarCI i f s b lat g = .next (s.waitOn s.focus (Instr.eng i) .waiting .sreg i) := by
  show finish i s (s.sHold ([f.d, f.a].map BitVec.toNat) _) = _
  rw [not_settled h]; rfl

/-- DZ alone among the raised flags traps exactly where its enable is set (R101). -/
theorem enabledFlag_dz (w : Word) : enabledFlag w fDZ = if w.getLsbD 9 then some 1 else none := by
  have h : ∀ n : Nat, (fDZ : Flg).getLsbD n = decide (n = 1) := by
    intro n
    by_cases hn : n < 6
    · revert n; decide
    · rw [BitVec.getLsbD_of_ge _ _ (by omega)]; simp; omega
  simp only [enabledFlag, h, List.find?_cons, List.find?_nil]
  cases w.getLsbD 9 <;> simp

/-- A division by a nonzero divisor (R362). -/
theorem scalarDiv_nonzero {i : Instr} {f : C3} {s : State} (h : Unplanted s) (hs : Settled s [f.d, f.a, f.b])
    (hb : reg s f.b ≠ 0) (signed : Bool) (pick : Nat × Nat → Nat) :
    scalarDiv i f s signed pick = .next ((s.putS s.focus f.d.toNat 20
      (BitVec.ofNat 64 (pick (divInt signed 64 (reg s f.a).toNat (reg s f.b).toNat)))).retire i (fallThrough s i)) := by
  show finish i s (s.sHold ([f.d, f.a, f.b].map BitVec.toNat) _) = _
  rw [sHold_settled hs, if_pos (by simpa using hb)]
  exact finish_done h _

/-- A division by zero without the enable of DZ (R362, R101). -/
theorem scalarDiv_zero {i : Instr} {f : C3} {s : State} (h : Unplanted s) (hs : Settled s [f.d, f.a, f.b])
    (hb : reg s f.b = 0) (he : (here s).sprs.arstat.getLsbD 9 = false) (signed : Bool) (pick : Nat × Nat → Nat) :
    scalarDiv i f s signed pick = .next (((s.putS s.focus f.d.toNat 20
      (BitVec.ofNat 64 (pick (divInt signed 64 (reg s f.a).toNat 0)))).modCtx s.focus fun y => y.raiseFlags s.cycle fDZ).retire i
        (fallThrough s i)) := by
  have hd : divInt signed 64 (reg s f.a).toNat (reg s f.b).toNat = divInt signed 64 (reg s f.a).toNat 0 := by rw [hb]; rfl
  show finish i s (s.sHold ([f.d, f.a, f.b].map BitVec.toNat) _) = _
  rw [sHold_settled hs, if_neg (by simpa using hb), enabledFlag_dz, he, ← hd]
  exact finish_done h _

/-- A division by zero with the enable of DZ (R362, R101). -/
theorem scalarDiv_traps {i : Instr} {f : C3} {s : State} (hs : Settled s [f.d, f.a, f.b])
    (hb : reg s f.b = 0) (he : (here s).sprs.arstat.getLsbD 9 = true) (signed : Bool) (pick : Nat × Nat → Nat) :
    scalarDiv i f s signed pick = .next ((s.modCtx s.focus fun y => y.raiseFlags s.cycle fDZ).raise s.focus
      (({ code := tTrap, sub := 1, detailA := 1 } : Trap).of s i)) := by
  show finish i s (s.sHold ([f.d, f.a, f.b].map BitVec.toNat) _) = _
  rw [sHold_settled hs, if_neg (by simpa using hb), enabledFlag_dz, he]
  exact finish_trap _ _ _ _ (by decide)

/-- What an instruction of the control engine with at most one register result leaves changed. -/
structure FrameOf (d : Nat) (s t : State) : Prop where
  only : OnlyHere s t
  memory : SameMemory s t
  mine : ∃ c lands disp,
    here t = { here s with c := c, lands := lands, sprs := { (here s).sprs with displaced := disp } }
    ∧ (lands = (here s).lands ∨ d ≠ 0 ∧ ∃ l h v, lands = (here s).lands ++ [l] ∧ l.eng = .c ∧ l.act = .sreg d h v)
    ∧ DisplacedKept (here s).sprs.displaced disp

/-- t differs from s in at most one landing. -/
def Lands (d : Nat) (s t : State) : Prop :=
  t = s ∨ d ≠ 0 ∧ ∃ lat v, t = s.land s.focus .c lat (.sreg d (here s).inHandler v)

theorem lands_putS (s : State) (d lat : Nat) (v : Word) : Lands d s (s.putS s.focus d lat v) := by
  unfold State.putS
  split
  · exact Or.inl rfl
  · exact Or.inr ⟨by assumption, lat, v, rfl⟩

theorem frame_retire {d : Nat} {s t : State} {i : Instr} (hc : Instr.eng i = .c) (h : Calm s i) (hl : Lands d s t) (p : Pos) :
    FrameOf d s (t.retire i p) := by
  have hf : t.focus = s.focus := by rcases hl with rfl | ⟨_, _, _, rfl⟩ <;> rfl
  have hx : ∃ l, here t = { here s with lands := l } ∧ (l = (here s).lands ∨ d ≠ 0 ∧ ∃ q h v, l = (here s).lands ++ [q] ∧ q.eng = .c ∧ q.act = .sreg d h v) := by
    rcases hl with rfl | ⟨h0, lat, v, rfl⟩
    · exact ⟨_, rfl, Or.inl rfl⟩
    · refine ⟨_, (ctx_land ..).trans (if_pos rfl), Or.inr ⟨h0, _, _, _, rfl, rfl, rfl⟩⟩
  have ho : t = { s with ctxs := t.ctxs, seqNext := t.seqNext } := by rcases hl with rfl | ⟨_, _, _, rfl⟩ <;> rfl
  have hoth : ∀ c, c ≠ s.focus → t.ctx c = s.ctx c := by
    rcases hl with rfl | ⟨_, _, _, rfl⟩
    · intros; rfl
    · intro c hc; exact (ctx_land ..).trans (if_neg hc)
  obtain ⟨l, hx, hol⟩ := hx
  obtain ⟨cores, hr, hk⟩ := retire_calm t i p (by show (here t).pend = []; rw [hx]; exact h.pend) (by
    have : t.steps t.focus (Instr.eng i) = s.steps s.focus (Instr.eng i) := by
      simp only [State.steps]; rw [show t.ctx t.focus = here t from rfl, hx]; rfl
    rw [this]; exact h.step)
  obtain ⟨n, disp, he, -, hd⟩ := retired_c t i p (t.ctx t.focus) hc
  have hcx : ∀ c, (t.retire i p).ctx c = if c = t.focus then retired t i p (t.ctx t.focus) else t.ctx c := by
    intro c; rw [hr]; simp only [State.ctx, tgetD_tset]
  have e1 : (t.retire i p).focus = s.focus := by rw [hr]; exact hf
  refine ⟨⟨?_, ?_, ?_⟩, ?_, ⟨n, l, disp, ?_, hol, ?_⟩⟩
  · rw [hr]; rw [ho]
  · intro c hc
    rw [hcx, if_neg (by rw [hf]; exact hc)]; exact hoth c hc
  · intro k
    have := hk k
    have e : t.core k = s.core k := by rw [ho]; rfl
    rw [SameCore, e] at this; exact this
  · intro a
    have : (t.retire i p).mem = s.mem := by rw [hr, ho]
    rw [this]
  · show (t.retire i p).ctx (t.retire i p).focus = _
    rw [e1, hcx, if_pos hf.symm, he]
    have : t.ctx t.focus = { here s with lands := l } := hx
    rw [this]
  · have : t.ctx t.focus = { here s with lands := l } := hx
    rw [this] at hd; exact hd

theorem frame_wait {d : Nat} {s : State} {i : Instr} (hc : Instr.eng i = .c) (st : EngState) (h : Hold) :
    FrameOf d s (s.waitOn s.focus (Instr.eng i) st h i) := by
  rw [hc]
  refine ⟨⟨rfl, ?_, fun k => rfl⟩, fun a => rfl, ⟨{ s.eng s.focus .c with st := st, hold := h, held := some i, age := some ((s.eng s.focus .c).age.getD s.cycle), left := s.cycle + 1, resumed := false }, (here s).lands, (here s).sprs.displaced, ?_, Or.inl rfl, Or.inl rfl⟩⟩
  · intro c hc'; exact (ctx_waitOn ..).trans (if_neg hc')
  · exact (ctx_waitOn ..).trans (if_pos rfl)

theorem frame_finish {d : Nat} {s t : State} {i : Instr} {r : Res} (hc : Instr.eng i = .c) (h : Calm s i)
    (hr : (∃ q, r = .done q ∧ Lands d s q) ∨ (∃ q p, r = .jump q p ∧ Lands d s q) ∨ ∃ st ho, r = .wait s st ho)
    (e : finish i s r = .next t) : FrameOf d s t := by
  rcases hr with ⟨q, rfl, hq⟩ | ⟨q, p, rfl, hq⟩ | ⟨st, ho, rfl⟩
  · rw [finish_done h.unplanted] at e; cases e; exact frame_retire hc h hq _
  · rw [finish_jump h.unplanted] at e; cases e; exact frame_retire hc h hq _
  · rw [finish_wait] at e; cases e; exact frame_wait hc _ _

theorem frame_hold {d : Nat} {s t : State} {i : Instr} {k : Res} (hc : Instr.eng i = .c) (h : Calm s i) (rs : List Nat)
    (hr : (∃ q, k = .done q ∧ Lands d s q) ∨ (∃ q p, k = .jump q p ∧ Lands d s q))
    (e : finish i s (s.sHold rs k) = .next t) : FrameOf d s t := by
  refine frame_finish hc h ?_ e
  unfold State.sHold
  split
  · exact Or.inr (Or.inr ⟨_, _, rfl⟩)
  · rcases hr with h | h
    · exact Or.inl h
    · exact Or.inr (Or.inl h)

end Sys2Proof.Laws
end

