-- ==== Sys2Proof/Tests/Slice0.lean ====
section
/-! SUPPORT. Tests of the model: what WellFormed refuses, encodings that the specification prints, one step of an instruction
on a small state, and states that meet the hypotheses of the statements. -/
namespace Sys2Proof.Tests
open Sys2Proof.Machine

set_option maxRecDepth 20000
set_option exponentiation.threshold 5000

/-! ## Small states -/

/-- A page of 2^18 bytes at virtual address 0 over physical address 0, readable, writable and executable. -/
def wPage : TlbEnt := { base := 0, bits := 18, pte := 0xF }

/-- An engine that is Ready at an instruction of one lane. -/
def wEng (lane : Nat) : Eng := { st := .ready, cur := { line := 0x1000, lane := lane }, next := { line := 0x1000, lane := lane + 1 } }

/-- A context that runs unit 0 with all engines started. -/
def wCtx : Ctx :=
  { unit := some 0, foot := 192, c := wEng 1, v := wEng 2, m := wEng 3, y := wEng 4
    regs := { s := [(1, 7), (2, 0x100), (3, 3)] } }

def wUnit : UnitRec := { launch := 0, die := 0, j := 0, st := .resident, ctx := some 0 }

def wLaunch : LaunchRec := { record := 0, args := 0, graph := 0, released := true, units := [0], ctr := { sealed := true, pending := 1 } }

def wJob : Job :=
  { st := .running, launchNext := 1, unitNext := 1, units := [(0, wUnit)], launches := [(0, wLaunch)]
    graphs := [(0, { phase := 0, launches := [0] })], openGraph := some 0 }

/-- Context 0 of core 0 of die 0 runs unit 0. -/
def wS : State :=
  { State.reset with cycle := 100, ctxs := [(0, wCtx)], cores := [(0, { tlb := [wPage] })], dies := [(0, { ptroot := 1 })], job := wJob }

/-- The same with other registers. -/
def wR (regs : Tab Word) : State := wS.modCtx 0 fun x => { x with regs := { x.regs with s := regs } }

/-- The same in another mode. -/
def wMode (m : Mode) (s : State) : State := s.modCtx 0 fun x => { x with mode := m }

/-- V, M and Y are joined. -/
def wJoined (s : State) : State := s.modCtx 0 fun x => { x with v := {}, m := {}, y := {} }

/-- The bytes of a record that has been read. -/
def gotBytes : Got → Option (List Byte)
  | .bytes _ bs => some bs
  | _ => none
theorem recordsAt {s : State} {l : List Instr} {va len align : Nat} {bs : List Byte}
    (h : ∀ i ∈ l, gotBytes (s.recordRead i va len align) = some bs) : ∀ i ∈ l, RecordAt s i va len align bs := by
  intro i hi
  have h := h i hi
  unfold RecordAt
  cases hr : s.recordRead i va len align <;> simp_all [gotBytes]

/-- The state that an instruction or an event answers. -/
def after (i : Instr) (s : State) : State := match exec i s with
  | .next t => t
  | _ => s

/-! ## Decoding: the encodings that the reference entries print -/

/-- The words decode to the instruction for the engine, and the instruction is well formed and encodes as them. -/
abbrev Reads (e : Engine) (ws : List W32) (i : Instr) : Prop := decode e ws = .ok (i, []) ∧ i.wf = true ∧ i.encode = ws

/-- A vector instruction whose other fields are 0. -/
abbrev vx (d a b c : VOp) : VX :=
  { d := d, a := a, b := b, c := c, syd := 0, sya := 0, syb := 0, syc := 0, mask := 0, rnd := 0, sat := false, iss := 0 }

-- 15_ref_a_c.md R365
theorem test_decode_atom : Reads .c [0xA8428400, 0x00008D05] (.atomAdd ⟨4, 10, 1, 0, 8, 3, false, 4, 5, 0⟩) := by
  exact ⟨rfl, rfl, rfl⟩
-- 16_ref_d_l.md
theorem test_decode_dtld : Reads .y [0x08414620, 0x18000180] (.dtld ⟨4, 5, 6, 0⟩ ⟨3, 0, 0, 0, 1, 4, 0⟩) := ⟨rfl, rfl, rfl⟩
theorem test_decode_fork : Reads .c [0x0C060000] (.fork ⟨6, 0, 0, 0⟩) := ⟨rfl, rfl, rfl⟩
theorem test_decode_gseal : Reads .c [0x35890000] (.gsealPh ⟨9, 0, 0, 0⟩) := ⟨rfl, rfl, rfl⟩
theorem test_decode_launch : Reads .c [0x34075000] (.launch ⟨7, 20, 0, 0⟩) := ⟨rfl, rfl, rfl⟩
theorem test_decode_ld : Reads .c [0xA0428500, 0x00010D00] (.ld ⟨4, 10, 1, 1, 16, 3, false, 4, 0, 0⟩) := ⟨rfl, rfl, rfl⟩
-- 17_ref_m_p.md
theorem test_decode_max : Reads .c [0x14831050] (.max ⟨3, 4, 5, 0⟩) := ⟨rfl, rfl, rfl⟩
theorem test_decode_mbld : Reads .m [0x0C002000, 0x08000000] (.mbld ⟨0, 0, 2, false, false, 0, 0, 0⟩ ⟨1, 0, 0, 0, 0, 0, 0⟩) := ⟨rfl, rfl, rfl⟩
theorem test_decode_mgang : Reads .m [0x25E03000] (.mgang ⟨15, 0, 3, false, false, 0, 0, 0⟩) := ⟨rfl, rfl, rfl⟩
theorem test_decode_mkat : Reads .m [0x28000000, 0x20000000] (.mkat ⟨0, 0, 0, false, false, 0, 0, 0⟩ ⟨4, 0, 0, 0, 0, 0, 0⟩) := ⟨rfl, rfl, rfl⟩
theorem test_decode_mma : Reads .m [0x04202010] (.mma ⟨1, 0, 2, false, false, 0, 1, 0⟩) := ⟨rfl, rfl, rfl⟩
theorem test_decode_mnest : Reads .m [0x08202010, 0x10000000] (.mnest ⟨1, 0, 2, false, false, 0, 1, 0⟩ ⟨2, 0, 0, 0, 0, 0, 0⟩) := ⟨rfl, rfl, rfl⟩
theorem test_decode_mov : Reads .c [0x1C042400] (.mov ⟨4, 9, 0, 0⟩) ∧ Reads .c [0x64303FF0] (.movI ⟨3, 0, 0x3FF, 0⟩) :=
  ⟨⟨rfl, rfl, rfl⟩, rfl, rfl, rfl⟩
theorem test_decode_mtrn : Reads .m [0x18406000] (.mtrn ⟨2, 0, 6, false, false, 0, 0, 0⟩) := ⟨rfl, rfl, rfl⟩
theorem test_decode_mwb : Reads .m [0x10023000] (.mwb ⟨0, 1, 3, false, false, 0, 0, 0⟩) := ⟨rfl, rfl, rfl⟩
theorem test_decode_nop : Reads .c [0x00000007] (.nop ⟨0, 0, 0, 7⟩) := ⟨rfl, rfl, rfl⟩
theorem test_decode_nset : Reads .c [0x3CC038F0] (.nset ⟨0, 14, 15, 0⟩) := ⟨rfl, rfl, rfl⟩
theorem test_decode_pbind : Reads .c [0x3D023000] (.pbind ⟨2, 12, 0, 0⟩) := ⟨rfl, rfl, rfl⟩
theorem test_decode_punb : Reads .c [0x3D420000] (.punb ⟨2, 0, 0, 0⟩) := ⟨rfl, rfl, rfl⟩
-- 18_ref_r_t.md
theorem test_decode_reshard :
    Reads .y [0x10414600, 0x10400080, 0x04000000] (.reshard ⟨4, 5, 6, 0⟩ ⟨2, 1, 0, 0, 0, 4, 0⟩ ⟨0, 1⟩) := ⟨rfl, rfl, rfl⟩
theorem test_decode_rsplan :
    Reads .y [0x1041C010, 0x18000080, 0x04000000] (.rsplan ⟨4, 7, 0, 0⟩ ⟨3, 0, 0, 0, 0, 4, 0⟩ ⟨0, 1⟩) := ⟨rfl, rfl, rfl⟩
theorem test_decode_sel : Reads .c [0x15C31050] (.sel ⟨3, 4, 5, 0⟩) := ⟨rfl, rfl, rfl⟩
theorem test_decode_sleep : Reads .c [0x30801C00] (.sleep ⟨0, 7, 0, 0⟩) := ⟨rfl, rfl, rfl⟩
theorem test_decode_smap : Reads .c [0x3D822000] (.smap ⟨2, 8, 0, 0⟩) := ⟨rfl, rfl, rfl⟩
theorem test_decode_spawn : Reads .c [0x36075150] (.spawn ⟨7, 20, 21, 0⟩) := ⟨rfl, rfl, rfl⟩
theorem test_decode_st : Reads .c [0xA4428600, 0x00008D00] (.st ⟨4, 10, 1, 2, 8, 3, false, 4, 0, 0⟩) := ⟨rfl, rfl, rfl⟩
theorem test_decode_sysr : Reads .c [0x6C400080] (.sysr ⟨4, 0, 8, 0⟩) := ⟨rfl, rfl, rfl⟩
theorem test_decode_sysw : Reads .c [0x700140E0] (.writeRwctl ⟨0, 5, 0xE, 0⟩) := ⟨rfl, rfl, rfl⟩
theorem test_decode_tdld : Reads .c [0x3DC41460] (.tdld ⟨4, 5, 6, 0⟩) := ⟨rfl, rfl, rfl⟩
theorem test_decode_tdset : Reads .c [0x3E041460] (.tdset ⟨4, 5, 6, 0⟩) := ⟨rfl, rfl, rfl⟩
theorem test_decode_tprom : Reads .c [0x30470C00] (.tprom ⟨7, 3, 0, 0⟩) := ⟨rfl, rfl, rfl⟩
theorem test_decode_trap : Reads .c [0x68000050] (.trap ⟨0, 0, 5, 0⟩) ∧ Reads .c [0x68003FF0] (.trap ⟨0, 0, 0x3FF, 0⟩) :=
  ⟨⟨rfl, rfl, rfl⟩, rfl, rfl, rfl⟩
theorem test_decode_twait : Reads .c [0x30030000] (.twait ⟨3, 0, 0, 0⟩) := ⟨rfl, rfl, rfl⟩
-- 19_ref_v.md
theorem test_decode_vfma : Reads .v [0x04C28100, 0xD20A0008] (.vfma { vx (.row 10) (.row 4) (.breg 2) (.row 10) with rnd := 4 }) := ⟨rfl, rfl, rfl⟩
theorem test_decode_vadd :
    Reads .v [0x0400C040, 0xF1001001, 0x00000005] (.vadd { vx (.row 3) (.row 1) (.lit32 5) (.row 0) with sya := 1, sat := true }) :=
  ⟨rfl, rfl, rfl⟩
theorem test_decode_vshl : Reads .v [0x0901C1C0, 0xD1000000] (.vshl (vx (.row 7) (.row 7) (.breg 1) (.row 0))) := ⟨rfl, rfl, rfl⟩
theorem test_decode_vbc : Reads .v [0x0E0200C0, 0xF1000000, 0x00000011] (.vbc (vx (.row 8) (.row 3) (.lit32 17) (.row 0))) := ⟨rfl, rfl, rfl⟩
theorem test_decode_vslide : Reads .v [0x0EC24240, 0xF1F00000, 0x00000001] (.vslide (vx (.row 9) (.row 9) (.lit32 1) .zero)) := ⟨rfl, rfl, rfl⟩
theorem test_decode_vcmp : Reads .v [0x0D00C140, 0x06000000] (.vcmpLt (vx (.row 3) (.row 5) (.row 6) (.row 0))) := ⟨rfl, rfl, rfl⟩
theorem test_decode_vcvt : Reads .v [0x14030300, 0x00000008] (.vcvt { vx (.row 12) (.row 12) (.row 0) (.row 0) with rnd := 4 }) := ⟨rfl, rfl, rfl⟩
theorem test_decode_vqnt : Reads .v [0x14450540, 0x16000008] (.vqnt { vx (.row 20) (.row 21) (.row 22) (.row 0) with rnd := 4 }) := ⟨rfl, rfl, rfl⟩
theorem test_decode_vld :
    Reads .v [0x18027C80, 0x00020000, 0x00100000, 0x00000040] (.vld (vx (.row 9) (.lit64 0x0000004000100000) (.row 0) (.row 2))) :=
  ⟨rfl, rfl, rfl⟩
theorem test_decode_vst : Reads .v [0x184274C0, 0] (.vst (vx (.row 9) (.breg 3) (.row 0) (.row 0))) := ⟨rfl, rfl, rfl⟩
theorem test_decode_vsel : Reads .v [0x0C410040, 0x02000050] (.vsel { vx (.row 4) (.row 1) (.row 2) (.row 0) with mask := 5 }) := ⟨rfl, rfl, rfl⟩
theorem test_decode_vred : Reads .v [0x10354100, 0x00000020] (.vredAdd { vx (.breg 5) (.row 4) (.row 0) (.row 0) with mask := 2 }) := ⟨rfl, rfl, rfl⟩
theorem test_decode_vset : Reads .c [0x3E441400] (.vset ⟨4, 5, 0, 0⟩) := ⟨rfl, rfl, rfl⟩
-- 20_ref_x_y.md
theorem test_decode_xag : Reads .y [0x10414620, 0x10000080, 0x04000000] (.xag ⟨4, 5, 6, 0⟩ ⟨2, 0, 0, 0, 0, 4, 0⟩ ⟨0, 1⟩) := ⟨rfl, rfl, rfl⟩
theorem test_decode_xatom :
    Reads .y [0x14824A10, 0x28000180, 0x0C000000] (.xatom ⟨8, 9, 10, 0⟩ ⟨5, 0, 0, 0, 1, 4, 0⟩ ⟨0, 3⟩) := ⟨rfl, rfl, rfl⟩
theorem test_decode_xhalo : Reads .y [0x10400060, 0x10000080] (.xhalo ⟨4, 0, 0, 0⟩ ⟨2, 0, 0, 0, 0, 4, 0⟩) := ⟨rfl, rfl, rfl⟩
theorem test_decode_xstf : Reads .y [0x14824A00, 0x30000083] (.xstf ⟨8, 9, 10, 0⟩ ⟨6, 0, 0, 0, 0, 4, 3⟩) := ⟨rfl, rfl, rfl⟩
theorem test_decode_ycopy : Reads .y [0x04414600, 0x08000083] (.ycopy ⟨4, 5, 6, 0⟩ ⟨1, 0, 0, 0, 0, 4, 3⟩) := ⟨rfl, rfl, rfl⟩
theorem test_decode_ygath : Reads .y [0x04414620, 0x08000080] (.ygath ⟨4, 5, 6, 0⟩ ⟨1, 0, 0, 0, 0, 4, 0⟩) := ⟨rfl, rfl, rfl⟩
theorem test_decode_ycmp : Reads .y [0x08414610, 0x18000080] (.ycmp ⟨4, 5, 6, 0⟩ ⟨3, 0, 0, 0, 0, 4, 0⟩) := ⟨rfl, rfl, rfl⟩
theorem test_decode_yunpin : Reads .y [0x0C400010, 0x38000080] (.yunpin ⟨4, 0, 0, 0⟩ ⟨7, 0, 0, 0, 0, 4, 0⟩) := ⟨rfl, rfl, rfl⟩
theorem test_decode_ypref : Reads .y [0x04414040, 0x00000080] (.ypref ⟨4, 5, 0, 0⟩ ⟨0, 0, 0, 0, 0, 4, 0⟩) := ⟨rfl, rfl, rfl⟩

/-- Refusals by name, in the check order of R335: an unassigned major, an unassigned FN, a reserved operand code, a reserved
scope, a reserved field, words that run out. -/
theorem test_decode_refuses_major : decode .c [0xFC000000 - 0x04000000] = .error 0 := rfl
theorem test_decode_refuses_fn : decode .c [0x14000000 + 0x03C00000] = .error 1 := rfl
theorem test_decode_refuses_code : decode .v [0x04300000 + 0x00080000, 0] = .error 6 := rfl
theorem test_decode_refuses_scope : decode .y [0x04414600, 0x080000C0] = .error 3 := rfl
theorem test_decode_refuses_field : decode .c [0x00010000] = .error 2 := rfl
theorem test_decode_refuses_short : decode .c [0xA0428500] = .error 4 := rfl

/-! ## What WellFormed refuses -/

theorem test_wf_reserved_major_fields : (Instr.nop ⟨1, 0, 0, 0⟩).wf = false ∧ (Instr.ret ⟨0, 1, 0, 0⟩).wf = false
    ∧ (Instr.eret ⟨0, 0, 1, 0⟩).wf = false ∧ (Instr.clz ⟨1, 2, 3, 0⟩).wf = false ∧ (Instr.jmp ⟨1, 2, 0, 0⟩).wf = false := by decide
theorem test_wf_branches : (Instr.br ⟨1, 0, 0, 1, 0⟩).wf = false ∧ (Instr.brc ⟨0, 1, 0, 0, 0⟩).wf = false
    ∧ (Instr.loop ⟨0, 0, 0, 1, 0⟩).wf = false ∧ (Instr.call ⟨0, 1, 0, 1, 0⟩).wf = false := by decide
theorem test_wf_tokens : (Instr.twait ⟨32, 0, 0, 0⟩).wf = false ∧ (Instr.tprom ⟨1, 32, 0, 0⟩).wf = false := by decide
theorem test_wf_work : (Instr.edgeOne ⟨1, 2, 3, 0⟩).wf = false ∧ (Instr.edgeStencil ⟨16, 2, 3, 0⟩).wf = false
    ∧ (Instr.launch ⟨1, 2, 3, 0⟩).wf = false ∧ (Instr.cancel ⟨4, 2, 0, 0⟩).wf = false ∧ (Instr.cancelOwn ⟨8, 0, 0, 0⟩).wf = false
    ∧ (Instr.gseal ⟨1, 2, 0, 0⟩).wf = false := by decide
theorem test_wf_tables : (Instr.vset ⟨49, 2, 0, 0⟩).wf = false ∧ (Instr.smap ⟨8, 2, 0, 0⟩).wf = false
    ∧ (Instr.pbind ⟨16, 2, 0, 0⟩).wf = false ∧ (Instr.ccvt ⟨32, 2, 0, 0⟩).wf = false ∧ (Instr.icbc ⟨32, 2, 0, 0⟩).wf = false
    ∧ (Instr.bari ⟨1, 2, 3, 0⟩).wf = false := by decide
theorem test_wf_system_registers : (Instr.sysr ⟨1, 0, 5, 0⟩).wf = false ∧ (Instr.sysr ⟨1, 0, 0x208, 0⟩).wf = false
    ∧ (Instr.sysw ⟨0, 1, 8, 0⟩).wf = false ∧ (Instr.writeDphase ⟨0, 1, 9, 0⟩).wf = false ∧ (Instr.movI ⟨1, 1, 0, 0⟩).wf = false
    ∧ (Instr.trap ⟨1, 0, 0, 0⟩).wf = false := by decide
theorem test_wf_literals : (Instr.fence ⟨0, .w32 0x00030000, 0⟩).wf = false ∧ (Instr.fence ⟨0, .w64 0, 0⟩).wf = false
    ∧ (Instr.fence ⟨0, .w32 0x00180000, 0⟩).reservedScope = true ∧ (Instr.kchk ⟨0, .w32 0, 0⟩).wf = false := by decide
theorem test_wf_memory : (Instr.ld ⟨1, 2, 15, 0, 0, 3, false, 0, 0, 0⟩).wf = false ∧ (Instr.ld ⟨1, 2, 0, 2, 0, 3, false, 0, 0, 0⟩).wf = false
    ∧ (Instr.ld ⟨1, 2, 0, 0, 0, 3, true, 0, 0, 0⟩).wf = false ∧ (Instr.ld ⟨1, 2, 0, 0, 0, 3, false, 6, 0, 0⟩).wf = false
    ∧ (Instr.st ⟨1, 2, 0, 1, 0, 3, false, 0, 0, 0⟩).wf = false ∧ (Instr.ldc ⟨1, 2, 0, 0, 0, 3, false, 0, 0, 0⟩).wf = false
    ∧ (Instr.atomAdd ⟨1, 2, 0, 0, 0, 0, false, 0, 3, 0⟩).wf = false := by decide
theorem test_wf_vector : (Instr.vadd (vx (.row 192) (.row 0) (.row 0) (.row 0))).wf = false
    ∧ (Instr.vadd (vx .zero (.row 0) (.row 0) (.row 0))).wf = false ∧ (Instr.vadd { vx (.port 1) (.row 0) (.row 0) (.row 0) with syd := 1 }).wf = false
    ∧ (Instr.vadd { vx (.row 0) (.row 0) (.row 0) (.row 0) with rnd := 5 }).wf = false
    ∧ (Instr.vmin { vx (.row 0) (.row 0) (.row 0) (.row 0) with rnd := 1 }).wf = false
    ∧ (Instr.vmin { vx (.row 0) (.row 0) (.row 0) (.row 0) with sat := true }).wf = false
    ∧ (Instr.vld { vx (.row 0) (.breg 0) (.row 0) (.row 2) with mask := 1 }).wf = false
    ∧ (Instr.vld (vx (.row 0) (.row 0) (.row 0) (.row 2))).wf = false ∧ (Instr.vld (vx (.row 0) (.breg 0) (.row 0) (.row 19))).wf = false
    ∧ (Instr.vldx (vx (.row 0) (.breg 0) (.row 1) (.row 8))).wf = false ∧ (Instr.vcmpEq (vx (.row 16) (.row 0) (.row 0) (.row 0))).wf = false
    ∧ (Instr.vext (vx (.row 0) (.row 0) (.breg 0) (.row 0))).wf = false ∧ (Instr.vins (vx (.row 0) (.row 0) (.breg 0) (.row 0))).wf = false
    ∧ (Instr.vslide (vx (.row 0) (.row 0) (.breg 0) (.row 1))).wf = false ∧ (Instr.vabs (vx (.row 0) (.row 0) (.row 1) (.row 0))).wf = false := by
  decide
theorem test_wf_matrix : (Instr.mma ⟨16, 0, 0, false, true, 0, 0, 0⟩).wf = false ∧ (Instr.mwb ⟨1, 0, 0, false, false, 0, 0, 0⟩).wf = false
    ∧ (Instr.mscl ⟨0, 0, 0, false, false, 1, 0, 0⟩).wf = false ∧ (Instr.mzero ⟨0, 0, 1, false, false, 0, 0, 0⟩).wf = false
    ∧ (Instr.mbld ⟨1, 0, 0, false, false, 0, 0, 0⟩ ⟨1, 0, 0, 0, 0, 0, 0⟩).wf = false
    ∧ (Instr.mnest ⟨0, 0, 0, false, false, 0, 0, 0⟩ ⟨1, 0, 0, 0, 1, 0, 0⟩).wf = false
    ∧ (Instr.mgang ⟨16, 0, 0, false, false, 0, 0, 0⟩).wf = false ∧ (Instr.mkat ⟨0, 0, 0, false, false, 0, 1, 0⟩ ⟨1, 0, 0, 0, 0, 0, 0⟩).wf = false := by
  decide
theorem test_wf_copy : (Instr.ycopy ⟨1, 2, 3, 0⟩ ⟨1, 0, 0, 0, 15, 0, 0⟩).wf = false ∧ (Instr.ycopy ⟨1, 2, 3, 0⟩ ⟨1, 0, 0, 0, 0, 6, 0⟩).wf = false
    ∧ (Instr.ycopy ⟨1, 2, 3, 0⟩ ⟨1, 0, 0, 0, 0, 0, 19⟩).wf = false ∧ (Instr.yfpr ⟨1, 2, 3, 0⟩ ⟨1, 0, 0, 0, 0, 0, 0⟩).wf = false
    ∧ (Instr.yscat ⟨1, 2, 3, 0⟩ ⟨1, 0, 0, 0, 0, 0, 1⟩).wf = false ∧ (Instr.reshard ⟨1, 2, 3, 0⟩ ⟨1, 0, 0, 0, 0, 2, 0⟩ ⟨0, 1⟩).wf = false
    ∧ (Instr.xhalo ⟨1, 2, 0, 0⟩ ⟨1, 0, 0, 0, 0, 3, 0⟩).wf = false ∧ (Instr.xstf ⟨1, 2, 3, 0⟩ ⟨1, 0, 0, 0, 0, 0, 4⟩).wf = false
    ∧ (Instr.xatom ⟨1, 2, 3, 0⟩ ⟨1, 0, 0, 0, 0, 0, 0⟩ ⟨10, 3⟩).wf = false ∧ (Instr.xatom ⟨1, 2, 3, 0⟩ ⟨1, 0, 0, 0, 0, 0, 0⟩ ⟨0, 0⟩).wf = false
    ∧ (Instr.yRdv ⟨0, 0, 0, 0⟩ ⟨1, 0, 0, 0, 0, 0, 0⟩).wf = false := by decide

/-! ## States that meet the hypotheses, and steps on them -/

/-! ### Scalar instructions -/

theorem witness_AluRegisterForms : Unplanted wS ∧ Settled wS [4, 1, 2] := by decide
theorem witness_AluImmediateForms : Unplanted wS ∧ Settled wS [4, 1] ∧ Settled wS [4, 1, 2] ∧ Settled wS [4]
    ∧ (CL.mk 4 (.w32 0xFFFFFFFF) 0).lit = .w32 0xFFFFFFFF ∧ (CL.mk 4 (.w64 1) 0).lit = .w64 1 := by decide
theorem witness_MinMax : Unplanted wS ∧ Settled wS [4, 1, 2] := by decide
theorem witness_Compare : Unplanted wS ∧ Settled wS [4, 1, 2] := by decide
theorem witness_BitCounts : Unplanted wS ∧ Settled wS [4, 1, 2] := by decide
theorem witness_Select : Unplanted wS ∧ Settled wS [4, 1, 2] ∧ reg wS 4 = 0 ∧ reg wS 1 ≠ 0 := by decide
def wDz : State := wS.modCtx 0 fun x => { x with sprs := { x.sprs with arstat := 0x200 } }
theorem witness_DivisionResults : Unplanted wS ∧ Settled wS [4, 1, 2] ∧ reg wS 2 ≠ 0 ∧ reg wS 0 = 0
    ∧ (here wS).sprs.arstat.getLsbD 9 = false ∧ Unplanted wDz ∧ Settled wDz [4, 1, 0] ∧ (here wDz).sprs.arstat.getLsbD 9 = true := by decide
theorem witness_DivisionFrame : Calm wS (.div ⟨4, 1, 2, 0⟩) ∧ reg wS 2 ≠ 0 ∧ exec (.div ⟨4, 1, 2, 0⟩) wS = .next (after (.div ⟨4, 1, 2, 0⟩) wS)
    ∧ Calm wS (.rem ⟨4, 1, 0, 0⟩) ∧ (here wS).sprs.arstat.getLsbD 9 = false :=
  ⟨⟨by decide, by decide, by decide⟩, by decide, rfl, ⟨by decide, by decide, by decide⟩, by decide⟩
theorem witness_ScalarFrame : oneResult (.add ⟨4, 1, 2, 0⟩) = some 4 ∧ Calm wS (.add ⟨4, 1, 2, 0⟩)
    ∧ exec (.add ⟨4, 1, 2, 0⟩) wS = .next (after (.add ⟨4, 1, 2, 0⟩) wS) := ⟨by decide, ⟨by decide, by decide, by decide⟩, rfl⟩
/-- A load that has still to write s4. -/
def wLoading : State :=
  { wS with opNext := 2, ops := [(1, { ctx := 0, unit := 0, core := 0, eng := .c, pos := {}, ins := .ld ⟨4, 2, 0, 0, 0, 3, false, 0, 0, 0⟩, kind := .load, issued := 90, dst := 4, reads := true })] }
theorem witness_RegisterHold : Unplanted wLoading ∧ ¬ Settled wLoading [4, 1, 2] ∧ ¬ Settled wLoading [1, 4] := by decide
theorem test_div_by_zero_sets_flag : (here (after (.div ⟨4, 1, 0, 0⟩) wS)).sprs.arstat = 2 := by decide
theorem test_add_lands_next_cycle : (here (after (.add ⟨4, 1, 2, 0⟩) wS)).lands = [{ due := 101, eng := .c, seq := 0, act := .sreg 4 false 0x107 }] := by decide

/-! ### Results land -/

def wLand (l : List Landing) : State := wS.modCtx 0 fun x => { x with lands := l }
def wDue (a : Land) : Landing := { due := 100, eng := .c, seq := 0, act := a }
theorem witness_ResultLands :
    (∀ a ∈ [Land.sreg 4 false 9, .sreg 55 true 9, .sreg 63 true 9, .sreg 0 true 9, .breg 15 9, .mask 1 9, .mask 0 9, .flags 1,
        .gran 3071 9 9 .fp32 true, .gran 0 9 9 .fp32 false, .empty 5],
      ((((wLand [wDue a]).ctx 0).lands.filter fun q => q.due ≤ (wLand [wDue a]).cycle) = [wDue a])) := by decide +kernel
theorem witness_LaterResultPrevails :
    let a : Landing := wDue (.sreg 4 false 1)
    let b : Landing := { wDue (.sreg 4 false 2) with eng := .v }
    let c : Landing := wDue (.gran 3 1 (BitVec.allOnes 2048) .fp32 true)
    let d : Landing := { wDue (.gran 3 2 (BitVec.allOnes 2048) .i8 true) with seq := 1 }
    (((wLand [a, b]).ctx 0).lands.filter fun q => q.due ≤ 100) = [a, b] ∧ a.due = b.due ∧ engNo a.eng < engNo b.eng
    ∧ (((wLand [c, d]).ctx 0).lands.filter fun q => q.due ≤ 100) = [c, d] ∧ engNo c.eng = engNo d.eng ∧ c.seq < d.seq := by decide +kernel
theorem test_result_lands : (((after (.resultWrite 0) (wLand [wDue (.sreg 4 false 9)])).ctx 0).sr 4 = 9) := by decide
theorem witness_RegisterReads : (4 : Nat) ≠ 0 ∧ false = wCtx.inHandler ∧ (4 : Nat) < 56 ∧ (56 : Nat) ≤ 63 ∧ (3 : Nat) ≠ 4
    ∧ true = (!wCtx.inHandler) := by decide

/-! ### Control flow -/

theorem witness_BranchTargets : Unplanted wS ∧ Settled wS [1] ∧ Taken 1 (reg wS 1).toInt ∧ ¬ Taken 0 (reg wS 1).toInt ∧ Settled wS [63]
    ∧ (here wS).mode = .unit ∧ Unplanted (wMode .handler wS) ∧ Settled (wMode .handler wS) [63] ∧ (here (wMode .handler wS)).mode ≠ .unit := by
  refine ⟨by decide, by decide, ?_, ?_, by decide, by decide, by decide, by decide, by decide⟩ <;> simp only [Taken] <;> decide
theorem witness_JumpTarget : Unplanted (wR [(1, 0x1001)]) ∧ Settled (wR [(1, 0x1001)]) [1] ∧ GoodPointer (reg (wR [(1, 0x1001)]) 1)
    ∧ ¬ GoodPointer (reg (wR [(1, 0x1000)]) 1) ∧ ¬ GoodPointer (reg (wR [(1, 0x1009)]) 1) ∧ ¬ GoodPointer (reg wS 0) := by
  refine ⟨by decide, by decide, ?_, ?_, ?_, ?_⟩ <;> simp only [GoodPointer] <;> decide
theorem witness_RendezvousOf : Unplanted wS ∧ ¬ AllJoined wS ∧ (here wS).mode ≠ .handler ∧ AllJoined (wJoined wS) ∧ Unplanted (wJoined wS)
    ∧ (here (wJoined wS)).mode ≠ .handler ∧ Unplanted (wMode .handler wS) ∧ (here (wMode .handler wS)).mode = .handler := by decide
def wForks : State := wJoined (wR [(1, 0x1001), (2, 0x1000), (3, 0x2007)])
theorem witness_ForkOf : Unplanted wForks ∧ Settled wForks [1, 0, 3] ∧ AllJoined wForks ∧ (here wForks).mode ≠ .handler
    ∧ (∀ w ∈ [reg wForks 1, reg wForks 0, reg wForks 3], w = 0 ∨ GoodPointer w) ∧ (reg wForks 2 ≠ 0 ∧ ¬ GoodPointer (reg wForks 2))
    ∧ ¬ AllJoined wS ∧ Settled wS [1, 2, 3] := by
  refine ⟨by decide, by decide, by decide, by decide, ?_, ?_, by decide, by decide⟩
  · rw [show [reg wForks 1, reg wForks 0, reg wForks 3] = [0x1001, 0, 0x2007] from rfl]; intro w hw
    simp only [List.mem_cons, List.mem_nil_iff, or_false] at hw
    rcases hw with rfl | rfl | rfl
    · exact Or.inr (by simp only [GoodPointer]; decide)
    · exact Or.inl rfl
    · exact Or.inr (by simp only [GoodPointer]; decide)
  · rw [show reg wForks 2 = 0x1000 from rfl]; simp only [GoodPointer]; decide
theorem test_fork_starts : (here (after (.fork ⟨1, 0, 3, 0⟩) wForks)).v.st = .ready ∧ (here (after (.fork ⟨1, 0, 3, 0⟩) wForks)).m.st = .joined
    ∧ (here (after (.fork ⟨1, 0, 3, 0⟩) wForks)).y.cur = { line := 0x2000, lane := 7 } := by decide
def wCalled (p : Word) : State := (wR [(63, p)]).modCtx 0 fun x => { x with depth := 1 }
/-- The unit owes an arrival in an active barrier object of its cluster. -/
def wOwes : State := { wS with clusters := [(0, { bars := [(0, { st := .active, total := 2, owed := 1, enrol := [{ unit := 0, owe := 1, made := 0 }] })] })] }
theorem witness_ReturnAndIsync : Unplanted wS ∧ (here (wMode .handler wS)).mode = .handler ∧ (here (wCalled 0x1001)).depth ≠ 0
    ∧ Settled (wCalled 0x1001) [63] ∧ Unplanted (wCalled 0x1001) ∧ GoodPointer ((here (wCalled 0x1001)).sr 63)
    ∧ ¬ GoodPointer ((here (wCalled 8)).sr 63)
    ∧ (here wOwes).depth = 0 ∧ wOwes.owesArrival (wOwes.unitNo wOwes.focus) = true ∧ wS.owesArrival (wS.unitNo wS.focus) = false
    ∧ ¬ AllJoined wS ∧ AllJoined (wJoined wS) := by
  refine ⟨by decide, by decide, by decide, by decide, by decide, ?_, ?_, by decide, by decide, by decide, by decide, by decide⟩ <;>
    simp only [GoodPointer] <;> decide
theorem witness_StreamEnds : (wS.ctx 0).unit = some 0 ∧ wS.unit? 0 = some wUnit := by decide
theorem test_ret_ends : ((after (.ret ⟨0, 0, 0, 0⟩) (wJoined wS)).ctx 0).unit = none := by decide

/-! ### System registers -/

def wMgmt (v : Word) : State := wMode .management (wR [(1, v)])
theorem witness_SystemRegisterModes : Unplanted wS ∧ modeRank (here wS).mode < readRank 0x010 ∧ readRank 0x000 ≤ modeRank (here wS).mode
    ∧ Settled wS [4] ∧ (0x024 : BitVec 10) ∈ readOnly ∧ (0x01A : BitVec 10) ∈ ignoredWords ∧ modeRank (here wS).mode < 1
    ∧ Unplanted (wMgmt 0) ∧ 1 ≤ modeRank (here (wMgmt 0)).mode ∧ Settled (wMgmt 0) [1]
    ∧ (∀ row ∈ sysRows ++ otherSysRows, row.rank ≠ 0 → modeRank (here wS).mode < row.rank) := by decide
theorem witness_SystemRegisterValues : (wS.ctx 4).unit = none ∧ wS.unitOf 0 = some wUnit ∧ wUnit.launch < 2 ^ 24
    ∧ (wS.core 0).retries < 2 ^ 32 := by decide
theorem witness_SyswStores : (∀ row ∈ sysRows, row.rank ≤ modeRank (here (wMgmt 0x001001001001)).mode) ∧ Calm (wMgmt 0x001001001001) (.writeMeshshape ⟨0, 1, 4, 0⟩)
    ∧ ((wMgmt 0x001001001001).eng 0 .c).displaced = false ∧ Settled (wMgmt 0x001001001001) [1]
    ∧ shapeRefused (wMgmt 0x001001001001) (reg (wMgmt 0x001001001001) 1) = none ∧ baseRefused (wMgmt 0x1001) (reg (wMgmt 0x1001) 1) = none
    ∧ injectRefused (wMgmt 0x8) (reg (wMgmt 0x8) 1) = none ∧ injectRefused wS (1#64 <<< 63 ||| 1#64 <<< 59 ||| 1) = none :=
  ⟨by decide, ⟨by decide, by decide, by decide⟩, by decide, by decide, by decide, by decide, by decide, by decide⟩
theorem test_sysw_shape : (after (.writeMeshshape ⟨0, 1, 4, 0⟩) (wMgmt 0x001001001001)).sysreg 0 4 = 0x001001001001 := by decide
theorem witness_SyswSpecialRows : Unplanted (wMgmt 0) ∧ Settled (wMgmt 0) [1] ∧ (here (wMgmt 0)).pend = [] ∧ (wMgmt 0).steps 0 .c = false
    ∧ 2 ≤ modeRank (here (wMgmt 0)).mode ∧ posRefused (wMgmt 0) (reg (wMgmt 0) 1) = none ∧ ((reg (wMgmt 0) 1).extractLsb' 32 6).toNat < 48 := by decide
theorem witness_SyswRefusals : Unplanted (wMgmt 0) ∧ Settled (wMgmt 0) [1] ∧ shapeRefused (wMgmt 0) (reg (wMgmt 0) 1) = some 9
    ∧ posRefused (wMgmt 1) (reg (wMgmt 1) 1) = some 9 ∧ baseRefused (wMgmt 0x1000) (reg (wMgmt 0x1000) 1) = some 8
    ∧ injectRefused (wMgmt 0) (1#64 <<< 63) = some 8 := by decide
theorem test_write_arstat_keeps_new_flags :
    (here (after (.writeArstat ⟨0, 0, 9, 0⟩) (wS.modCtx 0 fun x => { x with flagCycle := 100, flagBits := 3 }))).sprs.arstat = 3 := by decide

/-! ### Traps -/

def wHandled : State := wS.modCtx 0 fun x => { x with sprs := { x.sprs with trapbase := 0x2001 } }
def wPending (t : Trap) (s : State) : State := s.modCtx 0 fun x => { x with pend := [t] }
def wTr : Trap := { code := 8, eng := .v, async := true }
theorem canStop_wS : CanStop wHandled 0 ∧ CanStop wS 0 :=
  ⟨⟨by decide, by decide, fun e => by cases e <;> decide⟩, ⟨by decide, by decide, fun e => by cases e <;> decide⟩⟩
theorem witness_TrapTaken : (wHandled.ctx 0).mode = .unit ∧ (wHandled.ctx 0).unit = some 0
    ∧ firstTrap ((wPending wTr (wJoined wHandled)).ctx 0).takable = some wTr ∧ CanStop (wPending wTr (wJoined wHandled)) 0
    ∧ (wHandled.ctx 0).sprs.trapbase ≠ 0 ∧ ¬ (wTr.code = 0x15 ∧ wHandled.versioned 0 = true) ∧ wTr.async = true
    ∧ ((wPending wTr (wJoined wHandled)).eng 0 wTr.eng).st = .joined
    ∧ firstTrap ((wPending wTr wS).ctx 0).takable = some wTr ∧ CanStop (wPending wTr wS) 0 ∧ (wS.ctx 0).sprs.trapbase = 0
    ∧ wTr.code ≠ 0x13 ∧ (wTr.code = 0x16 → wS.versioned 0 = false) ∧ wS.unit? 0 = some wUnit :=
  ⟨by decide, by decide, by decide, ⟨by decide, by decide, fun e => by cases e <;> decide⟩, by decide, by decide, by decide, by decide, by decide,
    ⟨by decide, by decide, fun e => by cases e <;> decide⟩, by decide, by decide, by decide, by decide⟩
theorem test_trap_enters_handler : (here (after (.trapEntry 0) (wPending wTr wHandled))).mode = .handler
    ∧ (here (after (.trapEntry 0) (wPending wTr wHandled))).c.cur = { line := 0x2000, lane := 1 } := by decide
theorem test_trap_without_handler_ends_unit : ((after (.trapEntry 0) (wPending wTr wS)).unit? 0).any (fun r => r.st == .completing && r.ending == .faulted) = true := by
  decide
theorem witness_TrapRecordFields : wTr.saved = none := rfl
theorem test_trap_record_code : (trapRecord 0 wTr).w0 = 8#64 <<< 59 ||| 1#64 <<< 50 ||| 1#64 <<< 47 := by decide
theorem witness_Breakpoints : (here wHandled).mode = .unit ∧ (here wHandled).unit = some 0 ∧ (here wHandled).pend = []
    ∧ (here wHandled).sprs.trapbase ≠ 0 ∧ CanStop wHandled wHandled.focus ∧ wHandled.steps wHandled.focus .c = false :=
  ⟨by decide, by decide, by decide, by decide, canStop_wS.1, by decide⟩
theorem test_bkpt_names_itself : (here (after (.bkpt ⟨.v, 0, 0⟩) wHandled)).sprs.trapRec.w1 = 0x1002 := by decide
theorem test_trap_is_signed : (here (after (.trap ⟨0, 0, 0x3FF, 0⟩) wHandled)).sprs.trapRec.w4 = 0xFFFFFFFF := by decide
/-- The handler of a trap of the vector engine. -/
def wInHandler (w1 : Word) (t : Trap) : State :=
  { wHandled with ctxs := [(0, { wCtx with
      mode := .handler, handling := some t, c := wEng 1, stopped := { wEng 1 with st := .stopped, before := .ready }
      v := { wEng 2 with st := .stopped, before := .ready }, m := { st := .stopped }, y := { st := .stopped }
      sprs := { trapbase := 0x2001, trapRec := { w1 := w1 } } })] }
theorem witness_ReturnFromTrap : (here wS).mode ≠ .handler ∧ Unplanted wS ∧ (here (wInHandler 0x3001 wTr)).mode = .handler
    ∧ (here (wInHandler 0x3001 wTr)).handling = some wTr ∧ wTr.code ≠ 0x15 ∧ wTr.code ≠ 0x16
    ∧ ¬ (((wInHandler 0x3001 wTr).ctx 0).sprs.trapRec.w1 ≠ 0 ∧ ¬ GoodPointer ((wInHandler 0x3001 wTr).ctx 0).sprs.trapRec.w1)
    ∧ ((wInHandler 0x3001 wTr).ctx 0).sprs.displaced.getLsbD 63 = false
    ∧ (((wInHandler 8 wTr).ctx 0).sprs.trapRec.w1 ≠ 0 ∧ ¬ GoodPointer ((wInHandler 8 wTr).ctx 0).sprs.trapRec.w1) := by
  unfold GoodPointer; decide
theorem test_eret_resumes : ((after (.eret ⟨0, 0, 0, 0⟩) (wInHandler 0x3001 wTr)).ctx 0).v.cur = { line := 0x3000, lane := 1 }
    ∧ ((after (.eret ⟨0, 0, 0, 0⟩) (wInHandler 0x3001 wTr)).ctx 0).mode = .unit := by decide

/-! ### Loads, stores and atomics -/

def wSeg (pa len : Nat) : Seg := { va := pa, pa := pa, len := len }
theorem witness_LoadIssue : Calm wS (.ld ⟨4, 2, 0, 0, 8, 3, false, 0, 0, 0⟩) ∧ Settled wS [4, 2]
    ∧ addressOf wS ⟨4, 2, 0, 0, 8, 3, false, 0, 0, 0⟩ % 8 = 0 ∧ wS.range 0 .read 0x108 8 = .ok [wSeg 0x108 8]
    ∧ wS.poisonIn [wSeg 0x108 8] = none ∧ wS.entriesFull 0 = false ∧ PagesFound wS [(0x108, 8)] :=
  ⟨⟨by decide, by decide, by decide⟩, by decide, by decide, rfl, by decide, by decide, by decide⟩
theorem witness_LoadIssue_miss : Calm (wR [(2, 2 ^ 40)]) (.ld ⟨4, 2, 0, 0, 0, 3, false, 0, 0, 0⟩) ∧ Settled (wR [(2, 2 ^ 40)]) [4, 2]
    ∧ addressOf (wR [(2, 2 ^ 40)]) ⟨4, 2, 0, 0, 0, 3, false, 0, 0, 0⟩ % 8 = 0 ∧ (wR [(2, 2 ^ 40)]).toWalk 0 [(2 ^ 40, 8)] ≠ []
    ∧ ((wR [(2, 2 ^ 40)]).walksOf 0).length + ((wR [(2, 2 ^ 40)]).toWalk 0 [(2 ^ 40, 8)]).length ≤ 32 :=
  ⟨⟨by decide, by decide, by decide⟩, by decide, by decide, by decide, by decide⟩
theorem test_load_in_flight : ((after (.ld ⟨4, 2, 0, 0, 8, 3, false, 0, 0, 0⟩) wS).op? 1).any (fun o => o.kind == .load && o.va == 0x108) = true := by decide
theorem witness_StoreIssue : Calm wS (.st ⟨1, 2, 0, 0, 0, 3, false, 0, 0, 0⟩) ∧ Settled wS [1, 2]
    ∧ (wS.isSys 0 0x100 && wS.versioned 0) = false ∧ addressOf wS ⟨1, 2, 0, 0, 0, 3, false, 0, 0, 0⟩ % 8 = 0
    ∧ wS.range 0 .write 0x100 8 = .ok [wSeg 0x100 8] ∧ wS.poisonHurt [wSeg 0x100 8] = none ∧ wS.entriesFull 0 = false
    ∧ PagesFound wS [(0x100, 8)] :=
  ⟨⟨by decide, by decide, by decide⟩, by decide, by decide, by decide, rfl, by decide, by decide, by decide⟩
theorem witness_AtomicIssue : Calm wS (.atomAdd ⟨4, 2, 0, 0, 0, 3, false, 0, 3, 0⟩) ∧ Settled wS [4, 2, 3] ∧ wS.versioned 0 = false
    ∧ addressOf wS ⟨4, 2, 0, 0, 0, 3, false, 0, 3, 0⟩ % 8 = 0 ∧ wS.range 0 .write 0x100 8 = .ok [wSeg 0x100 8]
    ∧ wS.poisonIn [wSeg 0x100 8] = none ∧ wS.entriesFull 0 = false ∧ PagesFound wS [(0x100, 8)] :=
  ⟨⟨by decide, by decide, by decide⟩, by decide, by decide, by decide, rfl, by decide, by decide, by decide⟩
/-- Unit 0 is versioned, with an id and nothing staged. -/
def wVersioned : State :=
  { wS with job := { wJob with
      launches := [(0, { wLaunch with record := 1#1024 <<< 579 })], units := [(0, { wUnit with version := some 0 })] } }
/-- The core's TLB holds a page at 2^20 whose physical address nothing backs; another state's one page may only be read. -/
def wFound : State := { wR [(2, 2 ^ 20)] with cores := [(0, { tlb := [{ base := 2 ^ 20, bits := 18, pte := 0x8000000000F }] })] }
def wReadOnly : State := { wS with cores := [(0, { tlb := [{ wPage with pte := 3 }] })] }
def wSysPage (s : State) : State := { s with cores := [(0, { tlb := [{ wPage with pte := 0x1F }] })] }
theorem witness_AccessTraps : Unplanted wS ∧ addressOf wS ⟨4, 2, 0, 0, 1, 3, false, 0, 0, 0⟩ % 8 ≠ 0
    ∧ wFound.range 0 .read (2 ^ 20) 8 = .error (2, 2 ^ 20) ∧ PagesFound wFound [(2 ^ 20, 8)] ∧ addressOf wFound ⟨4, 2, 0, 0, 0, 3, false, 0, 0, 0⟩ = 2 ^ 20
    ∧ wReadOnly.range 0 .write 0x100 8 = .error (1, 0x100) ∧ PagesFound wReadOnly [(0x100, 8)]
    ∧ (wSysPage wVersioned).isSys 0 0x100 = true ∧ (wSysPage wVersioned).versioned 0 = true ∧ wVersioned.versioned 0 = true
    ∧ Settled wVersioned [4, 2, 3] ∧ wS.versioned 0 = false :=
  ⟨by decide, by decide, rfl, by decide, by decide, rfl, by decide, by decide, by decide, by decide, by decide, by decide⟩
theorem test_misaligned_load_traps : (here (after (.ld ⟨4, 2, 0, 0, 1, 3, false, 0, 0, 0⟩) wHandled)).sprs.trapRec.w0.extractLsb' 59 5 = 7
    ∧ (here (after (.ld ⟨4, 2, 0, 0, 1, 3, false, 0, 0, 0⟩) wHandled)).sprs.trapRec.w2 = 0x101 := by decide
/-- Page tables that map virtual address 2^18 to physical address 2^18. -/
def wTables (leaf : Word) : State :=
  { wS with cores := [], dies := [(0, { ptroot := 0x20001 })]
            mem := memStore (memStore (memStore (memStore [] 0x20000 (bytesOfNat 8 0x40001)) 0x40000 (bytesOfNat 8 0x41001)) 0x41000
              (bytesOfNat 8 0x42001)) 0x42008 (bytesOfNat 8 leaf.toNat) }
theorem witness_PageWalk : (2 ^ 18 : Nat) < 2 ^ 56 ∧ ((wTables 0x4000F).die 0).ptroot.getLsbD 0 = true
    ∧ findTlb ((wTables 0x4000F).core 0).tlb (2 ^ 18) = none ∧ findTlb ((wTables 0x4000F).die 0).tlb (2 ^ 18) = none
    ∧ GoodEntry (entryAt (wTables 0x4000F).mem 0x20000 42 14 (2 ^ 18)) false ∧ GoodEntry (entryAt (wTables 0x4000F).mem 0x40000 30 12 (2 ^ 18)) false
    ∧ GoodEntry (entryAt (wTables 0x4000F).mem 0x41000 24 6 (2 ^ 18)) false ∧ GoodEntry (entryAt (wTables 0x4000F).mem 0x42000 18 6 (2 ^ 18)) true
    ∧ entryBase (entryAt (wTables 0x4000F).mem 0x42000 18 6 (2 ^ 18)) % 2 ^ 18 = 0 ∧ inSysAperture (2 ^ 18) = false
    ∧ (wTables 0x4000F).levelOf (2 ^ 18) ≠ .none ∧ (entryAt (wTables 0x40003).mem 0x42000 18 6 (2 ^ 18)).getLsbD 2 = false
    ∧ (entryAt (wTables 0x40003).mem 0x42000 18 6 (2 ^ 18)).getLsbD 3 = false ∧ (entryAt wS.mem 0x20000 42 14 0).getLsbD 0 = false
    ∧ wS.levelOf (2 ^ 52) = .none := by
  unfold GoodEntry; decide
/-- A store in flight at address 0x100, which a load of the same engine follows. -/
def wStore : Op :=
  { ctx := 0, unit := 0, core := 0, eng := .c, pos := {}, ins := .st ⟨1, 2, 0, 0, 0, 3, false, 0, 0, 0⟩, kind := .store, issued := 90, writes := true
    va := 0x100, segs := [wSeg 0x100 8], data := [1, 2, 3, 4, 5, 6, 7, 8] }
def wLoad : Op :=
  { ctx := 0, unit := 0, core := 0, eng := .c, pos := {}, ins := .ld ⟨4, 2, 0, 0, 0, 3, true, 0, 0, 0⟩, kind := .load, issued := 91, reads := true
    va := 0x100, dst := 4, segs := [wSeg 0x100 8], v2 := 64, hist := [{ op := 1 }] }
def wOps (l : Tab Op) : State := { wS with opNext := 9, ops := l }
theorem witness_AccessOrder : { op := 1, whole := true } ∈ wLoad.hist ∧ (wOps [(1, wStore)]).op? 1 = some wStore ∧ Ordered wStore wLoad none
    ∧ (wOps [(1, wStore), (2, { wLoad with waits := [{ op := 1 }] })]).op? 2 = some { wLoad with waits := [{ op := 1 }] }
    ∧ (wOps [(1, wStore), (2, { wLoad with waits := [{ op := 1 }] })]).pending { op := 1 } = true :=
  ⟨by decide, rfl, Or.inl ⟨rfl, rfl, rfl, Or.inl rfl⟩, rfl, by decide⟩
theorem test_load_waits_for_store : ((wOps [(1, wStore)]).waitsFor wLoad none) = [{ op := 1 }] := by decide
theorem witness_LoadReturns : (wOps [(2, wLoad)]).op? 2 = some wLoad ∧ wLoad.kind = .load ∧ (wOps [(2, wLoad)]).opReady wLoad = true
    ∧ (wOps [(2, wLoad)]).opLive wLoad = true ∧ wLoad.fwd = [] ∧ (∀ r, (wOps [(2, wLoad)]).unit? 0 = some r → r.staged = [])
    ∧ wLoad.v1 = 0 ∧ wLoad.v2.toNat = 8 * (wSeg 0x100 8).len ∧ wLoad.v3 = 0 :=
  ⟨rfl, rfl, by decide, by decide, rfl, fun r h => by injection h with h; subst h; rfl, rfl, rfl, rfl⟩
theorem witness_LoadReturns_place : (wS.ctx 0).sprs.inject.getLsbD 63 = false ∧ (wOps [(2, wLoad)]).poisonIn [wSeg 0x100 8] = none
    ∧ { wOps [(2, wLoad)] with poison := [1] }.poisonIn [wSeg 0x100 8] = some 1 ∧ { wOps [(2, wLoad)] with poison := [1] }.opReady wLoad = true
    ∧ 0 < (wSeg 0x100 8).len ∧ (wSeg 0x100 8).len ≤ 8 := by decide
def wAtom : Op := { wLoad with ins := .atomAdd ⟨4, 2, 0, 0, 0, 3, false, 0, 3, 0⟩, kind := .atom, writes := true, v1 := 5, hist := [] }
theorem witness_AtomicReturns : (wOps [(2, wAtom)]).op? 2 = some wAtom ∧ wAtom.kind = .atom ∧ (wOps [(2, wAtom)]).opReady wAtom = true
    ∧ (wOps [(2, wAtom)]).opLive wAtom = true ∧ wAtom.segs = [wSeg 0x100 8] ∧ wAtom.v2.toNat = 8 * 8 ∧ wAtom.v1.toNat < 2 ^ 64 ∧ wAtom.v3.toNat < 2 ^ 64 :=
  ⟨rfl, rfl, by decide, by decide, rfl, rfl, by decide, by decide⟩
theorem test_atomic_add : (after (.atomReturn 2) { wOps [(2, wAtom)] with mem := [(0x100, 7)] }).mem = [(0x100, 12)]
    ∧ ((after (.atomReturn 2) { wOps [(2, wAtom)] with mem := [(0x100, 7)] }).ctx 0).sr 4 = 7 := by decide
theorem witness_StoresPerformed : (wOps [(1, wStore)]).op? 1 = some wStore ∧ wStore.kind = .store ∧ (wOps [(1, wStore)]).opReady wStore = true
    ∧ wStore.data.length = (wSeg 0x100 8).len ∧ (wOps [(1, wStore)]).versionedUnit 0 = false ∧ wVersioned.versionedUnit 0 = true
    ∧ inScratch 0x100 = false ∧ wVersioned.unit? 0 = some { wUnit with version := some 0 } ∧ { wVersioned with ops := [(1, wStore)] }.opReady wStore = true
    ∧ (wOps [(1, wStore)]).poisonHurt [wSeg 0x100 8] = none ∧ { wVersioned with ops := [(1, wStore)] }.poisonHurt [wSeg 0x100 8] = none :=
  ⟨rfl, rfl, by decide, rfl, by decide, by decide, by decide, rfl, by decide, by decide, by decide⟩
theorem test_store_lands_little_endian : (after (.storePerformed 1) (wOps [(1, wStore)])).mem =
    [(0x100, 1), (0x101, 2), (0x102, 3), (0x103, 4), (0x104, 5), (0x105, 6), (0x106, 7), (0x107, 8)] := by decide
theorem test_versioned_store_is_staged : (after (.storePerformed 1) { wVersioned with ops := [(1, wStore)] }).mem = [] := by decide

/-! ### Waits and fences -/

/-- The control engine waits with an instruction. -/
def wWaits (i : Instr) (h : Hold) (s : State) : State := s.modCtx 0 fun x => { x with c := { x.c with st := .waiting, held := some i, hold := h } }
/-- Token 5 is claimed by operation 3. -/
def wTok : State := wS.modCtx 0 fun x => { x with regs := { x.regs with k := [(5, { done := false, op := 3, promise := 77 })] } }
theorem calm_wS : ∀ i ∈ [Instr.twait ⟨0, 1, 5, 0⟩, .sleep ⟨0, 1, 0, 0⟩, .ccvt ⟨0, 1, 0, 0⟩], Calm wS i := by
  intro i h; simp only [List.mem_cons, List.not_mem_nil, or_false] at h
  rcases h with rfl | rfl | rfl <;> exact ⟨by decide, by decide, by decide⟩
theorem witness_TokenInstructions : Calm wS (.twait ⟨0, 1, 5, 0⟩) ∧ (here wS).c.hold = .none
    ∧ (∀ k ∈ tokensOf ⟨0, 1, 5, 0⟩, ((here wS).tok k).done = true) ∧ tokensOf ⟨5, 37, 5, 0⟩ = [5, 5, 5] ∧ (here wTok).c.hold = .none
    ∧ (∀ k ∈ tokensOf ⟨5, 37, 5, 0⟩, ((here wTok).tok k).done = false)
    ∧ (let s := wWaits (.twait ⟨5, 0, 0, 0⟩) (.tokens [(5, 2), (0, 0)]) wTok
       (here s).c.hold = .tokens [(5, 2), (0, 0)] ∧ (∀ p ∈ [(5, 2), (0, 0)], ((here s).tok p.1).done = true ∨ ((here s).tok p.1).op ≠ p.2)
       ∧ (here s).pend = [])
    ∧ Unplanted wTok ∧ Settled wTok [4] :=
  ⟨calm_wS _ (by decide), by decide, by decide, by decide, by decide, by decide, by decide, by decide, by decide⟩
theorem test_tprom_reads_promise : (here (after (.tprom ⟨4, 5, 0, 0⟩) wTok)).lands = [{ due := 101, eng := .c, seq := 0, act := .sreg 4 false 77 }] := by decide
theorem witness_SleepAndWake : Calm wS (.sleep ⟨0, 1, 0, 0⟩) ∧ Settled wS [1, 2] ∧ (here wS).c.hold = .none ∧ (reg wS 1).toNat ≤ wS.cycle
    ∧ wS.cycle < (reg wS 2).toNat
    ∧ ∀ n ∈ [100, 101], (let s := wWaits (.sleep ⟨0, 1, 0, 0⟩) (.sleep n) wS
       (here s).pend = [] ∧ s.steps 0 .c = false ∧ Unplanted s ∧ (s.eng 0 .c).st = .waiting ∧ (s.eng 0 .c).held = some (.sleep ⟨0, 1, 0, 0⟩)
       ∧ (s.eng 0 .c).hold = .sleep n ∧ (n ≤ s.cycle ∨ s.cycle < n)) :=
  ⟨calm_wS _ (by decide), by decide, by decide, by decide, by decide, by decide⟩
def wKat : Op :=
  { ctx := 0, unit := 0, core := 0, eng := .m, pos := {}, ins := .mkat ⟨0, 0, 0, false, false, 0, 0, 0⟩ ⟨1, 0, 0, 0, 0, 0, 0⟩, kind := .async, issued := 90, tok := 1 }
theorem witness_SignatureCheck : Unplanted wS ∧ (wOps [(1, wKat)]).katRuns 0 = true ∧ wS.katRuns wS.focus = false
    ∧ (wS.core (coreOf wS.focus)).ksig = (0 : BitVec 32).signExtend 64 ∧ (wS.core (coreOf wS.focus)).ksig ≠ (1 : BitVec 32).signExtend 64
    ∧ (0 : Nat) ∈ ctxsOf 0 ∧ 0 ≠ 1 ∧ (wS.ctx 0).unit.isSome = true ∧ wHandled.versioned wHandled.focus = false := by decide
theorem handlerReady_wHandled : HandlerReady wHandled 0 :=
  ⟨by decide, by decide, by decide, by decide, fun e => by cases e <;> decide, by decide, by decide, fun e => by cases e <;> decide⟩
def wFence : State :=
  (wOps [(1, wStore), (2, { wLoad with segs := [wSeg 0x200 8] })]).modCtx 0 fun x => { x with c := { x.c with hist := [{ op := 1 }, { op := 2 }] } }
theorem witness_Fences : Calm wS (.fence (fenceOf 2 0xFFFF 2 0 0)) ∧ (here wS).c.hold = .none ∧ wS.histOf wS.focus .c = [] ∧ wS.issuedBefore wS.focus wS.cycle = []
    ∧ { op := 1 } ∈ wFence.issuedBefore wFence.focus wFence.cycle ∧ (here wS).unit = some 0 ∧ (here wFence).c.hold = .none
    ∧ { op := 2 } ∈ wFence.histOf wFence.focus .c ∧ wFence.op? 2 = some { wLoad with segs := [wSeg 0x200 8] } ∧ (1 : BitVec 16).getLsbD wLoad.cls = true
    ∧ wLoad.reads = true ∧ wLoad.sampled = false
    ∧ (let s := wWaits (.fence (fenceOf 1 1 2 0 0)) (.fence 90 [{ op := 7 }]) wFence
       (here s).pend = [] ∧ s.steps 0 .c = false ∧ Unplanted s ∧ (s.eng 0 .c).st = .waiting ∧ (s.eng 0 .c).held = some (.fence (fenceOf 1 1 2 0 0))
       ∧ (s.eng 0 .c).hold = .fence 90 [{ op := 7 }] ∧ ∀ a ∈ [{ op := 7 : Acc }], s.pending a = false) :=
  ⟨⟨by decide, by decide, by decide⟩, by decide, by decide, by decide, by decide, by decide, by decide, by decide, rfl, by decide, by decide,
    by decide, by decide⟩
theorem test_fence_acq_ignores_stores :
    ((after (.fence (fenceOf 0 1 2 0 0)) { wFence with ops := [(1, wStore)] }).eng 0 .c).st = .ready := by decide

/-! ### Counters and barriers -/

def wCtrs : State := wR [(1, 0), (2, 1), (3, 0x40000000), (5, 2), (6, 3), (7, 1#64 <<< 56), (8, 5), (9, 4), (10, 2#64 ||| 1#64 <<< 32)]
theorem witness_CounterWaits : Unplanted wCtrs ∧ Settled wCtrs [4, 1, 2] ∧ (∀ r : Fin 64, Settled wCtrs [BitVec.ofFin r])
    ∧ wCtrs.versioned 0 = false ∧ wCtrs.named (reg wCtrs 1) = some { sealed := true, pending := 1 } ∧ wCtrs.named (reg wCtrs 8) = none
    ∧ wCtrs.unitNo 0 = 0 ∧ (wCtrs.unit? 0).isSome = true ∧ wCtrs.ownIndex 0 0 = 0 ∧ wCtrs.ownIndex 0 1 = 0
    ∧ (reg wCtrs 2).extractLsb' 0 2 = 1 ∧ (reg wCtrs 5).extractLsb' 0 2 = 2 ∧ (reg wCtrs 5).extractLsb' 32 24 = 0
    ∧ (reg wCtrs 6).extractLsb' 0 2 = 3 ∧ (reg wCtrs 7).extractLsb' 56 8 ≠ 0 ∧ (reg wCtrs 9).extractLsb' 2 30 ≠ 0
    ∧ ConditionHolds (reg wCtrs 1) {} ∧ ConditionHolds (reg wCtrs 10) { pending := 1 }
    ∧ wVersioned.versioned 0 = true
    ∧ (wVersioned.modUnit 0 fun r => { r with created := [9] }).createdBy 0 9 = true := by
  unfold ConditionHolds; decide
/-- Launch 1 beside the unit's own, of no units, sealed. -/
def wMore : State := wCtrs.modJob fun j => { j with launches := j.launches ++ [(1, { wLaunch with units := [], ctr := { sealed := true, pending := 3 } })] }
theorem witness_CounterWaits_waits :
    (let s := wMore.modCtx 0 fun x => { x with regs := { x.regs with s := [(1, 1), (2, 1), (10, 2#64 ||| 1#64 <<< 32)] } }
     s.named (reg s 1) = some { sealed := true, pending := 3 } ∧ s.ownIndex 0 0 ≠ 1 ∧ (reg s 2).extractLsb' 0 2 = 1 ∧ ¬ (reg s 2).extractLsb' 56 8 ≠ 0
     ∧ ¬ (reg s 2).extractLsb' 2 30 ≠ 0 ∧ (s.eng 0 .c).st = .ready) := by decide
def wFinal : State := { wS with job := { wJob with
  ctr := { sealed := true, pending := 1 }, phases := [(0, { graphs := [0], ctr := { sealed := true, pending := 1 } })]
  graphs := [(0, { phase := 0, launches := [0], ctr := { sealed := true, pending := 1 } })]
  launches := [(0, { wLaunch with ctr := { sealed := true } })], units := [(0, { wUnit with st := .done, ctx := none })], openGraph := none } }
theorem witness_CountersFinal : wFinal.finalReady 0 0 = true ∧ wFinal.job.counter 0 0 = some { sealed := true } ∧ wFinal.parentOf 0 0 = some (1, 0)
    ∧ wFinal.job.counter 1 0 = some { sealed := true, pending := 1 } ∧ wFinal.parentOf 1 0 = some (2, 0) ∧ wFinal.parentOf 2 0 = some (3, 0)
    ∧ (let s := wFinal.modJob fun j => { j with ctr := { sealed := true, flt := true } }
       s.finalReady 3 0 = true ∧ s.job.counter 3 0 = some { sealed := true, flt := true } ∧ s.parentOf 3 0 = none ∧ s.job.st = .running)
    ∧ (wFinal.modJob fun j => { j with ctr := {} }).jobIdle = true := by decide
theorem test_failed_member_counts : (after (.counterFinal 0 0) (wFinal.modJob fun j => { j with launches := [(0, { wLaunch with ctr := { sealed := true, flt := true } })] })).job.counter 1 0
    = some { sealed := true, flt := true, failed := 1 } := by decide
/-- s2 holds TOTAL 2, OWE 1, SCOPE 4 (job), without and with ARRIVE. -/
def wBarWord : Word := 2#64 ||| 1#64 <<< 24 ||| 4#64 <<< 32
def wBarIs (b : Bar) (mode : Word) : State := { wR [(1, 5), (2, wBarWord ||| mode)] with clusters := [(0, { bars := [(5, b)] })] }
def wActive : Bar := { st := .active, scope := 4, total := 2, gen := 9 }
def CanInit (b : Bar) (mode : Word) : Prop :=
  let s := wBarIs b mode
  (here s).pend = [] ∧ s.steps 0 .c = false ∧ Unplanted s ∧ Settled s [1, 2] ∧ s.versioned 0 = false ∧ s.barAt (reg s 1) = some (0, 5)
  ∧ s.bar 0 5 = b ∧ b.st ≠ .active ∧ outsideScope (coreOf 0) 0 4 = false ∧ (reg s 2).extractLsb' 36 28 = 0 ∧ (reg s 2).extractLsb' 32 3 = 4
  ∧ (reg s 2).extractLsb' 24 8 = 1 ∧ (reg s 2).extractLsb' 0 24 = 2 ∧ s.enrolments 0 - b.enrol.length < 2048
  ∧ (reg s 2).getLsbD 35 = mode.getLsbD 35
theorem witness_BarrierInit : CanInit {} 0 := by unfold CanInit; decide
theorem witness_BarrierInit_broken : CanInit { wActive with st := .broken } (1#64 <<< 35) := by unfold CanInit; decide
def wMine (made : Nat) : Bar := { wActive with owed := 1, enrol := [{ unit := 0, owe := 1, made := made }] }
theorem witness_BarrierUse :
    (∀ b ∈ [({} : Bar), wActive, wMine 0, wMine 1, { wActive with st := .broken }],
      (let s := wBarIs b 0
       Unplanted s ∧ Settled s [4, 1, 2] ∧ s.versioned 0 = false ∧ s.barAt (reg s 1) = some (0, 5) ∧ s.bar 0 5 = b
       ∧ outsideScope (coreOf 0) 0 b.scope = false ∧ (here s).c.hold = .none ∧ s.arrivalsLeft 0 5 9 = false))
    ∧ (let s := wBarIs wActive 0
       wActive.enrolled 0 = none ∧ (reg s 2).extractLsb' 36 28 = 0 ∧ ((reg s 2).extractLsb' 0 24).toNat = wActive.total
       ∧ ((reg s 2).extractLsb' 32 3).toNat = wActive.scope ∧ ((reg s 2).extractLsb' 24 8).toNat = 1 ∧ s.enrolments 0 < 2048 ∧ (reg s 2).getLsbD 35 = false)
    ∧ (wMine 0).enrolled 0 = some { unit := 0, owe := 1, made := 0 } ∧ (wMine 1).enrolled 0 = some { unit := 0, owe := 1, made := 1 }
    ∧ (here (wWaits (.barw ⟨4, 1, 0, 0⟩) (.barrier 0 5 9 (some 3)) (wBarIs wActive 0))).c.hold = .barrier 0 5 9 (some 3) := by decide
/-- An arrival under way, the last or the first of two. -/
def wArrives (arr : Nat) : State :=
  let s := wBarIs { wActive with arr := arr } 0
  wWaits (.barw ⟨4, 1, 0, 0⟩) (.barrier 0 5 9 none) { s with job := { s.job with arrivals := [(0, { cluster := 0, obj := 5, unit := 0, ctx := 0, gen := 9 })], arrivalNext := 1 } }
theorem witness_ArrivalsCount : ∀ n ∈ [0, 1], (let s := wArrives n
    tget s.job.arrivals 0 = some { cluster := 0, obj := 5, unit := 0, ctx := 0, gen := 9 } ∧ s.arrivalReady 0 = true ∧ (s.bar 0 5).st = .active
    ∧ (s.bar 0 5).gen.toNat = 9 ∧ (s.bar 0 5).total = 2 ∧ (s.bar 0 5).arr = n ∧ (s.ctx 0).c.hold = .barrier 0 5 9 none) := by decide
theorem test_last_arrival_completes : (after (.barrierArrival 0) (wArrives 1)).bar 0 5 = { wActive with gen := 10, last := 1 } := by decide

/-! ### Work and the life of units -/

/-- A launch record at address 0x1000: entry 0x2001, arguments 0x77, one dimension of two units, footprint 1. -/
def wRecord (ctl : Nat) : BitVec 1024 := BitVec.ofNat 1024 (0x2001 + 0x77 * 2 ^ 64 + 0x3000 * 2 ^ 128 + 8 * 2 ^ 192 + 2 ^ 512 + ctl * 2 ^ 576)
def wPlain : BitVec 1024 := wRecord 0x1001
def wStored (r : BitVec 1024) (s : State) : State := { s with mem := memStore [] 0x1000 (bytesOfNat 128 r.toNat) }
def wWork (r : BitVec 1024) : State := wStored r (wR [(1, 0x1000), (2, 0), (3, 5)])
def wBytes (r : BitVec 1024) : List Byte := bytesOfNat 128 r.toNat
/-- What records read is the statement's own `RecordReads`; here only that this one is read. -/
theorem wWork_reads : ∀ i ∈ [Instr.launch ⟨4, 1, 2, 0⟩, .spawn ⟨4, 1, 2, 0⟩], RecordAt (wWork wPlain) i 0x1000 128 64 (wBytes wPlain) :=
  recordsAt (by decide +kernel)
theorem wBad_reads : ∀ i ∈ [Instr.launch ⟨4, 1, 2, 0⟩, .spawn ⟨4, 1, 2, 0⟩], RecordAt (wWork 0) i 0x1000 128 64 (wBytes 0) :=
  recordsAt (by decide +kernel)
def wF : C3 := ⟨4, 1, 2, 0⟩
theorem witness_WorkPut : Unplanted (wWork wPlain) ∧ (wWork wPlain).versioned 0 = false ∧ (wWork wPlain).myEffect = none
    ∧ Settled (wWork wPlain) [4, 1, 2] ∧ (wWork wPlain).namesLaunch (reg (wWork wPlain) 2) = true
    ∧ (wWork wPlain).namesLaunch (reg (wWork wPlain) 1) = false ∧ (wWork wPlain).myContribution = none ∧ recBad wPlain = false
    ∧ (wWork wPlain).job.launchFull wPlain = false ∧ (recMesh wPlain && (wWork wPlain).inMesh 0) = false := by decide
theorem witness_WorkPut_record : recordOf (wBytes wPlain) = wPlain ∧ recBad (recordOf (wBytes 0)) = true ∧ (wWork 0).myEffect = none
    ∧ (wWork 0).myContribution = none ∧ Settled (wWork 0) [4, 1, 2] := by decide
def wAnswered (t : Option Trap) : State :=
  wS.modJob fun j => { j with effectNext := 1, effects := [(0, { ctx := 0, unit := 0, pos := { line := 0x1000, lane := 1 }, work := .seal false, done := true, val := 9, trap := t })] }
theorem witness_WorkAnswered : ∀ t ∈ [none, some (trapOf 0x0A)],
    Unplanted (wAnswered t) ∧ (wAnswered t).versioned 0 = false ∧ Settled (wAnswered t) [4, 1, 2] ∧ t.all (fun x => x.code != 0x16) = true
    ∧ (wAnswered t).myEffect = some (0, { ctx := 0, unit := 0, pos := { line := 0x1000, lane := 1 }, work := .seal false, done := true, val := 9, trap := t }) := by
  decide
theorem test_answer_is_written : (here (after (.gseal wF) (wAnswered none))).lands = [{ due := 101, eng := .c, seq := 0, act := .sreg 4 false 9 }] := by decide
def wStages : State := wStored wPlain (wVersioned.modCtx 0 fun x => { x with regs := { x.regs with s := [(1, 0x1000), (2, 0), (3, 5)] } })
def wVUnit : UnitRec := { wUnit with version := some 0 }
theorem witness_WorkStaged : (here wStages).pend = [] ∧ wStages.steps 0 .c = false ∧ Unplanted wStages ∧ wStages.versioned 0 = true
    ∧ (here wStages).unit = some 0 ∧ wStages.unit? 0 = some wVUnit ∧ wStages.myEffect = none ∧ Settled wStages [4, 1, 2, 3]
    ∧ wStages.namesLaunch (reg wStages 2) = true ∧ (wStages.named (reg wStages 2)).isSome = true ∧ handleLevel (reg wStages 2) = 0
    ∧ wStages.myContribution = none ∧ wStages.job.launchFull wPlain = false ∧ (recMesh wPlain && wStages.inMesh 0) = false := by decide
theorem wStages_reads : ∀ i ∈ [Instr.launch ⟨4, 1, 2, 0⟩, .spawn ⟨4, 1, 2, 0⟩], RecordAt wStages i 0x1000 128 64 (wBytes wPlain) :=
  recordsAt (by decide +kernel)
theorem witness_RecordReads : (0x1001 : Nat) % 64 ≠ 0 ∧ wFound.range (coreOf wFound.focus) .read (2 ^ 20) 128 = .error (2, 2 ^ 20) ∧ 2 ^ 20 % 64 = 0
    ∧ PagesFound wFound [(2 ^ 20, 128)] ∧ PagesFound wS [(0x1000, 128)] ∧ wS.range (coreOf wS.focus) .read 0x1000 128 = .ok [wSeg 0x1000 128] ∧ wS.poisonIn [wSeg 0x1000 128] = none
    ∧ (wS.eng wS.focus .c).hist = [] ∧ NoneInFlight wS ∧ (∀ r, wS.unit? (wS.unitNo wS.focus) = some r → r.staged = []) :=
  ⟨by decide, rfl, by decide, by decide, by decide, rfl, by decide, by decide, by unfold NoneInFlight; decide, fun r h => by injection h with h; subst h; rfl⟩
def wEffect (w : Work) : State := wS.modJob fun j => { j with effectNext := 1, effects := [(0, { ctx := 0, unit := 0, work := w })] }
def wClosed (w : Work) : State := (wEffect w).modJob fun j => { j with openGraph := none }
theorem witness_GraphStateEffects : (∀ w ∈ [Work.edge 2 0 0 0, .edge 4 1 0 0, .seal true, .seal false, .launch 0 wPlain 5],
      (wEffect w).nextEffect = some (0, { ctx := 0, unit := 0, work := w }) ∧ (wEffect w).job.ctr.sealed = false
      ∧ (wClosed w).nextEffect = some (0, { ctx := 0, unit := 0, work := w }) ∧ (wClosed w).job.openGraph = none)
    ∧ (wEffect (.seal true)).job.openGraph = some 0 ∧ tget (wEffect (.seal true)).job.graphs 0 = some { phase := 0, launches := [0] }
    ∧ (wEffect (.launch 0 wPlain 5)).job.launchFull wPlain = false ∧ recMesh wPlain = false := by decide
def wEdge : State := (wEffect (.edge 2 0 0 1)).modJob fun j => { j with
  launchNext := 2, launches := [(0, wLaunch), (1, { wLaunch with units := [], released := false })], graphs := [(0, { phase := 0, launches := [0, 1] })] }
theorem witness_GraphStateEffects_edge :
    (∃ j, wEdge.job.edge { kind := 2, h := 0, a := 0, b := 1 } = .ok j)
    ∧ wEdge.job.edge { kind := 2, h := 0, a := 1, b := 1 } = .error 0x06
    ∧ (wClosed (.edge 2 0 0 0)).job.edge { kind := 2, h := 0, a := handleIndex 0, b := handleIndex 0 } = .error 0x06 := ⟨⟨_, rfl⟩, rfl, rfl⟩
def wLaunch2 (shape : Nat) : LaunchRec := { wLaunch with record := BitVec.ofNat 1024 (shape * 2 ^ 512 + 0x1001 * 2 ^ 576) }
def wTwo (x y : Nat) : Job := { wJob with launches := [(0, wLaunch2 x), (1, wLaunch2 y)] }
theorem witness_EdgeRules : ∀ x ∈ [0, 1], tget (wTwo x 0).launches 0 = some (wLaunch2 x) ∧ tget (wTwo x 0).launches 1 = some (wLaunch2 0)
    ∧ (wTwo x 0).openGraph = some 0 ∧ tget (wTwo x 0).graphs 0 = some { phase := 0, launches := [0] } ∧ (wLaunch2 x).graph = 0
    ∧ (0 ≤ 1 ∧ ¬ (1 : Nat) ≤ 0) := by decide
def wCancels : State := wR [(1, 0x40000000), (2, 0), (3, 0x40000001)]
theorem witness_Cancelling : Unplanted wCancels ∧ wCancels.versioned 0 = false ∧ Settled wCancels [1, 2, 3] ∧ handleLevel (reg wCancels 1) = 1
    ∧ handleLevel (reg wCancels 2) ≠ 1 ∧ (wCancels.named (reg wCancels 1)).isSome = true ∧ wCancels.named (reg wCancels 3) = none
    ∧ wCancels.createdBy 0 (reg wCancels 3) = false ∧ wS.job.counter 0 0 = some { sealed := true, pending := 1 }
    ∧ ((wS.job.modCounter 0 0 fun k => { k with final := true }).counter 0 0 = some { sealed := true, pending := 1, final := true })
    ∧ (∀ st ∈ [UnitState.held, .waiting, .ready], (wS.modUnit 0 fun r => { r with st := st }).unit? 0 = some { wUnit with st := st }) := by decide
theorem test_cancelled_object : (wS.cancelObject 1 0).job.counter 1 0 = some { canc := true, sealed := true } := by decide
def wContribution (die : Nat) (r : BitVec 1024) : Contribution := { die := die, unit := 0, ctx := 0, key := [0, 0, 0], record := r, args := 0 }
/-- A mesh of two dies, each with its contribution. -/
def wMesh (l : Tab Contribution) : State :=
  { wS with dies := [(0, { ptroot := 1, meshshape := 0x001001001002 }), (1, { meshshape := 0x001001001002, meshpos := 1 })]
            job := { wJob with contributions := l, contributionNext := 2 } }
def wMeshRecord : BitVec 1024 := wRecord 0x1011
theorem witness_MeshMatch :
    (let s := wMesh [(0, wContribution 0 wMeshRecord), (1, wContribution 1 wMeshRecord)]
     tget s.job.contributions 0 = some (wContribution 0 wMeshRecord) ∧ (∀ p ∈ s.job.contributions, p.2.atCommit = false ∧ (p.2.done = false → p.2.trap = none))
     ∧ s.meshComplete (wContribution 0 wMeshRecord) = true ∧ ∀ p ∈ s.sameKey (wContribution 0 wMeshRecord), sameShape p.2.record wMeshRecord = true)
    ∧ (let s := wMesh [(0, wContribution 0 wMeshRecord), (1, wContribution 1 wPlain)]
     s.meshComplete (wContribution 0 wMeshRecord) = true ∧ ∃ p ∈ s.sameKey (wContribution 0 wMeshRecord), sameShape p.2.record wMeshRecord = false)
    ∧ (let s := wMesh [(0, wContribution 0 wMeshRecord)]
     s.meshComplete (wContribution 0 wMeshRecord) = false ∧ s.meshBroken (wContribution 0 wMeshRecord) = true) := by decide
/-- Unit 0 ready in the pool of die 0. -/
def wReadyUnit : UnitRec := { launch := 0, die := 0, j := 0, st := .ready, age := some 90, inPool := true }
def wPlaces : State :=
  { wS with ctxs := [], job := { wJob with units := [(0, wReadyUnit)], launches := [(0, { wLaunch with record := wPlain, args := 0x77 })] } }
theorem witness_Placement : wPlaces.unit? 0 = some wReadyUnit ∧ wPlaces.placeFor 0 = some (0, 0)
    ∧ wPlaces.launch? 0 = some { wLaunch with record := wPlain, args := 0x77 } ∧ wReadyUnit.saved = none ∧ wPlaces.placedFirst 0 wReadyUnit 0 = true := by
  decide
theorem test_placement_passes_arguments : ((after (.placement 0) wPlaces).ctx 0).sr 1 = 0x77 ∧ ((after (.placement 0) wPlaces).ctx 0).sr 2 = 0x3000
    ∧ ((after (.placement 0) wPlaces).ctx 0).c.cur = { line := 0x2000, lane := 1 } := by decide
/-- Launch 1 waits for launch 0 by an edge. -/
def wWaiter (src : UnitState) (st : UnitState) : State :=
  { wS with ctxs := [], job := { wJob with
      units := [(0, { wUnit with st := src, ctx := none }), (1, { wUnit with launch := 1, st := st, ctx := none })]
      launches := [(0, { wLaunch with started := true }), (1, { wLaunch with units := [1], released := st != .held })]
      graphs := [(0, { phase := 0, launches := [0, 1], patterns := [{ kind := 1, h := 0, a := 0, b := 1 }], ctr := { sealed := true, pending := 2 } })]
      phases := [(0, { graphs := [0] })], openGraph := none, queues := [(0, [0, 1])] } }
theorem witness_Readiness : (wWaiter .resident .held).releaseHead 0 = some 1
    ∧ (wWaiter .resident .held).launch? 1 = some { wLaunch with units := [1], released := false }
    ∧ (wWaiter .done .waiting).unit? 1 = some { wUnit with launch := 1, st := .waiting, ctx := none }
    ∧ ((wWaiter .done .waiting).sources { wUnit with launch := 1, st := .waiting, ctx := none }) = [0]
    ∧ (wWaiter .done .waiting).satisfied 0 = true ∧ (wWaiter .done .waiting).failed 0 = false ∧ (wWaiter .faulted .waiting).failed 0 = true
    ∧ (wWaiter .faulted .held).failed 0 = true ∧ (wWaiter .faulted .held).unit? 1 = some { wUnit with launch := 1, st := .held, ctx := none } := by decide
theorem test_unit_ready : ((after (.unitReady 1) (wWaiter .done .waiting)).unit? 1).any (fun r => r.st == .ready && r.inPool) = true := by decide
theorem witness_WaitsEnd : wPlaces.unit? 0 = some wReadyUnit ∧ wReadyUnit.promoted = false ∧ 90 + 2 ^ 20 ≤ { wPlaces with cycle := 90 + 2 ^ 20 }.cycle
    ∧ wPlaces.cycle < 90 + 2 ^ 20
    ∧ { wS with cycle := 2000, ctxs := [(0, wCtx), (1, { wCtx with c := { wEng 1 with candSince := some 900 } })] }.expired 0 .c = some (4 * 0 + 1) := by decide
def wEnding (st : UnitState) : UnitRec := { wUnit with st := .completing, ctx := none, ending := st }
def wEnds (r : UnitRec) : State := { wS with ctxs := [], job := { wJob with units := [(0, r)] } }
def wStagedUnit : UnitRec := { wEnding .done with version := some 0, staged := [(0x100, 1), (0x101, 2), (0x200, 0)] }
def wCommits : State := { wEnds wStagedUnit with job := { wVersioned.job with units := [(0, wStagedUnit)] }, mem := [(0x100, 9), (0x102, 9), (0x200, 9)] }
theorem witness_UnitsEnd : (∀ st ∈ [UnitState.done, .faulted, .cancelled], (wEnds (wEnding st)).unit? 0 = some (wEnding st)
      ∧ (wEnds (wEnding st)).unitDoneReady 0 = true ∧ (wEnds (wEnding st)).launch? 0 = some wLaunch
      ∧ ¬ ((wEnding st).ending = .done ∧ (wEnds (wEnding st)).versionedUnit 0 = true ∧ (wEnding st).uncommitted = true))
    ∧ wCommits.unit? 0 = some wStagedUnit ∧ wCommits.unitDoneReady 0 = true ∧ wCommits.versionedUnit 0 = true ∧ wStagedUnit.uncommitted = true
    ∧ wStagedUnit.staged.Pairwise (fun a b => a.1 < b.1) ∧ wStagedUnit.work = [] ∧ wCommits.commitHurt wStagedUnit = none
    ∧ { wCommits with poison := [1] }.commitHurt wStagedUnit = some 1 ∧ { wCommits with poison := [1] }.unitDoneReady 0 = true := by decide +kernel
theorem test_commit_performs_staged_bytes : (after (.unitDone 0) wCommits).mem = [(0x100, 1), (0x101, 2), (0x102, 9)] := by decide
def wSpills (wait : Bool) (n : Nat) : State :=
  wVersioned.modUnit 0 fun r => { r with staged := [(0x100, 1)], stagedAt := [(1, 50)], spilled := List.replicate n 7, logWait := wait }
theorem witness_VersionLogSpills_line :
    (wSpills false 0).oldestStaged 0 (fun b => Config.mscSet b == Config.mscSet (0x100 / 256)) = some (0, 1) := by
  simp [State.oldestStaged, show (wSpills false 0).job.units = [(0, { wUnit with version := some 0, staged := [(0x100, 1)], stagedAt := [(1, 50)] })] from rfl,
    UnitRec.residentLines, wUnit]
theorem witness_VersionLogSpills :
    (wSpills false 0).logUsed 0 + 256 ≤ 2 ^ 30 ∧ (wSpills true 1).logStuck 0 = true ∧ ((youngest ((wSpills true 1).logHolders 0)).map Prod.fst) = some 0
    ∧ ((wSpills true 1).ctx 0).unit = some 0 ∧ ((wSpills true 1).unit? 0).any (fun r => r.ctx == some 0) = true := by decide

/-! ### Caches, tables, views and ports -/

def CanConvert (w : Word) : Prop :=
  let s := wR [(1, w)]
  (here s).pend = [] ∧ s.steps 0 .c = false ∧ Unplanted s ∧ Settled s [1] ∧ reg s 1 = w ∧ ((here s).tok 0).done = true
  ∧ (wayOf s 0 0).converting = false ∧ (wayOf s 0 1).converting = false
theorem witness_WayConversion : CanConvert 0x20 ∧ CanConvert 0x3 ∧ CanConvert 0x13 := by
  refine ⟨?_, ?_, ?_⟩ <;> unfold CanConvert <;> decide
theorem witness_WayConversion_masks : (0x20 : Word).extractLsb' 5 59 ≠ 0 ∧ (0x3 : Word).extractLsb' 5 59 = 0
    ∧ ([0, 1, 2, 3].filter fun j => (0x3 : Word).getLsbD j && !wayDone .cache false) = [0, 1]
    ∧ ([0, 1, 2, 3].filter fun j => (0x13 : Word).getLsbD j && !wayDone .cache true) = []
    ∧ wayOf (wR [(1, 3)]) 0 0 = .cache := by decide
def wConvert : Op :=
  { ctx := 0, unit := 0, core := 0, eng := .c, pos := {}, ins := .ccvt ⟨3, 1, 0, 0⟩, kind := .async, issued := 90, tok := 3, v1 := 2 }
def wConverts (w : WayState) : State :=
  { wS with opNext := 5, ops := [(4, wConvert)], clusters := [(0, { ways := [(1, w)] })]
            ctxs := [(0, { wCtx with regs := { wCtx.regs with k := [(3, { done := false, op := 4 })] } })], mem := [(5, 1), (wayBase 0 1 + 7, 2)] }
theorem witness_WayConversion_ends : ∀ w ∈ [WayState.toScratch 4, .toCache 4], (wConverts w).op? 4 = some wConvert ∧ maskGroups wConvert.v1 = [1]
    ∧ (wConverts w).wayInUse 4 0 1 = false ∧ (wayOf (wConverts w) 0 1 = .toScratch 4 ∨ wayOf (wConverts w) 0 1 = .toCache 4)
    ∧ (wConverts w).opLive wConvert = true ∧ (((wConverts w).ctx 0).tok 3).op = 4 := by decide
theorem test_converted_group_is_zero : (after (.ccvtComplete 4) (wConverts (.toScratch 4))).mem = [(5, 1)] := by decide
def wLines : State :=
  { wR [(1, 0x1000), (2, 0x40), (3, 2 ^ 33), (5, 2 ^ 56)] with cores := [(0, { tlb := [wPage], icache := [(0x1020, 0), (0x1040, 0)] })] }
def wIcbc : Op := { wConvert with ins := .icbc ⟨3, 1, 2, 0⟩ }
theorem witness_LineInvalidation : (here wLines).pend = [] ∧ wLines.steps 0 .c = false ∧ Unplanted wLines ∧ Settled wLines [1, 2, 3, 5]
    ∧ 2 ^ 32 < (reg wLines 3).toNat ∧ 2 ^ 56 < (reg wLines 5).toNat + (reg wLines 2).toNat ∧ (reg wLines 2).toNat ≤ 2 ^ 32
    ∧ (reg wLines 1).toNat + (reg wLines 2).toNat ≤ 2 ^ 56 ∧ ((here wLines).tok 3).done = true ∧ (reg wLines 4).toNat = 0 ∧ (reg wLines 2).toNat ≠ 0
    ∧ (wOps [(4, wIcbc)]).op? 4 = some wIcbc := by decide
theorem test_lines_dropped : ((after (.icbc ⟨3, 1, 2, 0⟩) wLines).core 0).icache = [(0x1040, 0)] := by decide
/-- Registers: a tile view of type FP32, one of an accumulator, VT descriptors of FP32, RAW, reserved and with a reserved bit. -/
def wTile : Word := BitVec.ofNat 64 (2 * 2 ^ 59 + 32 * 2 ^ 46 + 2 * 2 ^ 35 + 4 * 2 ^ 23 + 0xFF)
def wAcc : Word := BitVec.ofNat 64 (2 * 2 ^ 19 + 2 * 2 ^ 8)
def wViews : State := wJoined (wR [(1, wTile), (2, wAcc), (3, 2), (5, 0), (6, 19), (7, 34), (8, 1#64 <<< 35), (9, 1#64 <<< 24)])
theorem witness_ViewSetting : (∀ s ∈ [wS, wViews, wMode .handler wViews], (here s).pend = [] ∧ s.steps 0 .c = false ∧ Unplanted s) ∧ ¬ AllJoined wS
    ∧ AllJoined wViews ∧ (here wViews).mode = .unit ∧ (here (wMode .handler wViews)).mode ≠ .unit ∧ Settled wViews [1, 2, 3, 5, 6, 7, 8, 9]
    ∧ reg wViews 1 = wTile ∧ reg wViews 2 = wAcc ∧ reg wViews 8 = 1#64 <<< 35 ∧ reg wViews 9 = 1#64 <<< 24 ∧ (here wViews).foot = 192
    ∧ (reg wViews 3).extractLsb' 5 59 = 0 ∧ (reg wViews 3).extractLsb' 0 5 = 2 ∧ (reg wViews 5).extractLsb' 0 5 = 0
    ∧ 18 ≤ ((reg wViews 6).extractLsb' 0 5).toNat ∧ (reg wViews 7).extractLsb' 5 59 ≠ 0
    ∧ (0 : BitVec 6).toNat < 32 ∧ (32 ≤ (33 : BitVec 6).toNat ∧ (33 : BitVec 6).toNat < 48) ∧ 48 ≤ (48 : BitVec 6).toNat := by decide
theorem witness_ViewSetting_tiles : ¬ TileRefused wTile 192 ∧ TileRefused (1#64 <<< 35) 192 := by
  refine ⟨?_, by decide, Or.inl (by decide)⟩
  rintro ⟨-, h⟩
  have hty : fmtOf (wTile.extractLsb' 59 5).toNat = some .fp32 := by decide
  simp only [hty] at h
  rcases h with h | h | h | h | h | h | ⟨e, he, h⟩ | h | h
  · revert h; decide
  · revert h; decide
  · revert h; decide
  · revert h; decide
  · revert h; decide
  · revert h; decide
  · injection he with he; subst he; revert h; decide
  · revert h; decide
  · revert h; decide
theorem witness_ViewSetting_accs : ¬ AccRefused wAcc 192 ∧ AccRefused (1#64 <<< 24) 192 := by
  unfold AccRefused; decide
theorem test_tile_view_set : (here (after (.vset ⟨5, 1, 0, 0⟩) wViews)).views.t = [(5, wTile)] := by decide
def wRec (s : State) (bs : List Byte) : State := { s with mem := memStore [] 0x1000 bs }
def wLoads : State := wR [(1, 0x1000), (2, 0), (3, 6), (5, 0x1010), (6, 1#64 <<< 32)]
def wLf : C3 := ⟨0, 1, 2, 0⟩
theorem wLoads_reads : (∀ i ∈ [Instr.smap wLf], RecordAt wLoads i 0x1000 16 16 (List.replicate 16 0))
    ∧ (∀ i ∈ [Instr.smap wLf], RecordAt (wRec wLoads [1]) i 0x1000 16 16 (1 :: List.replicate 15 0))
    ∧ (∀ i ∈ [Instr.nset wLf], RecordAt wLoads i 0x1000 256 64 (List.replicate 256 0))
    ∧ (∀ i ∈ [Instr.nset wLf], RecordAt (wRec wLoads [0, 0, 0, 0, 1]) i 0x1000 256 64 ([0, 0, 0, 0, 1] ++ List.replicate 251 0)) :=
  ⟨recordsAt (by decide +kernel), recordsAt (by decide +kernel), recordsAt (by decide +kernel), recordsAt (by decide +kernel)⟩
/-- Rules 1 and 2 are named by s3, in a mode that may load them; the second record holds an entry that no rule may have. -/
theorem wRules_read : gotBytes ((wMode .management wLoads).recordsRead (.lrule ⟨0, 1, 3, 0⟩) ([1, 2].map fun n => (0x1000 + 16 * n, 16))) = some (List.replicate 32 0)
    ∧ gotBytes ((wMode .management (wRec wLoads (List.replicate 64 0xFF))).recordsRead (.lrule ⟨0, 1, 3, 0⟩) ([1, 2].map fun n => (0x1000 + 16 * n, 16)))
      = some (List.replicate 32 0xFF) := by decide +kernel
theorem witness_RecordLoads_rules : [1, 2] = (List.range 32).filter (6 : Word).getLsbD
    ∧ ruleValid (ruleIn (List.replicate 32 0) 0) = true ∧ ruleValid (ruleIn (List.replicate 32 0) 1) = true
    ∧ ruleValid (ruleIn (List.replicate 32 0xFF) 0) = false ∧ reg wLoads 3 = 6 ∧ reg wLoads 4 = 0 ∧ (reg wLoads 5).toNat % 64 ≠ 0
    ∧ (reg wLoads 6).extractLsb' 32 32 ≠ 0 ∧ (reg wLoads 3).extractLsb' 32 32 = 0 ∧ wVersioned.versioned 0 = true := by decide +kernel
theorem witness_RecordLoads_nests : 2 ≤ (reg wLoads 3).toNat ∧ shadowBad (BitVec.ofNat 2048 (natOfBytes ([0, 0, 0, 0, 1] ++ List.replicate 251 0))) = true
    ∧ (wOps [(1, { wConvert with ins := .mnest ⟨0, 0, 0, false, false, 0, 0, 0⟩ ⟨1, 0, 0, 0, 0, 0, 0⟩ })]).nestUses 0 0 = true := by decide +kernel
theorem witness_RecordLoads : (∀ s ∈ [wLoads, wMode .management wLoads], (here s).pend = [] ∧ s.steps 0 .c = false ∧ Unplanted s ∧ Settled s [1, 2, 3])
    ∧ smapBad (natOfBytes ((List.replicate 16 (0 : Byte)).take 8)) (natOfBytes ((List.replicate 16 (0 : Byte)).drop 8)) = false
    ∧ smapBad (natOfBytes (((1 : Byte) :: List.replicate 15 0).take 8)) (natOfBytes (((1 : Byte) :: List.replicate 15 0).drop 8)) = true
    ∧ reg wLoads 2 = BitVec.ofNat 64 0 ∧ wLoads.nestUses wLoads.focus 0 = false
    ∧ shadowBad (BitVec.ofNat 2048 (natOfBytes (List.replicate 256 0))) = false ∧ (here wLoads).mode = .unit
    ∧ (here (wMode .management wLoads)).mode ≠ .unit ∧ (wMode .management wLoads).versioned 0 = false
    ∧ (reg wLoads 1).toNat % 64 = 0 := by decide
/-- A binding record: rows of 4 KiB of FP32 at a virtual address, one loop of two steps. -/
def wPort (sink : Nat) : BitVec 1024 :=
  BitVec.ofNat 1024 (sink * 2 ^ 63 + 2 * 2 ^ 60 + 2 ^ 57 + 2 * 2 ^ 52 + 128 * 2 ^ 12 + 0x2000 * 2 ^ 64 + (2 * 2 ^ 40 + 4096) * 2 ^ 128)
def wBinds : State := wStored (wPort 0) (wR [(1, 0x1000)])
def wBound (sink : Nat) : State := wBinds.modCtx 0 fun x => { x with ports := [(3, { record := wPort sink })] }
def wPush : Op := { ctx := 0, unit := 0, core := 0, eng := .v, pos := {}, ins := .nop ⟨0, 0, 0, 0⟩, kind := .port, issued := 90, v1 := 3, writes := true }
theorem wBinds_reads : (∀ i ∈ [Instr.pbind ⟨3, 1, 0, 0⟩], RecordAt wBinds i 0x1000 128 64 (bytesOfNat 128 (wPort 0).toNat))
    ∧ (∀ i ∈ [Instr.pbind ⟨3, 1, 0, 0⟩], RecordAt (wR [(1, 0x1000)]) i 0x1000 128 64 (bytesOfNat 128 0)) :=
  ⟨recordsAt (by decide +kernel), recordsAt (by decide +kernel)⟩
theorem witness_PortBinding : (here wBinds).pend = [] ∧ wBinds.steps 0 .c = false ∧ Unplanted wBinds ∧ Settled wBinds [1] ∧ (reg wBinds 1).toNat % 64 = 0
    ∧ (here wBinds).port? 3 = none ∧ recordOf (bytesOfNat 128 (wPort 0).toNat) = wPort 0 ∧ ({ record := wPort 0 } : Port).recordBad = false
    ∧ ({ record := recordOf (bytesOfNat 128 0) } : Port).recordBad = true ∧ (here wBinds).c.hold = .none ∧ (wBound 1).sinkBusy 0 3 = false
    ∧ ({ record := wPort 0 } : Port).chainBad .bf16 = false ∧ (here wBinds).fifoUsed + ({ record := wPort 0 } : Port).reserve ≤ 65536
    ∧ (here (wBound 0)).port? 3 ≠ none ∧ Unplanted (wBound 0) ∧ Settled (wBound 0) [1] ∧ ({ record := wPort 0 } : Port).isSink = false
    ∧ ({ record := wPort 1 } : Port).isSink = true ∧ { wBound 1 with ops := [(1, wPush)] }.sinkBusy 0 3 = true := by decide
/-- Descriptor 1 of a table of four at 0x1000, with registers for TDLD and TDSET. -/
def wDesc (id sel : Word) : State :=
  { wR [(1, id), (2, sel), (3, 1), (5, BitVec.allOnes 64)] with dies := [(0, { ptroot := 1, tdtab := BitVec.ofNat 64 (2 * 2 ^ 56 + 0x1000) })] }
theorem witness_DescriptorFields : (let s := wDesc 1 0
      (s.die 0).idBad 1 = false ∧ (reg s 2).extractLsb' 40 24 = 0 ∧ (here s).pend = [] ∧ s.steps 0 .c = false ∧ Unplanted s ∧ Settled s [4, 1, 2]
      ∧ s.entriesFull 0 = false ∧ s.poisonIn [wSeg 0x1080 8] = none ∧ s.versioned 0 = false ∧ tdValueBad 0 1 (reg s 3) 0 = false ∧ PagesFound s [(0x1080, 8)] ∧ s.ops = []
      ∧ (∀ m < s.modules, m = moduleOf (dieOf 0)) ∧ tdValueBad 0 1 (reg s 5) 0 = true
      ∧ s.poisonHurt [wSeg 0x1080 8] = none ∧ (s.eng s.focus .c).hist = [])
    ∧ ((wDesc 4 0).die 0).idBad 4 = true ∧ (reg (wDesc 1 (1#64 <<< 40)) 2).extractLsb' 40 24 ≠ 0 ∧ (20 ≤ 35 ∧ 35 ≠ 32 ∧ 35 ≠ 33 ∧ 35 ≠ 34)
    ∧ wVersioned.versioned 0 = true ∧ Settled wVersioned [4, 1, 2] := by decide
theorem witness_DescriptorFields_place : (wDesc 1 0).tdPlace 0 1 0 0 false = .ok (0x1080, 8)
    ∧ (wDesc 1 0).range 0 .read 0x1080 8 = .ok [wSeg 0x1080 8] ∧ (wDesc 1 0).range 0 .write 0x1080 8 = .ok [wSeg 0x1080 8] := ⟨rfl, rfl, rfl⟩
theorem test_tdset_writes_field : (after (.tdset ⟨3, 1, 2, 0⟩) (wDesc 1 0)).mem = [(0x1080, 1)] := by decide

/-! ### Vector instructions -/

def wFull (t : Fmt) (v : Nat) : Gran := { bytes := BitVec.ofNat 2048 v, tag := t, full := true, wasFull := true }
def wRowOf (n : Nat) (g : Gran) : Tab Gran := (List.range 16).map fun j => (16 * n + j, g)
/-- Rows 1 and 2 are full of a type, row 3 is empty; VT names the type; b3 holds a lane number. -/
def wVec (t : Fmt) (code : Word) : State :=
  wS.modCtx 0 fun x => { x with gran := wRowOf 1 (wFull t 5) ++ wRowOf 2 (wFull t 3), captured := { vt := code }, regs := { x.regs with b := [(3, 2), (5, 0x2000)] } }
def wVX : VX := { d := .row 3, a := .row 1, b := .row 2, c := .row 1, syd := 0, sya := 0, syb := 0, syc := 0, mask := 0, rnd := 0, sat := false, iss := 0 }
theorem calm_wVec : ∀ s ∈ [wVec .i32 12, wVec .fp32 2, wVec .fp32 7], (here s).pend = [] ∧ s.steps 0 .v = false ∧ Unplanted s ∧ NoEnables s := by decide
theorem ready_of_row (s : State) (tag : Fmt → Prop) (srcs : List (VOp × BitVec 2)) (m : Nat) (n : BitVec 8) (sy : BitVec 2)
    (hf : n.toNat < (here s).foot) (hl : (here s).lands = [])
    (h : ∀ j < 16, ((here s).granAt (16 * n.toNat + j)).judged s.cycle = true ∧ tag ((here s).granAt (16 * n.toNat + j)).tag
      ∧ s.taken s.focus (16 * n.toNat + j) = false) :
    SourceReady s tag srcs m (.row n, sy) :=
  ⟨hf, fun j hj => ⟨⟨Or.inr (h j hj).1, fun _ => (h j hj).2.2, fun l hm => by rw [hl] at hm; cases hm⟩, (h j hj).2.1⟩⟩
theorem witness_VectorCommits_type : (here (wVec .i32 12)).vt = .i32 ∧ (here (wVec .fp32 2)).vt = .fp32 ∧ .i32 ∈ ints ∧ .fp32 ∈ wides
    ∧ Fmt.i32 ∈ floats ++ ints ∧ Fmt.fp32 ∈ floats ++ ints ∧ Fmt.i32 ∈ wides ++ ints ∧ wVX.rnd = 0
    ∧ (VOp.scalar (.breg 3) (here (wVec .i32 12))).toNat < lanesOf .i32 := by decide
theorem witness_VectorCommits_sources : ∀ (srcs : List (VOp × BitVec 2)) (m : Nat), ∀ o ∈ [wVX.a, wVX.b, wVX.c],
    SourceReady (wVec .i32 12) (fun u => u = .i32) srcs m (o, 0) ∧ SourceReady (wVec .fp32 2) (fun u => u = .fp32) srcs m (o, 0) := by
  intro srcs m o ho
  simp only [wVX, List.mem_cons, List.not_mem_nil, or_false] at ho
  rcases ho with rfl | rfl | rfl <;>
    exact ⟨ready_of_row _ _ _ _ _ _ (by decide) rfl (by decide), ready_of_row _ _ _ _ _ _ (by decide) rfl (by decide)⟩
theorem witness_VectorCommits_destination : DestReady (wVec .i32 12) .i32 wVX.d wVX.syd ∧ DestReady (wVec .fp32 2) .fp32 (.row 3) 1 :=
  ⟨⟨by decide, Or.inl rfl⟩, ⟨by decide, Or.inr (Or.inr (by decide))⟩⟩
/-- A row stands at port 0, and port 1 is a sink. -/
def wPorts : State := (wVec .fp32 2).modCtx 0 fun x => { x with ports := [(0, { record := wPort 0, rows := [{}] }), (1, { record := wPort 1 })] }
theorem witness_VectorCommits_ports : SourceReady wPorts (fun u => u = .fp32) [(.port 0, 0)] 0 (.port 0, 0) ∧ DestReady wPorts .fp32 (.port 1) 0 :=
  ⟨⟨{ record := wPort 0, rows := [{}] }, {}, rfl, by decide, by decide, rfl, rfl⟩, ⟨{ record := wPort 1 }, rfl, by decide, by decide, by decide⟩⟩
/-- Row 1 holds codes and row 2 side entries. -/
def wCodes : State := (wVec .fp32 2).modCtx 0 fun x => { x with gran := wRowOf 1 (wFull .ob8 0) ++ wRowOf 2 (wFull .side 0) }
theorem witness_VectorConverts : (Fmt.fp32 ∉ [Fmt.ob8, .e8m0]) ∧ Fmt.i32 ∉ [Fmt.raw, .ob8, .ob4, .side] ∧ (here (wVec .fp32 7)).vt = .ob8
    ∧ (here wCodes).vt = .fp32 ∧ (1 : BitVec 8).toNat < (here wCodes).foot
    ∧ (∀ j < 4, (((here wCodes).granAt (16 + j)).judged wCodes.cycle = true ∧ ((here wCodes).granAt (16 + j)).tag = .ob8))
    ∧ ((here wCodes).granAt 32).judged wCodes.cycle = true ∧ ((here wCodes).granAt 32).tag = .side ∧ (here wCodes).lands = [] := by decide
theorem test_vadd_lane : ((here (after (.vadd wVX) (wVec .i32 12))).lands.head?).any (fun l => l.due == 106 && match l.act with
    | .gran 48 d _ .i32 true => d.extractLsb' 0 32 == 8
    | _ => false) = true := by decide
theorem witness_VectorLanes : (arithRow .vadd two).takes (here (wVec .i32 12)).vt ∧ maskOf (wVec .i32 12) wVX 0 = true
    ∧ maskOf (wVec .i32 12) { wVX with mask := 1 } 0 = false ∧ (0 : Nat) < lanesOf .i32 := by
  refine ⟨?_, by decide, by decide, by decide⟩; show _ ∈ _; decide
theorem witness_VectorRegisters : NoEnables (wVec .i32 12) ∧ (VOp.scalar (.breg 3) (here (wVec .i32 12))).toNat < lanesOf .i32
    ∧ lanesOf .i32 ≤ (VOp.scalar (.breg 5) (here (wVec .i32 12))).toNat ∧ (5 : Nat) < 4096 := by decide
def wVld : VX := { wVX with d := .row 3, a := .breg 5 }
def wVst : VX := { wVX with d := .row 1, a := .breg 5 }
theorem witness_RowAccess : (3 : BitVec 8).toNat < (here (wVec .i32 12)).foot ∧ (VOp.scalar wVld.a (here (wVec .i32 12))).toNat % 256 = 0
    ∧ (wVec .i32 12).freeUsed 0 + 64 ≤ 512 ∧ (wVec .i32 12).poison = [] ∧ (wVec .i32 12).entriesFull 0 = false
    ∧ ((wVec .i32 12).isSys 0 0x2000 && (wVec .i32 12).versioned 0) = false ∧ PagesFound (wVec .i32 12) [(0x2000, 4096)] := by decide
theorem witness_RowAccess_pieces : (wVec .i32 12).range 0 .read 0x2000 4096 = .ok [wSeg 0x2000 4096]
    ∧ (wVec .i32 12).range 0 .write 0x2000 4096 = .ok [wSeg 0x2000 4096] := ⟨rfl, rfl⟩
/-- Lanes 0 and 1 are enabled, by an index row of 5. -/
def wLanes : State := (wVec .i32 12).modCtx 0 fun x => { x with regs := { x.regs with m := [(1, 3)] } }
def wLaneX : VX := { wVX with d := .row 3, a := .breg 5, b := .row 1, c := .row 12, mask := 1 }
theorem witness_LaneAccess : laneAddresses wLanes wLaneX 0x2000 4 1024 = [(0, 0x2014), (1, 0x2000)] ∧ (4 : Nat) ∈ [1, 2, 4, 8]
    ∧ laneAddresses (wVec .i32 12) { wLaneX with mask := 2 } 0x2000 4 1024 = [] ∧ (VX.tag wLaneX).bits / 8 = 4 ∧ (here wLanes).vt.bits / 8 = 4
    ∧ min (lanesOf (here wLanes).vt) 1024 = 1024 ∧ wLanes.poison = [] ∧ wLanes.entriesFull 0 = false := by decide +kernel
theorem witness_LaneAccess_pieces : wLanes.lanePieces 0 4 .read false [(0, 0x2014), (1, 0x2000)] = .ok [wSeg 0x2014 4, wSeg 0x2000 4]
    ∧ wLanes.lanePieces 0 4 .write false [(0, 0x2014), (1, 0x2000)] = .ok [wSeg 0x2014 4, wSeg 0x2000 4] := ⟨rfl, rfl⟩
def wVload (grans : List Nat) : Op :=
  { ctx := 0, unit := 0, core := 0, eng := .v, pos := {}, ins := .vld wVld, kind := .vload, issued := 90, reads := true, va := 0x2000
    segs := [wSeg 0x2000 4096], grans := grans, tag := .i32 }
theorem witness_GranuleFills : ∀ l ∈ [[48], [48, 49]], (let s := { wVec .i32 12 with opNext := 9, ops := [(1, wVload l)] }
    s.op? 1 = some (wVload l) ∧ s.opReady (wVload l) = true ∧ s.opLive (wVload l) = true ∧ (wVload l).lanes = [] ∧ (wVload l).fwd = [] ∧ s.poison = []
    ∧ (wSeg 0x2000 4096).len = 4096 ∧ wVld.syd ≠ 2 ∧ (s.unit? 0).any (fun r => r.staged == []) = true
    ∧ (s.ctx 0).laid = []) := by decide

/-! ### Matrix instructions -/

/-- A tile view word of type FP32: rows, columns, stride, base. -/
def wView (rows cols stride base : Nat) : Word := BitVec.ofNat 64 (2 * 2 ^ 59 + cols * 2 ^ 46 + rows * 2 ^ 35 + stride * 2 ^ 23 + base * 2 ^ 8 + 0xFF)
def wMF (fa fc fb : Nat) (mf : BitVec 4) : MF :=
  { fa := BitVec.ofNat 5 fa, fc := BitVec.ofNat 4 fc, fb := BitVec.ofNat 5 fb, lu := false, pa := false, sa := 2, mf := mf, iss := 0 }
def wResid : Resid := { ctx := 0, tile := 1, fmt := .fp32, rows := 32, cols := 32, pass := false, slot := 0, order := 0 }
/-- A tile of two rows in row 0, one of 32 rows in row 1, destinations in rows 2 and 3, an accumulator in rows 4 and 5, and
residencies of tiles 1 and 6, the second a routing matrix. -/
def wMat : State :=
  { wS.modCtx 0 fun x =>
    { x with
      gran := wRowOf 0 (wFull .fp32 5) ++ wRowOf 1 (wFull .fp32 0) ++ wRowOf 4 (wFull .fp32 3) ++ wRowOf 5 (wFull .fp32 3)
      captured := { t := [(0, wView 2 32 4 0), (1, wView 32 32 4 128), (2, wView 2 32 4 256), (3, wView 32 2 1 384)], a := [(0, wAcc + 4)], vt := 2 }
      regs := { x.regs with s := [(1, 0x2000)] } }
    with cores := [(0, { tlb := [wPage], resid := [wResid, { wResid with tile := 6, pass := true, order := 1 }] })] }
def MRes.isReady : MRes → Bool
  | .ready _ => true
  | _ => false
theorem ready_exists (r : MRes) (h : MRes.isReady r = true) : ∃ p, r = .ready p := by
  cases r with
  | ready p => exact ⟨p, rfl⟩
  | _ => cases h
def wMFs : List MF := [wMF 0 0 1 1, wMF 0 0 1 0, wMF 1 0 0 0, wMF 0 0 0 0, wMF 0 0 3 0, wMF 0 0 2 0, wMF 0 0 2 0]
theorem witness_MatrixCommits : (here wMat).pend = [] ∧ wMat.steps 0 .m = false ∧ Unplanted wMat
    ∧ (List.zip matrixRows wMFs).all (fun p => MRes.isReady (p.1.2 wMat p.2)) = true := by decide
def wMTok : Tok := { make := 3, aft0 := 0, aft1 := 0, aft2 := 0, cls := 0, scope := 0, tf := 0 }
theorem witness_MatrixTokens : wMat.tokensReady 0 wMTok = true
    ∧ MRes.isReady (wMat.loadPlan (here wMat).forwarded true (.mbld (wMF 1 0 1 0) wMTok) (wMF 1 0 1 0) wMTok (tgetD (here wMat).captured.t 1 tUnset) []) = true
    ∧ MRes.isReady (wMat.mwbMemPlan (here wMat).forwarded true (.mwbMem (wMF 1 0 2 1) wMTok) (wMF 1 0 2 1) wMTok { ins := .mwbMem (wMF 1 0 2 1) wMTok }) = true := by
  decide
theorem witness_MatrixViews : Unplanted wS ∧ (accOf (tgetD (here wS).captured.a 0 0)).count = 0 ∧ (wS.core 0).resid = []
    ∧ (tileOf (tgetD (here wMat).captured.t 2 tUnset)).rows ≠ (tileOf (tgetD (here wMat).captured.t 0 tUnset)).cols
    ∧ (tileOf (tgetD (here wMat).captured.t 3 tUnset)).rows ≠ (accOf (tgetD (here wMat).captured.a 0 0)).count := by decide
def wGang (g : Gang) : State := { wS with clusters := [(0, { gangs := [(2, g)] })] }
theorem witness_Gangs :
    (∀ g ∈ [({ size := 2 } : Gang), { size := 2, members := [4] }, { size := 2, members := [0] }, { size := 3 }, { size := 2, members := [4, 8], formed := true }],
      Unplanted (wGang g) ∧ (here (wGang g)).pend = [] ∧ (wGang g).steps 0 .m = false ∧ g.joining.contains 0 = false ∧ (wGang g).ops = []
      ∧ tget ((wGang g).cluster 0).gangs 2 = some g)
    ∧ (wMF 1 0 2 0).fa.toNat % 16 + 1 = 2 ∧ (wMF 1 0 2 0).fb.toNat = 2
    ∧ (∀ m ∈ ({ size := 2, members := [4] } : Gang).members, coreOf m ≠ coreOf 0) ∧ (0 : Nat) ∈ ({ size := 2, members := [0] } : Gang).members := by decide
/-- The last of two members comes; the other waits with its MGANG. -/
def wJoins : State :=
  { wGang { size := 2, members := [4], joining := [4] } with
    ctxs := [(0, wCtx), (4, { wCtx with m := { wEng 3 with st := .waiting, held := some (.mgang (wMF 1 0 2 0)) } })] }
theorem witness_Gangs_joins : Unplanted wJoins ∧ (here wJoins).pend = [] ∧ wJoins.steps 0 .m = false
    ∧ (∀ p ∈ (wJoins.cluster 0).gangs, 0 ∉ p.2.members) ∧ ([4] : List Nat).Nodup
    ∧ (∀ m ∈ [4], (wJoins.ctx m).pend = [] ∧ wJoins.steps m .m = false ∧ (wJoins.eng m .m).st = .waiting
      ∧ (wJoins.eng m .m).held = some (.mgang (wMF 1 0 2 0))) ∧ coreOf 4 ≠ coreOf 0 ∧ clusterOf (coreOf 4) = 0 := by decide
def wKatOp : Op := { ctx := 0, unit := 0, core := 0, eng := .m, pos := {}, ins := .mkat (wMF 0 0 0 0) wMTok, kind := .async, issued := 90, tok := 3 }
def wKats (idle : Nat) : State := { wS with opNext := 5, ops := [(4, wKatOp)], cores := [(0, { tlb := [wPage], kat := some (4, idle) })] }
theorem witness_KnownAnswer : wS.tokensReady 0 wMTok = true ∧ (wS.core 0).kat = none
    ∧ (wS.modCtx 0 fun x => { x with regs := { x.regs with k := [(3, { done := false })] } }).tokensReady 0 wMTok = false
    ∧ (∀ n ∈ [4095, 4096], (wKats n).op? 4 = some wKatOp ∧ ((wKats n).core wKatOp.core).kat = some (4, n)) := by decide
theorem test_mkat_signature : ((after (.mkatComplete 4) (wKats 4096)).core 0).ksig = 0x6B1D30E5A7C49F82 := by decide
def wLoadOp (f : Option Trap) (unit : Nat) : Op := { wKatOp with ins := .mbld (wMF 1 0 1 0) wMTok, fault := f, unit := unit }
def wResLoad (o : Op) : State :=
  { wMat with opNext := 5, ops := [(4, o)], cores := [(0, { tlb := [wPage], resid := [{ wResid with loading := some 4 }] })] }
theorem witness_Residencies : ∀ o ∈ [wLoadOp none 0, wLoadOp (some (trapOf 0x0F)) 1],
    (wResLoad o).op? 4 = some o ∧ o.parked = none ∧ o.v3 = 0 ∧ o.v2 = 0 ∧ { wResid with loading := some 4 } ∈ ((wResLoad o).core o.core).resid := by decide
theorem witness_Residencies_ends : (wResLoad (wLoadOp (some (trapOf 0x0F)) 1)).opLive (wLoadOp (some (trapOf 0x0F)) 1) = false := by decide
theorem witness_Residencies_gang : let o : Op := { wLoadOp none 0 with gang := some (2, 0) }
    (wResLoad o).op? 4 = some o ∧ (wResLoad o).matched o = none ∧ o.gang ≠ none := by decide
/-- A shadow of counts 2, 1, 1, 1, 1, 1 whose B moves by one granule column. -/
def wNestS (b : BitVec 2048) : State := wMat.modCtx 0 fun x => { x with shadow0 := b, captured := { x.captured with t := [(0, wView 2 32 4 0), (1, wView 32 32 4 0)] } }
/-- Counts 1, but for level 0; no scale rows. -/
def wShadow (n : Nat) : BitVec 2048 := BitVec.ofNat 2048 (0xFFFF * 2 ^ 112 + n * 2 ^ 176)
def wNest : Nest := { ins := .mnest (wMF 0 0 1 0) wMTok, shadow := 0, pos := (wEng 3).cur, next := (wEng 3).next }
def wSteps : State := (wNestS (wShadow 1)).modCtx 0 fun x => { x with nest := some wNest }
theorem witness_Nests : (here (wNestS (wShadow 1))).nest = none ∧ (wNestS (wShadow 1)).tokensReady 0 wMTok = true ∧ Unplanted (wNestS (wShadow 1))
    ∧ nestBad (here (wNestS (wShadow 1))) (wMF 0 0 1 0) ((here (wNestS (wShadow 1))).shadow 0) = false
    ∧ nestBad (here (wNestS (wShadow 1))) (wMF 0 0 7 0) ((here (wNestS (wShadow 1))).shadow 0) = true
    ∧ (here wSteps).nest = some wNest ∧ (here wSteps).m.st = .ready ∧ (here wSteps).m.cur = wNest.pos := by decide
/-- A nest whose MMA of the current tuple can issue, of n + 1 tuples. -/
def wMmaNest (n : Nat) : State :=
  (wNestS (wShadow n)).modCtx 0 fun x => { x with nest := some { wNest with lastB := some ((here (wNestS (wShadow n))).nestB wNest (wMF 0 0 1 0)) } }
theorem witness_Nests_step : ∀ n ∈ [0, 1], (here (wMmaNest n)).pend = [] ∧ (wMmaNest n).steps 0 .m = false ∧ Unplanted (wMmaNest n)
    ∧ nPtok (wShadow n) = 0 ∧ nWen (wShadow n) = false ∧ (here (wMmaNest n)).shadow 0 = wShadow n
    ∧ ((here (wMmaNest n)).nest.any fun m => m.lastB == some ((here (wMmaNest n)).nestB m (wMF 0 0 1 0))
        && MRes.isReady ((wMmaNest n).mmaPlan (here (wMmaNest n)).forwarded true ((wMmaNest n).nestMma m (wMF 0 0 1 0)))
        && (nestNext m.idx (levels.map (nCount (wShadow n)))).isSome == (n == 1)) = true
    ∧ ((wMmaNest n).resident 0 1).isSome = true ∧ (here (wMmaNest n)).m.st = .ready := by decide +kernel
theorem witness_Nests_order : TupleBelow [1, 0] [2, 3] ∧ nestNext [1, 0] [2, 3] = some [0, 1] ∧ TupleBelow [1, 2] [2, 3] ∧ nestNext [1, 2] [2, 3] = none
    ∧ TupleBelow [] [] := ⟨⟨by decide, by decide, trivial⟩, by decide, ⟨by decide, by decide, trivial⟩, by decide, trivial⟩
/-- A window of two MTRN of the same tiles, with its rule R1 cancelling them, or with a group decided. -/
def wHead (i : Instr) : WinEntry := { pos := (wEng 3).cur, next := (wEng 3).next, ins := i }
def wPattern : List WinEntry := [wHead (.mtrn { wMF 0 0 3 0 with sa := 0 }), { wHead (.mtrn { wMF 3 0 0 0 with lu := true, sa := 0 }) with next := { line := 0x1000, lane := 5 } }, wHead (.mzero (wMF 0 0 0 0))]
def wGroup : Group := { rule := 3, pos := (wEng 3).cur, next := { line := 0x1000, lane := 5 }, covers := 2, firstOp := 7, repls := [{ ins := .mzero (wMF 0 0 0 0) }] }
def wLantern (g : Option Group) (ctl : Word) : State := wMat.modCtx 0 fun x => { x with lantern := { win := wPattern, group := g }, sprs := { x.sprs with rwctl := ctl } }
/-- Rule 3 cancels the two transpositions. -/
def wRule : BitVec 128 :=
  BitVec.ofNat 128 (2 ^ 127 + 2 ^ 126 + 2 ^ 119 + opMtrn * 2 ^ 105 + opMtrn * 2 ^ 83 + 2 ^ 38 + 2 ^ 39 + 2 ^ 34)
def wRules : State := (wLantern none 7).modCore 0 fun k => { k with rules := [(3, wRule)] }
theorem witness_Lanterns_rule : ruleV wRule = true ∧ 0 < ruleNp wRule ∧ (wRules.ctx 0).groupsAllowed = true
    ∧ (ruleCompose wRule).any (fun k =>
        let p := patternOf (wRules.ctx 0).lantern.consumed (wRules.ctx 0).lantern.win
        wRules.matchesRule 0 wRule k p == .yes && wRules.classEnabled 0 (ruleClass wRule) (k.items.map (replOf p))) = true
    ∧ (∀ r < 3, ruleV (tgetD (wRules.core 0).rules r 0) = false)
    ∧ (∀ r < 32, ruleV (tgetD ((wLantern none 7).core 0).rules r 0) = false) := by decide +kernel
theorem witness_Lanterns_rule_window : wRules.window 0 = .ok wRules := rfl
theorem witness_Lanterns : ∀ ctl ∈ [(0 : Word), 1], (wLantern none ctl).window 0 = .ok (wLantern none ctl) := by
  intro ctl h; simp only [List.mem_cons, List.not_mem_nil, or_false] at h; rcases h with rfl | rfl <;> rfl
theorem witness_Lanterns_alone : ((wLantern none 0).ctx 0).unit = some 0 ∧ ((wLantern none 0).ctx 0).m.st = .ready ∧ ((wLantern none 0).ctx 0).lantern.alone = false
    ∧ ((wLantern none 0).ctx 0).lantern.win ≠ [] ∧ ((wLantern none 0).ctx 0).sprs.rwctl.getLsbD 0 = false
    ∧ ((wLantern (some wGroup) 1).ctx 0).lantern.group = some wGroup ∧ ((wLantern (some wGroup) 1).ctx 0).pend = []
    ∧ ((wLantern (some wGroup) 1).ctx 0).sprs.inject.getLsbD 63 = false
    ∧ (match (wLantern (some wGroup) 1).groupPlans 0 wGroup.repls with | .ready _ => true | _ => false) = true := by decide

/-! ### The copy engine -/

/-- Registers 1 to 3, and the operands that name them. -/
def wY (a b c : Word) : State := wR [(1, a), (2, b), (3, c)]
def wYF : YF := ⟨1, 2, 3, 0⟩
def wYTok : Tok := { make := 3, aft0 := 0, aft1 := 0, aft2 := 0, cls := 4, scope := 2, tf := 0 }
def wAt : At := ⟨0, 3⟩
def wCopyRanges (a b : Word) (n : Nat) : List CopyRange := [⟨a, n, 32, 32, true, true⟩, ⟨b, n, 32, 32, true, false⟩]
def wFlagRanges (a b : Word) : List CopyRange := [⟨a, 1, 1, 1, false, true⟩, ⟨b, 8, 8, 1, false, true⟩]
theorem wRanges_of_rows (a b : Word) : ((copyRows wAt)[0]?).map (fun r => r.ranges (wY a b 64) wYF wYTok) = some (wCopyRanges a b 64)
    ∧ ((copyRows wAt)[8]?).map (fun r => r.ranges (wY a 0 b) wYF wYTok) = some (wFlagRanges a b) := ⟨rfl, rfl⟩
/-- None of the first k conditions of issue holds for the ranges. -/
def Clear (s : State) (rs : List CopyRange) (k : Nat) : Prop :=
  (1 ≤ k → ¬ ∃ r ∈ rs, r.Past s) ∧ (2 ≤ k → ¬ ∃ r ∈ rs, r.Staged s) ∧ (3 ≤ k → ¬ ∃ r ∈ rs, r.Misaligned) ∧ (4 ≤ k → ¬ ∃ r ∈ rs, r.Malformed)
    ∧ (5 ≤ k → ¬ ∃ r ∈ rs, r.Beyond)
theorem witness_CopyEngine_waits : Unplanted (wR [])
    ∧ ((wR []).modCtx 0 fun x => { x with regs := { x.regs with k := [(3, { done := false })] } }).tokensReady 0 wYTok = false := by decide
theorem witness_CopyEngine_past : Unplanted (wY 0x80000000000BFFE0 0x200 64) ∧ (wY 0x80000000000BFFE0 0x200 64).tokensReady 0 wYTok = true
    ∧ ∃ r ∈ wCopyRanges 0x80000000000BFFE0 0x200 64, r.Past (wY 0x80000000000BFFE0 0x200 64) := by
  unfold CopyRange.Past; decide
theorem witness_CopyEngine_order : wVersioned.versioned wVersioned.focus = true ∧ Unplanted wVersioned ∧ wVersioned.tokensReady 0 wYTok = true
    ∧ Clear wVersioned (wFlagRanges 0x100 0x200) 1 ∧ ∃ r ∈ wCopyRanges 0x100 0x200 64, r.Staged (wSysPage wVersioned) := by
  unfold Clear CopyRange.Past CopyRange.Staged CopyRange.Misaligned CopyRange.Malformed CopyRange.Beyond; decide
theorem witness_CopyEngine_align : Clear (wY 0x101 0x200 64) (wCopyRanges 0x101 0x200 64) 2 ∧ (wY 0x101 0x200 64).tokensReady 0 wYTok = true
    ∧ ∃ r ∈ wCopyRanges 0x101 0x200 64, r.Misaligned := by
  unfold Clear CopyRange.Past CopyRange.Staged CopyRange.Misaligned CopyRange.Malformed CopyRange.Beyond; decide
theorem witness_CopyEngine_table : Clear (wY 0xC000000000000000 0x200 64) (wCopyRanges 0xC000000000000000 0x200 64) 3
    ∧ (wY 0xC000000000000000 0x200 64).tokensReady 0 wYTok = true ∧ ∃ r ∈ wCopyRanges 0xC000000000000000 0x200 64, r.Malformed := by
  refine ⟨?_, by decide, ?_⟩
  · unfold Clear CopyRange.Past CopyRange.Staged CopyRange.Misaligned CopyRange.Malformed CopyRange.Beyond; decide
  · unfold CopyRange.Malformed; decide
theorem witness_CopyEngine_beyond : Clear (wY 0x100000000000000 0x200 64) (wCopyRanges 0x100000000000000 0x200 64) 4
    ∧ (wY 0x100000000000000 0x200 64).tokensReady 0 wYTok = true ∧ ∃ r ∈ wCopyRanges 0x100000000000000 0x200 64, r.Beyond := by
  unfold Clear CopyRange.Past CopyRange.Staged CopyRange.Misaligned CopyRange.Malformed CopyRange.Beyond; decide
theorem witness_CopyEngine_idle : Clear (wY 0x100 0x200 0) (wCopyRanges 0x100 0x200 0) 5 ∧ reg (wY 0x100 0x200 0) 3 = 0
    ∧ (wY 0x100 0 0).prefetchLines 0 0x100 0 false = [] ∧ (here (wY 0x100 0x200 0)).pend = [] ∧ (wY 0x100 0x200 0).steps 0 .y = false := by
  unfold Clear CopyRange.Past CopyRange.Staged CopyRange.Misaligned CopyRange.Malformed CopyRange.Beyond; decide
/-- Registers with which every instruction of the copy engine issues; DTLD has its own. -/
def wYAll : State := wY 0x1000 0x2000 0x1000
def wYTable : State := wY 3 0x2000 0xB
theorem witness_CopyEngine_sends : (here wYAll).pend = [] ∧ wYAll.steps 0 .y = false ∧ Unplanted wYAll
    ∧ wYAll.tokensReady 0 wYTok = true ∧ Roomy wYAll (wCopyRanges 0x1000 0x2000 4096 |>.map fun r => (r.w, r.len)) := by
  unfold Roomy; decide
theorem witness_CopyEngine_sends_table : (here wYTable).pend = [] ∧ wYTable.steps 0 .y = false ∧ Unplanted wYTable
    ∧ wYTable.tokensReady 0 wYTok = true ∧ Roomy wYTable [(0x2000, 32)] := by
  unfold Roomy; decide
/-- None of the conditions holds for the ranges of rows, none of them has nothing to move, and each may begin. -/
def Begins (s : State) (row : CopyRow) : Prop :=
  Clear s (row.ranges s wYF wYTok) 5 ∧ ¬ row.order s ∧ ¬ row.table s wYF wYTok ∧ ¬ row.idle s wYF wYTok ∧ row.ready s wYF wYTok
def BeginsAt (n : Nat) (s : State) : Prop := ∃ row, (copyRows wAt)[n]? = some row ∧ Begins s row
theorem beginsAt (n : Nat) (s : State) (row : CopyRow) (h : (copyRows wAt)[n]? = some row) (hc : Clear s (row.ranges s wYF wYTok) 5)
    (ho : ¬ row.order s) (ht : ¬ row.table s wYF wYTok) (hi : ¬ row.idle s wYF wYTok) (hr : row.ready s wYF wYTok) : BeginsAt n s :=
  ⟨row, h, hc, ho, ht, hi, hr⟩
theorem memory_is_full (s : State) (w : Word) (n : Nat) (h : w.getLsbD 63 = false) : SourceFull s w n := fun h1 => by rw [h] at h1; cases h1
theorem witness_CopyEngine_row0 : BeginsAt 0 wYAll :=
  beginsAt _ _ _ rfl (by unfold Clear CopyRange.Past CopyRange.Staged CopyRange.Misaligned CopyRange.Malformed CopyRange.Beyond; decide)
    id (by decide) (by decide) (memory_is_full _ _ _ (by decide))
theorem witness_CopyEngine_row1 : BeginsAt 1 wYAll :=
  beginsAt _ _ _ rfl (by unfold Clear CopyRange.Past CopyRange.Staged CopyRange.Misaligned CopyRange.Malformed CopyRange.Beyond; decide)
    id (by decide) (by decide) trivial
theorem witness_CopyEngine_row2 : BeginsAt 2 wYAll :=
  beginsAt _ _ _ rfl (by unfold Clear CopyRange.Past CopyRange.Staged CopyRange.Misaligned CopyRange.Malformed CopyRange.Beyond; decide)
    id id id (memory_is_full _ _ _ (by decide))
theorem witness_CopyEngine_row3 : BeginsAt 3 wYAll :=
  beginsAt _ _ _ rfl (by unfold Clear CopyRange.Past CopyRange.Staged CopyRange.Misaligned CopyRange.Malformed CopyRange.Beyond; decide)
    id id id ⟨(memory_is_full _ _ _ (by decide)), fun _ => (memory_is_full _ _ _ (by decide))⟩
theorem witness_CopyEngine_row4 : BeginsAt 4 (wY 0x1000 8 0) :=
  beginsAt _ _ _ rfl (by unfold Clear CopyRange.Past CopyRange.Staged CopyRange.Misaligned CopyRange.Malformed CopyRange.Beyond; decide)
    id (by decide) (by decide) trivial
theorem witness_CopyEngine_row5 : BeginsAt 5 wYAll :=
  beginsAt _ _ _ rfl (by unfold Clear CopyRange.Past CopyRange.Staged CopyRange.Misaligned CopyRange.Malformed CopyRange.Beyond; decide)
    id id id (memory_is_full _ _ _ (by decide))
theorem witness_CopyEngine_row6 : BeginsAt 6 wYAll :=
  beginsAt _ _ _ rfl (by unfold Clear CopyRange.Past CopyRange.Staged CopyRange.Misaligned CopyRange.Malformed CopyRange.Beyond; decide)
    id id id ⟨(memory_is_full _ _ _ (by decide)), (memory_is_full _ _ _ (by decide))⟩
theorem witness_CopyEngine_row7 : BeginsAt 7 wYTable :=
  beginsAt _ _ _ rfl (by unfold Clear CopyRange.Past CopyRange.Staged CopyRange.Misaligned CopyRange.Malformed CopyRange.Beyond; decide)
    id (by decide) id ⟨⟨0, by decide, by decide⟩, (memory_is_full _ _ _ (by decide)), by decide, by decide⟩
theorem witness_CopyEngine_row8 : BeginsAt 8 wYAll :=
  beginsAt _ _ _ rfl (by unfold Clear CopyRange.Past CopyRange.Staged CopyRange.Misaligned CopyRange.Malformed CopyRange.Beyond; decide)
    (by decide) (by decide) id trivial
theorem witness_CopyEngine_row9 : BeginsAt 9 wYAll :=
  beginsAt _ _ _ rfl (by unfold Clear CopyRange.Past CopyRange.Staged CopyRange.Misaligned CopyRange.Malformed CopyRange.Beyond; decide)
    (by decide) (by decide) id (fun h => absurd h (by decide))
def wPinSeg : Seg := wSeg 0 (2 ^ 18)
def wPin (filled : Bool) : Pin := { base := 0, size := 2 ^ 18, segs := [wPinSeg], fade := 9, filled := filled }
def wPins (l : List Pin) : State := { wY 0 0x40000 7 with dies := [(0, { ptroot := 1, pins := l })] }
theorem witness_Pinning : Unplanted (wPins []) ∧ (wPins []).tokensReady 0 wYTok = true ∧ reg (wPins []) 1 = 0 ∧ (reg (wPins []) 2).toNat = 2 ^ 18
    ∧ (reg (wPins []) 3).toNat = 7 ∧ (here (wPins [])).pend = [] ∧ (wPins []).steps 0 .y = false ∧ pinsOf (wPins []) = []
    ∧ (wPins []).promisedUsed 0 = 0 ∧ (wPins []).entriesFull 0 = false ∧ (wPins []).walksOf 0 = [] ∧ (wPins []).yMisses 0 [(0, 0x40000)] = [] ∧ (reg (wY (1#64 <<< 63) 0 0) 1).getLsbD 63 = true
    ∧ ¬ ((reg (wY 0 0x40000 0) 3).toNat = 7) ∧ pinsOf (wPins [wPin true]) = [wPin true] ∧ (wPin true).filled = true ∧ (wPin false).filled = false
    ∧ segsOverlap (wPin true).segs [wSeg 0x20000 (2 ^ 18)] = true := by decide
theorem witness_Pinning_pieces : (wPins []).pinPieces 0 0 (2 ^ 18) = some [wPinSeg] ∧ (wPins [wPin true]).pinPieces 0 0 (2 ^ 18) = some [wPinSeg]
    ∧ wS.pinPieces 0 (2 ^ 40) (2 ^ 18) = none := ⟨rfl, rfl, rfl⟩
theorem test_pin_stands : pinsOf (after (.ypin wYF wYTok) (wPins [])) = [{ base := 0, size := 2 ^ 18, segs := [wPinSeg], fade := 7 }] := by decide
/-- An operation of the copy engine in flight, token 3. -/
def wYOp (i : Instr) (a b c : Word) : Op :=
  { ctx := 0, unit := 0, core := 0, eng := .y, pos := {}, ins := i, kind := .async, issued := 90, tok := 3, v1 := a, v2 := b, v3 := c }
def wYs (o : Op) : State :=
  { wOps [(4, o)] with ctxs := [(0, { wCtx with regs := { wCtx.regs with k := [(3, { done := false, op := 4 })] } })], mem := [(0x200, 7), (0x2000, 9)] }
theorem no_store (p : Nat × Op) (o : Op) (hk : o.kind = .async) (h : p ∈ [(4, o)]) : p.2.forwards o.unit o.issued = false := by
  rw [List.mem_singleton] at h; subst h; simp [Op.forwards, hk]
theorem mayEnd (o : Op) (hk : o.kind = .async) (hr : (wYs o).opReady o = true) (hp : (wYs o).versionedUnit o.unit = false) (hu : o.unit = 0) :
    MayEnd (wYs o) 4 o :=
  ⟨rfl, hk, hr, hp, fun r h => by rw [hu] at h; injection h with h; subst h; rfl, fun p h => no_store p o hk h⟩
theorem witness_CopyMoves : MayEnd (wYs (wYOp (.ycopy wYF wYTok) 0x100 0x200 256)) 4 (wYOp (.ycopy wYF wYTok) 0x100 0x200 256)
    ∧ MayEnd (wYs (wYOp (.yfill wYF wYTok) 0x100 0x1122 32)) 4 (wYOp (.yfill wYF wYTok) 0x100 0x1122 32) :=
  ⟨mayEnd _ rfl (by decide) (by decide) rfl, mayEnd _ rfl (by decide) (by decide) rfl⟩
theorem wPlain_piece (o : Op) (hc : o.core = 0) (n : Need) (w : Word) (g : Seg) (h1 : w.getLsbD 63 = false) (h2 : (wYs o).yPieces 0 n w g.len = .ok [g]) :
    PlainPiece (wYs o) o n w g := ⟨h1, by rw [hc]; exact h2, fun _ => rfl, fun _ => rfl⟩
theorem witness_CopyMoves_pieces : PlainPiece (wYs (wYOp (.ycopy wYF wYTok) 0x300 0x200 256)) (wYOp (.ycopy wYF wYTok) 0x300 0x200 256) .read 0x200 (wSeg 0x200 256)
    ∧ PlainPiece (wYs (wYOp (.ycopy wYF wYTok) 0x300 0x200 256)) (wYOp (.ycopy wYF wYTok) 0x300 0x200 256) .write 0x300 (wSeg 0x300 256)
    ∧ segsOverlap [wSeg 0x200 256] [wSeg 0x300 256] = false
    ∧ PlainPiece (wYs (wYOp (.yfill wYF wYTok) 0x100 0x1122 32)) (wYOp (.yfill wYF wYTok) 0x100 0x1122 32) .write 0x100 (wSeg 0x100 32)
    ∧ (wYOp (.ycopy wYF wYTok) (0x8000000000000000#64 + BitVec.ofNat 64 (256 * 48)) 0x200 256).v1 = 0x8000000000003000
    ∧ (wYs (wYOp (.ycopy wYF wYTok) 0x8000000000003000 0x200 256)).opLive (wYOp (.ycopy wYF wYTok) 0x8000000000003000 0x200 256) = true :=
  ⟨wPlain_piece _ rfl _ _ _ (by decide) rfl, wPlain_piece _ rfl _ _ _ (by decide) rfl, by decide, wPlain_piece _ rfl _ _ _ (by decide) rfl, by decide, by decide⟩
theorem test_fill_repeats_pattern : (after (.tokenComplete 4) (wYs (wYOp (.yfill wYF wYTok) 0x100 0x1122 32))).mem
    = [(0x100, 0x22), (0x101, 0x11), (0x108, 0x22), (0x109, 0x11), (0x110, 0x22), (0x111, 0x11), (0x118, 0x22), (0x119, 0x11), (0x200, 7), (0x2000, 9)] := by decide
def wFpr : Op := wYOp (.yfpr wYF wYTok) 0x100 0x2000 0
def wCmp : Op := wYOp (.ycmp wYF wYTok) 0x100 0x2000 0x3000
theorem witness_BlockResults : (MayEnd (wYs wFpr) 4 wFpr ∧ PlainPiece (wYs wFpr) wFpr .read 0x2000 (wSeg 0x2000 4096) ∧ PlainPiece (wYs wFpr) wFpr .write 0x100 (wSeg 0x100 8))
    ∧ (MayEnd (wYs wCmp) 4 wCmp ∧ PlainPiece (wYs wCmp) wCmp .read 0x2000 (wSeg 0x2000 4096) ∧ PlainPiece (wYs wCmp) wCmp .read 0x3000 (wSeg 0x3000 4096))
    ∧ MayEnd (wYs (wYOp (.ypref wYF wYTok) 0x100 8 0)) 4 (wYOp (.ypref wYF wYTok) 0x100 8 0) :=
  ⟨⟨mayEnd _ rfl (by decide) (by decide) rfl, wPlain_piece _ rfl _ _ _ (by decide) rfl, wPlain_piece _ rfl _ _ _ (by decide) rfl⟩,
   ⟨mayEnd _ rfl (by decide) (by decide) rfl, wPlain_piece _ rfl _ _ _ (by decide) rfl, wPlain_piece _ rfl _ _ _ (by decide) rfl⟩,
   mayEnd _ rfl (by decide) (by decide) rfl⟩
/-- A list of two elements of 32 bytes, 1 and 3, at address 0x1000; a base at physical address 0x4000. -/
def wHeader : Nat := 5 * 2 ^ 32 + 2
def wList (o : Op) : State := { wYs o with mem := memStore (memStore [] 0x1000 (bytesOfNat 16 (wHeader + 1 * 2 ^ 64 + 3 * 2 ^ 96))) 0x4020 [6] }
def wGath : Op := wYOp (.ygath wYF wYTok) 0x2000 0x4000000000004000 0x1000
def wScat : Op := wYOp (.yscat wYF wYTok) 0x4000000000004000 0x2000 0x1000
theorem mayEnd_list (o : Op) (hk : o.kind = .async) (hr : (wList o).opReady o = true) (hp : (wList o).versionedUnit o.unit = false) (hu : o.unit = 0) :
    MayEnd (wList o) 4 o :=
  ⟨rfl, hk, hr, hp, fun r h => by rw [hu] at h; injection h with h; subst h; rfl, fun p h => no_store p o hk h⟩
theorem witness_ElementMoves : MayEnd (wList wGath) 4 wGath ∧ MayEnd (wList wScat) 4 wScat ∧ (wList wGath).poison = []
    ∧ (wList wGath).readList wGath = .ok (wHeader, [1, 3]) ∧ (wList wScat).readList wScat = .ok (wHeader, [1, 3]) ∧ headerBad wHeader = false
    ∧ headerCount wHeader = 2 ∧ headerSize wHeader = 32 ∧ (wScat.lanes = [wHeader, 0] ∨ wScat.lanes = []) :=
  ⟨mayEnd_list _ rfl (by decide) (by decide) rfl, mayEnd_list _ rfl (by decide) (by decide) rfl, rfl, rfl, rfl, by decide, by decide, by decide, by decide⟩
theorem witness_ElementMoves_places : (∀ k ∈ [1, 3], ((wList wGath).asIssued 90).physPieces (elementAt wGath 0x4000000000004000 32 k).pa 32 = .ok [elementAt wGath 0x4000000000004000 32 k])
    ∧ (wList wGath).yPieces 0 .write 0x2000 64 = .ok [wSeg 0x2000 64] ∧ (wList wScat).yPieces 0 .read 0x2000 64 = .ok [wSeg 0x2000 64]
    ∧ (0x4000000000004000 : Word).getLsbD 63 = false ∧ (0x4000000000004000 : Word).getLsbD 62 = true ∧ (0x4000000000004000 : Word).extractLsb' 52 10 = 0 := by
  refine ⟨fun k hk => ?_, rfl, rfl, by decide, by decide, by decide⟩
  simp only [List.mem_cons, List.not_mem_nil, or_false] at hk
  rcases hk with rfl | rfl <;> rfl
theorem test_gather_moves_element : memRead (after (.tokenComplete 4) (wList wGath)).mem 0x2000 = 6 := by decide
def wXatom (c : Word) : Op := { wYOp (.xatom wYF wYTok wAt) 5 64 c with va := 0x200, lanes := [1] }
def wXstf (sampled : Bool) : Op := { wYOp (.xstf wYF wYTok) 0x100 9 0x200 with data := [9], sampled := sampled }
theorem witness_RemoteAccesses : (∀ c ∈ [(0 : Word), 0x4000000000000300], (wYs (wXatom c)).yPieces 0 .write (BitVec.ofNat 64 0x200) 8 = .ok [wSeg 0x200 8])
    ∧ (wYs (wXatom 0x4000000000000300)).yPieces 0 .write 0x4000000000000300 8 = .ok [{ va := 0, pa := 0x300, len := 8 }]
    ∧ MayEnd (wYs (wXatom 0)) 4 (wXatom 0) ∧ (wXatom 0).v2.toNat = 8 * 8 ∧ (wXatom 0).v1.toNat < 2 ^ (8 * 8) ∧ (wXatom 0).lanes = [1] ∧ (wAt.aop.toNat = 0)
    ∧ atomRows[0]?.isSome = true ∧ segsOverlap [wSeg 0x200 8] [{ va := 0, pa := 0x300, len := 8 }] = false :=
  ⟨by intro c hc; simp only [List.mem_cons, List.not_mem_nil, or_false] at hc; rcases hc with rfl | rfl <;> rfl, rfl, mayEnd _ rfl (by decide) (by decide) rfl,
   by decide, by decide, rfl, by decide, rfl, by decide⟩
theorem witness_RemoteAccesses_flag : (∀ b, MayEnd (wYs (wXstf b)) 4 (wXstf b) ∧ PlainPiece (wYs (wXstf b)) (wXstf b) .write 0x100 (wSeg 0x100 1)
      ∧ PlainPiece (wYs (wXstf b)) (wXstf b) .write 0x200 (wSeg 0x200 8) ∧ (wXstf b).data.length = 1 ∧ (wYs (wXstf b)).diesDiffer 0 0x100 0x200 = false) := by
  intro b
  cases b <;>
    exact ⟨mayEnd _ rfl (by decide) (by decide) rfl, wPlain_piece _ rfl _ _ _ (by decide) rfl, wPlain_piece _ rfl _ _ _ (by decide) rfl, rfl, by decide⟩
theorem test_flag_is_incremented : (after (.flagIncrement 4) (wYs (wXstf true))).mem = [(0x200, 8), (0x2000, 9)] := by decide
def wDtld : Op := { wYOp (.dtld wYF wYTok) 3 0x200 0xB with lanes := [1] }
def wPinFill : Op := wYOp (.ypin wYF wYTok) 0 0x40000 7
theorem witness_TablesAndPins : MayEnd (wYs wDtld) 4 wDtld ∧ PlainPiece (wYs wDtld) wDtld .read 0x200 (wSeg 0x200 32) ∧ wDtld.sampled = false
    ∧ MayEnd { wYs wPinFill with dies := [(0, { ptroot := 1, pins := [wPin false] })] } 4 wPinFill ∧ (wPin false).base = wPinFill.v1.toNat % 2 ^ 56
    ∧ (wPin false).unpin = [] :=
  ⟨mayEnd _ rfl (by decide) (by decide) rfl, wPlain_piece _ rfl _ _ _ (by decide) rfl, rfl,
   ⟨rfl, rfl, by decide, by decide, fun r h => by injection h with h; subst h; rfl, fun p h => no_store p _ rfl h⟩, by decide, rfl⟩
def wFaults (b : Word) (waits : List Acc) : Op := { wYOp (.ycopy wYF wYTok) 0x100 b 32 with waits := waits }
def wFaulted (o : Op) (poison : List Nat) : State := { wMode .handler (wYs o) with poison := poison, ops := [(4, o), (5, wStore)] }
theorem witness_CopyFaults : (wFaulted (wFaults 0x200 [{ op := 5 }]) []).opReady (wFaults 0x200 [{ op := 5 }]) = false
    ∧ (wFaulted (wFaults 0x10000000000 []) []).opReady (wFaults 0x10000000000 []) = true ∧ (wFaulted (wFaults 0x200 []) [2]).opReady (wFaults 0x200 []) = true
    ∧ (wFaulted (wFaults 0x10000000000 []) []).opLive (wFaults 0x10000000000 []) = true ∧ ((wFaulted (wFaults 0x200 []) [2]).ctx 0).inHandler = true
    ∧ (wFaulted (wFaults 0x200 []) [2]).versioned 0 = false ∧ (((wFaulted (wFaults 0x200 []) [2]).ctx 0).tok 3).op = 4
    ∧ (wFaulted (wFaults 0x200 []) [2]).poisonIn [wSeg 0x200 32] = some 2 := by decide
theorem witness_CopyFaults_pieces : ((wFaulted (wFaults 0x10000000000 []) []).asIssued 90).yPieces 0 .read 0x10000000000 32 = .error (trapXlate 0 0x10000000000)
    ∧ ((wFaulted (wFaults 0x200 []) [2]).asIssued 90).yPieces 0 .read 0x200 32 = .ok [wSeg 0x200 32] := ⟨rfl, rfl⟩

/-! ### Collectives -/

/-- Map words of four axes that are R, but for x. -/
def wMap (x : Nat) : Nat := x + 0x400040004000 * 2 ^ 16
/-- Descriptor 1: rank 1, FP32, four elements, under a map; its blocks are named by a table at 0x2000. -/
def wTensor (m : Nat) : Nat := 2 ^ 47 + 2 ^ 30 + 2 * 2 ^ 25 + 1 + 4 * 2 ^ 64 + 0x2000 * 2 ^ 320 + m * 2 ^ 512
/-- A die of a mesh of `x` dies with descriptor 1, its map and another in map registers, and registers 1 to 3. -/
def wColl (x a b : Nat) (mesh : Bool) (r1 r2 r3 : Word) : State :=
  { wS with
    ctxs := [(0, { wCtx with regs := { wCtx.regs with s := [(1, r1), (2, r2), (3, r3)], sm := [(0, BitVec.ofNat 512 (wMap a)), (1, BitVec.ofNat 512 (wMap b))] } })]
    dies := [(0, { ptroot := 1, tdtab := BitVec.ofNat 64 (2 * 2 ^ 56 + 0x1000), meshshape := BitVec.ofNat 64 (0x001001001000 + x) })]
    job := { wJob with launches := [(0, { wLaunch with mesh := mesh })] }
    mem := memStore [] 0x1080 (bytesOfNat 128 (wTensor (wMap a))) }
def wMaps : Maps := { sma := 0, smb := 1 }
/-- From S of dimension 0 to R, on two dies; to P on one; unchanged on one. -/
def wGather (mesh : Bool) (st : Word) : State := wColl 2 0x8000 0x4000 mesh 1 0x2000 st
def wPartial : State := wColl 1 0xC040 0xC040 true 1 0x2000 0
def planOf (s : State) (k : Option Nat) : Option Plan :=
  match s.collMaps 0 1 (mapA s wMaps) (mapB s wMaps) with
  | .ok g => match k with
    | none => chanter (s.die 0).sizes g.t.d g.src g.dst
    | some n => explicitPlan (s.die 0).sizes g.t.d g.src g.dst n
  | .error _ => none
theorem witness_ReshardTraps : Unplanted (wGather true 0) ∧ (wGather true 0).tokensReady 0 wYTok = true ∧ (wGather true 0).versioned 0 = false
    ∧ (wGather true 0).collBusy 0 1 = false ∧ wVersioned.versioned 0 = true ∧ (reg (wColl 2 0x8000 0x4000 true 1 0 0) 2).toNat = 0
    ∧ ((wGather true 0).modCtx 0 fun x => { x with regs := { x.regs with k := [(3, { done := false })] } }).tokensReady 0 wYTok = false
    ∧ (wGather true 0).collAllowed 0 = true ∧ (wGather false 0).collAllowed 0 = false ∧ (here (wGather true 0)).pend = []
    ∧ (wGather true 0).steps 0 .y = false := by decide
theorem witness_ReshardTraps_error : (wColl 2 0x8000 0x4000 true 9 0x2000 0).collMaps 0 9 0 0 = .error (trapOf 0x08) := rfl
theorem witness_ReshardTraps_plans : ((planOf (wGather true 0) none).any fun p => p.stage == 0 && p.steps.length == 1) = true
    ∧ ((planOf (wGather true 0x3000) (some 0)).any fun p => p.stage == 0) = true
    ∧ (planOf (wColl 2 0x8000 0x8000 true 1 0x2000 0) (some 0)) = none := by decide
theorem witness_ReshardTraps_partial : (planOf (wColl 2 0x80408000 0x80404000 true 1 0x2000 0) (some 0)).any (fun p => p.stage == 0) = true
    ∧ (hasP (BitVec.ofNat 64 (wMap 0x80408000)) = true) := by decide
def wNoRec : CopyRange := ⟨0x2000, 96, 64, 1, true, true⟩
theorem witness_HaloAndPlan : (wGather true 0).versioned 0 = false ∧ ((wGather true 0).tensor 0 1).toOption.any (fun g => !hasP (Desc.map g.d)) = true
    ∧ (wPartial.tensor 0 1).toOption.any (fun g => hasP (Desc.map g.d)) = true ∧ wPartial.collAllowed 0 = true
    ∧ (wGather true 0).promisedUsed 0 = 0 ∧ (wGather true 0).entriesFull 0 = false ∧ (wGather true 0).walksOf 0 = []
    ∧ ((wGather true 0).yMisses 0 [(0x2000, 96)]) = [] ∧ planOf (wColl 1 0xC040 0xC020 true 1 0x2000 0) none = none := by decide
theorem witness_HaloAndPlan_record : (¬ wNoRec.Past (wGather true 0) ∧ ¬ wNoRec.Staged (wGather true 0) ∧ ¬ wNoRec.Misaligned ∧ ¬ wNoRec.Malformed ∧ ¬ wNoRec.Beyond)
    ∧ ({ wNoRec with w := 0x80000000000BFFE0 } : CopyRange).Past wS ∧ wNoRec.Staged (wSysPage wVersioned)
    ∧ (¬ ({ wNoRec with w := 0x2020 } : CopyRange).Past wS ∧ ({ wNoRec with w := 0x2020 } : CopyRange).Misaligned)
    ∧ (¬ ({ wNoRec with w := 0xC000000000000000 } : CopyRange).Past wS ∧ ({ wNoRec with w := 0xC000000000000000 } : CopyRange).Malformed)
    ∧ ({ wNoRec with w := 0x100000000000000 } : CopyRange).Beyond := by
  unfold CopyRange.Past CopyRange.Staged CopyRange.Misaligned CopyRange.Malformed CopyRange.Beyond
  refine ⟨?_, ?_, ?_, ?_, ?_, ?_⟩ <;> decide
/-- The two participants of a collective over x on two dies, operations 4 and 5. -/
def wPart (die : Nat) (dst : MapWord) (k : Coll) : Op :=
  { ctx := 512 * die, unit := die, core := 128 * die, eng := .y, pos := {}, ins := .xhalo wYF wYTok, kind := .async, issued := 90, tok := 3
    coll := some { k with coords := [die, 0, 0, 0], dstMap := dst } }
def wCollRec : Coll := { tensor := 1, desc := 0, sizes := [2, 1, 1, 1], axes := [0, 1, 2, 3], coords := [0, 0, 0, 0], key := [0, 0, 0], plan := {} }
def wPair (l : Tab Op) : State :=
  { wS with
    ctxs := [(0, { wCtx with mode := .handler, regs := { wCtx.regs with k := [(3, { done := false, op := 4 })] } }),
      (512, { wCtx with unit := some 1, mode := .handler, regs := { wCtx.regs with k := [(3, { done := false, op := 5 })] } })]
    dies := [(0, { ptroot := 1, meshshape := 0x001001001002 }), (1, { meshshape := 0x001001001002, meshpos := 1 })]
    job := { wJob with units := [(0, wUnit), (1, { wUnit with die := 1, j := 0, ctx := some 512 })], launches := [(0, { wLaunch with mesh := true, units := [0, 1] })] }
    opNext := 9, ops := l }
def wBoth (dst : MapWord) : List (Nat × Op) := [(4, wPart 0 0 wCollRec), (5, wPart 1 dst wCollRec)]
theorem witness_Matching : ∀ dst ∈ [(0 : MapWord), 1], (wPair (wBoth dst)).op? 4 = some (wPart 0 0 wCollRec)
    ∧ (wPart 0 0 wCollRec).coll = some wCollRec ∧ wCollRec.lost = false ∧ wCollRec.matched = false
    ∧ wCollRec.dies.map ((wPair (wBoth dst)).peerAt wCollRec) = [.issued 4 (wPart 0 0 wCollRec), .issued 5 (wPart 1 dst wCollRec)]
    ∧ (∀ q ∈ wBoth dst, (wPair (wBoth dst)).op? q.1 = some q.2 ∧ q.2.coll.isSome = true) ∧ ((wBoth dst).map Prod.fst).Nodup
    ∧ ∀ q ∈ wBoth dst, ((wPair (wBoth dst)).ctx q.2.ctx).inHandler = true := by
  intro dst h; simp only [List.mem_cons, List.not_mem_nil, or_false] at h
  rcases h with rfl | rfl <;> decide
theorem witness_Matching_agree : (∀ q ∈ wBoth 0, Agree (wPart 0 0 wCollRec) q.2) ∧ (∃ q ∈ wBoth 1, ¬ Agree (wPart 0 0 wCollRec) q.2) := by
  refine ⟨fun q hq => ?_, ⟨_, .tail _ (.head _), ?_⟩⟩
  · simp only [wBoth, List.mem_cons, List.not_mem_nil, or_false] at hq
    rcases hq with rfl | rfl <;> exact ⟨_, _, rfl, rfl, rfl, rfl, rfl, rfl, rfl⟩
  · rintro ⟨x, y, hx, hy, -, -, -, hd, -⟩
    injection hx with hx; injection hy with hy; subst hx; subst hy
    exact absurd hd (by decide)
theorem witness_Matching_waits : wCollRec.dies.map ((wPair [(4, wPart 0 0 wCollRec)]).peerAt wCollRec) = [.issued 4 (wPart 0 0 wCollRec), .late] := by decide
def wStep1 : PlanStep := { kind := 0, src := BitVec.ofNat 64 (wMap 0x4000), dst := BitVec.ofNat 64 (wMap 0x4000), pieces := 3 }
theorem witness_PieceCounter : let k : Coll := { wCollRec with counter := 1, landed := [2] }
    k.counter ≤ 1 ∧ 1 < wStep1.pieces ∧ 1 ∉ k.landed ∧ k.counter ∉ k.landed ∧ (∀ j ∈ k.landed, k.counter ≤ j ∧ j < wStep1.pieces)
    ∧ (∀ j < wStep1.pieces, j < k.counter ∨ j = 1 ∨ j ∈ k.landed)
    ∧ ∃ j < 4, ¬ (j < k.counter ∨ j = 1 ∨ j ∈ k.landed) := by decide
/-- A matched collective of one die whose step copies the block of four elements at 0x2100 to 0x2200. -/
def wOne (step : Nat) : Coll :=
  { tensor := 1, desc := BitVec.ofNat 1024 (wTensor (wMap 0x4000)), sizes := [1, 1, 1, 1], axes := axes4, coords := [0, 0, 0, 0], key := [0, 0, 0]
    srcMap := BitVec.ofNat 512 (wMap 0x4000), dstMap := BitVec.ofNat 512 (wMap 0x4000), dstTab := 0x2040
    plan := { steps := [{ wStep1 with pieces := 1 }] }, matched := true, group := [4], step := step }
def wOneOp (k : Coll) : Op := { wPart 0 0 wCollRec with ins := .reshard wYF wYTok wMaps, coll := some k }
def wRuns (k : Coll) (src : Nat) : State :=
  { wMode .handler (wYs (wOneOp k)) with
    dies := [(0, { ptroot := 1, tdtab := BitVec.ofNat 64 (2 * 2 ^ 56 + 0x1000) })]
    mem := memStore (memStore (memStore (memStore [] 0x1080 (bytesOfNat 128 (wTensor (wMap 0x4000)))) 0x2000 (bytesOfNat 8 src)) 0x2040 (bytesOfNat 8 0x2200))
      0x2100 (bytesOfNat 16 (1 + 2 * 2 ^ 32 + 3 * 2 ^ 64 + 4 * 2 ^ 96)) }
def wOut : List (Nat × Nat × Nat × Flg) := [(0x11000, 32, 1, 0), (0x11020, 32, 2, 0), (0x11040, 32, 3, 0), (0x11060, 32, 4, 0)]
theorem witness_Pieces : (wRuns (wOne 0) 0x2100).op? 4 = some (wOneOp (wOne 0)) ∧ (wRuns (wOne 0) 0x2100).pieceReady (wOneOp (wOne 0)) (wOne 0) 0 = true
    ∧ (wRuns (wOne 0) 0x2100).pieceReady (wOneOp (wOne 0)) (wOne 0) 1 = false ∧ (wRuns (wOne 0) 0x2100).versionedUnit 0 = false
    ∧ (wRuns (wOne 0) 0x2100).poisonHurt (outSegs wOut) = none ∧ (wRuns (wOne 0) (2 ^ 40)).opLive (wOneOp (wOne 0)) = true
    ∧ ((wRuns (wOne 0) 0x2100).ctx 0).inHandler = true := by decide
theorem witness_Pieces_out : (wRuns (wOne 0) 0x2100).pieceOut 0 (wOne 0) 0 { wStep1 with pieces := 1 } 0 = .ok wOut := by rfl
theorem witness_Pieces_parked : (wRuns (wOne 0) (2 ^ 40)).pieceOut 0 (wOne 0) 0 { wStep1 with pieces := 1 } 0 = .error (trapXlate 0 (2 ^ 40)) := by rfl
theorem witness_PlansEnd : (wRuns (wOne 0) 0).planReady (wOneOp (wOne 0)) (wOne 0) = false ∧ (wRuns (wOne 1) 0).planReady (wOneOp (wOne 1)) (wOne 1) = true
    ∧ collIsHalo (wOneOp (wOne 1)) = false ∧ (wRuns (wOne 1) 0).rankZero (wOne 1) = some (4, wOneOp (wOne 1))
    ∧ ((wRuns (wOne 1) 0).die 0).descAddr 1 = 0x1080 ∧ (wRuns (wOne 1) 0).poisonHurt [wSeg 0x1080 128] = none
    ∧ (wRuns (wOne 1) 0).modules = 1 ∧ moduleOf (dieOf 0) = 0 ∧ collIsHalo (wPart 0 0 wCollRec) = true ∧ (wRuns (wOne 1) 0).opLive (wOneOp (wOne 1)) = true ∧ (((wRuns (wOne 1) 0).ctx 0).tok 3).op = 4 := by decide
theorem witness_PlansEnd_piece : (wRuns (wOne 1) 0).range 0 .write 0x1080 128 = .ok [wSeg 0x1080 128] := rfl
theorem test_piece_is_written : memBytes (after (.collectivePiece 4 0) (wRuns (wOne 0) 0x2100)).mem 0x2200 16 = [1, 0, 0, 0, 2, 0, 0, 0, 3, 0, 0, 0, 4, 0, 0, 0] := by
  decide
def wHaloOp : Op := { wOneOp (wOne 1) with ins := .xhalo wYF wYTok }
theorem witness_PlansEnd_halo : { wRuns (wOne 1) 0 with ops := [(4, wHaloOp)] }.planReady wHaloOp (wOne 1) = true ∧ collIsHalo wHaloOp = true := by decide

/-! ### Stream ports -/

def wPort2 : BitVec 1024 := wPort 0 + BitVec.ofNat 1024 (2 ^ 57 + (3 * 2 ^ 40 + 8192) * 2 ^ 192)
theorem witness_PortWalk : (1 : Nat) < ({ record := wPort 0 } : Port).count 0 ∧ ({ record := wPort 0 } : Port).loops = 1
    ∧ (1 : Nat) < ({ record := wPort2 } : Port).count 0 ∧ ({ record := wPort2 } : Port).loops = 2 ∧ (2 : Nat) < ({ record := wPort2 } : Port).count 1 := by decide
theorem wPort_rows : RowPort { record := wPort 0 } ∧ RowPort { record := wPort 1 } := ⟨⟨rfl, rfl, by decide, by decide⟩, ⟨rfl, rfl, by decide, by decide⟩⟩
theorem witness_PortRowForms : ((wS.ctx 0).port? 3).isNone = true ∧ ((wBound 0).ctx 0).port? 3 = some { record := wPort 0 }
    ∧ (wBound 0).rowMayForm 0 { record := wPort 0 } = true ∧ (wBound 1).rowMayForm 0 { record := wPort 1 } = false
    ∧ ({ record := wPort 0 } : Port).at_.step < ({ record := wPort 0 } : Port).steps ∧ (wBound 0).poison = [] ∧ (wBound 0).ops = [] := by decide
theorem witness_PortRowForms_piece : (wBound 0).portRange 0 2 .read (({ record := wPort 0 } : Port).stepAddr 0) 4096 = .ok [wSeg 0x2000 4096]
    ∧ ∀ r, (wBound 0).unit? ((wBound 0).unitNo 0) = some r → r.staged = [] := ⟨rfl, fun r h => by injection h with h; subst h; rfl⟩
def wPushed (waits : List Acc) : Op := { wPush with waits := waits }
def wSinks (waits : List Acc) : State :=
  { wBinds.modCtx 0 fun x => { x with ports := [(3, { record := wPort 1, pushed := [(5, 1)] })] } with opNext := 9, ops := [(1, wPushed waits), (2, wStore)] }
theorem witness_PortRowStored : (wBound 1).headPush 0 3 = none ∧ (wSinks []).headPush 0 3 = some (1, wPushed [], { record := wPort 1, pushed := [(5, 1)] }, 5)
    ∧ (wSinks [{ op := 2 }]).mayPerform (wPushed [{ op := 2 }]) = false ∧ (wSinks []).mayPerform (wPushed []) = true
    ∧ (wSinks []).versionedUnit 0 = false ∧ (wSinks []).opLive (wPushed []) = true
    ∧ 4096 * 0 < ({ record := wPort 1, pushed := [(5, 1)] } : Port).streamBytes ∧ (wSinks []).poison = [] := by decide +kernel
theorem witness_PortRowStored_piece : ((wSinks []).asIssued 90).portRange 0 2 .write (({ record := wPort 1 } : Port).stepAddr 0) 4096 = .ok [wSeg 0x2000 4096] := rfl
/-- A CB4 port at the worked block, with a ratio; its escapes stand at 0x3000. -/
def wBlock (ratio : Nat) : Port :=
  { record := BitVec.ofNat 1024 (2 * 2 ^ 60 + 2 ^ 57 + 3 * 2 ^ 52 + ratio * 2 ^ 40 + 2 ^ 20 + 2 ^ 12 + (0x3000 * 2 ^ 8) * 2 ^ 960)
    at_ := { raw := [0x52, 0xE2, 0xEF, 0xEF, 0xFF, 0, 0, 0, 0, 0, 0] } }
def wBlocks : State := { wS with
  mem := [(0x3000, 0x80), (0x3001, 0x3F)]
  cores := [(0, { tlb := [wPage], slots := [(0, { g0 := { entries := BitVec.ofNat 256 (0x3C00 + 0x4000 * 2 ^ 32 + 0xBF80 * 2 ^ 80) } })] })] }
theorem witness_WorkedBlock : (∀ r ∈ [36, 40], (wBlock r).space = 2 ∧ (wBlock r).ratio = r) ∧ (wBlock 40).slot = 0 ∧ (wBlock 40).gen = 0
    ∧ ((wBlocks.core 0).slot (wBlock 40).slot).table (wBlock 40).gen = { entries := BitVec.ofNat 256 (0x3C00 + 0x4000 * 2 ^ 32 + 0xBF80 * 2 ^ 80) } := by decide
def portGot : Except Trap (List Byte) → Option (List Byte)
  | .ok l => some l
  | .error _ => none
theorem witness_WorkedBlock_escape : portGot (wBlocks.portBytes 0 0 2 ((wBlock 40).escAddr + 2 * (wBlock 40).at_.escapes) 2) = some [0x80, 0x3F] := by
  decide +kernel

/-! ### The host, service and errors -/

def wJ (st : JobState) : State := { wS with job := { wJob with st := st } }
theorem witness_JobCommands : ((wJ .idle).job.st = .idle ∧ (wJ .done).job.st = .done ∧ (wJ .faulted).job.st = .faulted ∧ (wJ .aborted).job.st = .aborted)
    ∧ (wJ .stopped).job.st = .stopped ∧ (wJ .loading).job.st = .loading ∧ (wJ .running).job.st = .running ∧ (wJ .idle).job.st ≠ .running
    ∧ (wJ .idle).job.st ≠ .stopped ∧ ((wJ .running).ctx 0).unit.isSome = true ∧ ∀ p ∈ ({ wS with ctxs := [] } : State).ctxs, p.2.unit = none := by
  refine ⟨⟨rfl, rfl, rfl, rfl⟩, rfl, rfl, rfl, by decide, by decide, by decide, fun p h => nomatch h⟩
theorem witness_WindowWrites : (8#64).toNat % 8 = 0 ∧ (9#64).toNat % 8 = 1 ∧ (2#64).toNat % 8 = 2 ∧ (4#64).toNat % 8 = 4 ∧ (3#64).toNat % 8 = 3
    ∧ 5 ≤ (5#64).toNat % 8 ∧ 0x018 ∉ [0x008, 0x010, 0x028, 0x030] := by decide
def wInval : State := { wS with host := { wS.host with inval := [(0, 2 ^ 18)] } }
theorem witness_Invalidation :
    (wS.job.st = .running ∨ wS.job.st = .stopped) ∧ ¬ ((wJ .done).job.st = .running ∨ (wJ .done).job.st = .stopped)
    ∧ 2 ^ 56 < ((0xFFFFFFFFFFFFFF#64).extractLsb' 18 38).toNat * 2 ^ 18 + ((0xFFFFFFFFFFFFFF#64).extractLsb' 0 18).toNat * 2 ^ 18
    ∧ ((0xFFFFFFFFFC0001#64).extractLsb' 18 38).toNat * 2 ^ 18 + ((0xFFFFFFFFFC0001#64).extractLsb' 0 18).toNat * 2 ^ 18 = 2 ^ 56
    ∧ wS.host.inval = [] ∧ wInval.host.inval ≠ [] ∧ (∀ p ∈ wInval.dies, p.2.fwNext = none) := by decide
def wSingle : BitVec 1024 := wPlain - BitVec.ofNat 1024 (2 ^ 512)
/-- A job image whose header stands at 0x50000 and whose entry record stands at virtual and physical address 0x1000. -/
def wImage (magic mesh : Nat) : State :=
  { wJ .loading with
    host := { wS.host with jwimage := 0x50000 }
    mem := memStore (memStore (memStore (memStore (memStore (memStore [] 0x1000 (wBytes wSingle)) 0x20000 (bytesOfNat 8 0x40001)) 0x40000 (bytesOfNat 8 0x41001))
        0x41000 (bytesOfNat 8 0x42001)) 0x42000 (bytesOfNat 8 0xF))
      0x50000 (bytesOfNat 8 magic ++ bytesOfNat 8 4096 ++ bytesOfNat 8 mesh ++ bytesOfNat 8 0 ++ bytesOfNat 8 0x20001 ++ bytesOfNat 8 5 ++ bytesOfNat 8 0x1000) }
def wMagic : Nat := 0x4E47414A4F420001
def wCube : Nat := 0x001001001001
theorem witness_ImageCheck_header : GoodHeader (wImage wMagic wCube).mem 0x50000 ∧ GoodHeader (wImage wMagic 0x001001001041).mem 0x50000
    ∧ ¬ GoodHeader (wImage 1 wCube).mem 0x50000 := by unfold GoodHeader; decide
theorem witness_ImageCheck_mesh : shapeRefused (wImage wMagic 0x001001001041) (memWord (wImage wMagic 0x001001001041).mem 0x50010) ≠ none := by decide
theorem witness_ImageCheck : wS.job.st ≠ .loading ∧ (wImage wMagic wCube).job.st = .loading ∧ (wImage wMagic wCube).host.jwimage.toNat = 0x50000
    ∧ (wImage wMagic wCube).shapeBad (readHeader (wImage wMagic wCube).mem 0x50000).mesh = false
    ∧ (readHeader (wImage wMagic wCube).mem 0x50000).entry % 64 = 0 ∧ recBad (recordOf (wBytes wSingle)) = false ∧ manyUnits (recordOf (wBytes wSingle)) = false
    ∧ (memWord (wImage wMagic wCube).mem 0x50038).extractLsb' 58 6 = 0 ∧ memWord (wImage wMagic wCube).mem 0x50040 = 0 := by decide
theorem witness_ImageCheck_dies :
    shapeDies (readHeader (wImage wMagic wCube).mem 0x50000).mesh ≤ ((wImage wMagic wCube).assign (readHeader (wImage wMagic wCube).mem 0x50000).mesh).length := by
  decide
theorem witness_ImageCheck_entry : ∀ s ∈ [wImage wMagic wCube, wImage wMagic 0x001001001041],
    (s.loadDies (readHeader s.mem 0x50000) (s.assign (readHeader s.mem 0x50000).mesh)).readVa
      ((s.assign (readHeader s.mem 0x50000).mesh).headD 0 * 128) (readHeader s.mem 0x50000).entry 128 = some (wBytes wSingle) := by decide +kernel
theorem witness_ImageCheck_many : manyUnits (recordOf (wBytes wPlain)) = true ∧ recBad (recordOf (wBytes wPlain)) = false := by decide
def wAreas : State := wS.modUnit 0 fun r => { r with saved := some 0x40000 }
theorem witness_ApertureAccess : [1, 2] ≠ ([] : List Byte) ∧ 0x100 + 2 ≤ 2 ^ 36 ∧ wS.backed 0x100 2 = true ∧ wS.inSaveArea 0x100 2 = false
    ∧ wAreas.host.debug = .locked ∧ wAreas.inSaveArea 0x40000 2 = true ∧ ({ wS with host := { wS.host with jwaper := 0x20000000000 } } : State).backed 0x20000000000 2 = false := by
  decide
theorem witness_PowerOn : (0 : Nat) < 64 ∧ (true && (1#64).getLsbD 0) = true ∧ (true && (1#64).getLsbD 1) = false := by decide
def wReplaces (f : Option (Nat × Bool × Nat)) : State := { wS with dies := [(0, { ptroot := 1, fwNext := f }), (1, { out := true })] }
theorem witness_FirmwareReplacement : ((wReplaces none).die 0).fwNext = none ∧ ((wReplaces none).die 0).out = false ∧ ((wReplaces none).die 1).out = true
    ∧ ((wReplaces none).die 1).fwNext = none ∧ ((wReplaces (some (7, true, 90))).die 0).fwNext = some (7, true, 90) := by decide
theorem witness_Attestation : DebugMode.userDebug ≠ .vendorDebug ∧ wS.host.degraded = false ∧ wS.host.keyPresent = true
    ∧ ({ wS with host := { wS.host with degraded := true } } : State).host.degraded = true := by decide
def wServes : State := { wJ .stopped with dies := [(0, { ptroot := 1 }), (1, {})] }
theorem witness_Drains : wServes.job.st = .stopped ∧ (wServes.die 0).out = false ∧ (wServes.die 0).draining = false ∧ (wServes.die 1).out = false
    ∧ dieOfCtx 0 = 0 ∧ (wServes.ctx 0).unit.isSome = true ∧ (∀ p ∈ wServes.ctxs, p.2.unit.isSome = true → dieOfCtx p.1 ≠ 1)
    ∧ 0 < wServes.dieCount ∧ 1 < wServes.dieCount ∧ wS.routed 0 = true ∧ wS.inJobMesh 0 = true ∧ wS.job.st ≠ .stopped ∧ wS.inJobMesh 1 = false ∧ 3 ∉ (wS.die 0).stacksOut ∧ 127 ∉ (wS.die 0).channelsOut
    ∧ wS.levelOf 0x7F000 = .near 0 127 ∧ wS.levelOf (2 ^ 38) = .far 0 0 := by decide
def wOneRule : State := wMode .management (wR [(1, 0x1000), (7, 4)])
def wSaving : State := { wS.modCtx 0 fun x => { x with saving := some 0 } with job := { wJob with stopping := true } }
theorem witness_ContextSaves : wS.saveReady 0 0x40000 = false ∧ wSaving.saveReady 0 0x40000 = true ∧ (wSaving.ctx 0).unit = some 0
    ∧ wSaving.unit? 0 = some wUnit ∧ tget (wSaving.ctx 0).regs.s 2 = some 0x100 := by decide
theorem witness_ContextSaves_range : InRange (((wSaving.readNow (wSaving.unitNo 0)).landAll 0).leaveGangs 0) 0 :=
  by constructor <;> first | decide | exact fun _ h => nomatch h
/-- The forms that complete: what they meet is what the statements of their own meet. -/
theorem witness_WaitsComplete : (wS.core (coreOf wS.focus)).ksig = (0 : BitVec 32).signExtend 64 ∧ Settled wS [4, 1] ∧ (reg wS 1).toNat ≤ wS.cycle
    ∧ (∀ k ∈ tokensOf ⟨0, 1, 5, 0⟩, ((here wS).tok k).done = true) := by decide
theorem witness_TablesComplete : (∀ i ∈ [Instr.lrule ⟨0, 1, 7, 0⟩], RecordAt wOneRule i (0x1000 + 16 * 2) 16 16 (List.replicate 16 0))
    ∧ reg wOneRule 7 = 1#64 <<< 2 ∧ (here wOneRule).mode ≠ .unit ∧ wOneRule.versioned 0 = false ∧ Settled wOneRule [1, 7]
    ∧ ruleValid (ruleIn (List.replicate 16 0) 0) = true ∧ ({ record := wPort 0 } : Port).stageCodes = [0, 0, 0, 0] ∧ ({ record := wPort 0 } : Port).stages = []
    ∧ ({ record := wPort 0 } : Port).ratio = 0 ∧ (reg wViews 3).toNat ∈ [1, 2, 3, 4, 5, 6, 7] :=
  ⟨recordsAt (by decide +kernel), by decide, by decide, by decide, by decide, by decide +kernel, by decide, by decide, by decide, by decide⟩
theorem witness_UnitsComplete : (wS.cluster (clusterOf (coreOf wS.focus))).gangs = [] ∧ (wMF 0 0 2 0).fa.toNat % 16 = 0
    ∧ (wResLoad (wLoadOp none 0)).op? 4 = some (wLoadOp none 0) ∧ (wLoadOp none 0).gang = none := by decide
theorem witness_HostComplete : (wJ .running).job.st = .running ∧ wS.backed (wS.host.jwaper.toNat + 0x100) 1 = true
    ∧ wS.inSaveArea (wS.host.jwaper.toNat + 0x100) 1 = false ∧ wInval.host.inval ≠ [] ∧ ((wReplaces (some (7, true, 90))).die 0).fwNext = some (7, true, 90)
    ∧ 127 ∉ (wS.die 0).channelsOut := by decide
def wSavedUnit : UnitRec := { wReadyUnit with saved := some 0x40000, savedRest := some wCtx }
def wResumes : State := { wS with
  ctxs := []
  job := { wJob with units := [(0, wSavedUnit)], launches := [(0, { wLaunch with record := wPlain })] }
  mem := memStore [] 0x40000 (bytesOfNat 8 (2 ^ 56 + 2 ^ 49) ++ bytesOfNat 8 0x2000000000001003) }
theorem witness_ContextResumes : wS.resumeReady 0 = false ∧ wResumes.resumeReady 0 = true ∧ wResumes.unit? 0 = some wSavedUnit
    ∧ (wResumes.launch? wSavedUnit.launch).isSome = true ∧ wSavedUnit.saved = some 0x40000 := by decide
def wLink (k : Link) : State := { wS with links := [(2, k)] }
def wNoCredit (k : Link) : Link := { k with reserve := [0, 0, 0, 0, 0, 0], pool := 0 }
def wFlit (vc rsv seq : Nat) : Word := BitVec.ofNat 64 (vc * 2 ^ 61 + seq * 2 ^ 48 + rsv)
theorem witness_LinkEvents : ((wFlit 5 0 0).extractLsb' 61 3).toNat < 6 ∧ (wFlit 5 0 0).extractLsb' 0 33 = 0 ∧ (wFlit 5 0 0).extractLsb' 48 12 = ((wLink {}).link 2).seq
    ∧ (wFlit 5 0 1).extractLsb' 48 12 ≠ ((wLink {}).link 2).seq ∧ ¬ (((wFlit 6 0 0).extractLsb' 61 3).toNat < 6) ∧ (wFlit 0 (2 ^ 32) 0).extractLsb' 0 33 ≠ 0
    ∧ ((wLink {}).link 2).st ≠ .failed ∧ ((wLink {}).link 2).spare = true ∧ ((wLink { spare := false, good := 19 }).link 2).spare = false
    ∧ ((wLink { st := .failed }).link 2).st = .failed ∧ ((wLink { st := .restricted, good := 19 }).link 2).st = .restricted ∧ 76 ≤ 4 * 19
    ∧ 4 * 18 < 76 := by decide
theorem witness_LinkEvents_credit : CreditFree ((wLink {}).link 2) (wFlit 5 0 0) ∧ ¬ CreditFree ((wLink (wNoCredit {})).link 2) (wFlit 5 0 0)
    ∧ ((wLink (wNoCredit {})).link 2).reserve.length = 6 ∧ ((wLink { held := [(wFlit 1 0 0, 7), (wFlit 5 0 1, 8)] }).link 2).held = [(wFlit 1 0 0, 7)] ++ (wFlit 5 0 1, 8) :: []
    ∧ (wFlit 5 0 1).extractLsb' 61 3 = 5 ∧ (wFlit 1 0 0).extractLsb' 61 3 ≠ 5 := by
  refine ⟨⟨by decide, fun _ => ⟨2, by decide, by decide⟩⟩, fun h => ?_, by decide, rfl, by decide, by decide⟩
  obtain ⟨n, h1, h2⟩ := h.2 (by decide)
  simp [wLink, wNoCredit, State.link, tgetD, tget, wFlit] at h1
  omega
def wRefresh (r : Refresh) (now : Nat) : State := { wS with cycle := now, dies := [(0, { ptroot := 1, refresh := [(3, r)] })] }
theorem witness_RefreshOwnership : ((wRefresh {} 9360).refreshOf 0 3).takenOver = false ∧ ((wRefresh {} 9360).refreshOf 0 3).missed = 0
    ∧ ((wRefresh {} 9360).refreshOf 0 3).lastBeat + 9360 ≤ (wRefresh {} 9360).cycle ∧ ((wRefresh { takenOver := true } 0).refreshOf 0 3).takenOver = true
    ∧ ((wRefresh { missed := 1 } 18720).refreshOf 0 3).missed = 1 ∧ ((wRefresh { missed := 1 } 18720).refreshOf 0 3).lastBeat + 18720 ≤ (wRefresh { missed := 1 } 18720).cycle
    ∧ (wRefresh { missed := 1 } 18719).cycle < ((wRefresh { missed := 1 } 18719).refreshOf 0 3).lastBeat + 9360 * (((wRefresh { missed := 1 } 18719).refreshOf 0 3).missed + 1) := by
  decide
def wReq (ch : Nat) (far : Bool) : Req := { ch := ch, far := far, mc := 64, done := 150, slots := [64, 70], rd := !far }
def wReqs (r : Req) : Op := { wLoad with reqs := [wReq 3 false, r] }
theorem witness_Replays : ∀ r ∈ [wReq 7 true, wReq 7 false, wReq 128 false],
    let s := wOps [(1, wStore), (2, wReqs r)]
    s.op? 2 = some (wReqs r) ∧ (wReqs r).reqs[1]? = some r ∧ (∀ p ∈ s.ops, s.op? p.1 = some p.2) ∧ s.cycle ≤ r.done ∧ wStore.reqs = []
    ∧ (∀ m ∈ r.slots, m + 64 ∉ (wReq 3 false).slots) := by decide
theorem witness_Replays_others : ∀ m p, (wOps [(1, wStore), (2, wReqs (wReq 7 true))]).op? m = some p → m ≠ 2 → p.reqs = [] := by
  intro m p h hm
  match m, h, hm with
  | 0, h, _ => nomatch h
  | 1, h, _ => injection h with h; subst h; rfl
  | 2, _, hm => exact absurd rfl hm
  | _ + 3, h, _ => nomatch h
def wFades (now count : Nat) : State := { wS with cycle := now, dies := [(0, { ptroot := 1, pins := [{ wPin true with count := count, since := 5 }] })] }
def wWalks : State := { wTables 0x4000F with dies := [(0, { ptroot := 0x20001, walks := [(0, 2 ^ 18)] })] }
theorem witness_MemoryEvents : ((wFades 0 2).die 0).pins = [{ wPin true with count := 2, since := 5 }] ∧ (wPin true).filled = true
    ∧ (wFades 100 2).cycle < 5 + 2 ^ 20 ∧ 5 + 2 ^ 20 ≤ (wFades (5 + 2 ^ 20) 2).cycle ∧ 5 + 2 ^ 20 ≤ (wFades (5 + 2 ^ 20) 1).cycle
    ∧ wS.walkServed 0 (2 ^ 18) = false ∧ wWalks.walkServed 0 (2 ^ 18) = true ∧ wWalks.ops = [] ∧ findTlb (wWalks.core 0).tlb (2 ^ 18) = none := by decide
theorem witness_MemoryEvents_walk : wWalks.lookup 0 (2 ^ 18) = some { base := 2 ^ 18, bits := 18, pte := 0x4000F } := by decide
theorem wReadyHandler : HandlerReady wHandled 0 := ⟨by decide, by decide, by decide, by decide, fun e => by cases e <;> decide, by decide, by decide, fun e => by cases e <;> decide⟩
theorem witness_ResidueErrors : wHandled.strikes 0 .c = true ∧ residuesDiffer ⟨0, 0, 1, 2⟩ = true ∧ residuesDiffer ⟨0, 0, 1, 1⟩ = false ∧ (wJoined wHandled).strikes 0 .v = false ∧ wHandled.versioned 0 = false := by decide
theorem witness_Poisoning : wS.levelOf 0x100 ≠ .none ∧ wS.levelOf (2 ^ 52) = .none := by decide
def wMiss (ctl : Word) (p : Nat) : State :=
  wHandled.modCtx 0 fun x => { x with sprs := { x.sprs with trapctl := ctl }, regs := { x.regs with k := [(31, { done := false, promise := p })] } }
def wSync : Eng := { wEng 2 with st := .syncBlocked, age := some 20 }
def wDead (now : Nat) : State := { (wJoined wHandled).modCtx 0 fun x => { x with v := wSync, c := {}, deadSince := some 30 } with cycle := now }
theorem witness_MissesAndDeadlocks : (wMiss 0 99).missReady 0 31 = true ∧ (wMiss 1 99).missReady 0 31 = true ∧ (wMiss 0 100).missReady 0 31 = false
    ∧ ((wMiss 0 99).ctx 0).sprs.trapctl.getLsbD 0 = false ∧ ((wMiss 1 99).ctx 0).sprs.trapctl.getLsbD 0 = true
    ∧ ((wDead 2078).ctx 0).deadSince = some 30 ∧ (wDead 2078).deadlocked 0 = true ∧ 30 + 2048 ≤ (wDead 2078).cycle ∧ (wDead 2077).cycle < 30 + 2048
    ∧ (wJoined (wDead 2078)).deadlocked 0 = false := by decide
theorem witness_MissesAndDeadlocks_ready : HandlerReady (wMiss 1 99) 0 ∧ HandlerReady (wDead 2078) 0 :=
  ⟨⟨by decide, by decide, by decide, by decide, fun e => by cases e <;> decide, by decide, by decide, fun e => by cases e <;> decide⟩,
    ⟨by decide, by decide, by decide, by decide, fun e => by cases e <;> decide, by decide, by decide, fun e => by cases e <;> decide⟩⟩

/-! ### The step -/

/-- A line whose first two lanes hold words of an engine, from lane 1 or from lane 3. -/
def wCode (e : Engine) (ws : List W32) (skip : Nat) : BitVec 256 :=
  let l := BitVec.ofNat 256 (laneNibbles e ws.length 0 * 16 ^ skip + 2 ^ (32 * (skip + 1)) * laneWords ws)
  l ||| ((nibbleXor l).zeroExtend 256 <<< 28)
def wRun (e : Engine) (ws : List W32) (skip : Nat) : State := { wS with mem := memStore [] 0x1000 (bytesOfNat 32 (wCode e ws skip).toNat) }
def wLdWords : List W32 := [0xA0428500, 0x00010D00]
def wFetched (s : State) (e : Engine) (i : Instr) : Prop := ∃ t p q, s.fetch 0 e = .ok t p q i
theorem witness_StepIssues : TurnComes { wRun .c wLdWords 0 with agenda := [.engine 0 .c] } (wRun .c wLdWords 0) 0 .c
    ∧ TurnComes { wRun .c wLdWords 0 with turns := [(0, .c)] } (wRun .c wLdWords 0) 0 .c ∧ (wRun .c wLdWords 0).engineBusy 0 .c = false
    ∧ (wRun .c wLdWords 0).heldOf 0 .c = [] ∧ (wRun .c wLdWords 0).selectCtx 0 .c = (wRun .c wLdWords 0, some 0)
    ∧ wFetched (wRun .c wLdWords 0) .c (.ld ⟨4, 10, 1, 1, 16, 3, false, 4, 0, 0⟩) :=
  ⟨.inl ⟨_, rfl, rfl⟩, .inr ⟨rfl, by decide, _, rfl, rfl⟩, by decide, by decide, rfl, _, _, _, rfl⟩
def wRunM : State := (wRun .m [0x18406000] 2).modCtx 0 fun x => { x with sprs := { x.sprs with rwctl := 0 } }
theorem witness_StepIssues_matrix : wRunM.heldOf 0 .m = [] ∧ wRunM.engineBusy 0 .m = false
    ∧ wRunM.selectCtx 0 .m = (wRunM, some 0) ∧ (wRunM.ctx 0).nest = none
    ∧ (wRunM.ctx 0).lantern = {} ∧ (wRunM.ctx 0).groupsAllowed = false
    ∧ wFetched wRunM .m (.mtrn ⟨2, 0, 6, false, false, 0, 0, 0⟩) :=
  ⟨by decide, by decide, rfl, by decide, by decide, by decide, _, _, _, rfl⟩
theorem witness_StepIssues_event : ({ wS with agenda := [.event (.start)] } : State).agenda = .event .start :: [] ∧ Instr.start.engine = none := ⟨rfl, rfl⟩
theorem witness_FetchReads : (wRun .c wLdWords 0).xlate 0 0x1000 .fetch = .ok (0x1000, wPage)
    ∧ (let s := wRun .c wLdWords 0; let line := lineOfBytes (memBytes s.mem 0x1000 32)
       (s.eng 0 .c).lines = [] ∧ (s.eng 0 .c).displaced = false ∧ tget (s.core 0).icache 0x1000 = none
       ∧ s.poisonIn [{ va := 0x1000, pa := 0x1000, len := 32 }] = none ∧ nibbleXor line = 0 ∧ badLanes line = false ∧ (s.eng 0 .c).cur = { line := 0x1000, lane := 1 }
       ∧ laneNibble line 1 = 1 + engNo .c ∧ laneWord line 1 = 0xA0428500 ∧ laneNibble line 2 = 9 + engNo .c ∧ laneWord line 2 = 0x00010D00
       ∧ wordCount .c 0xA0428500 0x00010D00 = 2) := ⟨rfl, by decide⟩
theorem witness_FetchReads_decodes : decode .c wLdWords = .ok (.ld ⟨4, 10, 1, 1, 16, 3, false, 4, 0, 0⟩, []) := rfl
theorem witness_MemoryKeepsForm : Memory.wf [(1, 2), (5, 9)] ∧ ¬ Memory.wf [(5, 9), (1, 2)] := by decide
theorem witness_DecodeInvertsEncode : (Instr.add ⟨4, 1, 2, 0⟩).wf = true ∧ (Instr.add ⟨4, 1, 2, 0⟩).engine = some .c
    ∧ (Instr.xatom ⟨1, 2, 3, 0⟩ ⟨2, 0, 0, 0, 0, 3, 0⟩ ⟨9, 3⟩).wf = true ∧ (Instr.xatom ⟨1, 2, 3, 0⟩ ⟨2, 0, 0, 0, 0, 3, 0⟩ ⟨9, 3⟩).engine = some .y := by decide

end Sys2Proof.Tests
end

