-- ==== Sys2Proof/Proofs/CompareAndCount.lean ====
section
/-! SUPPORT. CMP (R399) and the bit counts CLZ, CTZ and POPC (R397): what their functions of a word compute, and the
statements over the machine. -/
namespace Sys2Proof.Proofs
open Sys2Proof Sys2Proof.Machine Sys2Proof.Laws

/-! ## The relations of CMP -/

theorem truth_eq_ite {b : Bool} {p : Prop} [Decidable p] (h : b = true ↔ p) : truth b = if p then 1 else 0 := by
  simp only [truth, h]

theorem not_slt_iff_toInt_le (a b : Word) : (!a.slt b) = true ↔ b.toInt ≤ a.toInt := by
  rw [← BitVec.sle_eq_not_slt, BitVec.sle_iff_toInt_le]

theorem not_ult_iff_toNat_le (a b : Word) : (!a.ult b) = true ↔ b.toNat ≤ a.toNat := by
  rw [← BitVec.ule_eq_not_ult, BitVec.ule_iff_le, BitVec.le_def]

/-- A scalar result that is the truth of a relation of s[A] and s[B]. -/
theorem scalarC3_truth_commits {i : Instr} {f : C3} {s : State} (h : Unplanted s) (hs : Settled s [f.d, f.a, f.b])
    (r : Word → Word → Bool) {p : Prop} [Decidable p] (hr : r (reg s f.a) (reg s f.b) = true ↔ p) :
    scalarC3 i f s 1 (fun a b => truth (r a b))
      = .next ((s.putS s.focus f.d.toNat 1 (if p then 1 else 0)).retire i (fallThrough s i)) := by
  rw [scalarC3_commits h hs, truth_eq_ite hr]

/-! ## Leading zeros -/

theorem bitLen_le_iff (n k : Nat) : bitLen n ≤ k ↔ n < 2 ^ k := by
  by_cases hn : n = 0
  · rw [bitLen, if_pos hn, hn]
    exact iff_of_true (Nat.zero_le k) (Nat.two_pow_pos k)
  · rw [bitLen, if_neg hn, Nat.succ_le_iff, Nat.log2_lt hn]

theorem testBit_of_bitLen_le {n k : Nat} (h : bitLen n ≤ k) : n.testBit k = false :=
  Nat.testBit_lt_two_pow ((bitLen_le_iff n k).mp h)

theorem testBit_bitLen_sub_one {n : Nat} (h : 0 < bitLen n) : n.testBit (bitLen n - 1) = true := by
  have hn : n ≠ 0 := fun h0 => Nat.lt_irrefl 0 (by rwa [bitLen, if_pos h0] at h)
  rw [bitLen, if_neg hn, Nat.add_sub_cancel]
  exact Nat.testBit_log2 hn

theorem zerosAbove_leadZeros (w : Word) : ZerosAbove w (leadZeros w) := by
  have hlen : bitLen w.toNat ≤ 64 := (bitLen_le_iff _ _).mpr w.isLt
  unfold leadZeros
  refine ⟨by omega, fun k hk => ?_, fun hlt => ?_⟩
  · rw [← BitVec.testBit_toNat]
    exact testBit_of_bitLen_le (by omega)
  · rw [← BitVec.testBit_toNat, show 63 - (64 - bitLen w.toNat) = bitLen w.toNat - 1 by omega]
    exact testBit_bitLen_sub_one (by omega)

/-! ## Trailing zeros -/

/-- With f bits left to look at from bit n on, the search stops at the first 1 among them, or behind them all. -/
theorem trailGo_spec (v f n : Nat) :
    n ≤ trailGo v f n ∧ trailGo v f n ≤ n + f ∧ (∀ k, n ≤ k → k < trailGo v f n → v.testBit k = false)
      ∧ (trailGo v f n < n + f → v.testBit (trailGo v f n) = true) := by
  induction f generalizing n with
  | zero => exact ⟨Nat.le_refl n, Nat.le_refl n, fun k hk hlt => absurd hlt (Nat.not_lt.mpr hk), fun h => absurd h (Nat.lt_irrefl n)⟩
  | succ f ih =>
    cases hb : v.testBit n with
    | true =>
      simp only [trailGo, hb, if_true]
      exact ⟨Nat.le_refl n, by omega, fun k hk hlt => by omega, fun _ => trivial⟩
    | false =>
      obtain ⟨hge, hle, hzero, hone⟩ := ih (n + 1)
      simp only [trailGo, hb, Bool.false_eq_true, if_false]
      refine ⟨by omega, by omega, fun k hk hlt => ?_, fun h => hone (by omega)⟩
      rcases Nat.eq_or_lt_of_le hk with rfl | hk
      · exact hb
      · exact hzero k hk hlt

theorem zerosBelow_trailZeros (w : Word) : ZerosBelow w (trailZeros w) := by
  obtain ⟨-, hle, hzero, hone⟩ := trailGo_spec w.toNat 64 0
  simp only [BitVec.testBit_toNat, Nat.zero_add] at hle hzero hone
  exact ⟨hle, fun k => hzero k (Nat.zero_le k), hone⟩

/-! ## The count of ones -/

theorem foldl_count_eq_add_countP {α : Type} (p : α → Bool) (l : List α) (m : Nat) :
    l.foldl (fun n k => if p k then n + 1 else n) m = m + l.countP p := by
  induction l generalizing m with
  | nil => rfl
  | cons k l ih =>
    rw [List.foldl_cons, ih, List.countP_cons]
    split <;> omega

theorem popCount_eq_countP (w : Word) : popCount w = (List.range 64).countP fun k => w.getLsbD k := by
  rw [popCount, foldl_count_eq_add_countP, Nat.zero_add]

/-! ## The statements -/

/-- Settles O2: the model's Boolean test of each CMP is the relation that R399 names, so its truth is the result of the
scalar operation that every CMP is. -/
theorem compare : Obligations.Compare := by
  intro f s h hs
  refine ⟨?eq, ?ne, ?lt, ?ge, ?ltu, ?geu⟩
  case eq => exact scalarC3_truth_commits h hs (· == ·) beq_iff_eq
  case ne => exact scalarC3_truth_commits h hs (· != ·) bne_iff_ne
  case lt => exact scalarC3_truth_commits h hs BitVec.slt BitVec.slt_iff_toInt_lt
  case ge => exact scalarC3_truth_commits h hs (fun a b => !a.slt b) (not_slt_iff_toInt_le _ _)
  case ltu => exact scalarC3_truth_commits h hs BitVec.ult BitVec.ult_iff_lt
  case geu => exact scalarC3_truth_commits h hs (fun a b => !a.ult b) (not_ult_iff_toNat_le _ _)

/-- Settles O3: the counts that the model computes are those of R397, and each is the result of the scalar operation. -/
theorem bitCounts : Obligations.BitCounts := by
  intro f s h hs
  refine ⟨⟨leadZeros (reg s f.a), zerosAbove_leadZeros _, ?clz⟩, ⟨trailZeros (reg s f.a), zerosBelow_trailZeros _, ?ctz⟩, ?popc⟩
  case clz => exact scalarC3_commits h hs 1 fun a _ => BitVec.ofNat 64 (leadZeros a)
  case ctz => exact scalarC3_commits h hs 1 fun a _ => BitVec.ofNat 64 (trailZeros a)
  case popc =>
    rw [← popCount_eq_countP]
    exact scalarC3_commits h hs 1 fun a _ => BitVec.ofNat 64 (popCount a)

end Sys2Proof.Proofs
end

