-- ==== Sys2Proof/Proofs/MinAndMax.lean ====
section
/-! SUPPORT. MIN and MAX, signed and unsigned (R463): the model chooses by a strict comparison of its operands, the statement by one that
is not strict; the two choose alike because operands that read as the same integer are the same word. -/
namespace Sys2Proof.Proofs
open Sys2Proof Sys2Proof.Machine Sys2Proof.Laws

/-! ## The choice at equal operands -/

/-- A strict comparison chooses as one that is not strict, where both choices agree at a tie. -/
theorem ite_strict_eq_ite {lt le : Prop} [Decidable lt] [Decidable le] {x y : Word} (hle : lt → le) (htie : le → ¬ lt → x = y) :
    (if lt then x else y) = if le then x else y := by
  by_cases hlt : lt
  · rw [if_pos hlt, if_pos (hle hlt)]
  · by_cases h : le
    · rw [if_neg hlt, if_pos h, htie h hlt]
    · rw [if_neg hlt, if_neg h]

theorem eq_of_toInt_tie {a b : Word} (hle : a.toInt ≤ b.toInt) (hlt : ¬ a.toInt < b.toInt) : a = b :=
  BitVec.eq_of_toInt_eq (Int.le_antisymm hle (Int.not_lt.mp hlt))

theorem eq_of_toNat_tie {a b : Word} (hle : a.toNat ≤ b.toNat) (hlt : ¬ a.toNat < b.toNat) : a = b :=
  BitVec.eq_of_toNat_eq (Nat.le_antisymm hle (Nat.not_lt.mp hlt))

/-! ## What the choices compute -/

theorem smin_eq_ite_toInt_le (a b : Word) : smin a b = if a.toInt ≤ b.toInt then a else b := by
  simp only [smin, BitVec.slt_iff_toInt_lt]
  exact ite_strict_eq_ite Int.le_of_lt eq_of_toInt_tie

theorem smax_eq_ite_toInt_le (a b : Word) : smax a b = if a.toInt ≤ b.toInt then b else a := by
  simp only [smax, BitVec.slt_iff_toInt_lt]
  exact ite_strict_eq_ite Int.le_of_lt fun hle hlt => (eq_of_toInt_tie hle hlt).symm

theorem umin_eq_ite_toNat_le (a b : Word) : umin a b = if a.toNat ≤ b.toNat then a else b := by
  simp only [umin, BitVec.lt_def]
  exact ite_strict_eq_ite Nat.le_of_lt eq_of_toNat_tie

theorem umax_eq_ite_toNat_le (a b : Word) : umax a b = if a.toNat ≤ b.toNat then b else a := by
  simp only [umax, BitVec.lt_def]
  exact ite_strict_eq_ite Nat.le_of_lt fun hle hlt => (eq_of_toNat_tie hle hlt).symm

/-! ## The statement -/

/-- Settles O1: each of the four is a scalar operation with latency 1, and its choice is the one that R463 names. -/
theorem minMax : Obligations.MinMax := by
  intro f s h hs
  simp only [← smin_eq_ite_toInt_le, ← smax_eq_ite_toInt_le, ← umin_eq_ite_toNat_le, ← umax_eq_ite_toNat_le]
  refine ⟨?min, ?max, ?minU, ?maxU⟩
  case min => exact scalarC3_commits h hs 1 smin
  case max => exact scalarC3_commits h hs 1 smax
  case minU => exact scalarC3_commits h hs 1 umin
  case maxU => exact scalarC3_commits h hs 1 umax

end Sys2Proof.Proofs
end

