-- ==== Sys2Proof/Proofs/Select.lean ====
section
/-! SUPPORT. SEL (R511): the scalar operation whose choice reads its own destination, and its word. -/
namespace Sys2Proof.Proofs
open Sys2Proof Sys2Proof.Machine Sys2Proof.Laws

/-- The model asks whether s[D] is nonzero; R511's other arm is its being 0. -/
theorem ite_bne_zero_eq {α : Type} (w : Word) (x y : α) : (if w != 0 then x else y) = if w = 0 then y else x := by
  simp only [bne_iff_ne, ne_eq, ite_not]

theorem sel_commits {f : C3} {s : State} (h : Unplanted s) (hs : Settled s [f.d, f.a, f.b]) :
    Commits (.sel f) s (s.putS s.focus f.d.toNat 1 (if reg s f.d = 0 then reg s f.b else reg s f.a)) (fallThrough s (.sel f)) := by
  rw [← ite_bne_zero_eq]
  exact scalarC3_commits h hs 1 fun a b => if reg s f.d != 0 then a else b

/-- Every choice of registers is a well-formed SEL, so its one word decodes to it. -/
theorem decode_sel (f : C3) : decode .c [Pack.c3 0x05 7 f] = .ok (.sel f, []) :=
  (RoundTrip.sel f .c [] rfl rfl).1

/-- Settles O4: SEL is a scalar operation whose function is the choice by s[D], s0 reads 0 and takes no result, and the printed
word is the encoding of its registers. -/
theorem select : Obligations.Select := by
  refine ⟨?commits, ?zero, ?word, ?printed⟩
  case commits => exact fun f s h hs => sel_commits h hs
  case zero => exact fun b c v => ⟨sr_zero (here b), putS_zero b c 1 v⟩
  case word => exact decode_sel
  case printed => exact decode_sel ⟨3, 4, 5, 0⟩

end Sys2Proof.Proofs
end

