-- ==== Sys2Proof/Proofs/SystemRegisterModes.lean ====
section
/-! SUPPORT. The lowest modes of SYSR and SYSW (R525): the model's modes have the ranks that the statement lists, and every
write but that of TRAPCTL, which any mode may write, is one shared operation that checks the mode first. -/
namespace Sys2Proof.Proofs
open Sys2Proof Sys2Proof.Machine Sys2Proof.Laws

/-! ## The mode of an access -/

theorem atLeast_eq_true {x : Ctx} {m : Mode} (h : modeRank m ≤ modeRank x.mode) : x.atLeast m = true :=
  decide_eq_true h

theorem atLeast_eq_false {x : Ctx} {m : Mode} (h : modeRank x.mode < modeRank m) : x.atLeast m = false :=
  decide_eq_false (Nat.not_le.mpr h)

theorem modeRank_readMode (n : Nat) : modeRank (readMode n) = readRank n := by
  unfold readMode readRank
  split <;> rfl

/-- An instruction whose meaning is PRIV raises it and commits nothing. -/
theorem finish_priv (i : Instr) (s : State) : finish i s (.trap s (trapOf tPriv)) = .next (s.raise s.focus ((trapOf 0x02).of s i)) :=
  finish_trap i s s _ (by decide)

/-! ## SYSR -/

theorem sysr_raises_priv {f : CI} {s : State} (h : modeRank (here s).mode < readRank f.imm.toNat) :
    Raises (.sysr f) s (trapOf 0x02) := by
  rw [← modeRank_readMode] at h
  show execSysr f s = _
  simp only [execSysr, atLeast_eq_false h, Bool.not_false, if_true, finish_priv]

theorem sysr_commits {f : CI} {s : State} (hu : Unplanted s) (h : readRank f.imm.toNat ≤ modeRank (here s).mode)
    (hs : Settled s [f.d]) :
    Commits (.sysr f) s (s.putS s.focus f.d.toNat 2 (s.sysreg s.focus f.imm.toNat)) (fallThrough s (.sysr f)) := by
  rw [← modeRank_readMode] at h
  show execSysr f s = _
  simp only [execSysr, atLeast_eq_true h, Bool.not_true, Bool.false_eq_true, if_false]
  show finish _ s (s.sHold ([f.d].map BitVec.toNat) _) = _
  rw [sHold_settled hs]
  exact finish_done hu _

/-! ## The shared operation of writing -/

section
variable {i : Instr} {f : CI} {s : State} {m : Mode} {bad : Word → Option Nat} {set : State → Nat → Word → State}

theorem sysWrite_raises_priv (h : modeRank (here s).mode < modeRank m) :
    sysWrite i f s m bad set = .next (s.raise s.focus ((trapOf 0x02).of s i)) := by
  simp only [sysWrite, atLeast_eq_false h, Bool.not_false, if_true, finish_priv]

theorem sysWrite_commits (hu : Unplanted s) (h : modeRank m ≤ modeRank (here s).mode) (hs : Settled s [f.a])
    (hv : bad (reg s f.a) = none) :
    sysWrite i f s m bad set = .next ((set s s.focus (reg s f.a)).retire i (fallThrough s i)) := by
  simp only [sysWrite, atLeast_eq_true h, Bool.not_true, Bool.false_eq_true, if_false, hv]
  show finish _ s (s.sHold ([f.a].map BitVec.toNat) _) = _
  rw [sHold_settled hs]
  exact finish_done hu _

end

/-! ## SYSW by register -/

/-- An instruction that is a write of the shared operation raises PRIV below the mode that it names. -/
theorem raises_priv_of_exec_eq {i : Instr} {f : CI} {s : State} {m : Mode} {bad : Word → Option Nat}
    {set : State → Nat → Word → State} (e : exec i s = sysWrite i f s m bad set) (h : modeRank (here s).mode < modeRank m) :
    Raises i s (trapOf 0x02) :=
  e.trans (sysWrite_raises_priv h)

/-- TDTAB, PTROOT and RWPERM, which have no row of their own, are written in management mode. -/
theorem sysw_management {f : CI} (hf : f.imm ∈ [0x030#10, 0x031#10, 0x022#10]) (s : State) :
    ∃ set, exec (.sysw f) s = sysWrite (.sysw f) f s .management never set := by
  have hn : ∀ n ∈ [0x030#10, 0x031#10, 0x022#10], n.toNat = 0x030 ∨ n.toNat = 0x031 ∨ n.toNat = 0x022 := by decide
  show ∃ set, execSysw f s = _
  rcases hn _ hf with h | h | h
  · exact ⟨_, if_pos h⟩
  · exact ⟨_, by rw [execSysw, if_neg (by omega), if_pos h]⟩
  · exact ⟨_, by rw [execSysw, if_neg (by omega), if_neg (by omega), if_pos h]⟩

theorem sysw_management_raises_priv {f : CI} {s : State} (hf : f.imm ∈ [0x030#10, 0x031#10, 0x022#10])
    (h : modeRank (here s).mode < 2) : Raises (.sysw f) s (trapOf 0x02) := by
  obtain ⟨set, e⟩ := sysw_management hf s
  exact raises_priv_of_exec_eq e h

theorem sysw_ignoredWord {f : CI} (hf : f.imm ∈ ignoredWords) (s : State) :
    exec (.sysw f) s = sysWrite (.sysw f) f s .handler never fun t _ _ => t := by
  have hn : ∀ n ∈ ignoredWords, 0x018 ≤ n.toNat ∧ n.toNat ≤ 0x01F := by decide
  have h := hn _ hf
  show execSysw f s = _
  rw [execSysw, if_neg (by omega), if_neg (by omega), if_neg (by omega), if_pos h]

theorem sysw_readOnly_raises_priv {f : CI} (hf : f.imm ∈ readOnly) (s : State) : Raises (.sysw f) s (trapOf 0x02) := by
  have hn : ∀ n ∈ readOnly, n.toNat < 0x018 ∨ n.toNat = 0x024 := by decide
  have h := hn _ hf
  show execSysw f s = _
  rw [execSysw, if_neg (by omega), if_neg (by omega), if_neg (by omega), if_neg (by omega), finish_priv]

/-- Every row of SYSW raises PRIV below the rank that it lists; below rank 0, that of unit mode, there is no mode. -/
theorem sysRows_raise_priv (f : CI) (s : State) : ∀ row ∈ sysRows ++ otherSysRows,
    f.imm = row.num → modeRank (here s).mode < row.rank → Raises (row.ins f) s (trapOf 0x02) := by
  have handler {i : Instr} {bad set} (e : exec i s = sysWrite i f s .handler bad set) (h : modeRank (here s).mode < 1) :=
    raises_priv_of_exec_eq e h
  have management {i : Instr} {bad set} (e : exec i s = sysWrite i f s .management bad set) (h : modeRank (here s).mode < 2) :=
    raises_priv_of_exec_eq e h
  have rowless {n : BitVec 10} (hn : n ∈ [0x030#10, 0x031#10, 0x022#10]) (hf : f.imm = n) (h : modeRank (here s).mode < 2) :=
    sysw_management_raises_priv (hf ▸ hn) h
  simp only [sysRows, otherSysRows, List.cons_append, List.nil_append, List.forall_mem_cons, Nat.not_lt_zero, false_imp_iff,
    imp_true_iff, true_and]
  refine ⟨?tdtab, ?ptroot, ?rwperm, ?meshshape, ?inject, ?displaced, ?traprec, ?mcstat, ?meshpos, ?bankloss, ?rwlog, ?nil⟩
  case tdtab => exact rowless (by decide)
  case ptroot => exact rowless (by decide)
  case rwperm => exact rowless (by decide)
  case meshshape => exact fun _ => management (show execWriteMeshshape f s = _ from rfl)
  case inject => exact fun _ => handler (show execWriteInject f s = _ from rfl)
  case displaced => exact fun _ => handler (show execWriteDisplaced f s = _ from rfl)
  case traprec => exact fun _ => handler (show execWriteTraprecWord1 f s = _ from rfl)
  case mcstat => exact fun _ => management (show execWriteMcstat f s = _ from rfl)
  case meshpos => exact fun _ => management (show execWriteMeshpos f s = _ from rfl)
  case bankloss => exact fun _ => handler (show execWriteBankloss f s = _ from rfl)
  case rwlog => exact fun _ => handler (show execWriteRwlog f s = _ from rfl)
  case nil => exact List.forall_mem_nil _

/-- Settles O13: SYSR compares the mode with the rank of its register, a SYSW to a row of its own is the shared write with the
row's mode, and of the registers without one TRAPREC's words take the shared write that stores nothing and the read-only ones
answer PRIV alone. -/
theorem systemRegisterModes : Obligations.SystemRegisterModes := by
  intro f s hu
  refine ⟨sysr_raises_priv, sysr_commits hu, ?readOnly, ?ignoredBelow, ?ignored, sysRows_raise_priv f s⟩
  case readOnly => exact fun hf => sysw_readOnly_raises_priv hf s
  case ignoredBelow => exact fun hf => raises_priv_of_exec_eq (sysw_ignoredWord hf s)
  case ignored => exact fun hf h hs => (sysw_ignoredWord hf s).trans (sysWrite_commits hu h hs rfl)

end Sys2Proof.Proofs
end
